-- ==== Sys2Proof/Word.lean ====
section
/-! DEFINITION. The word types of the machine and nothing else. -/

namespace Sys2Proof

/-- A byte of memory. -/
abbrev Byte := BitVec 8

/-- A 64-bit value: an instruction word, a scalar register, an address, a queue entry. -/
abbrev Word := BitVec 64

/-- One vector register, 4,096 bits (R136). -/
abbrev VecReg := BitVec 4096

/-- One mask register or mask-stack entry, 1,024 bits (R136). -/
abbrev MaskReg := BitVec 1024

/-- One cargo register, 4 KiB (R371). -/
abbrev CargoReg := BitVec 32768

end Sys2Proof
end

