-- ==== Sys2Proof/Config.lean ====
section
/-! DEFINITION. What the spec names and does not define, and the free values: constants without a body, so that nothing
can be proved of a value of theirs (notes/assumptions/5.md and 6.md). -/

namespace Sys2Proof.Config

/-- The byte that a read under the wrong key gives: `slot`, `gen` are the reader's key, `pa` the byte's place and
`stored` the plaintext written under another key (R93, R351: "reads as ciphertext"). A free value (log 5, DESIGN CHOICE). -/
opaque cipherByte : (slot gen pa : Nat) → (stored : Byte) → Byte

/-- SHA3-512 of a file's bytes (R91, R388): named by the spec, not defined there. 64 bytes are taken of the answer (log 6, DESIGN CHOICE). -/
opaque sha3_512 : List Byte → List Byte

/-- Whether an ML-DSA-87 signature over a hash verifies under the key of the given KEYID (R91, R92 step 4). -/
opaque mldsaVerify : (keyId : Word) → (hash sig : List Byte) → Bool

/-- Whether a KEYID names a key on the Bureau's trust list (R92 step 4). -/
opaque trusted : Word → Bool

/-- KEYID of the public key whose hash is fused at manufacture, under which the boot stages are verified (R388). -/
opaque bootKey : Word

/-- The digest bank of its die that holds the slot of the block at a PA (R355): the spec does not lay the banks out. -/
opaque digestBank : (pa : Nat) → Nat

/-- The row group of its die's HBM in which a frame of 4 KiB lies (R355): the spec does not lay the row groups out. -/
opaque hbmRow : (frame : Nat) → Nat

/-- The 4,627-byte signature of the identity key over the first 272 bytes of an attestation report (R390). -/
opaque mldsaSign : List Byte → List Byte

/-- KEYID of the public key of a signer that skld is given the key of, and its ML-DSA-87 signature of 4,627 bytes over a hash (R91). -/
opaque signerId : (key : Nat) → Word
opaque signerSign : (key : Nat) → (hash : List Byte) → List Byte

/-- The identity certificate kept in flash (R390, R392 CERT). -/
opaque certificate : List Byte

/-- The hash h of R366 over a peer device number and a page number. -/
opaque portHash : (device page : Nat) → Nat

/-- The number of this device among the 576 of its Guharlink domain (R201, R366). -/
opaque deviceNumber : Nat

/-- The block header of a distant e2m1x source of a copy with a source format, by the VA of the block: the spec does not say
where it stands (R194, R289). A free value (log 49, DESIGN CHOICE). -/
opaque sourceHeader : (va : Nat) → BitVec 16

/-- An operand of a command that a save area does not hold (the values VA of INTERSECT, R302, R346), by the address of the
save area and the entry's number. A free value. -/
opaque unsaved : (area entry : Nat) → BitVec 64

/-- The lane value that a NaN or an infinity enters the panel with: the spec states none, and only NCSQ and a saved block can
show it, since every element of its row or column drains as a NaN (R307, R310). A free value (log 55, DESIGN CHOICE). -/
opaque specialLane : (pattern : Nat) → BitVec 12

/-- Half of a difference of sums S - RSQ - CSQ that is odd, as only a block which NLOAD takes can make it: the spec calls every difference even
(R306, R326). A free value (log 90, DESIGN CHOICE). -/
opaque oddHalf : (dd : BitVec 36) → BitVec 35

end Sys2Proof.Config
end

