-- ==== Sys2Proof/Syntax.lean ====
section
/-! DEFINITION. The syntax: one constructor of `Instr` for each row of spec/opcode_table.json. The first 177 are words of a
code image (R39, R40), with their fields turned into names; the other 91 are the steps that the device's other agents
take, with the operands that say which agent, place or value a step is about. -/

namespace Sys2Proof

/-- The four kinds of engine stream (R40). -/
inductive StreamId where
  | A | X | N | L
  deriving DecidableEq, Repr

/-- A scalar-or-queue operand: values 0 to 31 name s0 to s31, 32 to 47 name q0 to q15 (R11, R35). -/
inductive Opnd where
  | s (n : Fin 32)
  | q (n : Fin 16)
  deriving DecidableEq, Repr

/-- Condition codes of CMP, CMPI, CSET and CSETI (R36). -/
inductive Cond where
  | eq | ne | lt | ge | ltu | geu | gt | le | gtu | leu | tst | ntst
  deriving DecidableEq, Repr

/-- Condition codes of VCMP (R148). -/
inductive VCond where
  | eq | ne | lt | ge | gt | le
  deriving DecidableEq, Repr

/-- Combination codes of SCOMB (R36). -/
inductive Comb where
  | and | or | xor | andn | nand | nor
  deriving DecidableEq, Repr

/-- Element types, TYPE codes 0 to 14 (R37). -/
inductive Ty where
  | int4 | int8 | int16 | int32 | int64 | uint4 | uint8 | uint16 | uint32 | uint64 | bf16 | fp32 | e4m3 | e5m2 | e2m1x
  deriving DecidableEq, Repr

/-- Rounding modes (R38). -/
inductive Rnd where
  | rne | rtz | rdn | sr
  deriving DecidableEq, Repr

/-- Scopes (R36, R225). -/
inductive Scope where
  | core | pair | cluster | die | device | system
  deriving DecidableEq, Repr

/-- Access and element sizes, 1, 2, 4 and 8 bytes (R36 SZ, R285 ESZ and PW). -/
inductive Size where
  | b | h | w | d
  deriving DecidableEq, Repr

/-- AMO operations; min and max come signed and unsigned (R258 OP and U). -/
inductive AmoOp where
  | add | min | max | minu | maxu | and | or | xor | swap
  deriving DecidableEq, Repr

/-- The SC bit of AMO and CAS with its scope: `device` and `system` are the scopes an SC operation takes (R259). -/
inductive ScMode where
  | plain | device | system
  deriving DecidableEq, Repr

/-- VRED operations (R154). -/
inductive RedOp where
  | sum | min | max
  deriving DecidableEq, Repr

/-- MSET modes 0 and 1 read a scalar, 2 the top of the mask stack, 3 a vector register (R162). -/
inductive MsetMode where
  | prefixOf (a : Opnd)
  | pattern (a : Opnd)
  | top
  | vec (va : Fin 64)
  deriving DecidableEq, Repr

/-- CFETCHIF predicates (R285). -/
inductive Pred where
  | nbelow | nabove | strad | nzero
  deriving DecidableEq, Repr

/-- SCADD element types (R285 AT). -/
inductive AddTy where
  | int32 | int64 | fp32
  deriving DecidableEq, Repr

/-- SELECT element types (R285 ST). -/
inductive SelTy where
  | int32 | uint32 | fp32 | int16 | bf16
  deriving DecidableEq, Repr

/-- Which engines ECANCEL names (R285 ENG). -/
inductive EngSel where
  | copy | index | both
  deriving DecidableEq, Repr

/-- The two command engines of a core (R280). -/
inductive Eng where
  | copy | index
  deriving DecidableEq, Repr

/-- Drain modes of NDRN (R317). -/
inductive DrainMode where
  | store | add | auto
  deriving DecidableEq, Repr

/-- The C type of NDRN (R317). -/
inductive CTy where
  | fp32 | int32
  deriving DecidableEq, Repr

/-- The gate field GG: no gate, or one of g0 to g7 (R141). -/
abbrev Gate := Option (Fin 8)

/-- CLS, BAR, RPL and BUF8 of an engine command (R33, R284). -/
structure CTail where
  cls : Fin 16
  bar : Fin 8
  rpl : Bool
  buf8 : BitVec 8
  deriving DecidableEq, Repr

/-- What MEMORY_ACCESS_PERFORM performs: an access of a lane, by its place in State.flight, the next home steps of an
engine's or the panel's work (R226). -/
inductive Perf where
  | lane (k : Nat)
  | engine (e : Eng) (n : Nat)
  /-- the next home step of one command alone: the `k`-th of an engine's accepted commands that are not finished (R281) -/
  | command (e : Eng) (k : Nat)
  | feed (n : Nat)
  | drain (n : Nat)
  | writeback
  /-- the next part of an access of a lane meets an uncorrectable error (R355); its peer or the host refuses it (R230, R260) -/
  | spoiled (k : Nat)
  | refused (k : Nat)
  /-- the same of the next access of an engine, and of the feed or the drain of a panel: `why` is 35, or 33 -/
  | engineFails (e : Eng) (why : Nat)
  | panelFails (drain : Bool) (why : Nat)
  /-- the next slot of a digest registration is computed (R210, R215); the slot of the block at a PA takes an uncorrectable error (R216) -/
  | redo
  | slotError (pa : Nat)
  /-- `n` bytes from a location on hold an uncorrectable error from now on; none of the locations does (R355) -/
  | flaw (loc n : Nat)
  | mend
  /-- an access of a peer device to this device's HBM (R201, R224, R260) -/
  | peerLoad (pa n : Nat)
  | peerStore (pa : Nat) (bytes : List Byte)
  | peerAmo (op : AmoOp) (pa size : Nat) (y : BitVec 64)
  | peerCas (pa size : Nat) (x y : BitVec 64)
  /-- an access of a core of the Bureau to HBM (R2, R201, R224) -/
  | bureauLoad (pa n : Nat)
  | bureauStore (pa : Nat) (bytes : List (BitVec 8))
  | bureauAmo (op : AmoOp) (pa size : Nat) (y : BitVec 64)
  | bureauCas (pa size : Nat) (x y : BitVec 64)
  deriving DecidableEq, Repr

/-- The kinds of resource that count corrected errors, in the numbering of ERRLOG (R355, R392, R364). -/
inductive Resource where
  | bank | row | digest | lane | dieLink
  deriving DecidableEq, Repr

/-- A signed boot image in flash: its bytes, signature and the KEYID of its signer (R388). -/
structure Signed where
  bytes : List (BitVec 8)
  sig : List (BitVec 8)
  keyId : BitVec 64
  deriving DecidableEq, Repr

/-- What the boot of DEVICE_RESET finds: the two stage-1 copies, the operating system, the signed configuration, and the
BOOTCFG bits that the configuration holds (R388, R389). -/
structure Flash where
  stage1 : Signed
  copy : Signed
  os : Signed
  config : Signed
  bootcfg : BitVec 2
  deriving DecidableEq, Repr

/-- Where an error is corrected: the index of the resource, and, where it turns out lasting, the frames that the Bureau takes for the pages of a
row group (R355; log 80, DESIGN CHOICE) and the function that it maps out, by its bit of READY0 or, `true`, of READY1 (R394; log 91, DESIGN
CHOICE). -/
structure ErrorAt where
  index : Nat
  frames : List Nat := []
  gone : Option (Bool × Fin 64) := none
  deriving DecidableEq, Repr

/-- The bytes that a host access of BAR0 names: offset and, for a read, size. A write has the size of its bytes. -/
structure BarSpan where
  off : Nat
  size : Nat
  deriving DecidableEq, Repr

/-- One instruction or one step of another agent: a row of spec/opcode_table.json (log 7, DESIGN CHOICE). -/
inductive Instr where
  -- control (R60, R55, R14, R50 to R54, R57)
  | nop
  | prep (k : Fin 12) (target : BitVec 13)
  | prepr (k : Fin 12) (a : Opnd)
  | br (k : Fin 12) (sense : Bool)
  | brl (k : Fin 12) (sense : Bool)
  | cmp (cc : Cond) (k : Fin 12) (a b : Opnd)
  | cmpi (cc : Cond) (k : Fin 12) (a : Opnd) (imm : BitVec 25)
  | cset (cc : Cond) (d a b : Opnd)
  | cseti (cc : Cond) (d b : Opnd) (imm : BitVec 25)
  | scomb (op : Comb) (k ka kb : Fin 12)
  | spop (k : Fin 12) (q : Fin 16)
  | spush (k : Fin 12) (q : Fin 16)
  | lset (l : Fin 4) (a : Opnd) (stop : BitVec 13)
  | lend (l : Fin 4)
  | trap (imm : BitVec 34)
  -- scalar ALU, register forms (R45 to R47)
  | add (d a b : Opnd)
  | sub (d a b : Opnd)
  | mul (d a b : Opnd)
  | mulh (d a b : Opnd)
  | mulhu (d a b : Opnd)
  | div (d a b : Opnd)
  | divu (d a b : Opnd)
  | rem (d a b : Opnd)
  | remu (d a b : Opnd)
  | and (d a b : Opnd)
  | or (d a b : Opnd)
  | xor (d a b : Opnd)
  | andn (d a b : Opnd)
  | shl (d a b : Opnd)
  | shr (d a b : Opnd)
  | sar (d a b : Opnd)
  | min (d a b : Opnd)
  | minu (d a b : Opnd)
  | max (d a b : Opnd)
  | maxu (d a b : Opnd)
  | clz (d a : Opnd)
  | ctz (d a : Opnd)
  | popc (d a : Opnd)
  | sext (d a : Opnd) (w : Fin 64)
  | zext (d a : Opnd) (w : Fin 64)
  | bfx (d a : Opnd) (w pos : Fin 64)
  | bfi (d a b : Opnd) (w pos : Fin 64)
  | cmov (d a b c : Opnd)
  -- immediate forms (R48, R49)
  | addi (d a : Opnd) (imm : BitVec 34)
  | andi (d a : Opnd) (imm : BitVec 34)
  | ori (d a : Opnd) (imm : BitVec 34)
  | xori (d a : Opnd) (imm : BitVec 34)
  | shli (d a : Opnd) (n : Fin 64)
  | shri (d a : Opnd) (n : Fin 64)
  | sari (d a : Opnd) (n : Fin 64)
  | muli (d a : Opnd) (imm : BitVec 34)
  | ldi (d : Opnd) (imm : BitVec 40)
  | ldhi (d : Fin 32) (imm : BitVec 40)
  -- scalar memory (R58, R261 to R263)
  | ld (sz : Size) (sgn : Bool) (d a : Opnd) (off : BitVec 20) (cls : Fin 16)
  | st (sz : Size) (d a : Opnd) (off : BitVec 20) (cls : Fin 16)
  | scld (sz : Size) (sgn : Bool) (system : Bool) (d a : Opnd) (off : BitVec 20) (cls : Fin 16)
  | scst (sz : Size) (system : Bool) (d a : Opnd) (off : BitVec 20) (cls : Fin 16)
  | amo (op : AmoOp) (wide : Bool) (sc : ScMode) (d a b : Opnd) (cls : Fin 16)
  | cas (wide : Bool) (sc : ScMode) (d a b c : Opnd) (cls : Fin 16)
  -- streams, queues, groups, tasks (R127 to R134, R181)
  | start
  | join
  | exit
  | pusht (q : Fin 16)
  | qtry (k : Fin 12) (q : Fin 16) (d : Fin 32)
  | qflush (d : Opnd) (q : Fin 16)
  | qcnt (d : Opnd) (q : Fin 16)
  | gbar (gs : Fin 4)
  | launch (rpl : Bool) (a b : Opnd)
  | graph (rpl : Bool) (a b : Opnd)
  -- control registers, traps, events, keys (R61, R337, R338, R351, R352, R354)
  | crr (d : Opnd) (creg : BitVec 12)
  | crw (a : Opnd) (creg : BitVec 12)
  | eret
  | brk (imm : BitVec 34)
  | waitev (d a b : Opnd)
  | keykill (d a : Opnd)
  | genbump (d : Opnd)
  -- ordering, digests, maps, buffers, barriers (R264, R218 to R223, R265 to R275)
  | fence (scope : Scope) (d a : Opnd)
  | dget (d a b c : Opnd) (cls : Fin 16)
  | dgetv (g : Gate) (vd : Fin 64) (a b : Opnd) (mc : Fin 8) (cls : Fin 16)
  | dcls (g : Gate) (ty : Ty) (md : Fin 8) (a b c : Opnd) (cls : Fin 16)
  | dredo (d a b : Opnd) (cls : Fin 16)
  | rmap (rw : Bool) (a b c : Opnd) (entry : Fin 16) (cls : Fin 16)
  | runmap (entry : Fin 16)
  | rsync (d : Opnd) (entry : Option (Fin 16))
  | cbset (buf : Fin 8) (a b c : Opnd)
  | cbwait (buf : Fin 8) (d : Opnd)
  | cbrel (buf : Fin 8)
  | abset (bar : Fin 8) (a : Opnd)
  | abwait (bar : Fin 8)
  -- copy engine (R284, R289 to R297)
  | cpy (cb sf : Bool) (d a b c : Opnd) (t : CTail)
  | cpys (cb sf : Bool) (d a : Opnd) (b c : Fin 30) (t : CTail)
  | cpyt (esz : Size) (d a : Opnd) (b : Fin 31) (c : Opnd) (t : CTail)
  | cfill (pw : Size) (d a b : Opnd) (t : CTail)
  | cfetchif (pred : Pred) (cb : Bool) (d a b : Opnd) (t : CTail)
  | kvfetch (cb : Bool) (d a b c : Opnd) (t : CTail)
  | btinv (rpl : Bool) (a b : Opnd)
  | ecancel (eng : EngSel) (d : Opnd)
  -- index engine (R299 to R303)
  | gath (esz : Size) (d a b : Opnd) (c : Fin 31) (t : CTail)
  | scat (esz : Size) (d a b : Opnd) (c : Fin 31) (t : CTail)
  | scadd (ty : AddTy) (d a b : Opnd) (c : Fin 31) (t : CTail)
  | compact (esz : Size) (d a b : Opnd) (c : Fin 30) (t : CTail)
  | intersect (esz : Size) (d : Opnd) (a b : Fin 31) (c : Opnd) (t : CTail)
  | select (ty : SelTy) (ge : Bool) (d a b : Opnd) (c : Fin 31) (t : CTail)
  -- panel (R317 to R326)
  | nlvl (level : Fin 7) (a b c : Opnd)
  | nbase (a b c : Opnd)
  | nfmt (fa fb : Ty) (run : Fin 8) (twin : Bool) (dlvl : Fin 7)
  | ndrn (mode : DrainMode) (ct : CTy) (a : Opnd)
  | ngo (rpl : Bool) (buf8 : BitVec 8) (cls : Fin 16)
  | nwait (d : Opnd)
  | nprog (d : Opnd) (level : Fin 7)
  | ncsq (d a : Opnd)
  | nsave (a : Opnd) (cls : Fin 16)
  | nload (a : Opnd) (cls : Fin 16)
  -- vector unit (R145 to R162)
  | vadd (g : Gate) (ty : Ty) (rnd : Rnd) (sat mk : Bool) (vd va vb : Fin 64)
  | vsub (g : Gate) (ty : Ty) (rnd : Rnd) (sat mk : Bool) (vd va vb : Fin 64)
  | vmul (g : Gate) (ty : Ty) (rnd : Rnd) (sat mk : Bool) (vd va vb : Fin 64)
  | vmulh (g : Gate) (ty : Ty) (mk : Bool) (vd va vb : Fin 64)
  | vfma (g : Gate) (ty : Ty) (rnd : Rnd) (sat mk : Bool) (vd va vb vc : Fin 64)
  | vfms (g : Gate) (ty : Ty) (rnd : Rnd) (sat mk : Bool) (vd va vb vc : Fin 64)
  | vmin (g : Gate) (ty : Ty) (mk : Bool) (vd va vb : Fin 64)
  | vmax (g : Gate) (ty : Ty) (mk : Bool) (vd va vb : Fin 64)
  | vabs (g : Gate) (ty : Ty) (sat mk : Bool) (vd va : Fin 64)
  | vneg (g : Gate) (ty : Ty) (sat mk : Bool) (vd va : Fin 64)
  | vand (g : Gate) (ty : Ty) (mk : Bool) (vd va vb : Fin 64)
  | vor (g : Gate) (ty : Ty) (mk : Bool) (vd va vb : Fin 64)
  | vxor (g : Gate) (ty : Ty) (mk : Bool) (vd va vb : Fin 64)
  | vshl (g : Gate) (ty : Ty) (mk : Bool) (vd va vb : Fin 64)
  | vshr (g : Gate) (ty : Ty) (mk : Bool) (vd va vb : Fin 64)
  | vsar (g : Gate) (ty : Ty) (mk : Bool) (vd va vb : Fin 64)
  | vpopc (g : Gate) (ty : Ty) (mk : Bool) (vd va : Fin 64)
  | vclz (g : Gate) (ty : Ty) (mk : Bool) (vd va : Fin 64)
  | vcmp (g : Gate) (ty : Ty) (cc : VCond) (mk : Bool) (md : Fin 8) (va vb : Fin 64)
  | vsel (g : Gate) (ty : Ty) (mk : Bool) (vd va vb : Fin 64) (mc : Fin 8)
  | vmov (g : Gate) (ty : Ty) (mk : Bool) (vd va : Fin 64)
  | vbcast (g : Gate) (ty : Ty) (mk : Bool) (vd : Fin 64) (a : Opnd)
  | vget (g : Gate) (ty : Ty) (d : Opnd) (va : Fin 64) (b : Opnd)
  | vins (g : Gate) (ty : Ty) (vd : Fin 64) (a b : Opnd)
  | vcvt (g : Gate) (ty dty : Ty) (rnd : Rnd) (sat mk : Bool) (vd va : Fin 64)
  | vwid (g : Gate) (ty dty : Ty) (mk : Bool) (vd va : Fin 64)
  | vnar (g : Gate) (ty dty : Ty) (rnd : Rnd) (sat mk : Bool) (vd va : Fin 64)
  | vscl (g : Gate) (ty : Ty) (rnd : Rnd) (sat mk : Bool) (vd va vb : Fin 64)
  | vexpo (g : Gate) (ty : Ty) (mk : Bool) (vd va : Fin 64)
  | vrcp (g : Gate) (mk : Bool) (vd va : Fin 64)
  | vrsq (g : Gate) (mk : Bool) (vd va : Fin 64)
  | vexp2 (g : Gate) (mk : Bool) (vd va : Fin 64)
  | vlog2 (g : Gate) (mk : Bool) (vd va : Fin 64)
  | vred (g : Gate) (ty : Ty) (op : RedOp) (rnd : Rnd) (sat mk : Bool) (d : Opnd) (va : Fin 64)
  | vpsum (g : Gate) (ty : Ty) (rnd : Rnd) (sat mk : Bool) (vd va : Fin 64)
  | vcomp (g : Gate) (ty : Ty) (vd va : Fin 64) (d : Opnd)
  | vexpd (g : Gate) (ty : Ty) (vd va : Fin 64)
  | vslu (g : Gate) (ty : Ty) (mk : Bool) (vd va : Fin 64) (b : Opnd)
  | vsld (g : Gate) (ty : Ty) (mk : Bool) (vd va : Fin 64) (b : Opnd)
  | vperm (g : Gate) (ty : Ty) (mk : Bool) (vd va vb : Fin 64)
  | vld (g : Gate) (ty : Ty) (mk : Bool) (vd : Fin 64) (a b : Opnd) (cls : Fin 16)
  | vst (g : Gate) (ty : Ty) (mk : Bool) (vd : Fin 64) (a b : Opnd) (cls : Fin 16)
  | vlds (g : Gate) (ty : Ty) (mk : Bool) (vd : Fin 64) (a b : Opnd) (cls : Fin 16)
  | vsts (g : Gate) (ty : Ty) (mk : Bool) (vd : Fin 64) (a b : Opnd) (cls : Fin 16)
  | vldx (g : Gate) (ty : Ty) (mk : Bool) (vd : Fin 64) (a : Opnd) (vb : Fin 64) (cls : Fin 16)
  | vstx (g : Gate) (ty : Ty) (mk : Bool) (vd : Fin 64) (a : Opnd) (vb : Fin 64) (cls : Fin 16)
  | vrot (g : Gate) (abs : Bool) (step : BitVec 5)
  | gset (gates : BitVec 8)
  | gstep (a : Opnd)
  | mpush (g : Gate) (ma : Fin 8)
  | minv (g : Gate)
  | mpop (g : Gate)
  | mset (g : Gate) (md : Fin 8) (mode : MsetMode)
  | mcnt (g : Gate) (ty : Ty) (d : Opnd) (ma : Fin 8)
  | mempt (g : Gate) (ty : Ty) (k : Fin 12)
  -- link stream (R374 to R379)
  | lslot (d a : Fin 32) (imm : BitVec 20)
  | lxmit (c : Fin 16) (b : Fin 32) (port : BitVec 6)
  | lxmitMem (c : Fin 16) (a : Fin 32)
  | lrecv (c : Fin 16) (a b : Fin 32) (port : BitVec 6)
  | lrecvMem (c : Fin 16) (a : Fin 32)
  | lwid (e2m1x : Bool) (d a : Fin 16) (b : Fin 32)
  | ladd (rnd : Rnd) (sat : Bool) (d a b : Fin 16)
  | lqnt (e2m1x : Bool) (rnd : Rnd) (sat : Bool) (d a : Fin 16) (b : Fin 32) (spc : Fin 8)
  | ldone
  -- steps inside the words and streams of a bank
  | srseedWrite (v : Word)
  | bfmtWrite (n : Fin 16) (v : Word)
  | queueEntryFill (q : Fin 16)
  | loadDataReturn (k : Nat)
  | rendezvousRelease
  | gbarPhaseComplete (gs : Fin 4)
  | waitCannotEnd
  | mapFill (entry : Fin 16) (granule : Nat)
  | mapWriteback (entry : Fin 16)
  -- accesses in the lanes, fences, the wheel
  | memoryAccessPerform (p : Perf)
  | storeAck (k : Nat)
  | accessTimeout (k : Nat)
  | fenceStatus
  | scSend (k : Nat)
  | scPerform (k : Nat)
  -- tasks, graphs, the lottery
  | imageLoad (sid : StreamId)
  | iterationStart
  | iterationRetire
  | launchAccept
  | groupTableAcquire (q : Fin 64)
  | lotteryDraw (core : Nat) (second : Bool)
  | taskComplete (seq : Nat)
  | edgeRelease (before after : Nat)
  | graphNodeTask (inst : Nat)
  | graphNodeCond (inst : Nat)
  | graphNodeLoop (inst : Nat)
  | graphNodeEnd (inst : Nat)
  | graphInstanceComplete (inst : Nat)
  | guardedRead (inst : Nat)
  | ringRecord (q : Fin 64)
  -- engines and the panel
  | cmdAccept (e : Eng)
  | cmdReport (e : Eng)
  | engineFault (e : Eng)
  | nestActivate
  | runDrain
  | panelFault
  -- records, answers, pre-emption, keys
  | faultPost
  | answerResume (slot : Nat)
  | answerEnd (slot : Nat)
  | evict (q : Fin 64) (area : Nat)
  | iterationRestore (area : Nat) (core : Nat) (second : Bool)
  | keyRetire
  | generationRaise
  | resumeSwitchTimeout
  -- links
  | cargoSend (port : Fin 64)
  | cargoReceive (port : Fin 64) (arrived : Option (List Byte × Word))
  | portDead (port : Fin 64)
  | fslotAdvance
  | flitCreditReturn (port : Fin 64)
  -- errors, power, readiness, boot
  | correctedError (r : Resource) (die : Fin 4) (index : ErrorAt)
  | errorWindowEnd
  | scrub (r : Resource) (die : Fin 4) (index : Nat) (corrected : Bool)
  | powerStepDown (cluster : Fin 16)
  | thermalTrip
  | thermalResume
  | functionReady (second : Bool) (bit : Fin 64) (slot : Word)
  | deviceReset (flash : Flash)
  -- digests, the host, the Bureau
  | digestRegister (space : Fin 64) (va : Word)
  | digestUnregister (n : Nat)
  | doorbellWrite (q : Fin 64) (size : Nat) (aligned : Bool) (v : BitVec 32)
  | bar0OtherAccess (write : Option (List Byte)) (off : BarSpan)
  | bar2Read (off n : Nat)
  | bar2Write (off : Nat) (bytes : List Byte)
  | mailboxReqseqWrite (v : Word) (request : List Byte)
  | ping
  | attest
  | cert
  | load (slot : BitVec 16) (frames tables : List Nat)
  | unload
  | queue (ringVa : Word)
  | bar2
  | errlog
  | debugRead
  | debugWrite
  | lotseedWrite (v : Word)
  | errthrWrite (v : Word)
  | keyset (v : Word)
  | hotclr (core : Nat)
  | measWrite (k : Fin 24) (v : Word)
  | kill (v : Word)
  | bump (v : Word)
  | qctlWrite (q : Fin 64) (v : Word)
  | ringConfigWrite (q : Fin 64) (cfg : Bool) (v : Word)
  | rootWrite (space : Fin 64) (v : Word)
  | lrun (die : Fin 4) (v : Word)
  | swload (die : Fin 4) (v : Word)
  | controlWindowWrite (off : Nat) (v : Word)
  | waitevDeadline (sid : StreamId)
  | switchTableAnswer (die : Fin 4) (refused : List (Fin 64))
  | clusterStepUp (cluster : Fin 16)
  | droopStretch (cluster : Fin 16)
  deriving DecidableEq, Repr

end Sys2Proof
end

