-- ==== Sys2Proof/Decode.lean ====
section
/-! DEFINITION. The decoder, total on every 64-bit word and every stream, which rejects by name (R24, R41), and after it the
encoder (R25 to R34). Fields are natural numbers here; the instruction holds names. -/

namespace Sys2Proof

/-! ## Why a word is not an instruction -/

/-- The decode cases of R24 and R41; their subcodes are 0 to 4. -/
inductive Ill where
  | unassigned | stream | reserved | type | operand
  deriving DecidableEq, Repr

/-- The subcode of a decode case (R24). -/
def Ill.sub : Ill → Nat
  | .unassigned => 0 | .stream => 1 | .reserved => 2 | .type => 3 | .operand => 4

/-- A decoding step: its value, or the case that refuses the word. -/
abbrev Dec (α : Type) := Except Ill α

/-- Go on only where `p` holds. -/
def need (e : Ill) (p : Bool) : Dec Unit := if p then .ok () else .error e

/-- Go on with the value of `o`, where there is one. -/
def pick {α : Type} (e : Ill) (o : Option α) : Dec α :=
  match o with
  | some x => .ok x
  | none => .error e

/-! ## Queue directions (R119) and stream legality (R40) -/

/-- The queues a stream pops (R119). -/
def canPop : StreamId → Fin 16 → Bool
  | .A, q => q.val == 4 || q.val == 5 || q.val == 7 || q.val == 11 || q.val == 12 || q.val == 13 || q.val == 15
  | .X, q => decide (q.val < 4) || q.val == 6 || q.val == 9
  | .N, q => q.val == 8 || q.val == 10 || q.val == 14
  | .L, _ => false

/-- The queues a stream pushes (R119). -/
def canPush : StreamId → Fin 16 → Bool
  | .A, q => decide (q.val < 4) || q.val == 6 || q.val == 10
  | .X, q => q.val == 4 || q.val == 5 || q.val == 7 || q.val == 8
  | .N, q => q.val == 9 || q.val == 11
  | .L, _ => false

/-- Legality in the four streams: A, X, N, L. -/
def legalIn (a x n l : Bool) : StreamId → Bool
  | .A => a | .X => x | .N => n | .L => l

/-- The stream legality table of R40; none for the opcodes that the map of R39 marks as unassigned. -/
def legality (opc : Nat) : Option (StreamId → Bool) :=
  if opc ≤ 0x0E then some (legalIn true true true true)
  else if opc < 0x10 then none
  else if opc ≤ 0x2F then some (legalIn true true true true)
  else if opc ≤ 0x31 then some (legalIn true true true false)
  else if opc ≤ 0x35 then some (legalIn true true false false)
  else if opc < 0x40 then none
  else if opc ≤ 0x47 then some (legalIn true true true false)
  else if opc ≤ 0x49 then some (legalIn true false false false)
  else if opc < 0x50 then none
  else if opc ≤ 0x51 then some (legalIn true true true true)
  else if opc = 0x53 then some (legalIn true true true true)
  else if opc ≤ 0x54 then some (legalIn true true true false)
  else if opc ≤ 0x56 then some (legalIn true false false false)
  else if opc < 0x60 then none
  else if opc = 0x60 then some (legalIn true true true false)
  else if opc = 0x61 ∨ opc = 0x64 then some (legalIn true true false false)
  else if opc ≤ 0x63 then some (legalIn false true false false)
  else if opc ≤ 0x68 then some (legalIn true false false false)
  else if opc = 0x6B then some (legalIn true true false false)
  else if opc ≤ 0x6C then some (legalIn true true true false)
  else if opc < 0x70 then none
  else if opc ≤ 0x77 then some (legalIn true false false false)
  else if opc < 0x80 then none
  else if opc ≤ 0x85 then some (legalIn true false false false)
  else if opc < 0x90 then none
  else if opc ≤ 0x99 then some (legalIn false false true false)
  else if opc < 0xA0 then none
  else if opc ≤ 0xD6 then some (legalIn false true false false)
  else if opc < 0xE0 then none
  else if opc ≤ 0xE6 then some (legalIn false false false true)
  else none

/-! ## Codes of the named field values (R36 to R38, R148, R154, R258, R285, R317) -/

def Cond.code : Cond → Nat
  | .eq => 0 | .ne => 1 | .lt => 2 | .ge => 3 | .ltu => 4 | .geu => 5 | .gt => 6 | .le => 7 | .gtu => 8 | .leu => 9
  | .tst => 10 | .ntst => 11

def Cond.ofCode (n : Nat) : Option Cond :=
  [Cond.eq, .ne, .lt, .ge, .ltu, .geu, .gt, .le, .gtu, .leu, .tst, .ntst][n]?

def VCond.code : VCond → Nat
  | .eq => 0 | .ne => 1 | .lt => 2 | .ge => 3 | .gt => 6 | .le => 7

def VCond.ofCode : Nat → Option VCond
  | 0 => some .eq | 1 => some .ne | 2 => some .lt | 3 => some .ge | 6 => some .gt | 7 => some .le | _ => none

def Comb.code : Comb → Nat
  | .and => 0 | .or => 1 | .xor => 2 | .andn => 3 | .nand => 4 | .nor => 5

def Comb.ofCode (n : Nat) : Option Comb := [Comb.and, .or, .xor, .andn, .nand, .nor][n]?

def Ty.code : Ty → Nat
  | .int4 => 0 | .int8 => 1 | .int16 => 2 | .int32 => 3 | .int64 => 4
  | .uint4 => 5 | .uint8 => 6 | .uint16 => 7 | .uint32 => 8 | .uint64 => 9
  | .bf16 => 10 | .fp32 => 11 | .e4m3 => 12 | .e5m2 => 13 | .e2m1x => 14

def Ty.ofCode (n : Nat) : Option Ty :=
  [Ty.int4, .int8, .int16, .int32, .int64, .uint4, .uint8, .uint16, .uint32, .uint64, .bf16, .fp32, .e4m3, .e5m2, .e2m1x][n]?

def Rnd.code : Rnd → Nat
  | .rne => 0 | .rtz => 1 | .rdn => 2 | .sr => 3

def Rnd.ofCode (n : Nat) : Option Rnd := [Rnd.rne, .rtz, .rdn, .sr][n]?

def Scope.code : Scope → Nat
  | .core => 0 | .pair => 1 | .cluster => 2 | .die => 3 | .device => 4 | .system => 5

def Scope.ofCode (n : Nat) : Option Scope := [Scope.core, .pair, .cluster, .die, .device, .system][n]?

def Size.code : Size → Nat
  | .b => 0 | .h => 1 | .w => 2 | .d => 3

def Size.ofCode (n : Nat) : Option Size := [Size.b, .h, .w, .d][n]?

/-- OP and U of AMO (R258). -/
def AmoOp.code : AmoOp → Nat × Nat
  | .add => (0, 0) | .min => (1, 0) | .minu => (1, 1) | .max => (2, 0) | .maxu => (2, 1) | .and => (3, 0) | .or => (4, 0)
  | .xor => (5, 0) | .swap => (6, 0)

def AmoOp.ofCode : Nat → Nat → Option AmoOp
  | 0, 0 => some .add | 1, 0 => some .min | 1, 1 => some .minu | 2, 0 => some .max | 2, 1 => some .maxu | 3, 0 => some .and
  | 4, 0 => some .or | 5, 0 => some .xor | 6, 0 => some .swap | _, _ => none

/-- SC and SCOPE of AMO and CAS (R258, R259). -/
def ScMode.code : ScMode → Nat × Nat
  | .plain => (0, 0) | .device => (1, 4) | .system => (1, 5)

def ScMode.ofCode : Nat → Nat → Option ScMode
  | 0, 0 => some .plain | 1, 4 => some .device | 1, 5 => some .system | _, _ => none

def RedOp.code : RedOp → Nat
  | .sum => 0 | .min => 1 | .max => 2

def RedOp.ofCode (n : Nat) : Option RedOp := [RedOp.sum, .min, .max][n]?

def Pred.code : Pred → Nat
  | .nbelow => 0 | .nabove => 1 | .strad => 2 | .nzero => 3

def Pred.ofCode (n : Nat) : Option Pred := [Pred.nbelow, .nabove, .strad, .nzero][n]?

def AddTy.code : AddTy → Nat
  | .int32 => 0 | .int64 => 1 | .fp32 => 2

def AddTy.ofCode (n : Nat) : Option AddTy := [AddTy.int32, .int64, .fp32][n]?

def SelTy.code : SelTy → Nat
  | .int32 => 0 | .uint32 => 1 | .fp32 => 2 | .int16 => 3 | .bf16 => 4

def SelTy.ofCode (n : Nat) : Option SelTy := [SelTy.int32, .uint32, .fp32, .int16, .bf16][n]?

def EngSel.code : EngSel → Nat
  | .copy => 1 | .index => 2 | .both => 3

def EngSel.ofCode : Nat → Option EngSel
  | 1 => some .copy | 2 => some .index | 3 => some .both | _ => none

def DrainMode.code : DrainMode → Nat
  | .store => 0 | .add => 1 | .auto => 2

def DrainMode.ofCode (n : Nat) : Option DrainMode := [DrainMode.store, .add, .auto][n]?

def CTy.code : CTy → Nat
  | .fp32 => 0 | .int32 => 1

def CTy.ofCode (n : Nat) : Option CTy := [CTy.fp32, .int32][n]?

/-- GG (R141): 0 ungated, 8 to 15 gates g0 to g7. -/
def Gate.code : Gate → Nat
  | none => 0
  | some g => 8 + g.val

def Gate.ofCode (n : Nat) : Option Gate :=
  if n = 0 then some none
  else if h : 8 ≤ n ∧ n < 16 then some (some ⟨n - 8, by omega⟩)
  else none

/-- A one-bit field. -/
def bit : Bool → Nat
  | false => 0 | true => 1

/-! ## Types by kind (R37, R137, R145, R150, R307) -/

/-- The width of an element in bits (R137). -/
def Ty.bits : Ty → Nat
  | .int4 | .uint4 | .e2m1x => 4
  | .int8 | .uint8 | .e4m3 | .e5m2 => 8
  | .int16 | .uint16 | .bf16 => 16
  | .int32 | .uint32 | .fp32 => 32
  | .int64 | .uint64 => 64

/-- TYPE set I of R145: the integer types. -/
def Ty.isInt : Ty → Bool
  | .int4 | .int8 | .int16 | .int32 | .int64 | .uint4 | .uint8 | .uint16 | .uint32 | .uint64 => true
  | .bf16 | .fp32 | .e4m3 | .e5m2 | .e2m1x => false

/-- The signed integer types. -/
def Ty.isSigned : Ty → Bool
  | .int4 | .int8 | .int16 | .int32 | .int64 => true
  | .uint4 | .uint8 | .uint16 | .uint32 | .uint64 | .bf16 | .fp32 | .e4m3 | .e5m2 | .e2m1x => false

/-- TYPE set F of R145. -/
def Ty.isF : Ty → Bool
  | .bf16 | .fp32 => true
  | .int4 | .int8 | .int16 | .int32 | .int64 | .uint4 | .uint8 | .uint16 | .uint32 | .uint64 | .e4m3 | .e5m2 | .e2m1x => false

/-- TYPE sets I and F together. -/
def Ty.isIF (t : Ty) : Bool := t.isInt || t.isF

/-- TYPE set W of R145: every type but the 4-bit ones. -/
def Ty.isW (t : Ty) : Bool := t.bits != 4

/-- TYPE set P of R145: the 16-, 32- and 64-bit types. -/
def Ty.isP (t : Ty) : Bool := t.bits == 16 || t.bits == 32 || t.bits == 64

/-- The operand formats of the panel (R307). -/
def Ty.isPanel : Ty → Bool
  | .int4 | .uint4 | .int8 | .uint8 | .bf16 | .e4m3 | .e5m2 | .e2m1x => true
  | .int16 | .int32 | .int64 | .uint16 | .uint32 | .uint64 | .fp32 => false

/-- The formats of twin mode (R309). -/
def Ty.isTwin : Ty → Bool
  | .int4 | .uint4 | .e2m1x => true
  | .int8 | .uint8 | .bf16 | .e4m3 | .e5m2 | .int16 | .int32 | .int64 | .uint16 | .uint32 | .uint64 | .fp32 => false

/-- The pairs of VCVT (R150): two different types of equal width out of one group. -/
def cvtPair (s d : Ty) : Bool :=
  s != d && s.bits == d.bits && s.bits != 4

/-- The factor of a widening pair of R150; none for any other pair. -/
def widFactor : Ty → Ty → Option Nat
  | .int4, .int8 | .int8, .int16 | .int16, .int32 | .int32, .int64 => some 2
  | .uint4, .uint8 | .uint8, .uint16 | .uint16, .uint32 | .uint32, .uint64 => some 2
  | .e4m3, .bf16 | .e5m2, .bf16 | .bf16, .fp32 => some 2
  | .int4, .int16 | .int8, .int32 | .int16, .int64 => some 4
  | .uint4, .uint16 | .uint8, .uint32 | .uint16, .uint64 => some 4
  | .e4m3, .fp32 | .e5m2, .fp32 => some 4
  | _, _ => none

/-- RND of an arithmetic instruction whose RND column reads "r" (R145): free on F types, 0 on integer types. -/
def rndFits (t : Ty) (r : Rnd) : Bool := t.isF || r == .rne

/-- Formats whose encoding takes stochastic rounding in a conversion (R145 "r, sr"). -/
def srFits (d : Ty) (r : Rnd) : Bool := r != .sr || d == .e4m3 || d == .e5m2

/-! ## The formats (R27 to R34) -/

structure FR where
  d : Nat
  a : Nat
  b : Nat
  c : Nat
  cls : Nat
  fn : Nat

structure FI where
  d : Nat
  a : Nat
  imm : Nat

structure FL where
  d : Nat
  imm : Nat

structure FM where
  d : Nat
  a : Nat
  off : Nat
  cls : Nat
  sz : Nat
  sgn : Nat
  sc : Nat
  scope : Nat
  res : Nat

structure FV where
  vd : Nat
  va : Nat
  vb : Nat
  vc : Nat
  ty : Nat
  rnd : Nat
  sat : Nat
  msk : Nat
  gg : Nat
  fn : Nat

structure FS where
  k : Nat
  sense : Nat
  cc : Nat
  a : Nat
  b : Nat
  imm : Nat

structure FC where
  d : Nat
  a : Nat
  b : Nat
  c : Nat
  cls : Nat
  bar : Nat
  rpl : Nat
  res : Nat
  buf8 : Nat
  fn : Nat

structure FK where
  d : Nat
  a : Nat
  b : Nat
  ty : Nat
  rnd : Nat
  sat : Nat
  imm : Nat

/-- R format (R27). -/
def unpackR (w : Nat) : FR :=
  { d := w / 2 ^ 40 % 64, a := w / 2 ^ 34 % 64, b := w / 2 ^ 28 % 64, c := w / 2 ^ 22 % 64, cls := w / 2 ^ 18 % 16
    fn := w % 2 ^ 18 }

def packR (f : FR) : Nat :=
  f.d * 2 ^ 40 + f.a * 2 ^ 34 + f.b * 2 ^ 28 + f.c * 2 ^ 22 + f.cls * 2 ^ 18 + f.fn

/-- I format (R28). -/
def unpackI (w : Nat) : FI := { d := w / 2 ^ 40 % 64, a := w / 2 ^ 34 % 64, imm := w % 2 ^ 34 }

def packI (f : FI) : Nat := f.d * 2 ^ 40 + f.a * 2 ^ 34 + f.imm

/-- L format (R29). -/
def unpackL (w : Nat) : FL := { d := w / 2 ^ 40 % 64, imm := w % 2 ^ 40 }

def packL (f : FL) : Nat := f.d * 2 ^ 40 + f.imm

/-- M format (R30). -/
def unpackM (w : Nat) : FM :=
  { d := w / 2 ^ 40 % 64, a := w / 2 ^ 34 % 64, off := w / 2 ^ 14 % 2 ^ 20, cls := w / 2 ^ 10 % 16, sz := w / 2 ^ 8 % 4
    sgn := w / 2 ^ 7 % 2, sc := w / 2 ^ 6 % 2, scope := w / 2 ^ 3 % 8, res := w % 8 }

def packM (f : FM) : Nat :=
  f.d * 2 ^ 40 + f.a * 2 ^ 34 + f.off * 2 ^ 14 + f.cls * 2 ^ 10 + f.sz * 2 ^ 8 + f.sgn * 2 ^ 7 + f.sc * 2 ^ 6
    + f.scope * 2 ^ 3 + f.res

/-- V format (R31), with GG of R141 cut out of FN. -/
def unpackV (w : Nat) : FV :=
  { vd := w / 2 ^ 40 % 64, va := w / 2 ^ 34 % 64, vb := w / 2 ^ 28 % 64, vc := w / 2 ^ 22 % 64, ty := w / 2 ^ 17 % 32
    rnd := w / 2 ^ 15 % 4, sat := w / 2 ^ 14 % 2, msk := w / 2 ^ 13 % 2, gg := w / 2 ^ 9 % 16, fn := w % 2 ^ 9 }

def packV (f : FV) : Nat :=
  f.vd * 2 ^ 40 + f.va * 2 ^ 34 + f.vb * 2 ^ 28 + f.vc * 2 ^ 22 + f.ty * 2 ^ 17 + f.rnd * 2 ^ 15 + f.sat * 2 ^ 14
    + f.msk * 2 ^ 13 + f.gg * 2 ^ 9 + f.fn

/-- S format (R32). -/
def unpackS (w : Nat) : FS :=
  { k := w / 2 ^ 42 % 16, sense := w / 2 ^ 41 % 2, cc := w / 2 ^ 37 % 16, a := w / 2 ^ 31 % 64, b := w / 2 ^ 25 % 64
    imm := w % 2 ^ 25 }

def packS (f : FS) : Nat :=
  f.k * 2 ^ 42 + f.sense * 2 ^ 41 + f.cc * 2 ^ 37 + f.a * 2 ^ 31 + f.b * 2 ^ 25 + f.imm

/-- C format (R33). -/
def unpackC (w : Nat) : FC :=
  { d := w / 2 ^ 40 % 64, a := w / 2 ^ 34 % 64, b := w / 2 ^ 28 % 64, c := w / 2 ^ 22 % 64, cls := w / 2 ^ 18 % 16
    bar := w / 2 ^ 15 % 8, rpl := w / 2 ^ 14 % 2, res := w / 2 ^ 13 % 2, buf8 := w / 2 ^ 5 % 256, fn := w % 32 }

def packC (f : FC) : Nat :=
  f.d * 2 ^ 40 + f.a * 2 ^ 34 + f.b * 2 ^ 28 + f.c * 2 ^ 22 + f.cls * 2 ^ 18 + f.bar * 2 ^ 15 + f.rpl * 2 ^ 14
    + f.res * 2 ^ 13 + f.buf8 * 2 ^ 5 + f.fn

/-- K format (R34). -/
def unpackK (w : Nat) : FK :=
  { d := w / 2 ^ 40 % 64, a := w / 2 ^ 34 % 64, b := w / 2 ^ 28 % 64, ty := w / 2 ^ 23 % 32, rnd := w / 2 ^ 21 % 4
    sat := w / 2 ^ 20 % 2, imm := w % 2 ^ 20 }

def packK (f : FK) : Nat :=
  f.d * 2 ^ 40 + f.a * 2 ^ 34 + f.b * 2 ^ 28 + f.ty * 2 ^ 23 + f.rnd * 2 ^ 21 + f.sat * 2 ^ 20 + f.imm

/-! ## Operand fields (R35, R140, R284, R371) -/

/-- The operand that the field value of a scalar or a queue names; `ok` says which queues (R11). -/
def opnd (ok : Fin 16 → Bool) (x : Nat) : Dec Opnd :=
  if h : x < 32 then .ok (.s ⟨x, h⟩)
  else if h : x < 48 then
    (if ok ⟨x - 32, by omega⟩ then .ok (.q ⟨x - 32, by omega⟩) else .error .operand)
  else .error .operand

/-- A scalar or queue source. -/
def src (σ : StreamId) (x : Nat) : Dec Opnd := opnd (canPop σ) x

/-- A scalar or queue destination. -/
def dst (σ : StreamId) (x : Nat) : Dec Opnd := opnd (canPush σ) x

/-- A register of a kind with `n` members. -/
def reg (n x : Nat) : Dec (Fin n) := if h : x < n then .ok ⟨x, h⟩ else .error .operand

/-- A queue field, which names no scalar (R53, R129 to R131). -/
def queueField (ok : Fin 16 → Bool) (x : Nat) : Dec (Fin 16) :=
  if h : 32 ≤ x ∧ x < 48 then
    (if ok ⟨x - 32, by omega⟩ then .ok ⟨x - 32, by omega⟩ else .error .operand)
  else .error .operand

/-- A number below `n` in a field whose range holds it. -/
def num (n x : Nat) : Dec (Fin n) := if h : x < n then .ok ⟨x, h⟩ else .error .reserved

/-- The field value of an operand (R35). -/
def Opnd.code : Opnd → Nat
  | .s n => n.val
  | .q n => 32 + n.val

/-! ## The decoder, one function for each row of the map of R39 -/

section
variable (σ : StreamId)

def decAlu3 (f : FR) (mk : Opnd → Opnd → Opnd → Instr) : Dec Instr := do
  need .reserved (f.c == 0 && f.cls == 0 && f.fn == 0)
  let d ← dst σ f.d
  let a ← src σ f.a
  let b ← src σ f.b
  .ok (mk d a b)

/-- The paired opcodes, by U (R39). -/
def decAlu3U (f : FR) (mk mkU : Opnd → Opnd → Opnd → Instr) : Dec Instr := do
  need .reserved (f.c == 0 && f.cls == 0 && (f.fn == 0 || f.fn == 2 ^ 17))
  let d ← dst σ f.d
  let a ← src σ f.a
  let b ← src σ f.b
  .ok (if f.fn = 0 then mk d a b else mkU d a b)

def decAlu2 (f : FR) (mk : Opnd → Opnd → Instr) : Dec Instr := do
  need .reserved (f.b == 0 && f.c == 0 && f.cls == 0 && f.fn == 0)
  let d ← dst σ f.d
  let a ← src σ f.a
  .ok (mk d a)

def decImm (f : FI) (mk : Opnd → Opnd → BitVec 34 → Instr) : Dec Instr := do
  let d ← dst σ f.d
  let a ← src σ f.a
  .ok (mk d a (BitVec.ofNat 34 f.imm))

def decShift (f : FI) (mk : Opnd → Opnd → Fin 64 → Instr) : Dec Instr := do
  let n ← num 64 f.imm
  let d ← dst σ f.d
  let a ← src σ f.a
  .ok (mk d a n)

/-- A word with every operand field reserved. -/
def decBare (w : Nat) (i : Instr) : Dec Instr := do
  need .reserved (w == 0)
  .ok i

/-- Row 0: NOP, steer, condition and loop words, TRAP. -/
def dec0 (lo w : Nat) : Dec Instr :=
  let f := unpackS w
  match lo with
  | 0x0 => decBare w .nop
  | 0x1 => do
    need .reserved (f.sense == 0 && f.cc == 0 && f.a == 0 && f.b == 0 && decide (f.imm < 2 ^ 13))
    let k ← reg 12 f.k
    .ok (.prep k (BitVec.ofNat 13 f.imm))
  | 0x2 => do
    need .reserved (f.sense == 0 && f.cc == 0 && f.b == 0 && f.imm == 0)
    let k ← reg 12 f.k
    let a ← src σ f.a
    .ok (.prepr k a)
  | 0x3 => do
    need .reserved (f.cc == 0 && f.a == 0 && f.b == 0 && f.imm == 0)
    let k ← reg 12 f.k
    .ok (.br k (f.sense == 1))
  | 0x4 => do
    need .reserved (f.cc == 0 && f.a == 0 && f.b == 0 && f.imm == 0)
    let k ← reg 12 f.k
    .ok (.brl k (f.sense == 1))
  | 0x5 => do
    need .reserved (f.sense == 0 && f.imm == 0)
    let cc ← pick .reserved (Cond.ofCode f.cc)
    let k ← reg 12 f.k
    let a ← src σ f.a
    let b ← src σ f.b
    .ok (.cmp cc k a b)
  | 0x6 => do
    need .reserved (f.sense == 0 && f.b == 0)
    let cc ← pick .reserved (Cond.ofCode f.cc)
    let k ← reg 12 f.k
    let a ← src σ f.a
    .ok (.cmpi cc k a (BitVec.ofNat 25 f.imm))
  | 0x7 => do
    let f := unpackR w
    need .reserved (f.c == 0 && f.cls == 0 && decide (f.fn < 16))
    let cc ← pick .reserved (Cond.ofCode f.fn)
    let d ← dst σ f.d
    let a ← src σ f.a
    let b ← src σ f.b
    .ok (.cset cc d a b)
  | 0x8 => do
    need .reserved (f.k == 0 && f.sense == 0)
    let cc ← pick .reserved (Cond.ofCode f.cc)
    let d ← dst σ f.a
    let b ← src σ f.b
    .ok (.cseti cc d b (BitVec.ofNat 25 f.imm))
  | 0x9 => do
    need .reserved (f.sense == 0 && f.a == 0 && f.b == 0 && f.imm % 2 ^ 17 == 0)
    let op ← pick .reserved (Comb.ofCode f.cc)
    let k ← reg 12 f.k
    let ka ← reg 12 (f.imm / 2 ^ 21)
    let kb ← reg 12 (f.imm / 2 ^ 17 % 16)
    .ok (.scomb op k ka kb)
  | 0xA => do
    need .reserved (f.sense == 0 && f.cc == 0 && f.b == 0 && f.imm == 0)
    let k ← reg 12 f.k
    let q ← queueField (canPop σ) f.a
    .ok (.spop k q)
  | 0xB => do
    need .reserved (f.sense == 0 && f.cc == 0 && f.b == 0 && f.imm == 0)
    let k ← reg 12 f.k
    let q ← queueField (canPush σ) f.a
    .ok (.spush k q)
  | 0xC => do
    need .reserved (f.sense == 0 && f.cc == 0 && f.b == 0 && decide (f.imm < 2 ^ 13))
    let l ← reg 4 f.k
    let a ← src σ f.a
    .ok (.lset l a (BitVec.ofNat 13 f.imm))
  | 0xD => do
    need .reserved (f.sense == 0 && f.cc == 0 && f.a == 0 && f.b == 0 && f.imm == 0)
    let l ← reg 4 f.k
    .ok (.lend l)
  | 0xE => do
    let f := unpackI w
    need .reserved (f.d == 0 && f.a == 0)
    .ok (.trap (BitVec.ofNat 34 f.imm))
  | _ => .error .unassigned

/-- Row 1: the scalar ALU (R45). -/
def dec1 (lo w : Nat) : Dec Instr :=
  let f := unpackR w
  match lo with
  | 0x0 => decAlu3 σ f .add
  | 0x1 => decAlu3 σ f .sub
  | 0x2 => decAlu3 σ f .mul
  | 0x3 => decAlu3U σ f .mulh .mulhu
  | 0x4 => decAlu3U σ f .div .divu
  | 0x5 => decAlu3U σ f .rem .remu
  | 0x6 => decAlu3 σ f .and
  | 0x7 => decAlu3 σ f .or
  | 0x8 => decAlu3 σ f .xor
  | 0x9 => decAlu3 σ f .andn
  | 0xA => decAlu3 σ f .shl
  | 0xB => decAlu3 σ f .shr
  | 0xC => decAlu3 σ f .sar
  | 0xD => decAlu3U σ f .min .minu
  | 0xE => decAlu3U σ f .max .maxu
  | 0xF => decAlu2 σ f .clz
  | _ => .error .unassigned

/-- Row 2: the rest of the scalar ALU (R45, R47 to R49). -/
def dec2 (lo w : Nat) : Dec Instr :=
  let f := unpackR w
  let g := unpackI w
  let h := unpackL w
  match lo with
  | 0x0 => decAlu2 σ f .ctz
  | 0x1 => decAlu2 σ f .popc
  | 0x2 => do
    need .reserved (f.b == 0 && f.c == 0 && f.cls == 0 && decide (f.fn % 2 ^ 17 < 64))
    let n ← num 64 (f.fn % 2 ^ 17)
    let d ← dst σ f.d
    let a ← src σ f.a
    .ok (if f.fn / 2 ^ 17 = 0 then .sext d a n else .zext d a n)
  | 0x3 => do
    need .reserved (f.b == 0 && f.c == 0 && f.cls == 0 && decide (f.fn < 2 ^ 12))
    let n ← num 64 (f.fn / 64)
    let p ← num 64 (f.fn % 64)
    let d ← dst σ f.d
    let a ← src σ f.a
    .ok (.bfx d a n p)
  | 0x4 => do
    need .reserved (f.c == 0 && f.cls == 0 && decide (f.fn < 2 ^ 12))
    let n ← num 64 (f.fn / 64)
    let p ← num 64 (f.fn % 64)
    let d ← dst σ f.d
    let a ← src σ f.a
    let b ← src σ f.b
    .ok (.bfi d a b n p)
  | 0x5 => do
    need .reserved (f.cls == 0 && f.fn == 0)
    let d ← dst σ f.d
    let a ← src σ f.a
    let b ← src σ f.b
    let c ← src σ f.c
    .ok (.cmov d a b c)
  | 0x6 => decImm σ g .addi
  | 0x7 => decImm σ g .andi
  | 0x8 => decImm σ g .ori
  | 0x9 => decImm σ g .xori
  | 0xA => decShift σ g .shli
  | 0xB => decShift σ g .shri
  | 0xC => decShift σ g .sari
  | 0xD => decImm σ g .muli
  | 0xE => do
    let d ← dst σ h.d
    .ok (.ldi d (BitVec.ofNat 40 h.imm))
  | 0xF => do
    let d ← reg 32 h.d
    .ok (.ldhi d (BitVec.ofNat 40 h.imm))
  | _ => .error .unassigned

/-- Row 3: scalar memory (R58, R258). -/
def dec3 (lo w : Nat) : Dec Instr :=
  let f := unpackM w
  let r := unpackR w
  match lo with
  | 0x0 => do
    need .reserved (f.sc == 0 && f.scope == 0 && f.res == 0)
    let sz ← pick .reserved (Size.ofCode f.sz)
    let cls ← num 16 f.cls
    let d ← dst σ f.d
    let a ← src σ f.a
    .ok (.ld sz (f.sgn == 1) d a (BitVec.ofNat 20 f.off) cls)
  | 0x1 => do
    need .reserved (f.sgn == 0 && f.sc == 0 && f.scope == 0 && f.res == 0)
    let sz ← pick .reserved (Size.ofCode f.sz)
    let cls ← num 16 f.cls
    let d ← src σ f.d
    let a ← src σ f.a
    .ok (.st sz d a (BitVec.ofNat 20 f.off) cls)
  | 0x2 => do
    need .reserved (f.sc == 1 && (f.scope == 4 || f.scope == 5) && f.res == 0)
    let sz ← pick .reserved (Size.ofCode f.sz)
    let cls ← num 16 f.cls
    let d ← dst σ f.d
    let a ← src σ f.a
    .ok (.scld sz (f.sgn == 1) (f.scope == 5) d a (BitVec.ofNat 20 f.off) cls)
  | 0x3 => do
    need .reserved (f.sgn == 0 && f.sc == 1 && (f.scope == 4 || f.scope == 5) && f.res == 0)
    let sz ← pick .reserved (Size.ofCode f.sz)
    let cls ← num 16 f.cls
    let d ← src σ f.d
    let a ← src σ f.a
    .ok (.scst sz (f.scope == 5) d a (BitVec.ofNat 20 f.off) cls)
  | 0x4 => do
    need .reserved (r.c == 0 && decide (r.fn < 2 ^ 9))
    let op ← pick .reserved (AmoOp.ofCode (r.fn % 8) (r.fn / 8 % 2))
    let sc ← pick .reserved (ScMode.ofCode (r.fn / 32 % 2) (r.fn / 64))
    let cls ← num 16 r.cls
    let d ← dst σ r.d
    let a ← src σ r.a
    let b ← src σ r.b
    .ok (.amo op (r.fn / 16 % 2 == 1) sc d a b cls)
  | 0x5 => do
    need .reserved (decide (r.fn < 2 ^ 9) && r.fn % 16 == 0)
    let sc ← pick .reserved (ScMode.ofCode (r.fn / 32 % 2) (r.fn / 64))
    let cls ← num 16 r.cls
    let d ← dst σ r.d
    let a ← src σ r.a
    let b ← src σ r.b
    let c ← src σ r.c
    .ok (.cas (r.fn / 16 % 2 == 1) sc d a b c cls)
  | _ => .error .unassigned

/-- Row 4: streams, queues, groups, launches (R127 to R134, R181). -/
def dec4 (lo w : Nat) : Dec Instr :=
  let f := unpackR w
  let s := unpackS w
  let c := unpackC w
  match lo with
  | 0x0 => decBare w .start
  | 0x1 => decBare w .join
  | 0x2 => decBare w .exit
  | 0x3 => do
    need .reserved (f.a == 0 && f.b == 0 && f.c == 0 && f.cls == 0 && f.fn == 0)
    let q ← queueField (canPush σ) f.d
    .ok (.pusht q)
  | 0x4 => do
    need .reserved (s.sense == 0 && s.cc == 0 && s.imm == 0)
    let k ← reg 12 s.k
    let q ← queueField (canPop σ) s.a
    let d ← reg 32 s.b
    .ok (.qtry k q d)
  | 0x5 => do
    need .reserved (f.b == 0 && f.c == 0 && f.cls == 0 && f.fn == 0)
    let d ← dst σ f.d
    let q ← queueField (canPop σ) f.a
    .ok (.qflush d q)
  | 0x6 => do
    need .reserved (f.b == 0 && f.c == 0 && f.cls == 0 && f.fn == 0)
    let d ← dst σ f.d
    let q ← queueField (fun q => canPop σ q || canPush σ q) f.a
    .ok (.qcnt d q)
  | 0x7 => do
    need .reserved (f.d == 0 && f.a == 0 && f.b == 0 && f.c == 0 && f.cls == 0 && decide (f.fn < 4))
    let gs ← num 4 f.fn
    .ok (.gbar gs)
  | 0x8 => do
    need .reserved (c.d == 0 && c.c == 0 && c.cls == 0 && c.bar == 0 && c.res == 0 && c.buf8 == 0 && c.fn == 0)
    let a ← src σ c.a
    let b ← src σ c.b
    .ok (.launch (c.rpl == 1) a b)
  | 0x9 => do
    need .reserved (c.d == 0 && c.c == 0 && c.cls == 0 && c.bar == 0 && c.res == 0 && c.buf8 == 0 && c.fn == 0)
    let a ← src σ c.a
    let b ← src σ c.b
    .ok (.graph (c.rpl == 1) a b)
  | _ => .error .unassigned

/-- Row 5: control registers, ERET, BRK, WAITEV, keys (R61, R337, R338, R351, R352, R354). -/
def dec5 (lo w : Nat) : Dec Instr :=
  let f := unpackI w
  let r := unpackR w
  match lo with
  | 0x0 => do
    need .reserved (f.a == 0 && decide (f.imm < 2 ^ 12))
    let d ← dst σ f.d
    .ok (.crr d (BitVec.ofNat 12 f.imm))
  | 0x1 => do
    need .reserved (f.d == 0 && decide (f.imm < 2 ^ 12))
    let a ← src σ f.a
    .ok (.crw a (BitVec.ofNat 12 f.imm))
  | 0x2 => decBare w .eret
  | 0x3 => do
    need .reserved (f.d == 0 && f.a == 0)
    .ok (.brk (BitVec.ofNat 34 f.imm))
  | 0x4 => do
    need .reserved (r.c == 0 && r.cls == 0 && r.fn == 0)
    let d ← dst σ r.d
    let a ← src σ r.a
    let b ← src σ r.b
    .ok (.waitev d a b)
  | 0x5 => decAlu2 σ r .keykill
  | 0x6 => do
    need .reserved (r.a == 0 && r.b == 0 && r.c == 0 && r.cls == 0 && r.fn == 0)
    let d ← dst σ r.d
    .ok (.genbump d)
  | _ => .error .unassigned

/-- Row 6: FENCE, digests, region maps, circular buffers, async barriers (R218 to R223, R258). -/
def dec6 (lo w : Nat) : Dec Instr :=
  let f := unpackR w
  let v := unpackV w
  match lo with
  | 0x0 => do
    need .reserved (f.b == 0 && f.c == 0 && f.cls == 0 && decide (f.fn < 8))
    let sc ← pick .reserved (Scope.ofCode f.fn)
    let d ← dst σ f.d
    let a ← src σ f.a
    .ok (.fence sc d a)
  | 0x1 => do
    need .reserved (f.fn == 0)
    let cls ← num 16 f.cls
    let d ← dst σ f.d
    let a ← src σ f.a
    let b ← dst σ f.b
    let c ← dst σ f.c
    .ok (.dget d a b c cls)
  | 0x2 => do
    need .reserved (v.ty == 0 && v.rnd == 0 && v.sat == 0 && v.msk == 0 && decide (v.fn < 16))
    let g ← pick .reserved (Gate.ofCode v.gg)
    let cls ← num 16 v.fn
    let vd ← reg 64 v.vd
    let a ← src σ v.va
    let b ← src σ v.vb
    let mc ← reg 8 v.vc
    .ok (.dgetv g vd a b mc cls)
  | 0x3 => do
    need .reserved (v.rnd == 0 && v.sat == 0 && v.msk == 0 && decide (v.fn < 16))
    let g ← pick .reserved (Gate.ofCode v.gg)
    let cls ← num 16 v.fn
    let t ← pick .type (Ty.ofCode v.ty)
    need .type (t != .e2m1x)
    let md ← reg 8 v.vd
    need .operand (md.val % 2 == 0)
    let a ← src σ v.va
    let b ← src σ v.vb
    let c ← src σ v.vc
    .ok (.dcls g t md a b c cls)
  | 0x4 => do
    need .reserved (f.c == 0 && f.fn == 0)
    let cls ← num 16 f.cls
    let d ← dst σ f.d
    let a ← src σ f.a
    let b ← src σ f.b
    .ok (.dredo d a b cls)
  | 0x5 => do
    need .reserved (f.d == 0 && decide (f.fn < 32))
    let e ← num 16 (f.fn % 16)
    let cls ← num 16 f.cls
    let a ← src σ f.a
    let b ← src σ f.b
    let c ← src σ f.c
    .ok (.rmap (f.fn / 16 == 1) a b c e cls)
  | 0x6 => do
    need .reserved (f.d == 0 && f.a == 0 && f.b == 0 && f.c == 0 && f.cls == 0 && decide (f.fn < 16))
    let e ← num 16 f.fn
    .ok (.runmap e)
  | 0x7 => do
    need .reserved (f.a == 0 && f.b == 0 && f.c == 0 && f.cls == 0 && decide (f.fn ≤ 16))
    let e ← num 16 (f.fn % 16)
    let d ← dst σ f.d
    .ok (.rsync d (if f.fn = 16 then none else some e))
  | 0x8 => do
    need .reserved (f.d == 0 && f.cls == 0 && decide (f.fn < 8))
    let n ← num 8 f.fn
    let a ← src σ f.a
    let b ← src σ f.b
    let c ← src σ f.c
    .ok (.cbset n a b c)
  | 0x9 => do
    need .reserved (f.a == 0 && f.b == 0 && f.c == 0 && f.cls == 0 && decide (f.fn < 8))
    let n ← num 8 f.fn
    let d ← dst σ f.d
    .ok (.cbwait n d)
  | 0xA => do
    need .reserved (f.d == 0 && f.a == 0 && f.b == 0 && f.c == 0 && f.cls == 0 && decide (f.fn < 8))
    let n ← num 8 f.fn
    .ok (.cbrel n)
  | 0xB => do
    need .reserved (f.d == 0 && f.b == 0 && f.c == 0 && f.cls == 0 && decide (f.fn < 8))
    let n ← num 8 f.fn
    let a ← src σ f.a
    .ok (.abset n a)
  | 0xC => do
    need .reserved (f.d == 0 && f.a == 0 && f.b == 0 && f.c == 0 && f.cls == 0 && decide (f.fn < 8))
    let n ← num 8 f.fn
    .ok (.abwait n)
  | _ => .error .unassigned

/-- CLS, BAR, RPL and BUF8 of an engine command. -/
def decTail (f : FC) : Dec CTail := do
  need .reserved (f.res == 0)
  let cls ← num 16 f.cls
  let bar ← num 8 f.bar
  .ok { cls := cls, bar := bar, rpl := f.rpl == 1, buf8 := BitVec.ofNat 8 f.buf8 }

/-- Row 7: copy-engine commands (R284, R285). -/
def dec7 (lo w : Nat) : Dec Instr :=
  let f := unpackC w
  match lo with
  | 0x0 => do
    need .reserved (decide (f.fn < 4) && (f.fn / 2 == 1 || f.c == 0))
    let t ← decTail f
    let d ← src σ f.d
    let a ← src σ f.a
    let b ← src σ f.b
    let c ← src σ f.c
    .ok (.cpy (f.fn % 2 == 1) (f.fn / 2 == 1) d a b c t)
  | 0x1 => do
    need .reserved (decide (f.fn < 4))
    let t ← decTail f
    let d ← src σ f.d
    let a ← src σ f.a
    let b ← reg 30 f.b
    let c ← reg 30 f.c
    .ok (.cpys (f.fn % 2 == 1) (f.fn / 2 == 1) d a b c t)
  | 0x2 => do
    need .reserved (decide (f.fn < 4))
    let e ← pick .reserved (Size.ofCode f.fn)
    let t ← decTail f
    let d ← src σ f.d
    let a ← src σ f.a
    let b ← reg 31 f.b
    let c ← src σ f.c
    .ok (.cpyt e d a b c t)
  | 0x3 => do
    need .reserved (f.c == 0 && decide (f.fn < 4))
    let e ← pick .reserved (Size.ofCode f.fn)
    let t ← decTail f
    let d ← src σ f.d
    let a ← src σ f.a
    let b ← src σ f.b
    .ok (.cfill e d a b t)
  | 0x4 => do
    need .reserved (f.c == 0 && decide (f.fn < 16))
    let p ← pick .reserved (Pred.ofCode (f.fn % 8))
    let t ← decTail f
    let d ← src σ f.d
    let a ← src σ f.a
    let b ← src σ f.b
    .ok (.cfetchif p (f.fn / 8 == 1) d a b t)
  | 0x5 => do
    need .reserved (decide (f.fn < 2))
    let t ← decTail f
    let d ← src σ f.d
    let a ← src σ f.a
    let b ← src σ f.b
    let c ← src σ f.c
    .ok (.kvfetch (f.fn == 1) d a b c t)
  | 0x6 => do
    need .reserved (f.d == 0 && f.c == 0 && f.cls == 0 && f.bar == 0 && f.res == 0 && f.buf8 == 0 && f.fn == 0)
    let a ← src σ f.a
    let b ← src σ f.b
    .ok (.btinv (f.rpl == 1) a b)
  | 0x7 => do
    need .reserved (f.a == 0 && f.b == 0 && f.c == 0 && f.cls == 0 && f.bar == 0 && f.rpl == 0 && f.res == 0 && f.buf8 == 0)
    let e ← pick .reserved (EngSel.ofCode f.fn)
    let d ← dst σ f.d
    .ok (.ecancel e d)
  | _ => .error .unassigned

/-- Row 8: index-engine commands (R284, R285). -/
def dec8 (lo w : Nat) : Dec Instr :=
  let f := unpackC w
  match lo with
  | 0x0 => do
    let e ← pick .reserved (Size.ofCode f.fn)
    let t ← decTail f
    let d ← src σ f.d
    let a ← src σ f.a
    let b ← src σ f.b
    let c ← reg 31 f.c
    .ok (.gath e d a b c t)
  | 0x1 => do
    let e ← pick .reserved (Size.ofCode f.fn)
    let t ← decTail f
    let d ← src σ f.d
    let a ← src σ f.a
    let b ← src σ f.b
    let c ← reg 31 f.c
    .ok (.scat e d a b c t)
  | 0x2 => do
    let e ← pick .reserved (AddTy.ofCode f.fn)
    let t ← decTail f
    let d ← src σ f.d
    let a ← src σ f.a
    let b ← src σ f.b
    let c ← reg 31 f.c
    .ok (.scadd e d a b c t)
  | 0x3 => do
    let e ← pick .reserved (Size.ofCode f.fn)
    let t ← decTail f
    let d ← src σ f.d
    let a ← src σ f.a
    let b ← src σ f.b
    let c ← reg 30 f.c
    .ok (.compact e d a b c t)
  | 0x4 => do
    let e ← pick .reserved (Size.ofCode f.fn)
    let t ← decTail f
    let d ← src σ f.d
    let a ← reg 31 f.a
    let b ← reg 31 f.b
    let c ← src σ f.c
    .ok (.intersect e d a b c t)
  | 0x5 => do
    need .reserved (decide (f.fn < 16))
    let e ← pick .reserved (SelTy.ofCode (f.fn % 8))
    let t ← decTail f
    let d ← src σ f.d
    let a ← src σ f.a
    let b ← src σ f.b
    let c ← reg 31 f.c
    .ok (.select e (f.fn / 8 == 1) d a b c t)
  | _ => .error .unassigned

/-- Row 9: panel instructions (R317, R320). -/
def dec9 (lo w : Nat) : Dec Instr :=
  let f := unpackR w
  match lo with
  | 0x0 => do
    need .reserved (f.d == 0 && f.cls == 0)
    let l ← num 7 f.fn
    let a ← src σ f.a
    let b ← src σ f.b
    let c ← src σ f.c
    .ok (.nlvl l a b c)
  | 0x1 => do
    need .reserved (f.d == 0 && f.cls == 0 && f.fn == 0)
    let a ← src σ f.a
    let b ← src σ f.b
    let c ← src σ f.c
    .ok (.nbase a b c)
  | 0x2 => do
    need .reserved (f.d == 0 && f.a == 0 && f.b == 0 && f.c == 0 && f.cls == 0 && decide (f.fn < 2 ^ 17))
    let run ← num 8 (f.fn / 2 ^ 10 % 8)
    let twin := f.fn / 2 ^ 13 % 2 == 1
    need .reserved ((run.val != 7 || twin) && (!twin || run.val != 0))
    let dl ← num 7 (f.fn / 2 ^ 14)
    let fa ← pick .type (Ty.ofCode (f.fn % 32))
    let fb ← pick .type (Ty.ofCode (f.fn / 32 % 32))
    need .type (fa.isPanel && fb.isPanel && (!twin || (fa.isTwin && fb.isTwin)))
    .ok (.nfmt fa fb run twin dl)
  | 0x3 => do
    need .reserved (f.d == 0 && f.b == 0 && f.c == 0 && f.cls == 0 && decide (f.fn < 8))
    let m ← pick .reserved (DrainMode.ofCode (f.fn % 4))
    let ct ← pick .reserved (CTy.ofCode (f.fn / 4))
    let a ← src σ f.a
    .ok (.ndrn m ct a)
  | 0x4 => do
    need .reserved (f.d == 0 && f.a == 0 && f.b == 0 && f.c == 0 && decide (f.fn < 2 ^ 13) && f.fn / 2 % 16 == 0)
    let cls ← num 16 f.cls
    .ok (.ngo (f.fn % 2 == 1) (BitVec.ofNat 8 (f.fn / 32)) cls)
  | 0x5 => do
    need .reserved (f.a == 0 && f.b == 0 && f.c == 0 && f.cls == 0 && f.fn == 0)
    let d ← dst σ f.d
    .ok (.nwait d)
  | 0x6 => do
    need .reserved (f.a == 0 && f.b == 0 && f.c == 0 && f.cls == 0)
    let l ← num 7 f.fn
    let d ← dst σ f.d
    .ok (.nprog d l)
  | 0x7 => decAlu2 σ f .ncsq
  | 0x8 => do
    need .reserved (f.d == 0 && f.b == 0 && f.c == 0 && f.fn == 0)
    let cls ← num 16 f.cls
    let a ← src σ f.a
    .ok (.nsave a cls)
  | 0x9 => do
    need .reserved (f.d == 0 && f.b == 0 && f.c == 0 && f.fn == 0)
    let cls ← num 16 f.cls
    let a ← src σ f.a
    .ok (.nload a cls)
  | _ => .error .unassigned

/-! ### Vector words (R140, R141, R145) -/

/-- What the word of an arithmetic instruction must meet, with RND and SAT used as the columns of R145 say: `rndUsed`
is "r", `sat` is "s", `satInt` is "s-int". Answers the gate, the type and the rounding. -/
def decVHead (f : FV) (types : Ty → Bool) (rndUsed sat satInt : Bool) : Dec (Gate × Ty × Rnd) := do
  need .reserved (f.fn == 0)
  need .reserved (rndUsed || f.rnd == 0)
  need .reserved (sat || satInt || f.sat == 0)
  let g ← pick .reserved (Gate.ofCode f.gg)
  let r ← pick .reserved (Rnd.ofCode f.rnd)
  need .reserved (r != .sr)
  let t ← pick .type (Ty.ofCode f.ty)
  need .type (types t)
  need .reserved (!rndUsed || rndFits t r)
  need .reserved (!satInt || t.isInt || f.sat == 0)
  .ok (g, t, r)

/-- Three vector operands, RND and SAT. -/
def decV3 (f : FV) (types : Ty → Bool) (mk : Gate → Ty → Rnd → Bool → Bool → Fin 64 → Fin 64 → Fin 64 → Instr) :
    Dec Instr := do
  need .reserved (f.vc == 0)
  let (g, t, r) ← decVHead f types true true false
  let vd ← reg 64 f.vd
  let va ← reg 64 f.va
  let vb ← reg 64 f.vb
  .ok (mk g t r (f.sat == 1) (f.msk == 1) vd va vb)

/-- Four vector operands, RND and SAT. -/
def decV4 (f : FV) (types : Ty → Bool)
    (mk : Gate → Ty → Rnd → Bool → Bool → Fin 64 → Fin 64 → Fin 64 → Fin 64 → Instr) : Dec Instr := do
  let (g, t, r) ← decVHead f types true true false
  let vd ← reg 64 f.vd
  let va ← reg 64 f.va
  let vb ← reg 64 f.vb
  let vc ← reg 64 f.vc
  .ok (mk g t r (f.sat == 1) (f.msk == 1) vd va vb vc)

/-- Three vector operands without RND and SAT. -/
def decV3Plain (f : FV) (types : Ty → Bool) (mk : Gate → Ty → Bool → Fin 64 → Fin 64 → Fin 64 → Instr) : Dec Instr := do
  need .reserved (f.vc == 0)
  let (g, t, _) ← decVHead f types false false false
  let vd ← reg 64 f.vd
  let va ← reg 64 f.va
  let vb ← reg 64 f.vb
  .ok (mk g t (f.msk == 1) vd va vb)

/-- Two vector operands without RND and SAT. -/
def decV2Plain (f : FV) (types : Ty → Bool) (mk : Gate → Ty → Bool → Fin 64 → Fin 64 → Instr) : Dec Instr := do
  need .reserved (f.vb == 0 && f.vc == 0)
  let (g, t, _) ← decVHead f types false false false
  let vd ← reg 64 f.vd
  let va ← reg 64 f.va
  .ok (mk g t (f.msk == 1) vd va)

/-- VABS and VNEG: two vector operands, SAT on integer types. -/
def decV2SatInt (f : FV) (mk : Gate → Ty → Bool → Bool → Fin 64 → Fin 64 → Instr) : Dec Instr := do
  need .reserved (f.vb == 0 && f.vc == 0)
  let (g, t, _) ← decVHead f Ty.isIF false false true
  let vd ← reg 64 f.vd
  let va ← reg 64 f.va
  .ok (mk g t (f.sat == 1) (f.msk == 1) vd va)

/-- VRCP, VRSQ, VEXP2, VLOG2: fp32 only, RND 0. -/
def decVFun (f : FV) (mk : Gate → Bool → Fin 64 → Fin 64 → Instr) : Dec Instr :=
  decV2Plain f (· == .fp32) (fun g _ => mk g)

/-- VSLU and VSLD. -/
def decVSlide (f : FV) (mk : Gate → Ty → Bool → Fin 64 → Fin 64 → Opnd → Instr) : Dec Instr := do
  need .reserved (f.vc == 0)
  let (g, t, _) ← decVHead f (fun _ => true) false false false
  let vd ← reg 64 f.vd
  let va ← reg 64 f.va
  let b ← src σ f.vb
  .ok (mk g t (f.msk == 1) vd va b)

/-- VLD, VST, VLDS, VSTS: CLS in FN 3:0, base and offset or stride. -/
def decVMem (f : FV) (types : Ty → Bool) (mk : Gate → Ty → Bool → Fin 64 → Opnd → Opnd → Fin 16 → Instr) : Dec Instr := do
  need .reserved (f.vc == 0 && f.rnd == 0 && f.sat == 0)
  let g ← pick .reserved (Gate.ofCode f.gg)
  let cls ← num 16 f.fn
  let t ← pick .type (Ty.ofCode f.ty)
  need .type (types t)
  let vd ← reg 64 f.vd
  let a ← src σ f.va
  let b ← src σ f.vb
  .ok (mk g t (f.msk == 1) vd a b cls)

/-- VLDX and VSTX: CLS in FN 3:0, base and index register. -/
def decVMemX (f : FV) (mk : Gate → Ty → Bool → Fin 64 → Opnd → Fin 64 → Fin 16 → Instr) : Dec Instr := do
  need .reserved (f.vc == 0 && f.rnd == 0 && f.sat == 0)
  let g ← pick .reserved (Gate.ofCode f.gg)
  let cls ← num 16 f.fn
  let t ← pick .type (Ty.ofCode f.ty)
  need .type t.isW
  let vd ← reg 64 f.vd
  let a ← src σ f.va
  let vb ← reg 64 f.vb
  .ok (mk g t (f.msk == 1) vd a vb cls)

/-- The gate of a word whose TYPE, RND, SAT and MK are reserved. -/
def decVBare (f : FV) (fnMax : Nat) : Dec Gate := do
  need .reserved (f.ty == 0 && f.rnd == 0 && f.sat == 0 && f.msk == 0 && decide (f.fn < fnMax))
  pick .reserved (Gate.ofCode f.gg)

/-- Row A: element arithmetic and bit operations. -/
def decA (lo w : Nat) : Dec Instr :=
  let f := unpackV w
  match lo with
  | 0x0 => decV3 f Ty.isIF .vadd
  | 0x1 => decV3 f Ty.isIF .vsub
  | 0x2 => decV3 f Ty.isIF .vmul
  | 0x3 => decV3Plain f Ty.isInt .vmulh
  | 0x4 => decV4 f Ty.isIF .vfma
  | 0x5 => decV4 f Ty.isIF .vfms
  | 0x6 => decV3Plain f Ty.isIF .vmin
  | 0x7 => decV3Plain f Ty.isIF .vmax
  | 0x8 => decV2SatInt f .vabs
  | 0x9 => decV2SatInt f .vneg
  | 0xA => decV3Plain f (fun _ => true) .vand
  | 0xB => decV3Plain f (fun _ => true) .vor
  | 0xC => decV3Plain f (fun _ => true) .vxor
  | 0xD => decV3Plain f Ty.isInt .vshl
  | 0xE => decV3Plain f Ty.isInt .vshr
  | 0xF => decV3Plain f Ty.isInt .vsar
  | _ => .error .unassigned

/-- Row B: the rest of element arithmetic, moves, conversions, function units. -/
def decB (lo w : Nat) : Dec Instr :=
  let f := unpackV w
  match lo with
  | 0x0 => decV2Plain f Ty.isInt .vpopc
  | 0x1 => decV2Plain f Ty.isInt .vclz
  | 0x2 => do
    need .reserved (f.vc == 0 && f.rnd == 0 && f.sat == 0)
    let g ← pick .reserved (Gate.ofCode f.gg)
    let cc ← pick .reserved (VCond.ofCode f.fn)
    let t ← pick .type (Ty.ofCode f.ty)
    need .type t.isIF
    let md ← reg 8 f.vd
    let va ← reg 64 f.va
    let vb ← reg 64 f.vb
    .ok (.vcmp g t cc (f.msk == 1) md va vb)
  | 0x3 => do
    let (g, t, _) ← decVHead f (fun _ => true) false false false
    let vd ← reg 64 f.vd
    let va ← reg 64 f.va
    let vb ← reg 64 f.vb
    let mc ← reg 8 f.vc
    .ok (.vsel g t (f.msk == 1) vd va vb mc)
  | 0x4 => decV2Plain f (fun _ => true) .vmov
  | 0x5 => do
    need .reserved (f.vb == 0 && f.vc == 0)
    let (g, t, _) ← decVHead f (fun _ => true) false false false
    let vd ← reg 64 f.vd
    let a ← src σ f.va
    .ok (.vbcast g t (f.msk == 1) vd a)
  | 0x6 => do
    need .reserved (f.vc == 0 && f.msk == 0)
    let (g, t, _) ← decVHead f (fun _ => true) false false false
    let d ← dst σ f.vd
    let va ← reg 64 f.va
    let b ← src σ f.vb
    .ok (.vget g t d va b)
  | 0x7 => do
    need .reserved (f.vc == 0 && f.msk == 0)
    let (g, t, _) ← decVHead f (fun _ => true) false false false
    let vd ← reg 64 f.vd
    let a ← src σ f.va
    let b ← src σ f.vb
    .ok (.vins g t vd a b)
  | 0x8 => do
    need .reserved (f.vb == 0 && f.vc == 0 && decide (f.fn < 32))
    let g ← pick .reserved (Gate.ofCode f.gg)
    let r ← pick .reserved (Rnd.ofCode f.rnd)
    let t ← pick .type (Ty.ofCode f.ty)
    let dt ← pick .type (Ty.ofCode f.fn)
    need .type (cvtPair t dt)
    need .reserved ((!t.isInt || !dt.isInt || r == .rne) && srFits dt r)
    let vd ← reg 64 f.vd
    let va ← reg 64 f.va
    .ok (.vcvt g t dt r (f.sat == 1) (f.msk == 1) vd va)
  | 0x9 => do
    need .reserved (f.vb == 0 && f.vc == 0 && decide (f.fn < 32) && f.rnd == 0 && f.sat == 0)
    let g ← pick .reserved (Gate.ofCode f.gg)
    let t ← pick .type (Ty.ofCode f.ty)
    let dt ← pick .type (Ty.ofCode f.fn)
    let n ← pick .type (widFactor t dt)
    let vd ← reg 64 f.vd
    need .operand (vd.val % n == 0)
    let va ← reg 64 f.va
    .ok (.vwid g t dt (f.msk == 1) vd va)
  | 0xA => do
    need .reserved (f.vb == 0 && f.vc == 0 && decide (f.fn < 32))
    let g ← pick .reserved (Gate.ofCode f.gg)
    let r ← pick .reserved (Rnd.ofCode f.rnd)
    let t ← pick .type (Ty.ofCode f.ty)
    let dt ← pick .type (Ty.ofCode f.fn)
    let n ← pick .type (widFactor dt t)
    need .reserved ((!dt.isInt || r == .rne) && srFits dt r)
    let vd ← reg 64 f.vd
    let va ← reg 64 f.va
    need .operand (va.val % n == 0)
    .ok (.vnar g t dt r (f.sat == 1) (f.msk == 1) vd va)
  | 0xB => decV3 f Ty.isF .vscl
  | 0xC => decV2Plain f Ty.isF .vexpo
  | 0xD => decVFun f .vrcp
  | 0xE => decVFun f .vrsq
  | 0xF => decVFun f .vexp2
  | _ => .error .unassigned

/-- Row C: reductions, rearrangement, vector memory, rotation. -/
def decC (lo w : Nat) : Dec Instr :=
  let f := unpackV w
  match lo with
  | 0x0 => decVFun f .vlog2
  | 0x1 => do
    need .reserved (f.vb == 0 && f.vc == 0 && decide (f.fn < 4))
    let g ← pick .reserved (Gate.ofCode f.gg)
    let op ← pick .reserved (RedOp.ofCode f.fn)
    let r ← pick .reserved (Rnd.ofCode f.rnd)
    need .reserved (r != .sr)
    let t ← pick .type (Ty.ofCode f.ty)
    need .type t.isIF
    need .reserved (rndFits t r)
    let d ← dst σ f.vd
    let va ← reg 64 f.va
    .ok (.vred g t op r (f.sat == 1) (f.msk == 1) d va)
  | 0x2 => do
    need .reserved (f.vb == 0 && f.vc == 0)
    let (g, t, r) ← decVHead f Ty.isIF true true false
    let vd ← reg 64 f.vd
    let va ← reg 64 f.va
    .ok (.vpsum g t r (f.sat == 1) (f.msk == 1) vd va)
  | 0x3 => do
    need .reserved (f.vc == 0 && f.msk == 0)
    let (g, t, _) ← decVHead f (fun _ => true) false false false
    let vd ← reg 64 f.vd
    let va ← reg 64 f.va
    let d ← dst σ f.vb
    .ok (.vcomp g t vd va d)
  | 0x4 => do
    need .reserved (f.vb == 0 && f.vc == 0 && f.msk == 0)
    let (g, t, _) ← decVHead f (fun _ => true) false false false
    let vd ← reg 64 f.vd
    let va ← reg 64 f.va
    .ok (.vexpd g t vd va)
  | 0x5 => decVSlide σ f .vslu
  | 0x6 => decVSlide σ f .vsld
  | 0x7 => decV3Plain f Ty.isP .vperm
  | 0x8 => decVMem σ f (fun _ => true) .vld
  | 0x9 => decVMem σ f (fun _ => true) .vst
  | 0xA => decVMem σ f Ty.isW .vlds
  | 0xB => decVMem σ f Ty.isW .vsts
  | 0xC => decVMemX σ f .vldx
  | 0xD => decVMemX σ f .vstx
  | 0xE => do
    need .reserved (f.vd == 0 && f.va == 0 && f.vb == 0 && f.vc == 0)
    let g ← decVBare f 64
    .ok (.vrot g (f.fn / 32 == 1) (BitVec.ofNat 5 f.fn))
  | 0xF => do
    need .reserved (f.vd == 0 && f.va == 0 && f.vb == 0 && f.vc == 0 && f.gg == 0)
    let _ ← decVBare f 256
    .ok (.gset (BitVec.ofNat 8 f.fn))
  | _ => .error .unassigned

/-- Row D: gates and masks. -/
def decD (lo w : Nat) : Dec Instr :=
  let f := unpackV w
  match lo with
  | 0x0 => do
    need .reserved (f.vd == 0 && f.vb == 0 && f.vc == 0 && f.gg == 0)
    let _ ← decVBare f 1
    let a ← src σ f.va
    .ok (.gstep a)
  | 0x1 => do
    need .reserved (f.vd == 0 && f.vb == 0 && f.vc == 0)
    let g ← decVBare f 1
    let ma ← reg 8 f.va
    .ok (.mpush g ma)
  | 0x2 => do
    need .reserved (f.vd == 0 && f.va == 0 && f.vb == 0 && f.vc == 0)
    let g ← decVBare f 1
    .ok (.minv g)
  | 0x3 => do
    need .reserved (f.vd == 0 && f.va == 0 && f.vb == 0 && f.vc == 0)
    let g ← decVBare f 1
    .ok (.mpop g)
  | 0x4 => do
    need .reserved (f.vb == 0 && f.vc == 0)
    let g ← decVBare f 4
    need .reserved (f.fn != 2 || f.va == 0)
    let md ← reg 8 f.vd
    match f.fn with
    | 0 => do
      let a ← src σ f.va
      .ok (.mset g md (.prefixOf a))
    | 1 => do
      let a ← src σ f.va
      .ok (.mset g md (.pattern a))
    | 2 => .ok (.mset g md .top)
    | _ => do
      let va ← reg 64 f.va
      .ok (.mset g md (.vec va))
  | 0x5 => do
    need .reserved (f.vb == 0 && f.vc == 0 && f.msk == 0)
    let (g, t, _) ← decVHead f (fun _ => true) false false false
    let d ← dst σ f.vd
    let ma ← reg 8 f.va
    .ok (.mcnt g t d ma)
  | 0x6 => do
    need .reserved (f.va == 0 && f.vb == 0 && f.vc == 0 && f.msk == 0)
    let (g, t, _) ← decVHead f (fun _ => true) false false false
    let k ← reg 12 f.vd
    .ok (.mempt g t k)
  | _ => .error .unassigned

/-- Row E: link-stream words (R374, R376, R378). SPC of LQNT is checked behind its TYPE (log 73, DEDUCED). -/
def decE (lo w : Nat) : Dec Instr :=
  let f := unpackK w
  match lo with
  | 0x0 => do
    need .reserved (f.b == 0 && f.ty == 0 && f.rnd == 0 && f.sat == 0)
    let d ← reg 32 f.d
    let a ← reg 32 f.a
    .ok (.lslot d a (BitVec.ofNat 20 f.imm))
  | 0x1 =>
    if f.imm / 2 ^ 19 = 0 then do
      need .reserved (f.a == 0 && f.ty == 0 && f.rnd == 0 && f.sat == 0 && decide (f.imm < 64))
      let c ← reg 16 f.d
      let b ← reg 32 f.b
      .ok (.lxmit c b (BitVec.ofNat 6 f.imm))
    else do
      need .reserved (f.b == 0 && f.ty == 0 && f.rnd == 0 && f.sat == 0 && f.imm == 2 ^ 19)
      let c ← reg 16 f.d
      let a ← reg 32 f.a
      .ok (.lxmitMem c a)
  | 0x2 =>
    if f.imm / 2 ^ 19 = 0 then do
      need .reserved (f.ty == 0 && f.rnd == 0 && f.sat == 0 && decide (f.imm < 64))
      let c ← reg 16 f.d
      let a ← reg 32 f.a
      let b ← reg 32 f.b
      .ok (.lrecv c a b (BitVec.ofNat 6 f.imm))
    else do
      need .reserved (f.b == 0 && f.ty == 0 && f.rnd == 0 && f.sat == 0 && f.imm == 2 ^ 19)
      let c ← reg 16 f.d
      let a ← reg 32 f.a
      .ok (.lrecvMem c a)
  | 0x3 => do
    need .reserved (f.rnd == 0 && f.sat == 0 && f.imm == 0)
    let t ← pick .type (Ty.ofCode f.ty)
    need .type (t == .e4m3 || t == .e2m1x)
    need .reserved (t == .e4m3 || f.b == 0)
    let d ← reg 16 f.d
    need .operand (d.val % 4 == 0)
    let a ← reg 16 f.a
    let b ← reg 32 f.b
    .ok (.lwid (t == .e2m1x) d a b)
  | 0x4 => do
    need .reserved (f.imm == 0)
    let r ← pick .reserved (Rnd.ofCode f.rnd)
    need .reserved (r != .sr)
    need .type (f.ty == 11)
    let d ← reg 16 f.d
    let a ← reg 16 f.a
    let b ← reg 16 f.b
    .ok (.ladd r (f.sat == 1) d a b)
  | 0x5 => do
    need .reserved (decide (f.imm < 8))
    let spc ← num 8 f.imm
    let r ← pick .reserved (Rnd.ofCode f.rnd)
    let t ← pick .type (Ty.ofCode f.ty)
    need .type (t == .e4m3 || t == .e2m1x)
    need .reserved (if t == .e4m3 then f.imm == 0 else f.b == 0)
    let d ← reg 16 f.d
    let a ← reg 16 f.a
    need .operand (a.val % 4 == 0)
    let b ← reg 32 f.b
    .ok (.lqnt (t == .e2m1x) r (f.sat == 1) d a b spc)
  | 0x6 => decBare w .ldone
  | _ => .error .unassigned

/-- The instruction of OPC `opc` with operand bits `w`, the decode cases 2 to 4 checked in their order. -/
def decodeBody (opc w : Nat) : Dec Instr :=
  match opc / 16 with
  | 0x0 => dec0 σ (opc % 16) w
  | 0x1 => dec1 σ (opc % 16) w
  | 0x2 => dec2 σ (opc % 16) w
  | 0x3 => dec3 σ (opc % 16) w
  | 0x4 => dec4 σ (opc % 16) w
  | 0x5 => dec5 σ (opc % 16) w
  | 0x6 => dec6 σ (opc % 16) w
  | 0x7 => dec7 σ (opc % 16) w
  | 0x8 => dec8 σ (opc % 16) w
  | 0x9 => dec9 σ (opc % 16) w
  | 0xA => decA (opc % 16) w
  | 0xB => decB σ (opc % 16) w
  | 0xC => decC σ (opc % 16) w
  | 0xD => decD σ (opc % 16) w
  | 0xE => decE (opc % 16) w
  | _ => .error .unassigned

end

/-- Bits 63:54 (R9). -/
def idleOf (w : Word) : Nat := w.toNat / 2 ^ 54

/-- Bits 53:46 (R9). -/
def opcOf (w : Word) : Nat := w.toNat / 2 ^ 46 % 256

/-- Bits 45:0 (R9). -/
def bodyOf (w : Word) : Nat := w.toNat % 2 ^ 46

/-- The instruction that stream `σ` reads in `w`, or the decode case that refuses the word (R41). -/
def decode (σ : StreamId) (w : Word) : Dec Instr :=
  match legality (opcOf w) with
  | none => .error .unassigned
  | some legal => if legal σ then decodeBody σ (opcOf w) (bodyOf w) else .error .stream

/-- The instruction of a word laid out as the opcode table numbers its bits, in the first of the streams A, X, N and L
that may issue it. A word is 64 bits, so the bits above `nbits` are zeros. -/
def decodeTableWord (nbits w : Nat) : Option Instr :=
  let v : Word := BitVec.ofNat 64 (w % 2 ^ nbits)
  match decode .A v, decode .X v, decode .N v, decode .L v with
  | .ok i, _, _, _ => some i
  | _, .ok i, _, _ => some i
  | _, _, .ok i, _ => some i
  | _, _, _, .ok i => some i
  | _, _, _, _ => none

/-! ## The encoder -/

def encAlu3 (d a b : Opnd) (fn : Nat) : Nat := packR ⟨d.code, a.code, b.code, 0, 0, fn⟩

def encAlu2 (d a : Opnd) (fn : Nat) : Nat := packR ⟨d.code, a.code, 0, 0, 0, fn⟩

def encImm {w : Nat} (d a : Opnd) (imm : BitVec w) : Nat := packI ⟨d.code, a.code, imm.toNat⟩

def encTail (d a b c fn : Nat) (t : CTail) : Nat :=
  packC ⟨d, a, b, c, t.cls.val, t.bar.val, bit t.rpl, 0, t.buf8.toNat, fn⟩

def encV (g : Gate) (ty : Nat) (rnd : Rnd) (sat mk : Bool) (vd va vb vc fn : Nat) : Nat :=
  packV ⟨vd, va, vb, vc, ty, rnd.code, bit sat, bit mk, g.code, fn⟩

def sel (b : Bool) (x y : Nat) : Nat := if b then x else y

/-- OPC and operand bits of an instruction; none for the rows that are steps of other agents and have no word. -/
def Instr.fields : Instr → Option (Nat × Nat)
  | .nop => some (0x00, 0)
  | .prep k t => some (0x01, packS ⟨k.val, 0, 0, 0, 0, t.toNat⟩)
  | .prepr k a => some (0x02, packS ⟨k.val, 0, 0, a.code, 0, 0⟩)
  | .br k s => some (0x03, packS ⟨k.val, bit s, 0, 0, 0, 0⟩)
  | .brl k s => some (0x04, packS ⟨k.val, bit s, 0, 0, 0, 0⟩)
  | .cmp cc k a b => some (0x05, packS ⟨k.val, 0, cc.code, a.code, b.code, 0⟩)
  | .cmpi cc k a imm => some (0x06, packS ⟨k.val, 0, cc.code, a.code, 0, imm.toNat⟩)
  | .cset cc d a b => some (0x07, encAlu3 d a b cc.code)
  | .cseti cc d b imm => some (0x08, packS ⟨0, 0, cc.code, d.code, b.code, imm.toNat⟩)
  | .scomb op k ka kb => some (0x09, packS ⟨k.val, 0, op.code, 0, 0, ka.val * 2 ^ 21 + kb.val * 2 ^ 17⟩)
  | .spop k q => some (0x0A, packS ⟨k.val, 0, 0, 32 + q.val, 0, 0⟩)
  | .spush k q => some (0x0B, packS ⟨k.val, 0, 0, 32 + q.val, 0, 0⟩)
  | .lset l a stop => some (0x0C, packS ⟨l.val, 0, 0, a.code, 0, stop.toNat⟩)
  | .lend l => some (0x0D, packS ⟨l.val, 0, 0, 0, 0, 0⟩)
  | .trap imm => some (0x0E, packI ⟨0, 0, imm.toNat⟩)
  | .add d a b => some (0x10, encAlu3 d a b 0)
  | .sub d a b => some (0x11, encAlu3 d a b 0)
  | .mul d a b => some (0x12, encAlu3 d a b 0)
  | .mulh d a b => some (0x13, encAlu3 d a b 0)
  | .mulhu d a b => some (0x13, encAlu3 d a b (2 ^ 17))
  | .div d a b => some (0x14, encAlu3 d a b 0)
  | .divu d a b => some (0x14, encAlu3 d a b (2 ^ 17))
  | .rem d a b => some (0x15, encAlu3 d a b 0)
  | .remu d a b => some (0x15, encAlu3 d a b (2 ^ 17))
  | .and d a b => some (0x16, encAlu3 d a b 0)
  | .or d a b => some (0x17, encAlu3 d a b 0)
  | .xor d a b => some (0x18, encAlu3 d a b 0)
  | .andn d a b => some (0x19, encAlu3 d a b 0)
  | .shl d a b => some (0x1A, encAlu3 d a b 0)
  | .shr d a b => some (0x1B, encAlu3 d a b 0)
  | .sar d a b => some (0x1C, encAlu3 d a b 0)
  | .min d a b => some (0x1D, encAlu3 d a b 0)
  | .minu d a b => some (0x1D, encAlu3 d a b (2 ^ 17))
  | .max d a b => some (0x1E, encAlu3 d a b 0)
  | .maxu d a b => some (0x1E, encAlu3 d a b (2 ^ 17))
  | .clz d a => some (0x1F, encAlu2 d a 0)
  | .ctz d a => some (0x20, encAlu2 d a 0)
  | .popc d a => some (0x21, encAlu2 d a 0)
  | .sext d a n => some (0x22, encAlu2 d a n.val)
  | .zext d a n => some (0x22, encAlu2 d a (2 ^ 17 + n.val))
  | .bfx d a n p => some (0x23, encAlu2 d a (n.val * 64 + p.val))
  | .bfi d a b n p => some (0x24, encAlu3 d a b (n.val * 64 + p.val))
  | .cmov d a b c => some (0x25, packR ⟨d.code, a.code, b.code, c.code, 0, 0⟩)
  | .addi d a imm => some (0x26, encImm d a imm)
  | .andi d a imm => some (0x27, encImm d a imm)
  | .ori d a imm => some (0x28, encImm d a imm)
  | .xori d a imm => some (0x29, encImm d a imm)
  | .shli d a n => some (0x2A, packI ⟨d.code, a.code, n.val⟩)
  | .shri d a n => some (0x2B, packI ⟨d.code, a.code, n.val⟩)
  | .sari d a n => some (0x2C, packI ⟨d.code, a.code, n.val⟩)
  | .muli d a imm => some (0x2D, encImm d a imm)
  | .ldi d imm => some (0x2E, packL ⟨d.code, imm.toNat⟩)
  | .ldhi d imm => some (0x2F, packL ⟨d.val, imm.toNat⟩)
  | .ld sz sgn d a off cls => some (0x30, packM ⟨d.code, a.code, off.toNat, cls.val, sz.code, bit sgn, 0, 0, 0⟩)
  | .st sz d a off cls => some (0x31, packM ⟨d.code, a.code, off.toNat, cls.val, sz.code, 0, 0, 0, 0⟩)
  | .scld sz sgn sys d a off cls =>
    some (0x32, packM ⟨d.code, a.code, off.toNat, cls.val, sz.code, bit sgn, 1, sel sys 5 4, 0⟩)
  | .scst sz sys d a off cls => some (0x33, packM ⟨d.code, a.code, off.toNat, cls.val, sz.code, 0, 1, sel sys 5 4, 0⟩)
  | .amo op wide sc d a b cls =>
    some (0x34, packR ⟨d.code, a.code, b.code, 0, cls.val,
      op.code.1 + op.code.2 * 8 + bit wide * 16 + sc.code.1 * 32 + sc.code.2 * 64⟩)
  | .cas wide sc d a b c cls =>
    some (0x35, packR ⟨d.code, a.code, b.code, c.code, cls.val, bit wide * 16 + sc.code.1 * 32 + sc.code.2 * 64⟩)
  | .start => some (0x40, 0)
  | .join => some (0x41, 0)
  | .exit => some (0x42, 0)
  | .pusht q => some (0x43, packR ⟨32 + q.val, 0, 0, 0, 0, 0⟩)
  | .qtry k q d => some (0x44, packS ⟨k.val, 0, 0, 32 + q.val, d.val, 0⟩)
  | .qflush d q => some (0x45, packR ⟨d.code, 32 + q.val, 0, 0, 0, 0⟩)
  | .qcnt d q => some (0x46, packR ⟨d.code, 32 + q.val, 0, 0, 0, 0⟩)
  | .gbar gs => some (0x47, packR ⟨0, 0, 0, 0, 0, gs.val⟩)
  | .launch rpl a b => some (0x48, packC ⟨0, a.code, b.code, 0, 0, 0, bit rpl, 0, 0, 0⟩)
  | .graph rpl a b => some (0x49, packC ⟨0, a.code, b.code, 0, 0, 0, bit rpl, 0, 0, 0⟩)
  | .crr d c => some (0x50, packI ⟨d.code, 0, c.toNat⟩)
  | .crw a c => some (0x51, packI ⟨0, a.code, c.toNat⟩)
  | .eret => some (0x52, 0)
  | .brk imm => some (0x53, packI ⟨0, 0, imm.toNat⟩)
  | .waitev d a b => some (0x54, encAlu3 d a b 0)
  | .keykill d a => some (0x55, encAlu2 d a 0)
  | .genbump d => some (0x56, packR ⟨d.code, 0, 0, 0, 0, 0⟩)
  | .fence sc d a => some (0x60, encAlu2 d a sc.code)
  | .dget d a b c cls => some (0x61, packR ⟨d.code, a.code, b.code, c.code, cls.val, 0⟩)
  | .dgetv g vd a b mc cls => some (0x62, encV g 0 .rne false false vd.val a.code b.code mc.val cls.val)
  | .dcls g ty md a b c cls => some (0x63, encV g ty.code .rne false false md.val a.code b.code c.code cls.val)
  | .dredo d a b cls => some (0x64, packR ⟨d.code, a.code, b.code, 0, cls.val, 0⟩)
  | .rmap rw a b c e cls => some (0x65, packR ⟨0, a.code, b.code, c.code, cls.val, e.val + bit rw * 16⟩)
  | .runmap e => some (0x66, packR ⟨0, 0, 0, 0, 0, e.val⟩)
  | .rsync d e => some (0x67, packR ⟨d.code, 0, 0, 0, 0, match e with | none => 16 | some e => e.val⟩)
  | .cbset n a b c => some (0x68, packR ⟨0, a.code, b.code, c.code, 0, n.val⟩)
  | .cbwait n d => some (0x69, packR ⟨d.code, 0, 0, 0, 0, n.val⟩)
  | .cbrel n => some (0x6A, packR ⟨0, 0, 0, 0, 0, n.val⟩)
  | .abset n a => some (0x6B, packR ⟨0, a.code, 0, 0, 0, n.val⟩)
  | .abwait n => some (0x6C, packR ⟨0, 0, 0, 0, 0, n.val⟩)
  | .cpy cb sf d a b c t => some (0x70, encTail d.code a.code b.code c.code (bit cb + bit sf * 2) t)
  | .cpys cb sf d a b c t => some (0x71, encTail d.code a.code b.val c.val (bit cb + bit sf * 2) t)
  | .cpyt e d a b c t => some (0x72, encTail d.code a.code b.val c.code e.code t)
  | .cfill e d a b t => some (0x73, encTail d.code a.code b.code 0 e.code t)
  | .cfetchif p cb d a b t => some (0x74, encTail d.code a.code b.code 0 (p.code + bit cb * 8) t)
  | .kvfetch cb d a b c t => some (0x75, encTail d.code a.code b.code c.code (bit cb) t)
  | .btinv rpl a b => some (0x76, packC ⟨0, a.code, b.code, 0, 0, 0, bit rpl, 0, 0, 0⟩)
  | .ecancel e d => some (0x77, packC ⟨d.code, 0, 0, 0, 0, 0, 0, 0, 0, e.code⟩)
  | .gath e d a b c t => some (0x80, encTail d.code a.code b.code c.val e.code t)
  | .scat e d a b c t => some (0x81, encTail d.code a.code b.code c.val e.code t)
  | .scadd e d a b c t => some (0x82, encTail d.code a.code b.code c.val e.code t)
  | .compact e d a b c t => some (0x83, encTail d.code a.code b.code c.val e.code t)
  | .intersect e d a b c t => some (0x84, encTail d.code a.val b.val c.code e.code t)
  | .select e ge d a b c t => some (0x85, encTail d.code a.code b.code c.val (e.code + bit ge * 8) t)
  | .nlvl l a b c => some (0x90, packR ⟨0, a.code, b.code, c.code, 0, l.val⟩)
  | .nbase a b c => some (0x91, packR ⟨0, a.code, b.code, c.code, 0, 0⟩)
  | .nfmt fa fb run twin dl =>
    some (0x92, packR ⟨0, 0, 0, 0, 0, fa.code + fb.code * 32 + run.val * 2 ^ 10 + bit twin * 2 ^ 13 + dl.val * 2 ^ 14⟩)
  | .ndrn m ct a => some (0x93, packR ⟨0, a.code, 0, 0, 0, m.code + ct.code * 4⟩)
  | .ngo rpl buf8 cls => some (0x94, packR ⟨0, 0, 0, 0, cls.val, bit rpl + buf8.toNat * 32⟩)
  | .nwait d => some (0x95, packR ⟨d.code, 0, 0, 0, 0, 0⟩)
  | .nprog d l => some (0x96, packR ⟨d.code, 0, 0, 0, 0, l.val⟩)
  | .ncsq d a => some (0x97, encAlu2 d a 0)
  | .nsave a cls => some (0x98, packR ⟨0, a.code, 0, 0, cls.val, 0⟩)
  | .nload a cls => some (0x99, packR ⟨0, a.code, 0, 0, cls.val, 0⟩)
  | .vadd g t r s m vd va vb => some (0xA0, encV g t.code r s m vd.val va.val vb.val 0 0)
  | .vsub g t r s m vd va vb => some (0xA1, encV g t.code r s m vd.val va.val vb.val 0 0)
  | .vmul g t r s m vd va vb => some (0xA2, encV g t.code r s m vd.val va.val vb.val 0 0)
  | .vmulh g t m vd va vb => some (0xA3, encV g t.code .rne false m vd.val va.val vb.val 0 0)
  | .vfma g t r s m vd va vb vc => some (0xA4, encV g t.code r s m vd.val va.val vb.val vc.val 0)
  | .vfms g t r s m vd va vb vc => some (0xA5, encV g t.code r s m vd.val va.val vb.val vc.val 0)
  | .vmin g t m vd va vb => some (0xA6, encV g t.code .rne false m vd.val va.val vb.val 0 0)
  | .vmax g t m vd va vb => some (0xA7, encV g t.code .rne false m vd.val va.val vb.val 0 0)
  | .vabs g t s m vd va => some (0xA8, encV g t.code .rne s m vd.val va.val 0 0 0)
  | .vneg g t s m vd va => some (0xA9, encV g t.code .rne s m vd.val va.val 0 0 0)
  | .vand g t m vd va vb => some (0xAA, encV g t.code .rne false m vd.val va.val vb.val 0 0)
  | .vor g t m vd va vb => some (0xAB, encV g t.code .rne false m vd.val va.val vb.val 0 0)
  | .vxor g t m vd va vb => some (0xAC, encV g t.code .rne false m vd.val va.val vb.val 0 0)
  | .vshl g t m vd va vb => some (0xAD, encV g t.code .rne false m vd.val va.val vb.val 0 0)
  | .vshr g t m vd va vb => some (0xAE, encV g t.code .rne false m vd.val va.val vb.val 0 0)
  | .vsar g t m vd va vb => some (0xAF, encV g t.code .rne false m vd.val va.val vb.val 0 0)
  | .vpopc g t m vd va => some (0xB0, encV g t.code .rne false m vd.val va.val 0 0 0)
  | .vclz g t m vd va => some (0xB1, encV g t.code .rne false m vd.val va.val 0 0 0)
  | .vcmp g t cc m md va vb => some (0xB2, encV g t.code .rne false m md.val va.val vb.val 0 cc.code)
  | .vsel g t m vd va vb mc => some (0xB3, encV g t.code .rne false m vd.val va.val vb.val mc.val 0)
  | .vmov g t m vd va => some (0xB4, encV g t.code .rne false m vd.val va.val 0 0 0)
  | .vbcast g t m vd a => some (0xB5, encV g t.code .rne false m vd.val a.code 0 0 0)
  | .vget g t d va b => some (0xB6, encV g t.code .rne false false d.code va.val b.code 0 0)
  | .vins g t vd a b => some (0xB7, encV g t.code .rne false false vd.val a.code b.code 0 0)
  | .vcvt g t dt r s m vd va => some (0xB8, encV g t.code r s m vd.val va.val 0 0 dt.code)
  | .vwid g t dt m vd va => some (0xB9, encV g t.code .rne false m vd.val va.val 0 0 dt.code)
  | .vnar g t dt r s m vd va => some (0xBA, encV g t.code r s m vd.val va.val 0 0 dt.code)
  | .vscl g t r s m vd va vb => some (0xBB, encV g t.code r s m vd.val va.val vb.val 0 0)
  | .vexpo g t m vd va => some (0xBC, encV g t.code .rne false m vd.val va.val 0 0 0)
  | .vrcp g m vd va => some (0xBD, encV g 11 .rne false m vd.val va.val 0 0 0)
  | .vrsq g m vd va => some (0xBE, encV g 11 .rne false m vd.val va.val 0 0 0)
  | .vexp2 g m vd va => some (0xBF, encV g 11 .rne false m vd.val va.val 0 0 0)
  | .vlog2 g m vd va => some (0xC0, encV g 11 .rne false m vd.val va.val 0 0 0)
  | .vred g t op r s m d va => some (0xC1, encV g t.code r s m d.code va.val 0 0 op.code)
  | .vpsum g t r s m vd va => some (0xC2, encV g t.code r s m vd.val va.val 0 0 0)
  | .vcomp g t vd va d => some (0xC3, encV g t.code .rne false false vd.val va.val d.code 0 0)
  | .vexpd g t vd va => some (0xC4, encV g t.code .rne false false vd.val va.val 0 0 0)
  | .vslu g t m vd va b => some (0xC5, encV g t.code .rne false m vd.val va.val b.code 0 0)
  | .vsld g t m vd va b => some (0xC6, encV g t.code .rne false m vd.val va.val b.code 0 0)
  | .vperm g t m vd va vb => some (0xC7, encV g t.code .rne false m vd.val va.val vb.val 0 0)
  | .vld g t m vd a b cls => some (0xC8, encV g t.code .rne false m vd.val a.code b.code 0 cls.val)
  | .vst g t m vd a b cls => some (0xC9, encV g t.code .rne false m vd.val a.code b.code 0 cls.val)
  | .vlds g t m vd a b cls => some (0xCA, encV g t.code .rne false m vd.val a.code b.code 0 cls.val)
  | .vsts g t m vd a b cls => some (0xCB, encV g t.code .rne false m vd.val a.code b.code 0 cls.val)
  | .vldx g t m vd a vb cls => some (0xCC, encV g t.code .rne false m vd.val a.code vb.val 0 cls.val)
  | .vstx g t m vd a vb cls => some (0xCD, encV g t.code .rne false m vd.val a.code vb.val 0 cls.val)
  | .vrot g abs step => some (0xCE, encV g 0 .rne false false 0 0 0 0 (bit abs * 32 + step.toNat))
  | .gset gates => some (0xCF, encV none 0 .rne false false 0 0 0 0 gates.toNat)
  | .gstep a => some (0xD0, encV none 0 .rne false false 0 a.code 0 0 0)
  | .mpush g ma => some (0xD1, encV g 0 .rne false false 0 ma.val 0 0 0)
  | .minv g => some (0xD2, encV g 0 .rne false false 0 0 0 0 0)
  | .mpop g => some (0xD3, encV g 0 .rne false false 0 0 0 0 0)
  | .mset g md mode =>
    some (0xD4, match mode with
      | .prefixOf a => encV g 0 .rne false false md.val a.code 0 0 0
      | .pattern a => encV g 0 .rne false false md.val a.code 0 0 1
      | .top => encV g 0 .rne false false md.val 0 0 0 2
      | .vec va => encV g 0 .rne false false md.val va.val 0 0 3)
  | .mcnt g t d ma => some (0xD5, encV g t.code .rne false false d.code ma.val 0 0 0)
  | .mempt g t k => some (0xD6, encV g t.code .rne false false k.val 0 0 0 0)
  | .lslot d a imm => some (0xE0, packK ⟨d.val, a.val, 0, 0, 0, 0, imm.toNat⟩)
  | .lxmit c b port => some (0xE1, packK ⟨c.val, 0, b.val, 0, 0, 0, port.toNat⟩)
  | .lxmitMem c a => some (0xE1, packK ⟨c.val, a.val, 0, 0, 0, 0, 2 ^ 19⟩)
  | .lrecv c a b port => some (0xE2, packK ⟨c.val, a.val, b.val, 0, 0, 0, port.toNat⟩)
  | .lrecvMem c a => some (0xE2, packK ⟨c.val, a.val, 0, 0, 0, 0, 2 ^ 19⟩)
  | .lwid x d a b => some (0xE3, packK ⟨d.val, a.val, b.val, sel x 14 12, 0, 0, 0⟩)
  | .ladd r s d a b => some (0xE4, packK ⟨d.val, a.val, b.val, 11, r.code, bit s, 0⟩)
  | .lqnt x r s d a b spc => some (0xE5, packK ⟨d.val, a.val, b.val, sel x 14 12, r.code, bit s, spc.val⟩)
  | .ldone => some (0xE6, 0)
  | _ => none

/-- The word of an instruction with IDLE `idle` (R9, R66); none for the rows that have no word. -/
def encode (idle : Fin 1024) (i : Instr) : Option Word :=
  match i.fields with
  | none => none
  | some (opc, body) => some (BitVec.ofNat 64 (idle.val * 2 ^ 54 + opc * 2 ^ 46 + body))

/-! ## The scalar and queue operands of a word, in the order of R12 -/

/-- Sources in the order in which queues among them pop: a, b, c (A, B in the S format), and d last. -/
def Instr.reads : Instr → List Opnd
  | .prepr _ a | .cmpi _ _ a _ | .cseti _ _ a _ | .lset _ a _ | .clz _ a | .ctz _ a | .popc _ a | .sext _ a _ | .zext _ a _
  | .bfx _ a _ _ | .addi _ a _ | .andi _ a _ | .ori _ a _ | .xori _ a _ | .shli _ a _ | .shri _ a _ | .sari _ a _
  | .muli _ a _ | .ld _ _ _ a _ _ | .scld _ _ _ _ a _ _ | .crw a _ | .keykill _ a | .fence _ _ a | .dget _ a _ _ _
  | .abset _ a | .ndrn _ _ a | .ncsq _ a | .nsave a _ | .nload a _ | .vbcast _ _ _ _ a | .vget _ _ _ _ a
  | .vslu _ _ _ _ _ a | .vsld _ _ _ _ _ a | .vldx _ _ _ _ a _ _ | .vstx _ _ _ _ a _ _ | .gstep a
  | .mset _ _ (.prefixOf a) | .mset _ _ (.pattern a) => [a]
  | .cmp _ _ a b | .cset _ _ a b | .add _ a b | .sub _ a b | .mul _ a b | .mulh _ a b | .mulhu _ a b | .div _ a b
  | .divu _ a b | .rem _ a b | .remu _ a b | .and _ a b | .or _ a b | .xor _ a b | .andn _ a b | .shl _ a b | .shr _ a b
  | .sar _ a b | .min _ a b | .minu _ a b | .max _ a b | .maxu _ a b | .bfi _ a b _ _ | .amo _ _ _ _ a b _ | .launch _ a b
  | .graph _ a b | .waitev _ a b | .dgetv _ _ a b _ _ | .dredo _ a b _ | .btinv _ a b | .vins _ _ _ a b
  | .vld _ _ _ _ a b _ | .vst _ _ _ _ a b _ | .vlds _ _ _ _ a b _ | .vsts _ _ _ _ a b _ => [a, b]
  | .cmov _ a b c | .cas _ _ _ a b c _ | .dcls _ _ _ a b c _ | .rmap _ a b c _ _ | .cbset _ a b c | .nlvl _ a b c
  | .nbase a b c => [a, b, c]
  | .st _ d a _ _ | .scst _ _ d a _ _ => [a, d]
  | .cpy _ _ d a b c _ | .kvfetch _ d a b c _ => [a, b, c, d]
  | .cpys _ _ d a _ _ _ => [a, d]
  | .cpyt _ d a _ c _ => [a, c, d]
  | .cfill _ d a b _ | .cfetchif _ _ d a b _ | .gath _ d a b _ _ | .scat _ d a b _ _ | .scadd _ d a b _ _
  | .compact _ d a b _ _ | .select _ _ d a b _ _ => [a, b, d]
  | .intersect _ d _ _ c _ => [c, d]
  | .lslot _ a _ | .lxmitMem _ a | .lrecvMem _ a => [.s a]
  | .lxmit _ b _ => [.s b]
  | .lwid x _ _ b => if x then [] else [.s b]
  | .ldhi d _ => [.s d]
  | _ => []

/-- Destinations in the order in which queues among them are reserved: d, a, b, c. -/
def Instr.writes : Instr → List Opnd
  | .cset _ d _ _ | .cseti _ d _ _ | .add d _ _ | .sub d _ _ | .mul d _ _ | .mulh d _ _ | .mulhu d _ _ | .div d _ _
  | .divu d _ _ | .rem d _ _ | .remu d _ _ | .and d _ _ | .or d _ _ | .xor d _ _ | .andn d _ _ | .shl d _ _ | .shr d _ _
  | .sar d _ _ | .min d _ _ | .minu d _ _ | .max d _ _ | .maxu d _ _ | .clz d _ | .ctz d _ | .popc d _ | .sext d _ _
  | .zext d _ _ | .bfx d _ _ _ | .bfi d _ _ _ _ | .cmov d _ _ _ | .addi d _ _ | .andi d _ _ | .ori d _ _ | .xori d _ _
  | .shli d _ _ | .shri d _ _ | .sari d _ _ | .muli d _ _ | .ldi d _ | .ld _ _ d _ _ _ | .scld _ _ _ d _ _ _
  | .amo _ _ _ d _ _ _ | .cas _ _ d _ _ _ _ | .qflush d _ | .qcnt d _ | .crr d _ | .waitev d _ _ | .keykill d _
  | .genbump d | .fence _ d _ | .dredo d _ _ _ | .rsync d _ | .cbwait _ d | .ecancel _ d | .nwait d | .nprog d _
  | .ncsq d _ | .vget _ _ d _ _ | .vred _ _ _ _ _ _ d _ | .vcomp _ _ _ _ d | .mcnt _ _ d _ => [d]
  | .dget d _ b c _ => [d, b, c]
  | .ldhi d _ | .lslot d _ _ => [.s d]
  | .qtry _ _ d => [.s d]
  | .lrecv _ a b _ => [.s a, .s b]
  | .lqnt x _ _ _ _ b _ => if x then [] else [.s b]
  | _ => []

end Sys2Proof
end

