-- ==== Sys2Proof/Machine/State.lean ====
section
/-! DEFINITION. The state of the device, plain data, and its value right after reset. INVENTORY.md lists every piece with
the rule that names it. -/

namespace Sys2Proof.Machine

/-- What stops the machine. Every trap of the spec is a next state, so one reason is left. -/
inductive Fault where
  /-- Raised by a step of another agent whose operand names a core, a bank or a unit that the device does not have.
  Safe: no such step exists. -/
  | noSuchUnit
  deriving DecidableEq, Repr

/-- Why an instruction has no meaning. -/
inductive Refusal where
  /-- Raised by `exec` for an instruction that the model does not reach yet. Safe. -/
  | notModelled (mnemonic : String)
  deriving DecidableEq, Repr

/-- A sparse table by number: keys strictly rising. -/
abbrev Tbl (α : Type) := List (Nat × α)

/-- Byte-addressed memory, sparse: an address that is not listed reads as 0, and no listed byte is 0 (log 1, DESIGN CHOICE). The places
of the device have one numbering: `Place.loc` in Memory.lean. -/
abbrev Memory := List Host.Cell

/-! ## Agents and records -/

/-- The place of a stream in the device: core, bank, stream; the L stream of die d is (d, 0, L). -/
structure Agent where
  core : Nat
  bank : Nat
  sid : StreamId
  deriving DecidableEq, Repr

/-- What of the panel stops on a fault: the feed, the drain, or the read of a nest's scale vector (R321, R327). -/
inductive PanelPart where
  | feed | drain | scales
  deriving DecidableEq, Repr

/-- Who waits for the answer of a record (R339 to R343). -/
inductive Waiter where
  | stream (a : Agent)
  | writeback (core bank : Nat)
  | engine (core : Nat) (e : Eng) (ord : Nat)
  | panel (core nest : Nat) (part : PanelPart)
  | loader (core : Nat) (sid : StreamId) (tag : Nat)
  | launch
  | graph (inst : Nat)
  | ring (q : Nat)
  | none
  deriving DecidableEq, Repr

/-- A fault record (R342). -/
structure Record where
  info : Word
  va : Word
  word : Word
  pos : Word
  who : Waiter
  task : Nat
  deriving DecidableEq, Repr

/-! ## A stream -/

/-- A register that a result may still be on its way to (R44, R142). -/
inductive RegId where
  | s (n : Fin 32)
  | k (n : Fin 12)
  | v (n : Fin 64)
  | m (n : Fin 8)
  | c (n : Fin 16)
  deriving DecidableEq, Repr

/-- A steer register (R7), with the first cycle at which a BR on it may issue (R14). -/
structure Steer where
  set : Bool
  value : Bool
  target : BitVec 13
  ready : Nat
  deriving DecidableEq, Repr

/-- A loop register (R8). -/
structure Loop where
  count : BitVec 32
  start : BitVec 13
  stop : BitVec 13
  deriving DecidableEq, Repr

/-- External waits (R124) by what is waited for. -/
inductive Ext where
  | data | fifo | engine | buffer (n : Fin 8) | barrier (n : Fin 8) | panel | launch | access | fill | event | slot | cargo
  /-- the completion store of LDONE is on its way (R379) -/
  | done
  /-- ABSET waits for the commands pushed before place `ord`; `carried` are the bytes of later ones that have completed (R274) -/
  | phase (n : Fin 8) (ord carried : Nat)
  /-- CBSET waits for the commands pushed before place `ord` (R269) -/
  | config (n : Fin 8) (ord : Nat)
  deriving DecidableEq, Repr

/-- The wait in which a stream's next word stands (R124, R126, R127, R134). -/
inductive Wait where
  | pop (q : Fin 16)
  | push (q : Fin 16)
  | result
  | prepared
  | start
  | join
  | gbar (n : Fin 4) (phase : Nat)
  | ext (e : Ext)
  deriving DecidableEq, Repr

/-- A store that failed and that no FENCE has counted (R229, R230). -/
structure Failed where
  ord : Nat
  cls : Nat
  va : Nat
  /-- 32 DEADLINK, 33 REFUSED, 34 TIMEOUT -/
  why : Nat
  /-- it failed beyond its acceptance, after a FENCE below SYSTEM had ended that covers it (R231) -/
  beyond : Bool := false
  deriving DecidableEq, Repr

/-- A FENCE whose status is not written yet (R229, R264); `ord` is its place among the accesses and its ticket. -/
structure Fencing where
  mask : BitVec 16
  scope : Scope
  ord : Nat
  dst : Opnd
  deriving DecidableEq, Repr

/-- An entry of a queue (R119 to R121). `due` is the cycle at which it fills, none while load data is on its way;
`filled` the cycle in which it was filled. `rel` is the count of accesses that its push by agent `src` released (R122);
`ticket` names the access or action whose result fills it. -/
structure QEntry where
  value : Word
  token : Bool
  due : Option Nat
  filled : Option Nat
  rel : Nat
  src : Nat
  ticket : Nat
  deriving DecidableEq, Repr

/-- One engine stream (R6, R7, R8, R17, R23, R335) and what the device keeps to issue its words in order. -/
structure Stream where
  s : Vector Word 32
  k : Vector Steer 12
  l : Vector Loop 4
  /-- the loop registers, the one most recently set first (R17, LORDER of R346) -/
  order : List (Fin 4)
  pc : Nat
  cause : Word
  epc : Word
  tval : Word
  hvecEn : Bool
  active : Bool
  hvecTarget : BitVec 13
  exited : Bool
  /-- the stream has been started and has an image -/
  running : Bool
  /-- the tag of its image (R90, R115) -/
  tag : Nat
  /-- the index of the last word issued (R15) -/
  last : Nat
  /-- p + 1 of R10 -/
  bound : Nat
  /-- the least cycle of the first word of a handler and of the word after ERET (R336, R338) -/
  least : Nat
  /-- registers whose result is not readable before the given cycle (R44, R123) -/
  busy : List (RegId × Nat)
  wait : Option Wait
  /-- a trap of this stream went to the Bureau and is not answered (R339) -/
  stopped : Bool
  /-- the record of that trap, until what the bank has issued has completed (R339 steps 2 and 3) -/
  record : Option Record := none
  failed : List Failed
  fences : List Fencing
  /-- agents whose stores the stream has acquired, with the count of accesses up to which it has (R122, R127, R134) -/
  acq : Tbl Nat
  /-- the entries popped since the oldest access in flight that can still trap, each with the count of accesses at its pop -/
  pops : List (Nat × Fin 16 × QEntry) := []
  deriving DecidableEq, Repr

/-! ## A context bank -/

/-- A circular buffer: CBCFGn and CBCNTn (R196). -/
structure CBuf where
  base : Nat
  slot : Nat
  count : Nat
  taken : Nat
  done : Nat
  put : Nat
  /-- slots released in this cycle: they can be given to a command from the next (R271) -/
  freed : Nat := 0
  deriving DecidableEq, Repr

/-- A region-map entry (R197). FILLED and KEYTAG by granule, WRITTEN as the list of written byte offsets. -/
structure MapEntry where
  valid : Bool
  vabase : Nat
  spbase : Nat
  len : Nat
  rw : Bool
  cls : Fin 16
  /-- the filled granules, with key slot and generation -/
  filled : Tbl (Nat × Nat)
  written : List Nat
  deriving DecidableEq, Repr

/-- Who asked for a write-back that is in progress (R199). -/
inductive WbBy where
  | rsync | rmap | runmap | endTask | evict
  /-- the launch unit, for the bytes that a parent hands over (R173) -/
  | hand
  deriving DecidableEq, Repr

/-- A write-back in progress: the entries left, the bytes sent, and the VA ranges to which it keeps. -/
structure Writeback where
  by_ : WbBy
  left : List (Fin 16)
  sent : Nat
  /-- stopped on a fault whose record is not answered -/
  stopped : Bool
  only : Option (List (Nat × Nat)) := none
  deriving DecidableEq, Repr

/-- One level of a nest, or the pitches (R313, R318). -/
structure Level where
  bound : BitVec 16
  sa : BitVec 32
  sb : BitVec 32
  sc : BitVec 32
  deriving DecidableEq, Repr

/-- A panel configuration (R316): levels 0 to 5 and 6, the pitches; VAs; FN of NFMT, NDRN and NGO; CLS. -/
structure Nest where
  lev : Vector Level 7
  abase : Word
  bbase : Word
  cbase : Word
  scale : Word
  fmt : Nat
  drn : Nat
  go : Nat
  cls : Nat
  deriving DecidableEq, Repr

/-- The vector state of a bank (R136) with the flags and LFSRs of R106 to R111. -/
structure VecState where
  /-- v0 to v31, then p32 to p63 -/
  v : Vector VecReg 64
  vrot : BitVec 5
  gates : BitVec 8
  m : Vector MaskReg 8
  /-- the mask stack, top first -/
  stack : List MaskReg
  vflags : BitVec 6
  ftz : Bool
  srseed : BitVec 16
  /-- the lane LFSRs that have stepped since seeding -/
  lanes : Tbl (BitVec 16)
  deriving DecidableEq, Repr

/-- A fill of a granule that a word of stream `sid` has asked for (R198); `ord` is the place of the asking access in program
order, `fault` the cause and subcode where its home refused it. -/
structure Fill where
  entry : Nat
  granule : Nat
  sid : StreamId
  ord : Nat
  fault : Option (Nat × Nat)
  deriving DecidableEq, Repr

/-- The iteration that a bank holds (R163, R177, R178). -/
structure Iter where
  /-- the launch-sequence number of its task -/
  task : Nat
  ord : Nat
  idx : List Nat
  space : Nat
  lock : Bool
  regchk : Bool
  banks2 : Bool
  deriving DecidableEq, Repr

/-- An engine command (R280, R281). -/
structure Cmd where
  bank : Nat
  task : Nat
  ord : Nat
  word : Word
  instr : Instr
  /-- the values of d, a, b and c at the push -/
  vals : List Word
  /-- the values of the registers b + 1, b + 2, c + 1, c + 2 at the push (R346) -/
  more : List Word
  /-- accesses of the pusher that its push released -/
  rel : Nat
  accepted : Bool
  /-- before acceptance, the counted cycle from which the pusher's own writes are readable (R190); later unused -/
  from_ : Nat
  /-- the operands in memory have been read (R287, R295, R299) -/
  checked : Bool
  /-- the word's index, the loop registers and the popped entries as they were before its issue (R299) -/
  epc : Nat
  loops : Vector Loop 4
  undo : List (Fin 16 × QEntry)
  /-- the destination: d, or the base of the slot taken; with CB, the counter value of the slot -/
  dest : Word
  slot : Option Nat
  bfmt : Vector Word 16
  srseed : BitVec 16
  lanes : Tbl (BitVec 16)
  /-- the offset OFF of R298 -/
  off : Nat
  /-- what the walk of the command carries from step to step, and what it read at acceptance -/
  walk : List Nat
  data : List Nat
  /-- block-table entries captured, by VA (R296) -/
  blocks : List Nat
  /-- reply COUNT, and the bytes for the barrier (R283) -/
  count : Nat
  bytes : Nat
  flags : BitVec 6
  status : Nat
  ovf : Bool
  long : Bool
  short : Bool
  hole : Bool
  held : Bool
  done : Bool
  /-- key slots that it has translated under, and whether it has translated at all (R351, R352) -/
  slots : List Nat
  space : Nat
  spaceGen : Nat
  /-- stopped on a fault whose record is not answered -/
  stopped : Bool
  /-- the region-map entries that were valid at its acceptance (R268) -/
  maps : List Nat := []
  /-- the W of its last step (R288, R298) -/
  since : Nat := 0
  /-- the commands accepted before it, by `ord`, whose accesses to the same bytes its own follow (R304) -/
  after : List Nat := []
  /-- distant bytes that it has read and written, counted at its completion (R207) -/
  far : Nat := 0
  /-- destination bytes that failed (R283, R288) -/
  lost : Nat := 0
  /-- how its next access outside the core fails: 0 not, 32 to 35 as in `refusalCause` (R298, R355, R367) -/
  hurt : Nat := 0
  /-- flit credits that its next step, which waits for more, has taken, by port (R365) -/
  paid : Tbl Nat := []
  deriving DecidableEq, Repr

/-- One context bank (R117). -/
structure Bank where
  a : Stream
  x : Stream
  n : Stream
  vec : VecState
  q : Vector (List QEntry) 16
  cycle : Nat
  slip : Nat
  pend : Bool
  bfmt : Vector Word 16
  cb : Vector CBuf 8
  map : Vector MapEntry 16
  abexp : Vector (BitVec 40) 8
  abarr : Vector (BitVec 40) 8
  ffa : BitVec 56
  pstat : BitVec 8
  pmode : BitVec 2
  side : Bool
  shadow : Nest
  wheelFirst : Nat
  wheelStride : Nat
  wheelCount : Nat
  /-- the first W not yet excluded by an SC operation that took its position (R236) -/
  wheelNext : Nat
  /-- arrivals of this member at the barriers of its group slots; none without a descriptor (R132, R134) -/
  phase : Vector (Option Nat) 4
  /-- SAME masks of the group slots -/
  same : Vector Nat 4
  iter : Option Iter
  /-- the streams have been started (R118) -/
  started : Bool
  stray : Bool
  /-- LAUNCH and GRAPH commands with RPL = 1 whose reply is due (R181) -/
  launches : Nat
  /-- nests with RPL = 1 whose reply is due (R323) -/
  nests : Nat
  /-- the cycle in which the bank stopped on a trap whose record is not answered (R339) -/
  stopped : Option Nat
  /-- the cycle of the bank at the RESUME that made it ready again while the other bank issues (R340, R395) -/
  resumed : Option Nat
  /-- the fills that are asked for and not done (R198) -/
  fills : List Fill
  wb : Option Writeback
  /-- under LOCK, the counted clock stands in this cycle (R124) -/
  stand : Bool
  /-- entries of q0 to q15 popped in this cycle: their places are free from the next (R121) -/
  popped : List (Fin 16)
  /-- the save area that the iteration comes back from (R348) -/
  restore : Option Nat
  /-- the queue that evicts the iteration, and the save area it goes to (R344, R345) -/
  evict : Option (Nat × Nat)
  /-- the commands that the eviction stopped or removed, in push order (R345 step 2) -/
  reissue : List Cmd
  /-- the queue that takes the bank when its iteration, which has exited, retires (R344) -/
  heir : Option Nat := none
  deriving DecidableEq, Repr

/-! ## A core: engines, panel, scratchpad -/

/-- A home of a page, and where a byte of it stands (R201, R203): home 0 HBM, 1 HOST, 2 PEER; 3 for a byte of another
core's scratchpad, its address in the model's memory; 4 for a byte of a core control window (R185); and 5 for a byte of the
core's own scratchpad behind a granule of a region map that is not filled, with the entry in `slot` and the granule in `gen`
(R198). -/
structure Place where
  home : Nat
  pa : Nat
  slot : Nat
  gen : Nat
  codec : Nat
  deriving DecidableEq, Repr

/-- A byte of the core's own banks that a write leaves, by its offset in the scratchpad; of a 4-bit element one nibble: 0 the
whole byte, 1 the low nibble, 2 the high one (R157). -/
structure OwnCell where
  off : Nat
  nib : Nat
  byte : Byte
  deriving DecidableEq, Repr

/-- A write to the core's own banks that is not readable yet (R189): by which bank and stream, its place in program order, its
class, whether through a region map, the counted cycle of that bank from which it is readable, and what it leaves. -/
structure Early where
  bank : Nat
  by_ : StreamId
  ord : Nat := 0
  cls : Nat := 0
  mapped : Bool := false
  due : Nat
  cells : List OwnCell
  deriving DecidableEq, Repr

/-- One run in the panel (R305): its nest and indices, the k-steps fed, the copy's sums row by row with the corrections,
exponents and special bits, the BFMT registers captured at the start of its feed, and the flags it has raised. -/
structure Run where
  nest : Nat
  idx : List Nat
  k : Nat
  s : List Nat
  rsq : List Nat
  csq : List Nat
  epA : List Int
  epB : List Int
  specA : List Bool
  specB : List Bool
  bfmt : Vector Word 16
  flags : BitVec 8
  deriving DecidableEq, Repr

/-- A nest on the panel (R316, R322). -/
structure ActiveNest where
  id : Nat
  cfg : Nest
  bank : Nat
  word : Word
  /-- the accesses that NGO released, and the counted cycle from which the pusher's own writes are readable -/
  rel : Nat
  from_ : Nat
  /-- the scale vector, once it has been read -/
  scales : Option (List Nat)
  /-- the run to feed next (PROG); none when every run is fed -/
  next : Option (List Nat)
  drained : Nat
  flags : BitVec 8
  status : Nat
  /-- the region-map entries that were valid when NGO copied the configuration (R268) -/
  maps : List Nat := []
  /-- the read of the scale vector stopped on a fault whose record is not answered (R321, R327) -/
  scaleStop : Bool := false
  deriving DecidableEq, Repr

/-- The panel as a core sees it (R305, R316, R325, R329). -/
structure Panel where
  /-- the active nest last; before it, nests that are fed and not drained -/
  nests : List ActiveNest
  pending : Option ActiveNest
  /-- the run that is being fed, the runs fed and not converted, oldest first, and the converted run whose C elements are
  being written, with the number of the next element -/
  cur : Option Run
  fed : List Run
  out : Option (Run × Nat)
  /-- rails and stiles of the most recent run whose conversion has ended, and its bank -/
  lastRsq : List Nat
  lastCsq : List Nat
  lastBank : Nat
  /-- NSAVE has stopped the feed -/
  saving : Bool
  /-- stopped on a fault whose record is not answered -/
  feedStop : Bool
  drainStop : Bool
  /-- W + 1 of the cycle since which the next access of the feed, and of the drain, waits; 0 where it does not (R322, R327) -/
  feedWait : Nat := 0
  drainWait : Nat := 0
  /-- how the next access of the step under way fails: 0 not, 33 to 35 as in `refusalCause` -/
  hurt : Nat := 0
  /-- flit credits that the next step of the feed, and of the drain, has taken while it waits for more, by port (R365) -/
  feedPaid : Tbl Nat := []
  drainPaid : Tbl Nat := []
  /-- distant bytes of the nests on the panel, by nest, counted at the completion (R207) -/
  far : Tbl Nat := []
  deriving DecidableEq, Repr

/-- A resident code image of one stream of a core (R115). -/
structure Image where
  sid : StreamId
  tag : Nat
  va : Nat
  space : Nat
  words : List Word
  /-- words the image has; it is resident when it holds as many -/
  len : Nat
  use : Nat
  /-- the loader stopped on a fault at this word -/
  stopped : Bool
  /-- the bank whose iteration it is loaded for (R116, R342) -/
  bank : Nat := 0
  deriving DecidableEq, Repr

/-- One core but for the bank in hand. -/
structure CoreRec where
  other : Bank
  /-- the bank that issues (R117) -/
  issuing : Nat
  /-- the first cycle of W in which it issues after the other bank has retired -/
  handed : Nat
  early : List Early
  images : List Image
  copyQ : List Cmd
  indexQ : List Cmd
  panel : Panel
  /-- BYTES of tag t at 2t, STALL at 2t + 1 (R207) -/
  hot : Tbl Nat
  mappedOut : Bool
  /-- the queue for which a gang has reserved the core (R175, R344) -/
  reserved : Option Nat
  deriving DecidableEq, Repr

/-! ## Accesses in flight -/

/-- Where the value of a load goes. -/
inductive Dest where
  | scalar (d : Opnd)
  | vec (p : Fin 64)
  | cargo (c : Fin 16)
  | none
  deriving DecidableEq, Repr

/-- What an access in a class lane does (R226, R227). -/
inductive Req where
  | load (size : Nat) (sgn : Bool)
  | store
  | vload (bits : Nat)
  | vstore
  /-- a store of a write-back that an instruction of the A stream makes (R199, R267) -/
  | writeback
  | amo (op : AmoOp) (size : Nat) (y : Word)
  | cas (size : Nat) (x y : Word)
  | dget (b c : Opnd)
  | dgetv (mc : Fin 8)
  | dcls (ty : Ty) (u : Word) (md : Fin 8)
  | dredo
  deriving DecidableEq, Repr

/-- One part of an access: its VA, its place (none for a block without one), the bytes to store, the bit offset and count
for a nibble, and a number for the element or block. -/
structure Piece where
  num : Nat
  va : Nat
  place : Option Place
  n : Nat
  bytes : List Byte
  /-- for a 4-bit element: 0 both nibbles, 1 the low one, 2 the high one -/
  nib : Nat
  deriving DecidableEq, Repr

/-- An access in its class lane. `sent` to its place of performance; `todo` the parts that have not performed; `got` the
bytes or results read, by part; `acked` once the acknowledgement is in. -/
structure Access where
  agent : Agent
  task : Nat
  ord : Nat
  cls : Nat
  va : Nat
  epc : Nat
  req : Req
  dest : Dest
  todo : List Piece
  got : List (Nat × List Byte)
  /-- SC: the scope it names, and the W taken (R236) -/
  sc : Option (Scope × Option Nat)
  /-- entries that the word popped, which a late trap restores (R12) -/
  undo : List (Fin 16 × QEntry)
  /-- failed: CAUSE code and SUB for a load; the status bit for a store -/
  fail : Option (Nat × Nat)
  /-- the key slots and the generation of the address space it captured -/
  space : Nat
  spaceGen : Nat
  /-- the W of its issue (R230, R232) -/
  at_ : Nat := 0
  /-- a HOST or PEER store that the controller or the link engine has accepted: it has performed at CORE to DEVICE (R226) -/
  accepted : Bool := false
  /-- a FENCE below SYSTEM that covers it has ended (R231) -/
  beyond : Bool := false
  /-- an access whose outcome goes back to its stream: the stream and its vector state as they stood at the word (R22) -/
  snap : Option (Stream × VecState) := none
  /-- distant bytes that it has read or written, counted at its completion (R207) -/
  far : Nat := 0
  deriving DecidableEq, Repr

/-! ## Digests -/

/-- An entry of the digest directory (R210). -/
structure DirEntry where
  handle : Nat
  space : Nat
  va : Nat
  ext : Nat
  kind : Nat
  ty : Ty
  grain : Nat
  seed : Nat
  dim : Nat
  slot : Nat
  gen : Nat
  deriving DecidableEq, Repr

/-- A digest slot (R211), kept by the PA of its block. -/
structure DSlot where
  handle : Nat
  lo : Word
  hi : Word
  tag : BitVec 4
  /-- the slot or its tag holds an uncorrectable error (R216) -/
  bad : Bool := false
  deriving DecidableEq, Repr

/-! ## The launch unit -/

/-- A region of a task (R165). -/
structure Region where
  base : Nat
  ext : Nat
  rd : Bool
  wr : Bool
  cls : Nat
  deriving DecidableEq, Repr

/-- Where the reply of a launch goes (R181, R182). -/
inductive ReplyTo where
  | nowhere
  | bank (core bank task ord : Nat)
  | done (va space queue : Nat)
  | graph (inst : Nat)
  deriving DecidableEq, Repr

/-- An accepted task, or a guarded read (R163, R170, R172). -/
structure Task where
  seq : Nat
  space : Nat
  record : Nat
  guarded : Bool
  queue : Nat
  prio : Nat
  flags : Nat
  wheel : Nat
  args : Nat
  /-- image references: VA, tag, length of A, X, N -/
  imgs : List (Nat × Nat × Nat)
  bounds : List Nat
  order : List Nat
  regions : List Region
  /-- group slot and SAME mask -/
  groups : List (Nat × Nat)
  held : Bool
  /-- edges not yet released: the launch-sequence numbers of the earlier tasks (R172) -/
  edges : List Nat
  /-- the byte ranges that its children have handed over to them (R173): first byte, bytes -/
  handed : List (Nat × Nat)
  parent : Option Nat
  /-- the ordinals placed; retired -/
  placed : List Nat
  retired : List Nat
  /-- saved iterations, oldest first: ordinal and save area (R135) -/
  saved : List (Nat × Nat)
  stray : Bool
  aborted : Bool
  complete : Bool
  reply : ReplyTo
  /-- what a LAUNCHREF record of it holds (R342) -/
  core : Nat
  bank : Nat
  at_ : Nat
  word : Word
  deriving DecidableEq, Repr

/-- A launch handed to the launch unit and not accepted yet (R167, R181, R182). -/
structure LaunchReq where
  graph : Bool
  va : Nat
  arg : Word
  space : Nat
  parent : Option Nat
  core : Nat
  bank : Nat
  word : Word
  /-- the VA that a LAUNCHREF record names (R342) -/
  at_ : Nat
  /-- the accesses that the launching stream released, its own and those it had acquired (R181, R173) -/
  rel : Nat
  acq : Tbl Nat
  reply : ReplyTo
  stopped : Bool
  deriving DecidableEq, Repr

/-- A reply that is due and not delivered (R180, R181, R182): with what a LAUNCHREF record of it holds. -/
structure Reply where
  target : ReplyTo
  graph : Bool
  seq : Nat
  /-- POS of a LAUNCHREF record: the number that the launch drew, or 0 -/
  number : Nat
  stray : Bool
  status : Nat
  space : Nat
  core : Nat
  bank : Nat
  at_ : Nat
  word : Word
  deriving DecidableEq, Repr

/-- A graph instance (R169, R171). -/
structure GraphInst where
  id : Nat
  space : Nat
  va : Nat
  n : Nat
  node : Nat
  stack : List (Nat × Nat)
  /-- the guarded read it waits for, and its value once read -/
  reading : Option Nat
  value : Option Word
  ended : Bool
  status : Nat
  /-- the number of its first TASK node, and the node where it was first refused -/
  first : Option Nat
  badVa : Nat
  /-- the launch-sequence number that was drawn there, or 0 (R342) -/
  badNumber : Nat := 0
  /-- the GRAPH word where the walk itself was refused, 0 where a task that it launched was (R342) -/
  badWord : Word := 0
  /-- stopped on a fault whose record is not answered -/
  stopped : Bool
  stray : Bool
  reply : ReplyTo
  core : Nat
  bank : Nat
  word : Word
  deriving DecidableEq, Repr

/-! ## Links, Bureau, clusters -/

/-- A Guharlink port (R364 to R372). -/
structure Port where
  lanes : Nat
  live : Bool
  credits : Nat
  rq : List (Option (List Byte × Word))
  /-- the cargo that has arrived in the slot under way (R369, R372) -/
  came : Option (List Byte × Word) := none
  deriving DecidableEq, Repr

/-- A cargo queued for its slot (R375). -/
structure Cargo where
  port : Nat
  slot : Nat
  bytes : List Byte
  side : Word
  deriving DecidableEq, Repr

/-- A link engine with its L stream (R371 to R379, R387). -/
structure Link where
  st : Stream
  cycle : Nat
  active : Bool
  code : List Word
  period : Nat
  /-- cargo registers cr0 to cr15 of 4 KiB -/
  cr : Vector CargoReg 16
  lflags : BitVec 9
  cur : Nat
  f0 : Nat
  space : Nat
  due : Nat
  doneVa : Word
  /-- W at which the completion store was sent (R379) -/
  doneSince : Nat := 0
  /-- a mem access of the run has failed: it never performs (R231, R379) -/
  lost : Bool := false
  queued : List Cargo
  lanes : Tbl (BitVec 16)
  /-- LRASd, LF0d, LDUEd, LDONEVAd as written, and SWLOADd, SWPERd -/
  lras : Word
  lf0 : Word
  ldue : Word
  ldoneva : Word
  swBusy : Bool
  swRefused : Option Nat
  swPa : Word
  swper : Word
  routes : Tbl (List Nat)
  deriving DecidableEq, Repr

/-- An address space (R202, R350, R387). -/
structure Space where
  root : Word
  gen : Nat
  priv : Word
  deriving DecidableEq, Repr

/-- A launch queue with its ring (R174, R182, R387). -/
structure LQueue where
  tickets : Nat
  preempt : Bool
  jig : Nat
  ringVa : Word
  ringCfg : Word
  cons : Nat
  prod : Nat
  /-- stopped on a fault whose record is not answered -/
  stopped : Bool
  deriving DecidableEq, Repr

/-- A key slot (R350). -/
structure Key where
  key : List Word
  gen : Nat
  deriving DecidableEq, Repr

/-- KILL and BUMP (R387): busy, the writes held, the last completed one. -/
structure Action where
  busy : Option Nat
  held : List Nat
  last : Nat
  lastGen : Nat
  deriving DecidableEq, Repr

/-- What a retirement waits for (R243): the operations that captured a key slot, those that captured a generation of an
address space, or the accepted commands of the bank in the named engines; ECANCEL knows its result already. -/
inductive Retiring where
  | key (slot : Nat)
  | gen (space : Nat)
  | cancel (eng : EngSel) (removed : Nat)
  deriving DecidableEq, Repr

/-- A KEYKILL, GENBUMP or ECANCEL of a stream whose result is not written yet; `ord` is its place in program order. -/
structure Retire where
  agent : Agent
  ord : Nat
  what : Retiring
  dst : Opnd
  deriving DecidableEq, Repr

/-- A loaded image (R92, R95). -/
structure Loaded where
  number : Nat
  space : Nat
  /-- VA and size of its LOAD sections, and of those that hold task records -/
  sections : List (Nat × Nat)
  records : List (Nat × Nat)
  /-- the frames of 4 KiB it holds -/
  frames : List Nat
  /-- its pages are unmapped, and the generation is being raised -/
  unloading : Bool
  deriving DecidableEq, Repr

/-- A page that the Bureau moves off a row group (R355): its address space and VA, its table entry and the two words of it, the old and the new
frame. -/
structure Move where
  space : Nat
  va : Nat
  entry : Nat
  w0 : Nat
  w1 : Nat
  old : Nat
  new : Nat
  deriving DecidableEq, Repr

/-- The Bureau's registers and mailbox (R386 to R393). -/
structure Bureau where
  ready0 : Word
  ready1 : Word
  bootcfg : Word
  errthr : Nat
  keyq : Vector Word 4
  fqtable : Word
  fqring : Word
  fqprod : Nat
  /-- held record slots -/
  held : Tbl Record
  posts : List Record
  apbase : Word
  apas : Word
  kill : Action
  bump : Action
  meas : Vector (Option Word) 24
  resetcnt : Nat
  mbState : Word
  reqseq : Word
  rspseq : Word
  drops : Nat
  request : List Byte
  response : List Byte
  /-- a request has been taken and is not answered (R391) -/
  inHand : Bool := false
  /-- BAR accesses discarded and counted (R383) -/
  discarded : Nat
  loadNumber : Nat
  loads : List Loaded
  /-- events told: resource kind, die, index (ERRLOG of R392) -/
  errlog : List (Nat × Nat × Nat)
  /-- corrected errors of this window, by resource -/
  errors : Tbl Nat
  spares : Tbl Nat
  /-- the HBM row groups, by die and index, whose frames are not allocated any more, and the pages on their way off them (R355) -/
  badRows : List (Nat × Nat) := []
  moves : List Move := []
  /-- the page tables of 8 KiB that loads have made; they stay in use (log 44, DESIGN CHOICE) -/
  tables : List Nat := []
  deriving DecidableEq, Repr

/-- A cluster's clock (R395, R397): its step in units of 100 MHz, and the phase of its clock against W. -/
structure Cluster where
  step : Nat
  stopped : Bool
  acc : Nat
  ticked : Bool
  stretch : Bool
  deriving DecidableEq, Repr

/-- What a save area does not hold of an iteration: of each command in the re-issue list, the value of the register behind field a and the word
index (R349); of each stream, the pc in full, which can be 8,192 where the area has 13 bits, and the last word issued (R15); and whether the scale
vector of the saved panel is still to be read. -/
structure AreaNote where
  cmds : List (Word × Nat)
  pcs : List (Nat × Nat)
  /-- the active nest of the saved panel has not read its scale vector (R321) -/
  unread : Bool := false
  deriving DecidableEq, Repr

/-- A cached translation (R204): space and generation, first VA, page size, and the leaf entry's two words. -/
structure TlbEntry where
  space : Nat
  gen : Nat
  va : Nat
  size : Nat
  w0 : Word
  w1 : Word
  deriving DecidableEq, Repr

/-- An entry of a home controller's forward table (R239): the home PA of the granule, the producer core's scratchpad offset that
holds the same bytes, and the key that they are read under. -/
structure Forward where
  pa : Nat
  core : Nat
  off : Nat
  slot : Nat
  gen : Nat
  deriving DecidableEq, Repr

/-- What the outside saw (log 64, DESIGN CHOICE). -/
inductive Out where
  | msix (vector : Nat)
  | cargo (c : Cargo)
  | bar (bytes : List Byte)
  | peer (bytes : List Byte)
  /-- the answer to a load or an atomic step of a Bureau core -/
  | bureau (bytes : List Byte)
  | unsupported
  | aborted
  | told (what : Nat)
  deriving DecidableEq, Repr

/-- The whole device. The core, bank and die in hand are unpacked; the others are parked in tables. -/
structure State where
  /-- the stream, bank, core and die in hand -/
  sid : StreamId
  bankNo : Nat
  bank : Bank
  coreNo : Nat
  core : CoreRec
  /-- the other cores, each with its bank 0; `CoreRec.other` is then bank 1 -/
  cores : Tbl (CoreRec × Bank)
  dieNo : Nat
  link : Link
  links : Tbl Link
  mem : Memory
  /-- key slot and generation under which a 64-byte unit of HBM was last written, by the unit's number; none for a unit that no
  access through a page has written (R2, R93, R350) -/
  tags : Tbl (Nat × Nat)
  tlb : List TlbEntry
  flight : List Access
  /-- accesses issued so far (the program order of R227) -/
  issued : Nat
  retires : List Retire
  dir : List DirEntry
  slots : Tbl DSlot
  handles : Nat
  /-- the PAs of registered blocks whose slots are still to be computed (R210) -/
  redos : List Nat := []
  /-- block-table caches: die, space, VA, entry; most recently used first (R296) -/
  btc : List (Nat × Nat × Nat × Word)
  /-- forward table: home PA of the granule, producer core, scratchpad offset, key slot and generation; newest first (R239) -/
  forward : List Forward
  lotto : BitVec 32
  draws : BitVec 32
  seq : Nat
  tasks : List Task
  launches : List LaunchReq
  replies : List Reply
  graphs : List GraphInst
  graphId : Nat
  queues : Tbl LQueue
  groupFree : Nat
  spaces : Tbl Space
  keys : Tbl Key
  bureau : Bureau
  ports : Tbl Port
  fslot : Nat
  fphase : Nat
  w : Nat
  clusters : Tbl Cluster
  uses : Nat
  outs : List Out
  /-- what the save areas do not hold, by area (R15, R349) -/
  beside : Tbl AreaNote := []
  /-- the model's own: the places, as ranges of `Place.loc`, that hold an uncorrectable error now (R355) (log 86, DESIGN CHOICE) -/
  flaws : List (Nat × Nat) := []
  /-- the model's own: inputs from outside still to come, each with the cycles of W between the one before it and itself, the
  steps of other agents that come next, and whose turn it is (log 2, DESIGN CHOICE) -/
  inputs : List (Nat × Instr)
  /-- the model's own: host accesses through BAR2 that wait for a flit credit, and the host's writes behind them, oldest first -/
  hostWait : List Instr := []
  agenda : List Instr
  turn : Nat
  deriving DecidableEq, Repr

/-! ## Reset -/

def Steer.zero : Steer := { set := false, value := false, target := 0, ready := 0 }

def Loop.zero : Loop := { count := 0, start := 0, stop := 0 }

/-- A stream at START (R6), before its preloads. -/
def Stream.zero : Stream :=
  { s := Vector.replicate 32 0, k := Vector.replicate 12 Steer.zero, l := Vector.replicate 4 Loop.zero, order := [0, 1, 2, 3]
    pc := 0, cause := 0, epc := 0, tval := 0, hvecEn := false, active := false, hvecTarget := 0, exited := false
    running := false, tag := 0, last := 0, bound := 0, least := 0, busy := [], wait := none, stopped := false, failed := []
    fences := [], acq := [] }

def CBuf.zero : CBuf := { base := 0, slot := 0, count := 0, taken := 0, done := 0, put := 0 }

def MapEntry.zero : MapEntry :=
  { valid := false, vabase := 0, spbase := 0, len := 0, rw := false, cls := 0, filled := [], written := [] }

/-- The shadow configuration at placement (R316). -/
def Nest.zero : Nest :=
  { lev := Vector.replicate 7 { bound := 1, sa := 0, sb := 0, sc := 0 }, abase := 0, bbase := 0, cbase := 0, scale := 0
    fmt := 0, drn := 0, go := 0, cls := 0 }

/-- Vector state at START (R136). -/
def VecState.zero : VecState :=
  { v := Vector.replicate 64 0, vrot := 0, gates := 0, m := Vector.replicate 8 0, stack := [BitVec.allOnes 1024], vflags := 0
    ftz := false, srseed := 0, lanes := [] }

/-- An empty bank, and every register of a bank at START. -/
def Bank.zero : Bank :=
  { a := Stream.zero, x := Stream.zero, n := Stream.zero, vec := VecState.zero, q := Vector.replicate 16 [], cycle := 0
    slip := 0, pend := false, bfmt := Vector.replicate 16 0, cb := Vector.replicate 8 CBuf.zero
    map := Vector.replicate 16 MapEntry.zero, abexp := Vector.replicate 8 0, abarr := Vector.replicate 8 0, ffa := 0
    pstat := 0, pmode := 0, side := false, shadow := Nest.zero, wheelFirst := 0, wheelStride := 0, wheelCount := 0
    wheelNext := 0, phase := Vector.replicate 4 none, same := Vector.replicate 4 0, iter := none, started := false
    stray := false, launches := 0, nests := 0, stopped := none, resumed := none, fills := [], wb := none, stand := false
    popped := [], restore := none, evict := none, reissue := [] }

def Panel.zero : Panel :=
  { nests := [], pending := none, cur := none, fed := [], out := none, lastRsq := [], lastCsq := [], lastBank := 0
    saving := false, feedStop := false, drainStop := false }

def CoreRec.zero : CoreRec :=
  { other := Bank.zero, issuing := 0, handed := 0, early := [], images := [], copyQ := [], indexQ := [], panel := Panel.zero, hot := []
    mappedOut := false, reserved := none }

/-- An idle link engine; its registers of R387 reset to 0. -/
def Link.zero : Link :=
  { st := Stream.zero, cycle := 0, active := false, code := [], period := 0, cr := Vector.replicate 16 0, lflags := 0, cur := 0, f0 := 0
    space := 0, due := 0, doneVa := 0, queued := [], lanes := [], lras := 0, lf0 := 0, ldue := 0, ldoneva := 0
    swBusy := false, swRefused := none, swPa := 0, swper := 0, routes := [] }

def Space.zero : Space := { root := 0, gen := 0, priv := 0 }

/-- Launch queue q at reset: JIG is q mod 16 (R387). -/
def LQueue.zero (q : Nat) : LQueue :=
  { tickets := 0, preempt := false, jig := q % 16, ringVa := 0, ringCfg := 0, cons := 0, prod := 0, stopped := false }

def Key.zero : Key := { key := [0, 0, 0, 0], gen := 0 }

/-- A port before its link has trained (R367). -/
def Port.zero : Port := { lanes := 0, live := false, credits := 32, rq := [] }

/-- A cluster at the full rate (R395). -/
def Cluster.zero : Cluster := { step := 15, stopped := false, acc := 0, ticked := true, stretch := false }

def Action.zero : Action := { busy := none, held := [], last := 0, lastGen := 0 }

def Bureau.zero : Bureau :=
  { ready0 := 0, ready1 := 0, bootcfg := 0, errthr := 8, keyq := Vector.replicate 4 0, fqtable := 0, fqring := 0, fqprod := 0
    held := [], posts := [], apbase := 0, apas := 0, kill := Action.zero, bump := Action.zero
    meas := Vector.replicate 24 none, resetcnt := 1, mbState := 0, reqseq := 0, rspseq := 0, drops := 0, request := []
    response := [], discarded := 0, loadNumber := 1, loads := [], errlog := [], errors := [], spares := [] }

/-- The machine right after reset: every field at the value that the spec states for reset, and where it states none at
the value of log 1, 2 or 4 (log 4, DESIGN CHOICE). -/
def State.reset : State :=
  { sid := .A, bankNo := 0, bank := Bank.zero, coreNo := 0, core := CoreRec.zero, cores := [], dieNo := 0, link := Link.zero
    links := [], mem := [], tags := [], tlb := [], flight := [], issued := 0, retires := [], dir := [], slots := []
    handles := 0, btc := [], forward := [], lotto := 1, draws := 0, seq := 0, tasks := [], launches := [], replies := [], graphs := []
    graphId := 0, queues := [], groupFree := 256, spaces := [], keys := [], bureau := Bureau.zero, ports := [], fslot := 0
    fphase := 0, w := 0, clusters := [], uses := 0, outs := [], inputs := [], agenda := [], turn := 0 }

end Sys2Proof.Machine
end

