-- ==== Sys2Proof/Machine/Tbl.lean ====
section
/-! DEFINITION. Sparse tables with rising keys, byte-addressed memory in its canonical form, and byte order. -/

namespace Sys2Proof.Machine

/-! ## Tables -/

/-- The entry at key `k`. -/
def Tbl.get? {α : Type} : Tbl α → Nat → Option α
  | [], _ => none
  | (a, x) :: t, k => if a = k then some x else if k < a then none else Tbl.get? t k

/-- The entry at key `k`, or `dflt`. -/
def Tbl.get {α : Type} (t : Tbl α) (k : Nat) (dflt : α) : α := (Tbl.get? t k).getD dflt

/-- Set the entry at key `k`. -/
def Tbl.put {α : Type} : Tbl α → Nat → α → Tbl α
  | [], k, y => [(k, y)]
  | (a, x) :: t, k, y => if a = k then (k, y) :: t else if k < a then (k, y) :: (a, x) :: t else (a, x) :: Tbl.put t k y

/-- Remove the entry at key `k`. -/
def Tbl.del {α : Type} : Tbl α → Nat → Tbl α
  | [], _ => []
  | (a, x) :: t, k => if a = k then t else if k < a then (a, x) :: t else (a, x) :: Tbl.del t k

/-! ## Memory -/

/-- The byte at `a`; 0 where nothing is listed (log 1, DESIGN CHOICE). -/
def Memory.read (m : Memory) (a : Nat) : Byte := Tbl.get m a 0

/-- Write the byte at `a`; a 0 leaves no entry, so that equal memories are equal lists. -/
def Memory.write (m : Memory) (a : Nat) (b : Byte) : Memory := if b = 0 then Tbl.del m a else Tbl.put m a b

/-- The canonical form: addresses strictly rising, and no listed byte is 0. -/
def Memory.wf : Memory → Bool
  | [] => true
  | [(_, b)] => b != 0
  | (a, b) :: (a', b') :: t => decide (a < a') && b != 0 && Memory.wf ((a', b') :: t)

/-- `n` bytes from `a` upward. -/
def Memory.readN (m : Memory) (a : Nat) : Nat → List Byte
  | 0 => []
  | n + 1 => m.read a :: Memory.readN m (a + 1) n

/-- Write bytes from `a` upward. -/
def Memory.writeN (m : Memory) (a : Nat) : List Byte → Memory
  | [] => m
  | b :: t => Memory.writeN (m.write a b) (a + 1) t

/-! ## Byte order: little-endian everywhere (R9, R25, R79) -/

/-- The number that bytes hold, the first one lowest. -/
def leNat : List Byte → Nat
  | [] => 0
  | b :: t => b.toNat + 256 * leNat t

/-- The low `n` bytes of a number, lowest first. -/
def leBytes (v : Nat) : Nat → List Byte
  | 0 => []
  | n + 1 => BitVec.ofNat 8 v :: leBytes (v / 256) n

/-- Sign-extend the low `bits` bits of `v` to 64. -/
def signExt (bits v : Nat) : Word := if v % 2 ^ bits < 2 ^ (bits - 1) then BitVec.ofNat 64 (v % 2 ^ bits)
  else BitVec.ofNat 64 (2 ^ 64 - 2 ^ bits + v % 2 ^ bits)

/-- The two's complement value of the low `bits` bits of `v`. -/
def signedNat (bits v : Nat) : Int :=
  if v % 2 ^ bits < 2 ^ (bits - 1) then Int.ofNat (v % 2 ^ bits) else Int.ofNat (v % 2 ^ bits) - Int.ofNat (2 ^ bits)

/-- The pattern of an integer modulo 2^bits. -/
def patOf (bits : Nat) (e : Int) : Nat := (e % Int.ofNat (2 ^ bits)).toNat

/-- Bits `hi` down to `lo`. -/
def field (v hi lo : Nat) : Nat := v / 2 ^ lo % 2 ^ (hi - lo + 1)

/-- The smallest multiple of `a` that is not below `v`. -/
def alignUp (v a : Nat) : Nat := (v + (a - 1)) / a * a

/-- `0, 1, ..., n - 1` from `i` on. -/
def upFrom (i : Nat) : Nat → List Nat
  | 0 => []
  | n + 1 => i :: upFrom (i + 1) n

/-- Whether two byte ranges share a byte. -/
def overlaps (a n b m : Nat) : Bool := decide (a < b + m) && decide (b < a + n)

end Sys2Proof.Machine
end

