-- ==== Sys2Proof/Machine/Num.lean ====
section
/-! DEFINITION. Numbers (R96 to R114): the element types, exact values, the one rounding that every floating operation
makes, and the function units. Patterns are natural numbers below 2^bits. -/

namespace Sys2Proof.Machine

/-! ## Flags (R109): bit 5 SA, 4 NX, 3 UF, 2 OF, 1 DZ, 0 NV -/

/-- Flags that one operation raises. -/
abbrev Flags := BitVec 6

def fSA : Flags := 32#6
def fNX : Flags := 16#6
def fUF : Flags := 8#6
def fOF : Flags := 4#6
def fDZ : Flags := 2#6
def fNV : Flags := 1#6

/-- A flag raised under a condition. -/
def flagIf (p : Bool) (f : Flags) : Flags := if p then f else 0#6

/-! ## Integer types (R96, R97) -/

/-- The value of a pattern of an integer type. -/
def intOf (t : Ty) (pat : Nat) : Int := if t.isSigned then signedNat t.bits pat else Int.ofNat (pat % 2 ^ t.bits)

def intMin (t : Ty) : Int := if t.isSigned then -Int.ofNat (2 ^ (t.bits - 1)) else 0

def intMax (t : Ty) : Int := if t.isSigned then Int.ofNat (2 ^ (t.bits - 1)) - 1 else Int.ofNat (2 ^ t.bits) - 1

/-- The exact result `e` written into an integer type: wrapped, or under SAT clamped with SA (R97). -/
def intResult (t : Ty) (sat : Bool) (e : Int) : Nat × Flags :=
  if sat then
    (if e < (intMin t) then (patOf t.bits (intMin t), fSA)
     else if (intMax t) < e then (patOf t.bits (intMax t), fSA)
     else (patOf t.bits e, 0#6))
  else (patOf t.bits e, 0#6)

/-! ## Floating formats (R98, R99) -/

/-- Exponent width, fraction width, bias; e4m3 has no infinity. -/
structure Fmt where
  ew : Nat
  mw : Nat
  bias : Nat
  finite : Bool
  deriving DecidableEq, Repr

def fmtFp32 : Fmt := { ew := 8, mw := 23, bias := 127, finite := false }
def fmtBf16 : Fmt := { ew := 8, mw := 7, bias := 127, finite := false }
def fmtE4m3 : Fmt := { ew := 4, mw := 3, bias := 7, finite := true }
def fmtE5m2 : Fmt := { ew := 5, mw := 2, bias := 15, finite := false }
def fmtFp64 : Fmt := { ew := 11, mw := 52, bias := 1023, finite := false }

/-- The floating format of a type; none for the integers and e2m1x. -/
def fmtOf? : Ty → Option Fmt
  | .fp32 => some fmtFp32
  | .bf16 => some fmtBf16
  | .e4m3 => some fmtE4m3
  | .e5m2 => some fmtE5m2
  | .int4 | .int8 | .int16 | .int32 | .int64 | .uint4 | .uint8 | .uint16 | .uint32 | .uint64 | .e2m1x => none

/-- A decoded element: a NaN with sign, quiet bit and fraction of `mw` bits; an infinity; or (-1)^neg × mag × 2^ex. -/
inductive FVal where
  | nan (neg quiet : Bool) (frac mw : Nat)
  | inf (neg : Bool)
  | fin (neg : Bool) (mag : Nat) (ex : Int)
  deriving DecidableEq, Repr

def FVal.isNan : FVal → Bool
  | .nan _ _ _ _ => true
  | .inf _ | .fin _ _ _ => false

def FVal.isInf : FVal → Bool
  | .inf _ => true
  | .nan _ _ _ _ | .fin _ _ _ => false

/-- A signalling NaN. -/
def FVal.isSnan : FVal → Bool
  | .nan _ q _ _ => !q
  | .inf _ | .fin _ _ _ => false

def FVal.neg : FVal → Bool
  | .nan n _ _ _ | .inf n | .fin n _ _ => n

/-- Decode a pattern (R98, R99). -/
def Fmt.decode (f : Fmt) (pat : Nat) : FVal :=
  let neg := pat / 2 ^ (f.ew + f.mw) % 2 == 1
  let e := pat / 2 ^ f.mw % 2 ^ f.ew
  let m := pat % 2 ^ f.mw
  if e = 2 ^ f.ew - 1 ∧ (if f.finite then m = 2 ^ f.mw - 1 else m ≠ 0) then
    .nan neg (f.finite || decide (2 ^ (f.mw - 1) ≤ m)) m f.mw
  else if e = 2 ^ f.ew - 1 ∧ !f.finite then .inf neg
  else if e = 0 then .fin neg m (1 - Int.ofNat f.bias - Int.ofNat f.mw)
  else .fin neg (2 ^ f.mw + m) (Int.ofNat e - Int.ofNat f.bias - Int.ofNat f.mw)

/-- The sign bit in its place. -/
def Fmt.sign (f : Fmt) (neg : Bool) : Nat := if neg then 2 ^ (f.ew + f.mw) else 0

/-- The canonical NaN (R99); for e4m3 with the sign of what it replaces (R104). -/
def Fmt.canon (f : Fmt) (neg : Bool) : Nat :=
  if f.finite then f.sign neg + (2 ^ (f.ew + f.mw) - 1) else (2 ^ f.ew - 1) * 2 ^ f.mw + 2 ^ (f.mw - 1)

def Fmt.infPat (f : Fmt) (neg : Bool) : Nat := f.sign neg + (2 ^ f.ew - 1) * 2 ^ f.mw

/-- The largest finite pattern. -/
def Fmt.maxPat (f : Fmt) (neg : Bool) : Nat :=
  f.sign neg + (if f.finite then 2 ^ (f.ew + f.mw) - 2 else (2 ^ f.ew - 1) * 2 ^ f.mw - 1)

/-- A NaN operand as a result in `f`: quiet, sign and payload kept, cut from the top of the fraction (R112). -/
def Fmt.nanPat (f : Fmt) : FVal → Nat
  | .nan neg _ frac mw =>
    if f.finite then f.canon neg
    else
      let p := if f.mw ≤ mw then frac / 2 ^ (mw - f.mw) else frac * 2 ^ (f.mw - mw)
      f.sign neg + (2 ^ f.ew - 1) * 2 ^ f.mw + (if p < 2 ^ (f.mw - 1) then 2 ^ (f.mw - 1) + p else p)
  | .inf neg | .fin neg _ _ => f.canon neg

/-! ## Rounding (R103, R108) -/

/-- `n / d` rounded to an integer magnitude, for a value of sign `neg`; `v` is the stepped LFSR state of sr. -/
def roundQuot (r : Rnd) (neg : Bool) (v n d : Nat) : Nat :=
  let q := n / d
  let m := n % d
  match r with
  | .rne => if 2 * m < d ∨ (2 * m = d ∧ q % 2 = 0) then q else q + 1
  | .rtz => q
  | .rdn => if neg ∧ m ≠ 0 then q + 1 else q
  | .sr => (n * 2 ^ 16 / d + v) / 2 ^ 16

/-- How an operation ends: RND, SAT, FTZ and the LFSR state. -/
structure Env where
  rnd : Rnd
  sat : Bool
  ftz : Bool
  v : Nat

/-- The exponent of the largest power of two that is not above the magnitude. -/
def log2Mag (mag : Nat) (ex : Int) : Int := Int.ofNat (Nat.log2 mag) + ex

/-- The pattern of `q × 2^u`, `u` at least the exponent of the subnormal grid and `q` at most 2^(mw + 1). -/
def Fmt.assemble (f : Fmt) (q : Nat) (u : Int) : Nat :=
  let (q, u) := if 2 ^ (f.mw + 1) ≤ q then (q / 2, u + 1) else (q, u)
  if q < 2 ^ f.mw then q else (u + Int.ofNat f.mw + Int.ofNat f.bias).toNat * 2 ^ f.mw + (q - 2 ^ f.mw)

/-- The outcome of an overflow (R104). -/
def Fmt.overflow (f : Fmt) (sat neg : Bool) : Nat × Flags :=
  if sat then (f.maxPat neg, fOF ||| fNX ||| fSA)
  else if f.finite then (f.canon neg, fOF ||| fNX ||| fNV)
  else (f.infPat neg, fOF ||| fNX)

/-- The exact value (-1)^neg × mag × 2^ex, not zero or with the sign that zero has, rounded once into `f` (R103, R104,
R110). Whether it is tiny is decided by its exact value, as R110 says, and whether it overflows by its rounded one, as R104 says
(log 68, DEDUCED). -/
def Fmt.round (f : Fmt) (env : Env) (neg : Bool) (mag : Nat) (ex : Int) : Nat × Flags :=
  if mag = 0 then (f.sign neg, 0#6)
  else
    let emin : Int := 1 - Int.ofNat f.bias
    let e := log2Mag mag ex
    let tiny := decide (e < emin)
    if tiny && env.ftz then (f.sign neg, fUF ||| fNX)
    else
      let u := (if tiny then emin else e) - Int.ofNat f.mw
      let n := if u ≤ ex then mag * 2 ^ (ex - u).toNat else mag
      let d := if u ≤ ex then 1 else 2 ^ (u - ex).toNat
      let q := roundQuot env.rnd neg env.v n d
      let p := f.assemble q u
      if f.maxPat false < p then f.overflow env.sat neg
      else
        let nx := n % d != 0
        (f.sign neg + p, flagIf nx fNX ||| flagIf (nx && tiny) fUF)

/-- An infinite operand passed through (R104). -/
def Fmt.infResult (f : Fmt) (sat neg : Bool) : Nat × Flags :=
  if f.finite then (if sat then (f.maxPat neg, fSA) else (f.canon neg, fNV)) else (f.infPat neg, 0#6)

/-- A decoded value as a result in `f`, rounded once (R103 to R105, R112). -/
def Fmt.ofVal (f : Fmt) (env : Env) (x : FVal) : Nat × Flags :=
  match x with
  | .nan _ q _ _ => (f.nanPat x, flagIf (!q) fNV)
  | .inf neg => f.infResult env.sat neg
  | .fin neg mag ex => f.round env neg mag ex

/-- An operand as a vector instruction reads it: under FTZ a subnormal is a zero of its sign and raises UF (R110). -/
def Fmt.read (f : Fmt) (ftz : Bool) (pat : Nat) : FVal × Flags :=
  match f.decode pat with
  | .fin neg mag ex => if ftz && mag != 0 && decide (mag < 2 ^ f.mw) then (.fin neg 0 0, fUF) else (.fin neg mag ex, 0#6)
  | x => (x, 0#6)

/-! ## Exact arithmetic -/

/-- The signed mantissa of a finite value at exponent `e`, which is not above its own. -/
def alignTo (neg : Bool) (mag : Nat) (ex e : Int) : Int :=
  let m := Int.ofNat (mag * 2 ^ (ex - e).toNat)
  if neg then -m else m

/-- The exact sum of two finite values, with the sign that R103 gives an exact zero. -/
def addFin (r : Rnd) (n1 : Bool) (m1 : Nat) (e1 : Int) (n2 : Bool) (m2 : Nat) (e2 : Int) : FVal :=
  let e := min e1 e2
  let i := alignTo n1 m1 e1 e + alignTo n2 m2 e2 e
  if i = 0 then .fin (if n1 = n2 then n1 else r == .rdn) 0 e
  else .fin (decide (i < 0)) i.natAbs e

/-- The sum of two values, none of them a NaN; none for ∞ - ∞. -/
def addVal (r : Rnd) : FVal → FVal → Option FVal
  | .inf a, .inf b => if a = b then some (.inf a) else none
  | .inf a, _ => some (.inf a)
  | _, .inf b => some (.inf b)
  | .fin n1 m1 e1, .fin n2 m2 e2 => some (addFin r n1 m1 e1 n2 m2 e2)
  | _, _ => none

/-- The product of two values, none of them a NaN; none for 0 × ∞. -/
def mulVal : FVal → FVal → Option FVal
  | .inf a, .inf b => some (.inf (a != b))
  | .inf a, .fin n m _ => if m = 0 then none else some (.inf (a != n))
  | .fin n m _, .inf b => if m = 0 then none else some (.inf (n != b))
  | .fin n1 m1 e1, .fin n2 m2 e2 => some (.fin (n1 != n2) (m1 * m2) (e1 + e2))
  | _, _ => none

def FVal.negate : FVal → FVal
  | .nan n q f w => .nan (!n) q f w
  | .inf n => .inf (!n)
  | .fin n m e => .fin (!n) m e

/-- The first NaN of a list. -/
def firstNan (l : List FVal) : Option FVal := l.find? FVal.isNan

/-- An operation on operands: a NaN operand decides (R112), then `op`; none of it creates a NaN. -/
def Fmt.apply (f : Fmt) (env : Env) (ops : List FVal) (op : Option FVal) : Nat × Flags :=
  let sn := flagIf (ops.any FVal.isSnan) fNV
  match firstNan ops with
  | some x => (f.nanPat x, sn)
  | none =>
    match op with
    | some x => f.ofVal env x
    | none => (f.canon false, fNV)

def fAdd (f : Fmt) (env : Env) (x y : FVal) : Nat × Flags := f.apply env [x, y] (addVal env.rnd x y)

def fMul (f : Fmt) (env : Env) (x y : FVal) : Nat × Flags := f.apply env [x, y] (mulVal x y)

/-- x × y + z, rounded once; `z` is negated first for FMS, but a NaN z is returned as it was read. -/
def fFma (f : Fmt) (env : Env) (neg : Bool) (x y z : FVal) : Nat × Flags :=
  f.apply env [x, y, z] ((mulVal x y).bind fun p => addVal env.rnd p (if neg then z.negate else z))

/-- The order of two values, none of them a NaN: -1, 0 or 1; `zeros` orders -0 below +0. -/
def cmpVal (zeros : Bool) : FVal → FVal → Int
  | .inf a, .inf b => if a = b then 0 else if a then -1 else 1
  | .inf a, _ => if a then -1 else 1
  | _, .inf b => if b then 1 else -1
  | .fin n1 m1 e1, .fin n2 m2 e2 =>
    let e := min e1 e2
    let i := alignTo n1 m1 e1 e - alignTo n2 m2 e2 e
    if i < 0 then -1 else if 0 < i then 1
    else if zeros && m1 == 0 && n1 != n2 then (if n1 then -1 else 1) else 0
  | _, _ => 0

/-- VMIN and VMAX on floating values: one of the operands as it is, or the first NaN made quiet (R112, R146). -/
def fMinMax (f : Fmt) (mx : Bool) (x y : FVal) (px py : Nat) : Nat × Flags :=
  let sn := flagIf (x.isSnan || y.isSnan) fNV
  match firstNan [x, y] with
  | some n => (f.nanPat n, sn)
  | none =>
    let c := cmpVal true x y
    (if (if mx then decide (0 ≤ c) else decide (c ≤ 0)) then px else py, 0#6)

/-! ## Conversions (R105, R150) -/

/-- A floating value into an integer type (R105): rounded under RND, saturated whatever SAT is. -/
def floatToInt (t : Ty) (r : Rnd) (x : FVal) : Nat × Flags :=
  match x with
  | .nan _ _ _ _ => (0, fNV)
  | .inf neg => (patOf t.bits (if neg then (intMin t) else (intMax t)), fNV)
  | .fin neg mag ex =>
    let n := if 0 ≤ ex then mag * 2 ^ ex.toNat else mag
    let d := if 0 ≤ ex then 1 else 2 ^ (-ex).toNat
    let q := roundQuot r neg 0 n d
    let i : Int := if neg then -Int.ofNat q else Int.ofNat q
    if i < (intMin t) then (patOf t.bits (intMin t), fNV)
    else if (intMax t) < i then (patOf t.bits (intMax t), fNV)
    else (patOf t.bits i, flagIf (n % d != 0) fNX)

/-- An integer value into a floating format (R105). -/
def intToFloat (f : Fmt) (env : Env) (i : Int) : Nat × Flags := f.round env (decide (i < 0)) i.natAbs 0

/-- One element converted from type `s` to type `d` (R150), neither of them e2m1x. -/
def convert (s d : Ty) (env : Env) (pat : Nat) : Nat × Flags :=
  match fmtOf? s, fmtOf? d with
  | none, none => intResult d env.sat (intOf s pat)
  | none, some g => intToFloat g env (intOf s pat)
  | some f, none => let (x, fl) := f.read env.ftz pat; let (p, fl') := floatToInt d env.rnd x; (p, fl ||| fl')
  | some f, some g => let (x, fl) := f.read env.ftz pat; let (p, fl') := g.ofVal env x; (p, fl ||| fl')

/-! ## Stochastic rounding (R106, R107) -/

/-- One step of a lane LFSR. -/
def lfsrStep (s : BitVec 16) : BitVec 16 :=
  let fb := (s >>> 15 ^^^ s >>> 13 ^^^ s >>> 12 ^^^ s >>> 10) &&& 1#16
  s <<< 1 ||| fb

/-- The seed of lane i. -/
def laneSeed (seed : BitVec 16) (i : Nat) : BitVec 16 :=
  let x := seed ^^^ BitVec.ofNat 16 (i * 0x9E37)
  if x = 0 then 1 else x

/-- Step lane i: its new state, and the lanes after it. -/
def laneStep (seed : BitVec 16) (lanes : Tbl (BitVec 16)) (i : Nat) : BitVec 16 × Tbl (BitVec 16) :=
  let x := lfsrStep ((Tbl.get? lanes i).getD (laneSeed seed i))
  (x, Tbl.put lanes i x)

/-! ## e2m1x (R100 to R102) -/

/-- Twice the magnitude of a magnitude code. -/
def mag2 (m : Nat) : Nat := [0, 1, 2, 3, 4, 6, 8, 12].getD m 0

/-- Twice the special magnitude of SPIDX. -/
def special2 (i : Nat) : Nat := [5, 7, 10, 14, 16, 20, 24, 32].getD i 0

/-- The value of an element code under a block header (R101). -/
def e2m1xVal (header code : Nat) : FVal :=
  let c := header % 256
  if c = 255 then .nan false true (2 ^ 22) 23
  else if code = 8 then .fin (header / 256 % 2 == 1) (special2 (header / 512 % 8)) (Int.ofNat c - 128)
  else .fin (code / 8 == 1) (mag2 (code % 8)) (Int.ofNat c - 128)

/-- The code of one scaled element |y| = mag × 2^ex of sign `neg` (step 4 of R102): the candidates of its sign, in
halves, with their codes, from the smallest up. -/
def candidates (spc : Nat) (spneg neg : Bool) : List (Nat × Nat) :=
  let reg := [(0, 0), (1, 1), (2, 2), (3, 3), (4, 4), (6, 5), (8, 6), (12, 7)].map fun (p : Nat × Nat) =>
    (p.1, if p.1 = 0 then 0 else if neg then p.2 + 8 else p.2)
  if spneg = neg then
    let sp := special2 spc
    reg.takeWhile (fun p => decide (p.1 < sp)) ++ (sp, 8) :: reg.filter (fun p => decide (sp < p.1) || (p.1 == sp))
  else reg

/-- Choose among the candidates: `lo` is the one below |y| so far. -/
def choose (r : Rnd) (neg : Bool) (v n d : Nat) (lo : Nat × Nat) : List (Nat × Nat) → Nat × Bool × Bool
  | [] => (lo.2, decide (lo.1 * d ≠ n), decide (lo.1 * d < n))
  | hi :: t =>
    if hi.1 * d ≤ n ∧ lo.1 < hi.1 then choose r neg v n d hi t
    else if hi.1 = lo.1 then choose r neg v n d lo t
    else if lo.1 * d = n then (lo.2, false, false)
    else
      let below := n - lo.1 * d
      let above := hi.1 * d - n
      let up := match r with
        | .rne => decide (above < below) || (above == below && (if lo.2 = 8 then true else if hi.2 = 8 then false
            else decide (hi.2 % 2 = 0)))
        | .rtz => false
        | .rdn => neg
        | .sr => decide (2 ^ 16 ≤ below * 2 ^ 16 / (below + above) + v)
      (if up then hi.2 else lo.2, true, false)

/-- The code of an element and its flags (step 4 of R102). `mag × 2^ex` is |x| × 2^-e in halves. -/
def e2m1xCode (r : Rnd) (spc : Nat) (spneg neg : Bool) (v mag : Nat) (ex : Int) : Nat × Flags :=
  let n := if 0 ≤ ex then mag * 2 ^ ex.toNat else mag
  let d := if 0 ≤ ex then 1 else 2 ^ (-ex).toNat
  let (c, nx, sat) := choose r neg v n d (0, 0) ((candidates spc spneg neg).drop 1)
  (c, flagIf nx fNX ||| flagIf sat fSA)

/-- A block of 32 source values into e2m1x (R102): header, codes and flags; `vs` the LFSR states of the elements. -/
def e2m1xBlock (r : Rnd) (spc : Nat) (xs : List FVal) (vs : List Nat) : Nat × List Nat × Flags :=
  if xs.any (fun x => x.isNan || x.isInf) then
    (spc * 512 + 255, xs.map fun _ => 0, flagIf (xs.any fun x => x.isInf || x.isSnan) fNV)
  else
    let top := xs.foldl (fun (best : FVal) x => match x, best with
      | .fin _ m e, .fin _ bm be => if cmpVal false (.fin false bm be) (.fin false m e) < 0 then x else best
      | _, _ => best) (.fin false 0 0)
    match top with
    | .fin sgn (mag + 1) ex =>
      let e := max (log2Mag (mag + 1) ex - 2) (-127)
      let cs := (xs.zip vs).map fun (p : FVal × Nat) => match p.1 with
        | .fin n m x => e2m1xCode r spc sgn n p.2 m (x - e + 1)
        | .nan _ _ _ _ | .inf _ => (0, 0#6)
      (spc * 512 + (if sgn then 256 else 0) + (e + 127).toNat, cs.map Prod.fst, cs.foldl (fun f c => f ||| c.2) 0#6)
    | _ => (spc * 512, xs.map fun _ => 0, 0#6)

/-! ## Function units (R113) -/

/-- The integer square root, bit by bit from 2^k down. -/
def isqrtAux (n : Nat) : Nat → Nat → Nat
  | 0, r => if (r + 1) * (r + 1) ≤ n then r + 1 else r
  | k + 1, r => isqrtAux n k (if (r + 2 ^ (k + 1)) * (r + 2 ^ (k + 1)) ≤ n then r + 2 ^ (k + 1) else r)

def isqrt (n : Nat) : Nat := isqrtAux n (Nat.log2 n / 2 + 1) 0

/-- `q × 2^ex`, of which `q` has at least p + 2 bits and whose discarded tail is not zero when `sticky`, rounded rne to
`p` significant bits or the coarser fp32 subnormal grid, as an fp32 result with its flags. -/
def unitRound (p : Nat) (neg : Bool) (q : Nat) (ex : Int) (sticky : Bool) : Nat × Flags :=
  let n := 2 * q + (if sticky then 1 else 0)
  let e := log2Mag n (ex - 1)
  let u := max (e - Int.ofNat (p - 1)) (-149)
  let d := 2 ^ (u - (ex - 1)).toNat
  let m := roundQuot .rne false 0 n d
  let nx := n % d != 0 || sticky
  let tiny := decide (e < -126)
  if m ≠ 0 ∧ 128 ≤ log2Mag m u then (fmtFp32.infPat neg, fOF ||| fNX)
  else
    (fmtFp32.sign neg + (fmtFp32.round { rnd := .rne, sat := false, ftz := false, v := 0 } false m u).1,
      flagIf nx fNX ||| flagIf (nx && tiny) fUF)

/-- Fixed-point arithmetic of the transcendental units: 320 fraction bits (log 13, DESIGN CHOICE). -/
def fxOne : Nat := 2 ^ 320

/-- ln 2 in fixed point: 2 × the series of atanh(1/3). -/
def atanhAux (z2 : Nat) : Nat → Nat → Nat → Nat
  | 0, _, _ => 0
  | k + 1, t, n => t / n + atanhAux z2 k (t * z2 / fxOne) (n + 2)

/-- ln of (fxOne + x) / (fxOne - x), x in fixed point and at most a third. -/
def lnRatio (z : Nat) : Nat := 2 * atanhAux (z * z / fxOne) 110 z 1

def fxLn2 : Nat := lnRatio (fxOne / 3)

/-- e^x for 0 ≤ x < 1 in fixed point. -/
def expAux (x : Nat) : Nat → Nat → Nat → Nat
  | 0, _, _ => 0
  | k + 1, t, n => t + expAux x k (t * x / fxOne / n) (n + 1)

/-- 2^f for a fraction 0 ≤ f < 1 in fixed point. -/
def fxExp2 (f : Nat) : Nat := expAux (f * fxLn2 / fxOne) 90 fxOne 1

/-- log2 of m / 2^k in [1, 2) in fixed point. -/
def fxLog2 (m k : Nat) : Nat := lnRatio ((m - 2 ^ k) * fxOne / (m + 2 ^ k)) * fxOne / fxLn2

def vrcpVal (x : FVal) : Nat × Flags :=
  match x with
  | .nan _ q _ _ => (fmtFp32.nanPat x, flagIf (!q) fNV)
  | .inf neg => (fmtFp32.sign neg, 0#6)
  | .fin neg mag ex =>
    if mag = 0 then (fmtFp32.infPat neg, fDZ)
    else
      let k := Nat.log2 mag + 40
      unitRound 12 neg (2 ^ k / mag) (-ex - Int.ofNat k) (2 ^ k % mag != 0)

/-- VRSQ (R113). An odd power of two has an irrational result, which raises NX (log 88, DEDUCED). -/
def vrsqVal (x : FVal) : Nat × Flags :=
  match x with
  | .nan _ q _ _ => (fmtFp32.nanPat x, flagIf (!q) fNV)
  | .inf neg => if neg then (fmtFp32.canon false, fNV) else (0, 0#6)
  | .fin neg mag ex =>
    if mag = 0 then (fmtFp32.infPat neg, fDZ)
    else if neg then (fmtFp32.canon false, fNV)
    else
      let (m, e) := if ex % 2 = 0 then (mag, ex) else (2 * mag, ex - 1)
      let k := Nat.log2 m + 40
      let q := isqrt (2 ^ (2 * k) / m)
      unitRound 12 false q (-(e / 2) - Int.ofNat k) (decide (q * q * m ≠ 2 ^ (2 * k)))

def vexp2Val (x : FVal) : Nat × Flags :=
  match x with
  | .nan _ q _ _ => (fmtFp32.nanPat x, flagIf (!q) fNV)
  | .inf neg => (if neg then 0 else fmtFp32.infPat false, 0#6)
  | .fin neg mag ex =>
    if mag = 0 then (0x3F800000, 0#6)
    else if 9 ≤ log2Mag mag ex then
      (if neg then (0, fUF ||| fNX) else (fmtFp32.infPat false, fOF ||| fNX))
    else
      -- x = ip + f with 0 ≤ f < 1, exact in 160 fraction bits
      let m := Int.ofNat (mag * 2 ^ (ex + 160).toNat)
      let i := if neg then -m else m
      let ip := i / Int.ofNat (2 ^ 160)
      let f := (i % Int.ofNat (2 ^ 160)).toNat
      if f = 0 then
        unitRound 14 false (2 ^ 20) (ip - 20) false
      else
        unitRound 14 false (fxExp2 (f * 2 ^ 160)) (ip - 320) true

def vlog2Val (x : FVal) : Nat × Flags :=
  match x with
  | .nan _ q _ _ => (fmtFp32.nanPat x, flagIf (!q) fNV)
  | .inf neg => if neg then (fmtFp32.canon false, fNV) else (fmtFp32.infPat false, 0#6)
  | .fin neg mag ex =>
    if mag = 0 then (fmtFp32.infPat true, fDZ)
    else if neg then (fmtFp32.canon false, fNV)
    else
      let k := Nat.log2 mag
      let e := Int.ofNat k + ex
      if mag = 2 ^ k then intToFloat fmtFp32 { rnd := .rne, sat := false, ftz := false, v := 0 } e
      else
        let v := e * Int.ofNat fxOne + Int.ofNat (fxLog2 mag k)
        unitRound 14 (decide (v < 0)) v.natAbs (-320) true

/-! ## xorshift (R175, R213) -/

def xorshift (x : BitVec 32) : BitVec 32 :=
  let x := x ^^^ x <<< 13
  let x := x ^^^ x >>> 17
  x ^^^ x <<< 5

end Sys2Proof.Machine
end

