-- ==== Sys2Proof/Machine/Flags.lean ====
section
/-! DEFINITION. Conditions (R36, R148) and the flag register of a bank (R109). -/

namespace Sys2Proof

/-- The truth of a condition code on two 64-bit values (R36, R50). -/
def Cond.holds (cc : Cond) (x y : Word) : Bool :=
  match cc with
  | .eq => x == y
  | .ne => x != y
  | .lt => x.slt y
  | .ge => !x.slt y
  | .ltu => x.ult y
  | .geu => !x.ult y
  | .gt => y.slt x
  | .le => !y.slt x
  | .gtu => y.ult x
  | .leu => !y.ult x
  | .tst => x &&& y != 0
  | .ntst => x &&& y == 0

/-- The combination codes of SCOMB (R52). -/
def Comb.holds (op : Comb) (x y : Bool) : Bool :=
  match op with
  | .and => x && y
  | .or => x || y
  | .xor => x != y
  | .andn => x && !y
  | .nand => !(x && y)
  | .nor => !(x || y)

/-- The truth of a VCMP code on an order of -1, 0 or 1 (R148). -/
def VCond.holds (cc : VCond) (c : Int) : Bool :=
  match cc with
  | .eq => c == 0
  | .ne => c != 0
  | .lt => decide (c < 0)
  | .ge => decide (0 ≤ c)
  | .gt => decide (0 < c)
  | .le => decide (c ≤ 0)

end Sys2Proof

namespace Sys2Proof.Machine

/-- Raise flags in VFLAGS: a flag that is set stays set (R109). -/
def State.raiseFlags (s : State) (fl : Flags) : State :=
  { s with bank := { s.bank with vec := { s.bank.vec with vflags := s.bank.vec.vflags ||| fl } } }

end Sys2Proof.Machine
end

