-- ==== Sys2Proof/Machine/Home.lean ====
section
/-! DEFINITION. Distant memory: windows (R185), page tables and the TLB (R202 to R204), homes and their keys (R93, R201,
R350), and the digests that a home updates in the step of a write (R208 to R216). -/

namespace Sys2Proof.Machine

/-! ## Causes (R334) -/

/-- CODE and SUB of a trap. -/
structure Cause where
  code : Nat
  sub : Nat
  deriving DecidableEq, Repr

def cILLEGAL (sub : Nat) : Cause := ⟨0x01, sub⟩
def cALIGN : Cause := ⟨0x02, 0⟩
def cADDRFORM : Cause := ⟨0x03, 0⟩
def cBRK : Cause := ⟨0x04, 0⟩
def cTRAPI : Cause := ⟨0x05, 0⟩
def cNOTPRESENT (malformed : Bool) : Cause := ⟨0x06, if malformed then 1 else 0⟩
def cPERM (sub : Nat) : Cause := ⟨0x07, sub⟩
def cKEYGONE : Cause := ⟨0x08, 0⟩
def cUNDECL : Cause := ⟨0x09, 0⟩
def cHANDED : Cause := ⟨0x0A, 0⟩
def cVINDEX : Cause := ⟨0x0B, 0⟩
def cECMD : Cause := ⟨0x0C, 0⟩
def cNOWHEEL : Cause := ⟨0x0D, 0⟩
def cSCRATCHEARLY : Cause := ⟨0x0E, 0⟩
def cUNCORR (sub : Nat) : Cause := ⟨0x0F, sub⟩
def cCODEC (sub : Nat) : Cause := ⟨0x10, sub⟩

/-! ## Windows (R185, R186) -/

/-- What a VA with bits 63:56 zero names. -/
inductive Win where
  | self (off : Nat)
  | core (n off : Nat)
  | control (n off : Nat)
  | device (off : Nat)
  | nothing
  | mapped
  deriving DecidableEq, Repr

/-- The window of a VA; `mapped` for a translated one. -/
def winOf (va : Nat) : Win :=
  if va / 2 ^ 48 ≠ 0xFF then .mapped
  else
    let o := va % 2 ^ 48
    if 0xFF0000000000 ≤ o ∧ o < 0xFF0000400000 then .self (o - 0xFF0000000000)
    else if 0xFE0000000000 ≤ o ∧ o < 0xFE0060000000 then .core ((o - 0xFE0000000000) / 2 ^ 22) (o % 2 ^ 22)
    else if 0xFD0000000000 ≤ o ∧ o < 0xFD0001800000 then .control ((o - 0xFD0000000000) / 2 ^ 16) (o % 2 ^ 16)
    else if 0xFC0000000000 ≤ o ∧ o < 0xFC0001000000 then .device (o - 0xFC0000000000)
    else .nothing

/-- R19: the address form of an access of `n` bytes. -/
def badForm (a : Word) (n : Nat) : Bool := decide (2 ^ 56 < a.toNat + n) || decide (2 ^ 56 ≤ a.toNat)

/-- VA of the self window's first byte. -/
def selfBase : Nat := 0x00FFFF0000000000

/-! ## Places -/

/-- Address in the model's one memory of scratchpad offset `off` of core `c`. -/
def scratchLoc (c off : Nat) : Nat := 2 ^ 44 + c * 2 ^ 22 + off

/-- Address in the model's one memory of a place's byte: HBM and scratchpads as they are, host, peers and the control windows above. -/
def Place.loc (p : Place) : Nat :=
  if p.home = 1 then 2 ^ 52 + p.pa else if p.home = 2 then 2 ^ 56 + p.pa else if p.home = 4 then 2 ^ 60 + p.pa else p.pa

def Place.add (p : Place) (n : Nat) : Place := { p with pa := p.pa + n }

/-! ## Uncorrectable errors (R355) -/

/-- Whether one of `n` bytes from location `loc` on holds an uncorrectable error: an access that touches it meets it, and performs nothing. -/
def State.flawed (s : State) (loc n : Nat) : Bool := s.flaws.any fun r => overlaps r.1 r.2 loc n

/-- The same of the scratchpad of the core in hand. -/
def State.flawedOwn (s : State) (off n : Nat) : Bool := s.flawed (scratchLoc s.coreNo off) n

/-! ## Keys -/

def State.keyAt (s : State) (slot : Nat) : Key := Tbl.get s.keys slot Key.zero

def State.spaceAt (s : State) (a : Nat) : Space := Tbl.get s.spaces a Space.zero

/-- One byte at a home, decrypted under the key of the place: ciphertext where another key or generation wrote its 64-byte unit (R2, R93). -/
def State.homeByte (s : State) (p : Place) : Byte :=
  if p.home = 0 then
    match Tbl.get? s.tags (p.pa / 64) with
    | some t => if t = (p.slot, p.gen) then s.mem.read p.pa else Config.cipherByte p.slot p.gen p.pa (s.mem.read p.pa)
    | none => s.mem.read p.pa
  else s.mem.read p.loc

/-- `n` bytes at a home. -/
def State.homeRead (s : State) (p : Place) : Nat → List Byte
  | 0 => []
  | n + 1 => s.homeByte p :: State.homeRead s (p.add 1) n

/-- The 64-byte unit of an HBM byte, as it is decrypted and encrypted again under the key of a place that is about to be written: what
another key wrote there stays as ciphertext (R2, R93). -/
def State.rekey (s : State) (p : Place) : State :=
  if p.home ≠ 0 then s
  else
    let u := p.pa / 64
    match Tbl.get? s.tags u with
    | some t =>
      if t = (p.slot, p.gen) then s
      else { s with mem := (upFrom (64 * u) 64).foldl (fun m a => m.write a (Config.cipherByte p.slot p.gen a (m.read a))) s.mem
                    tags := Tbl.put s.tags u (p.slot, p.gen) }
    | none => { s with tags := Tbl.put s.tags u (p.slot, p.gen) }

/-- Write bytes at a home, without the digests. -/
def State.homePut (s : State) (p : Place) : List Byte → State
  | [] => s
  | b :: t => let r := s.rekey p; State.homePut { r with mem := r.mem.write p.loc b } (p.add 1) t

/-! ## Digests at home -/

/-- Element patterns of a block's bytes, in element order (R96, R137). -/
def elements (t : Ty) (bytes : List Byte) : List Nat :=
  if t.bits = 4 then bytes.flatMap fun b => [b.toNat % 16, b.toNat / 16]
  else
    let n := t.bits / 8
    (upFrom 0 (bytes.length / n)).map fun i => leNat ((bytes.drop (i * n)).take n)

/-- Whether an element is zero (R211). -/
def isZeroElem (t : Ty) (pat : Nat) : Bool :=
  match fmtOf? t with
  | some f => pat % 2 ^ (f.ew + f.mw) == 0
  | none => pat == 0

/-- The value of a float element, and of an fp64 bound. -/
def floatVal (t : Ty) (pat : Nat) : FVal :=
  match fmtOf? t with
  | some f => f.decode pat
  | none => .fin false pat 0

def envRne : Env := { rnd := .rne, sat := false, ftz := false, v := 0 }

/-- An element widened to 64 bits (R212). -/
def widen64 (t : Ty) (pat : Nat) : Nat :=
  match fmtOf? t with
  | some _ => (fmtFp64.ofVal envRne (floatVal t pat)).1
  | none => patOf 64 (intOf t pat)

/-- The order of two 64-bit bounds of a type: -1, 0 or 1; -0 below +0. -/
def cmp64 (t : Ty) (x y : Nat) : Int :=
  match fmtOf? t with
  | some _ => cmpVal true (fmtFp64.decode x) (fmtFp64.decode y)
  | none =>
    let a := if t.isSigned then signedNat 64 x else Int.ofNat x
    let b := if t.isSigned then signedNat 64 y else Int.ofNat y
    if a < b then -1 else if b < a then 1 else 0

/-- Bounds widened to include each element (R212, R214). -/
def widenBounds (t : Ty) (lo hi : Nat) : List Nat → Nat × Nat
  | [] => (lo, hi)
  | e :: rest =>
    if (floatVal t e).isNan then widenBounds t (fmtFp64.infPat true) (fmtFp64.infPat false) rest
    else
      let x := widen64 t e
      widenBounds t (if cmp64 t x lo < 0 then x else lo) (if cmp64 t hi x < 0 then x else hi) rest

/-- The exact sum of finite values, `a` the sum so far. -/
def sumExact : List FVal → FVal → FVal
  | [], a => a
  | v :: t, a => sumExact t (match a, v with
      | .fin n1 m1 e1, .fin n2 m2 e2 => addFin .rne n1 m1 e1 n2 m2 e2
      | x, _ => x)

/-- SUM of a block: 64-bit pattern and count of non-zero elements (R212). -/
def sumBlock (t : Ty) (es : List Nat) : Nat × Nat :=
  let cnt := (es.filter fun e => !isZeroElem t e).length
  match fmtOf? t with
  | none => (patOf 64 (es.foldl (fun a e => a + intOf t e) 0), cnt)
  | some f =>
    let vs := es.map f.decode
    let pinf := vs.any (· == .inf false)
    let ninf := vs.any (· == .inf true)
    if vs.any FVal.isNan || (pinf && ninf) then (0x7FF8000000000000, cnt)
    else if pinf then (fmtFp64.infPat false, cnt)
    else if ninf then (fmtFp64.infPat true, cnt)
    else
      ((fmtFp64.ofVal envRne (sumExact vs (.fin true 0 0))).1, cnt)

/-- Bits of the ZMAP of a block, from the elements with their index: sub-block i takes the element's lowest byte. -/
def zmapBlock (t : Ty) (grain : Nat) (es : List Nat) : Nat :=
  ((upFrom 0 es.length).zip es).foldl (fun m p =>
    if isZeroElem t p.2 then m else m ||| 2 ^ (p.1 * t.bits / 8 / (grain / 64))) 0

/-- Signs of projection `t`, for DIM elements (R213): true is -1. -/
def sketchSigns (x : BitVec 32) : Nat → List Bool
  | 0 => []
  | n + 1 => let y := xorshift x; (y.toNat % 2 == 1) :: sketchSigns y n

def sketchSeed (seed t : Nat) : BitVec 32 :=
  let x := BitVec.ofNat 32 seed ^^^ BitVec.ofNat 32 ((t + 1) * 0x9E3779B9)
  if x = 0 then 1 else x

/-- One projection y of a vector as bf16 rounded down and rounded up; none where an element is a NaN or infinite (log 54, DEDUCED). -/
def sketchY (vs : List FVal) (signs : List Bool) : Option (Nat × Nat) :=
  if vs.any fun v => v.isNan || v.isInf then none
  else
    match sumExact ((vs.zip signs).map fun p => if p.2 then p.1.negate else p.1) (.fin false 0 0) with
    | .fin neg mag ex =>
      let lg := Nat.log2 vs.length
      -- divide by √DIM: exactly for an even power of two, else by a root of 2 cut below 60 bits with a sticky bit
      let (m, e) : Nat × Int :=
        if mag = 0 then (0, 0)
        else if lg % 2 = 0 then (mag, ex - Int.ofNat (lg / 2))
        else (2 * isqrt (2 * mag * mag * 2 ^ 120) + 1, ex - 61 - Int.ofNat ((lg + 1) / 2))
      let down (n : Bool) : Nat :=
        let (p, fl) := fmtBf16.round { rnd := .rdn, sat := false, ftz := false, v := 0 } n m e
        if !n && (fl &&& fOF) != 0 then fmtBf16.maxPat false else p
      let neg' := if mag = 0 then false else neg
      some (down neg', if mag = 0 then 0 else (down (!neg') + 2 ^ 15) % 2 ^ 16)
    | _ => none

/-- Widen the four projections of a SKETCH by one vector; each is (min, max) in bf16. -/
def sketchWiden (seed : Nat) (vs : List FVal) (ps : List (Nat × Nat)) : List (Nat × Nat) :=
  ((upFrom 0 4).zip ps).map fun p =>
    match sketchY vs (sketchSigns (sketchSeed seed p.1) vs.length) with
    | none => (0xFF80, 0x7F80)
    | some (lo, hi) =>
      (if cmpVal true (fmtBf16.decode lo) (fmtBf16.decode p.2.1) < 0 then lo else p.2.1,
       if cmpVal true (fmtBf16.decode p.2.2) (fmtBf16.decode hi) < 0 then hi else p.2.2)

/-- Consecutive pieces of `n`. -/
def chunks {α : Type} (n : Nat) (l : List α) : Nat → List (List α)
  | 0 => []
  | k + 1 => l.take n :: chunks n (l.drop n) k

def packProj (ps : List (Nat × Nat)) : Nat := (ps.map fun p => p.1 + p.2 * 2 ^ 16).foldr (fun x a => x + a * 2 ^ 32) 0

def unpackProj (v : Nat) : List (Nat × Nat) := (upFrom 0 4).map fun t => (v / 2 ^ (32 * t) % 2 ^ 16, v / 2 ^ (32 * t + 16) % 2 ^ 16)

/-- The contents of a slot computed from the block's bytes: low and high 8 bytes, and whether every element is zero. -/
def computeSlot (e : DirEntry) (bytes : List Byte) : Nat × Nat × Bool :=
  let es := elements e.ty bytes
  let zero := es.all (isZeroElem e.ty)
  match e.kind with
  | 1 =>
    let x := widen64 e.ty (es.headD 0)
    let (lo, hi) := widenBounds e.ty x x es
    (lo, hi, zero)
  | 2 => let (sm, c) := sumBlock e.ty es; (sm, c, zero)
  | 3 => (zmapBlock e.ty e.grain es, 0, zero)
  | _ =>
    let vs := (chunks e.dim es (es.length / e.dim)).map fun l => l.map (floatVal e.ty)
    let v := packProj (vs.foldl (fun ps x => sketchWiden e.seed x ps) [(0x7F80, 0xFF80), (0x7F80, 0xFF80), (0x7F80, 0xFF80), (0x7F80, 0xFF80)])
    (v % 2 ^ 64, v / 2 ^ 64, zero)

/-- The slot as a full write or a recomputation leaves it (R214): VALID, EXACT, ZERO as computed. -/
def fullSlot (e : DirEntry) (bytes : List Byte) : DSlot :=
  let (lo, hi, zero) := computeSlot e bytes
  { handle := e.handle, lo := BitVec.ofNat 64 lo, hi := BitVec.ofNat 64 hi, tag := 3#4 ||| (if zero then 8#4 else 0#4) }

/-- The slot after a partial write of `n` bits from bit `from_` of the block on, whose bytes are now `bytes` (R214). -/
def partialSlot (e : DirEntry) (d : DSlot) (bytes : List Byte) (from_ n : Nat) : DSlot :=
  if d.tag &&& 1#4 = 0 then d
  else
    let es := elements e.ty bytes
    let lo := from_ / e.ty.bits
    let hi := (from_ + n - 1) / e.ty.bits
    let idx := upFrom lo (hi + 1 - lo)
    let touched := idx.map fun i => es.getD i 0
    let d := if touched.any (fun x => !isZeroElem e.ty x) then { d with tag := d.tag &&& 7#4 } else d
    match e.kind with
    | 1 =>
      let (l, h) := widenBounds e.ty d.lo.toNat d.hi.toNat touched
      { d with lo := BitVec.ofNat 64 l, hi := BitVec.ofNat 64 h, tag := d.tag &&& 13#4 }
    | 2 => { d with tag := (d.tag ||| 4#4) &&& 13#4 }
    | 3 =>
      let sub := e.grain / 64
      let subOf := fun i => i * e.ty.bits / 8 / sub
      let subs := (idx.map subOf).eraseDups
      let step := fun (acc : Nat × Bool) i =>
        let nz := idx.any fun j => subOf j == i && !isZeroElem e.ty (es.getD j 0)
        let all := (upFrom 0 es.length).all fun j => subOf j != i || decide (lo ≤ j ∧ j ≤ hi)
        let was := acc.1 / 2 ^ i % 2 == 1
        if nz then (acc.1 ||| 2 ^ i, acc.2 && !(was && idx.any fun j => subOf j == i && isZeroElem e.ty (es.getD j 0)))
        else if all then (acc.1 &&& (2 ^ 64 - 1 - 2 ^ i), acc.2)
        else (acc.1, acc.2 && !was)
      let (m, exact) := subs.foldl step (d.lo.toNat, true)
      { d with lo := BitVec.ofNat 64 m, tag := if exact then d.tag else d.tag &&& 13#4 }
    | _ =>
      let vecs := (idx.map fun i => i / e.dim).eraseDups
      let ps := vecs.foldl (fun ps v => sketchWiden e.seed (((es.drop (v * e.dim)).take e.dim).map (floatVal e.ty)) ps)
        (unpackProj (d.lo.toNat + d.hi.toNat * 2 ^ 64))
      let v := packProj ps
      { d with lo := BitVec.ofNat 64 (v % 2 ^ 64), hi := BitVec.ofNat 64 (v / 2 ^ 64), tag := d.tag &&& 13#4 }

def State.dirAt (s : State) (handle : Nat) : Option DirEntry := s.dir.find? fun e => e.handle == handle

/-- The registered block that holds HBM byte `pa`: its first byte, its directory entry and its slot. -/
def State.blockAt (s : State) (pa : Nat) : Option (Nat × DirEntry × DSlot) :=
  [64, 256, 1024, 4096, 16384].findSome? fun g =>
    match Tbl.get? s.slots (pa / g * g) with
    | some d => match s.dirAt d.handle with
      | some e => if e.grain = g then some (pa / g * g, e, d) else none
      | none => none
    | none => none

/-- The place of a block under its key slot's current generation, for a recomputation that no translation brings (R210, R355). -/
def State.blockPlace (s : State) (e : DirEntry) (pa : Nat) : Place :=
  { home := 0, pa := pa, slot := e.slot, gen := (s.keyAt e.slot).gen, codec := 0 }

/-- Recompute the slot of the block at a place from what home holds (R215). -/
def State.redo (s : State) (p : Place) : State :=
  match s.blockAt p.pa with
  | some (b, e, _) => { s with slots := Tbl.put s.slots b (fullSlot e (s.homeRead { p with pa := b } e.grain)) }
  | none => s

/-- The partial update of a slot; one that meets an uncorrectable error there clears VALID, and the Bureau is told (R216). -/
def State.partialUpdate (s : State) (b : Nat) (e : DirEntry) (d : DSlot) (bytes : List Byte) (from_ n : Nat) : State :=
  if d.bad then { s with slots := Tbl.put s.slots b { d with tag := d.tag &&& 14#4, bad := false }, outs := s.outs ++ [.told b] }
  else { s with slots := Tbl.put s.slots b (partialSlot e d bytes from_ n) }

/-- Update the slots of every block that a write of `n` bytes at `p`, or of one nibble, touches (R214); `whole`: blocks wholly written
count as full writes. Blocks are at least 64 bytes long, so one visit per 64 bytes finds each. -/
def State.digestWrite (s : State) (p : Place) (n nib : Nat) (whole : Bool) : State :=
  let pa := p.pa
  let starts := ((upFrom 0 (n / 64 + 2)).filterMap fun i =>
    let a := min (pa + 64 * i) (pa + n - 1)
    (s.blockAt a).map fun b => b.1).eraseDups
  starts.foldl (fun s b =>
    match s.blockAt b with
    | some (_, e, d) =>
      let bytes := s.homeRead { p with pa := b } e.grain
      if whole && decide (pa ≤ b ∧ b + e.grain ≤ pa + n) then { s with slots := Tbl.put s.slots b (fullSlot e bytes) }
      else
        let lo := max pa b
        let hi := min (pa + n) (b + e.grain)
        if nib = 0 then s.partialUpdate b e d bytes (8 * (lo - b)) (8 * (hi - lo))
        else s.partialUpdate b e d bytes (8 * (lo - b) + 4 * (nib - 1)) 4
    | none => s) s

/-- A store that performs at home, of whole bytes or of one nibble, with the digests in the same step (R214) and the forward table's
entries on its range dropped (R239). -/
def State.homeStore (s : State) (p : Place) (bytes : List Byte) (nib : Nat) (whole : Bool) : State :=
  let t := s.homePut p bytes
  if p.home = 0 ∧ bytes ≠ [] then
    { t.digestWrite p bytes.length nib whole with forward := s.forward.filter fun f => !overlaps f.pa 2048 p.pa bytes.length }
  else t

/-- A store of whole bytes. -/
def State.homeWrite (s : State) (p : Place) (bytes : List Byte) (whole : Bool) : State := s.homeStore p bytes 0 whole

/-! ## Memory of the Bureau (R201, R341, R346) -/

/-- The place of an HBM byte as the Bureau writes it, under key slot 0. -/
def State.bureauPlace (s : State) (pa : Nat) : Place := { home := 0, pa := pa, slot := 0, gen := (s.keyAt 0).gen, codec := 0 }

/-- Write bytes of HBM for the Bureau. -/
def State.bureauWrite (s : State) (pa : Nat) (b : List Byte) : State := s.homeWrite (s.bureauPlace pa) b false

/-! ## Page tables (R202, R203) -/

/-- The two words of the table entry at HBM byte `pa` (log 28, DEDUCED). -/
def State.entryAt (s : State) (pa : Nat) : Nat × Nat := (leNat (s.mem.readN pa 8), leNat (s.mem.readN (pa + 8) 8))

/-- The Bureau's carve-out (R201). -/
def inCarve (pa n : Nat) : Bool := overlaps pa n 0x5E00000000 0x200000000

/-- Whether an entry of a table of level `lv` is malformed (R203). -/
def malformed (lv w0 w1 : Nat) : Bool :=
  let t := w0 / 8 % 2
  let ps := field w0 5 4
  let home := field w0 7 6
  let pa := field w0 51 12 * 4096
  w0 / 2 ^ 52 != 0 || field w0 11 8 != 0 || w1 / 2 ^ 42 != 0 || (t == 1 && lv == 0) || (t == 0 && lv == 3)
    || home == 3
    || (if t == 1 then home != 0 || w1 != 0 || decide (0x6000000000 ≤ pa) || inCarve pa 4096
        else
          (match lv with
            | 0 => decide (1 < ps)
            | 1 => ps != 2
            | _ => ps != 3)
          || field w1 41 40 == 3
          || (home == 0 && (decide (0x6000000000 ≤ pa) || inCarve pa 4096))
          || (home == 2 && decide (575 < field w0 51 42))
          || (ps == 1 && field w0 15 12 != 0) || (ps == 2 && field w0 20 12 != 0) || (ps == 3 && field w0 29 12 != 0))

/-- Bytes of a page of size code PS. -/
def pageBytes (ps : Nat) : Nat := [2 ^ 12, 2 ^ 16, 2 ^ 21, 2 ^ 30].getD ps (2 ^ 12)

/-- The walk from the table at `base` down the levels still to go: level, lowest VA bit, index bits. -/
def State.walkFrom (s : State) (va base : Nat) : List (Nat × Nat × Nat) → Except Cause (Nat × Nat)
  | [] => .error (cNOTPRESENT true)
  | (lv, lo, bits) :: rest =>
    let (w0, w1) := s.entryAt (base + va / 2 ^ lo % 2 ^ bits * 16)
    if w0 % 2 = 0 then .error (cNOTPRESENT false)
    else if malformed lv w0 w1 then .error (cNOTPRESENT true)
    else if w0 / 8 % 2 = 1 then State.walkFrom s va (field w0 51 12 * 4096) rest
    else .ok (w0, w1)

/-- The walk of `va` in address space `a` (R202). A space whose ROOT.V is 0 faults NOTPRESENT (R387). -/
def State.walk (s : State) (a va : Nat) : Except Cause TlbEntry :=
  let sp := s.spaceAt a
  if sp.root.toNat % 2 = 0 then .error (cNOTPRESENT false)
  else
    match s.walkFrom va (field sp.root.toNat 51 21 * 2 ^ 21) [(3, 39, 17), (2, 30, 9), (1, 21, 9), (0, 12, 9)] with
    | .error c => .error c
    | .ok (w0, w1) =>
      let n := pageBytes (field w0 5 4)
      .ok { space := a, gen := sp.gen, va := va / n * n, size := n, w0 := BitVec.ofNat 64 w0, w1 := BitVec.ofNat 64 w1 }

/-- The cached translation of `va` (R204) (log 11, DESIGN CHOICE). -/
def State.cached (s : State) (a va : Nat) : Option TlbEntry :=
  s.tlb.find? fun e => e.space == a && e.gen == (s.spaceAt a).gen && decide (e.va ≤ va ∧ va < e.va + e.size)

/-- Permission bits of an entry. -/
def TlbEntry.allows (e : TlbEntry) (rd wr : Bool) : Bool :=
  (!rd || e.w0.toNat / 2 % 2 == 1) && (!wr || e.w0.toNat / 4 % 2 == 1)

/-- The place of `va` under a leaf entry. -/
def TlbEntry.place (e : TlbEntry) (va : Nat) : Place :=
  let pa := field e.w0.toNat 51 12 * 4096
  { home := field e.w0.toNat 7 6, pa := pa / e.size * e.size + va % e.size, slot := field e.w1.toNat 15 0
    gen := field e.w1.toNat 39 16, codec := field e.w1.toNat 41 40 }

/-- Translate `va`: NOTPRESENT, PERM and KEYGONE in this order (R203, R334). A result of NOTPRESENT or PERM is never kept,
and a cached entry that lacks the permission is walked again (R204, log 11). -/
def State.xlate (s : State) (a va : Nat) (rd wr : Bool) : Except Cause (Place × State) :=
  let found : Except Cause (TlbEntry × State) :=
    match s.cached a va with
    | some e => if e.allows rd wr then .ok (e, s)
      else match s.walk a va with
        | .ok e' => if e'.allows rd wr then .ok (e', { s with tlb := e' :: s.tlb.erase e }) else .error (cPERM 0)
        | .error c => .error c
    | none =>
      match s.walk a va with
      | .ok e => if e.allows rd wr then .ok (e, { s with tlb := e :: s.tlb }) else .error (cPERM 0)
      | .error c => .error c
  match found with
  | .error c => .error c
  | .ok (e, s') =>
    let p := e.place va
    if p.gen = (s.keyAt p.slot).gen then .ok (p, s') else .error cKEYGONE

/-! ## Refusals at home (R232, R366, R367, R394) -/

/-- The die that homes an HBM byte (R201). -/
def hbmDie (pa : Nat) : Nat := pa / 0x1800000000

/-- The stack, as READY0 numbers it, that holds an HBM byte: stacks 2d and 2d + 1 are those of die d (R201, R393; log 76, DESIGN CHOICE). -/
def hbmStack (pa : Nat) : Nat := 2 * hbmDie pa + pa / 2 ^ 12 % 2

def State.portAt (s : State) (p : Nat) : Port := Tbl.get s.ports p Port.zero

/-- The live ports of a die, in order. -/
def State.livePorts (s : State) (die : Nat) : List Nat := (upFrom (16 * die) 16).filter fun p => (s.portAt p).live

/-- The port on which an unscheduled access of die `die` goes out (R366); none where no port lives. -/
def State.portFor (s : State) (die pa : Nat) : Option Nat :=
  let l := s.livePorts die
  l[Config.portHash (pa / 2 ^ 42) (pa / 2 ^ 12 % 2 ^ 30) % l.length]?

/-- Bit `b` of a readiness word. -/
def bitOf (w : Word) (b : Nat) : Bool := w.toNat / 2 ^ b % 2 == 1

/-- Why the home of a place is out of reach for die `die`: none, or REFUSED (33) or DEADLINK (32) in the numbering of R230. -/
def State.outOfReach (s : State) (die : Nat) (p : Place) : Option Nat :=
  if p.home = 0 then (if bitOf s.bureau.ready0 (16 + hbmStack p.pa) then none else some 33)
  else if p.home = 3 then (if bitOf s.bureau.ready0 ((p.pa - 2 ^ 44) / 2 ^ 22 / 24) then none else some 33)
  else if p.home = 4 then (if bitOf s.bureau.ready0 (p.pa / 2 ^ 16 / 24) then none else some 33)
  else if p.home = 1 then (if bitOf s.bureau.ready0 29 then none else some 33)
  else if p.pa / 2 ^ 42 = Config.deviceNumber then some 33
  else
    match s.portFor die p.pa with
    | none => some 32
    | some q => if bitOf s.bureau.ready1 q then none else some 33

/-- Whether the digest pool and directory of the die that homes an HBM byte are ready (R393, R394). -/
def State.digestReady (s : State) (pa : Nat) : Bool := bitOf s.bureau.ready0 (24 + hbmDie pa)

/-- Why an access of `n` bytes from die `die` fails at its home: none, REFUSED, DEADLINK, or 35 for an uncorrectable error there (R355). -/
def State.refusal (s : State) (die : Nat) (p : Place) (n : Nat) : Option Nat :=
  match s.outOfReach die p with
  | some why => some why
  | none => if s.flawed p.loc n then some 35 else none

/-! ## Flit credits (R365, R366) -/

/-- The link engine of die `d`. -/
def State.linkAt (s : State) (d : Nat) : Link := if d = s.dieNo then s.link else Tbl.get s.links d Link.zero

/-- Whether the switch slot table routes a port's cargo of a slot (R369). -/
def Link.routed (l : Link) (port slot : Nat) : Bool :=
  match Tbl.get? l.routes port with
  | some row => decide (0 < row.length) && row.getD (slot % row.length) 0xFFFF != 0xFFFF
  | none => false

/-- Take the flit credits, one for each 256 bytes, of the port that an access of `n` bytes to a peer goes out on; none where the port has
too few, or where the slot under way is a cargo's (R366) (log 58, DESIGN CHOICE). -/
def State.takeCredits (s : State) (die : Nat) (p : Place) (n : Nat) : Option State :=
  if p.home ≠ 2 then some s
  else
    match s.portFor die p.pa with
    | none => some s
    | some q =>
      let port := s.portAt q
      let k := max ((n + 255) / 256) 1
      if port.credits < k ∨ (s.linkAt (q / 16)).routed q s.fslot then none
      else some { s with ports := Tbl.put s.ports q { port with credits := port.credits - k } }

/-- The cause of a load that its home refuses (33), that meets a dead link (32) or an uncorrectable error (35), or that has no data in
time (34) (R232, R334). -/
def refusalCause (why : Nat) : Cause := if why = 33 then cPERM 2 else if why = 32 then cUNCORR 1 else if why = 35 then cUNCORR 0 else cUNCORR 2

end Sys2Proof.Machine
end

