-- ==== Sys2Proof/Machine/Operands.lean ====
section
/-! DEFINITION. The stream in hand, its registers and its queues: how a word reads its sources and writes its results
(R6, R11, R12, R43, R44, R119 to R123, R190). -/

namespace Sys2Proof.Machine

/-! ## The stream in hand -/

/-- The stream in hand. -/
def State.st (s : State) : Stream :=
  match s.sid with
  | .A => s.bank.a
  | .X => s.bank.x
  | .N => s.bank.n
  | .L => s.link.st

/-- Replace the stream in hand. -/
def State.setSt (s : State) (t : Stream) : State :=
  match s.sid with
  | .A => { s with bank := { s.bank with a := t } }
  | .X => { s with bank := { s.bank with x := t } }
  | .N => { s with bank := { s.bank with n := t } }
  | .L => { s with link := { s.link with st := t } }

/-- A stream of the bank in hand; L is the link engine's. -/
def State.streamAt (s : State) (k : StreamId) : Stream := State.st { s with sid := k }

/-- The counted cycle of R125; under LOCK it stands while a stream is held from outside (R124). -/
def State.now (s : State) : Nat :=
  match s.sid with
  | .L => s.link.cycle
  | .A | .X | .N => s.bank.cycle - s.bank.slip

/-- The stream in hand as an agent (R224). -/
def State.agent (s : State) : Agent :=
  match s.sid with
  | .L => { core := s.dieNo, bank := 0, sid := .L }
  | k => { core := s.coreNo, bank := s.bankNo, sid := k }

/-- The number of an agent in `Stream.acq` and `QEntry.src`. -/
def Agent.key (a : Agent) : Nat :=
  match a.sid with
  | .A => a.core * 8 + a.bank * 4
  | .X => a.core * 8 + a.bank * 4 + 1
  | .N => a.core * 8 + a.bank * 4 + 2
  | .L => 4096 + a.core

/-- The die of the core in hand, or of the link engine for an L stream (R1, R2: 96 cores a die). -/
def State.die (s : State) : Nat := if s.sid = .L then s.dieNo else s.coreNo / 96

/-! ## Registers (R6) -/

/-- A scalar register; s0 reads as zero. -/
def State.reg (s : State) (n : Fin 32) : Word := if n = 0 then 0 else s.st.s[n]

/-- Write a scalar register; a write to s0 is discarded. -/
def State.setReg (s : State) (n : Fin 32) (v : Word) : State :=
  if n = 0 then s else s.setSt { s.st with s := s.st.s.set n v }

/-- A result is readable `lat` cycles after the issue (R123). A latency of 1 needs no entry: the next word issues in the
next cycle at the earliest (R10). -/
def State.setBusy (s : State) (r : RegId) (lat : Nat) : State :=
  if lat ≤ 1 then s
  else s.setSt { s.st with busy := (r, s.now + lat) :: s.st.busy.filter fun p => decide (s.now < p.2) }

/-- The condition half of a steer register as a producer leaves it (R13). -/
def State.setCond (s : State) (k : Fin 12) (v : Bool) : State :=
  s.setSt { s.st with k := s.st.k.set k { s.st.k[k] with set := true, value := v } }

/-! ## Queues (R119 to R121, R128) -/

/-- Depth of a queue. -/
def qDepth (q : Nat) : Nat := [16, 16, 16, 16, 16, 16, 64, 64, 8, 8, 8, 8, 32, 32, 8, 8].getD q 0

/-- The outcome queues hold one bit an entry. -/
def isOutcome (q : Nat) : Bool := q == 6 || q == 7

/-- The producer of an inter-stream queue; none for a reply queue. -/
def qProducer (q : Nat) : Option StreamId :=
  if q < 4 ∨ q = 6 ∨ q = 10 then some .A else if q = 4 ∨ q = 5 ∨ q = 7 ∨ q = 8 then some .X
  else if q = 9 ∨ q = 11 then some .N else none

/-- The consumer of a queue. -/
def qConsumer (q : Nat) : StreamId :=
  if q < 4 ∨ q = 6 ∨ q = 9 then .X else if q = 8 ∨ q = 10 ∨ q = 14 then .N else .A

/-- The cycle in which the entries of queue `q` fill: counted for the inter-stream queues, the bank's own for the reply
queues, which are filled from outside. -/
def State.qNow (s : State) (q : Nat) : Nat := if 12 ≤ q then s.bank.cycle else s.bank.cycle - s.bank.slip

/-- An entry can be popped from the cycle after the one that filled it (R121). -/
def QEntry.ready (e : QEntry) (now : Nat) : Bool :=
  match e.filled with
  | some c => decide (c < now)
  | none => false

/-- The value of an entry as a data operand: 0 for a token (R120). -/
def QEntry.read (e : QEntry) : Word := if e.token then 0 else e.value

/-- CLS, BAR, RPL and BUF8 of a command word that uses them all (R284). -/
def tailOf : Instr → Option CTail
  | .cpy _ _ _ _ _ _ t | .cpys _ _ _ _ _ _ t | .cpyt _ _ _ _ _ t | .cfill _ _ _ _ t | .cfetchif _ _ _ _ _ t
  | .kvfetch _ _ _ _ _ t | .gath _ _ _ _ _ t | .scat _ _ _ _ _ t | .scadd _ _ _ _ _ t | .compact _ _ _ _ _ t
  | .intersect _ _ _ _ _ t | .select _ _ _ _ _ _ t => some t
  | _ => none

/-- RPL of a command word. -/
def rplOf (i : Instr) : Bool :=
  match i with
  | .btinv r _ _ => r
  | _ => match tailOf i with
    | some t => t.rpl
    | none => false

/-- Whether a reply is due in reply queue `q` (R126). -/
def State.owed (s : State) (q : Nat) : Bool :=
  if q = 12 then s.core.copyQ.any fun c => c.bank == s.bankNo && rplOf c.instr
  else if q = 13 then s.core.indexQ.any fun c => c.bank == s.bankNo && rplOf c.instr
  else if q = 14 then decide (0 < s.bank.nests)
  else decide (0 < s.bank.launches)

/-- What holds a word at issue: a wait, or a trap with its TVAL. -/
inductive Block where
  | wait (w : Wait)
  | trap (c : Cause) (v : Word)
  deriving DecidableEq, Repr

/-- A pop of the entry that stands behind `skip` others of queue `q`: nothing holds it, or it waits, or it raises subcode 11
where the wait cannot end (R126). -/
def State.popBlock (s : State) (q : Fin 16) (skip : Nat) : Option Block :=
  match s.bank.q[q].drop skip with
  | e :: t =>
    if e.ready (s.qNow q) then none
    else if 12 ≤ q.val ∧ ¬ (e :: t).any (fun e => e.filled.isSome) ∧ ¬ s.owed q then
      some (.trap (cILLEGAL 11) (BitVec.ofNat 64 q.val))
    else some (.wait (.pop q))
  | [] =>
    if (match qProducer q with
        | some k => (s.streamAt k).exited
        | none => !s.owed q) then some (.trap (cILLEGAL 11) (BitVec.ofNat 64 q.val))
    else some (.wait (.pop q))

/-- A push behind `skip` others of the same word into queue `q` (R12, R121, R128). -/
def State.pushBlock (s : State) (q : Fin 16) (skip : Nat) : Option Block :=
  if (s.streamAt (qConsumer q)).exited then none
  else if s.bank.q[q].length + (s.bank.popped.filter (· == q)).length + skip < qDepth q then none
  else some (.wait (.push q))

/-- The first source that holds the word, in field order: it decides whether the word waits, and for which queue, or traps with
which TVAL (log 71, DESIGN CHOICE); `seen` are the queues named before. -/
def State.srcBlock (s : State) : List (Fin 16) → List Opnd → Option Block
  | _, [] => none
  | seen, .s _ :: t => State.srcBlock s seen t
  | seen, .q q :: t =>
    match s.popBlock q (seen.filter (· == q)).length with
    | some b => some b
    | none => State.srcBlock s (q :: seen) t

/-- The first destination that holds the word. -/
def State.dstBlock (s : State) : List (Fin 16) → List Opnd → Option Block
  | _, [] => none
  | seen, .s _ :: t => State.dstBlock s seen t
  | seen, .q q :: t =>
    match s.pushBlock q (seen.filter (· == q)).length with
    | some b => some b
    | none => State.dstBlock s (q :: seen) t

/-- What holds a word with these sources and destinations (R12). -/
def State.block (s : State) (srcs dsts : List Opnd) : Option Block :=
  match s.srcBlock [] srcs with
  | some b => some b
  | none => s.dstBlock [] dsts

/-- Note that the stream in hand acquires what agent `a` had released by its access `n` (R122) (log 24, DESIGN CHOICE). -/
def State.acquire (s : State) (a n : Nat) : State :=
  s.setSt { s.st with acq := Tbl.put s.st.acq a (max n (Tbl.get s.st.acq a 0)) }

/-- Whether an access of the stream in hand is on its way that can still trap at its word (R22, R232). -/
def State.mayTrap (s : State) : Bool := s.flight.any fun x => x.agent == s.agent && x.snap.isSome

/-- Keep a popped entry for as long as an earlier word can still trap (R22). -/
def State.notePop (s : State) (q : Fin 16) (e : QEntry) : State :=
  s.setSt { s.st with pops := if s.mayTrap then s.st.pops ++ [(s.issued, q, e)] else [] }

/-- Pop the oldest entry of a queue; its place is free from the next cycle (R121). -/
def State.pop (s : State) (q : Fin 16) : Option (QEntry × State) :=
  match s.bank.q[q] with
  | e :: t =>
    some (e, (State.acquire { s with bank := { s.bank with q := s.bank.q.set q t, popped := q :: s.bank.popped } } e.src e.rel).notePop q e)
  | [] => none

/-- Read a source: a register, or a pop. -/
def State.take (s : State) (o : Opnd) : Word × State :=
  match o with
  | .s n => (s.reg n, s)
  | .q q =>
    match s.pop q with
    | some (e, s') => (e.read, s')
    | none => (0, s)

/-- The entries that a word with these sources pops, with their queues. -/
def State.popped (s : State) : List Opnd → List (Fin 16 × QEntry)
  | [] => []
  | .s _ :: t => State.popped s t
  | .q q :: t =>
    match s.pop q with
    | some (e, s') => (q, e) :: State.popped s' t
    | none => State.popped s t

/-- Put popped entries back at the heads of their queues (R12). -/
def State.unpop (s : State) : List (Fin 16 × QEntry) → State
  | [] => s
  | (q, e) :: t =>
    let r := State.unpop s t
    { r with bank := { r.bank with q := r.bank.q.set q (e :: r.bank.q[q]) } }

/-- Take back the entry that waits under a ticket. -/
def State.unreserve (s : State) (o : Opnd) (ticket : Nat) : State :=
  match o with
  | .s _ => s
  | .q q => { s with bank := { s.bank with q := s.bank.q.set q (s.bank.q[q].filter fun e => !(e.due.isNone && e.ticket == ticket)) } }

/-- Read sources in order. -/
def State.takes (s : State) : List Opnd → List Word × State
  | [] => ([], s)
  | o :: t => let (v, s1) := s.take o; let (vs, s2) := State.takes s1 t; (v :: vs, s2)

/-- The counted cycle from which every earlier write of the stream to the core's own banks is readable (R190). -/
def State.ownReady (s : State) : Nat :=
  (s.core.early.filter fun e => e.bank == s.bankNo && e.by_ == s.sid).foldl (fun a e => max a e.due) 0

/-- The value as a queue keeps it (R120). -/
def qValue (q : Fin 16) (v : Word) : Word := if isOutcome q then (if v = 0 then 0 else 1) else v

/-- Reserve the next entry of a queue (R121). -/
def State.reserve (s : State) (q : Fin 16) (e : QEntry) : State :=
  { s with bank := { s.bank with q := s.bank.q.set q (s.bank.q[q] ++ [e]) } }

/-- The entry that a push of the stream in hand makes; it releases the stream's earlier stores (R122). -/
def State.entry (s : State) (v : Word) (token : Bool) (due : Option Nat) (ticket : Nat) : QEntry :=
  { value := v, token := token, due := due, filled := none, rel := s.issued, src := s.agent.key, ticket := ticket }

/-- Write a result of fixed latency: a register, or an entry that fills at issue + `lat` and not before the stream's own
writes are readable (R43, R121, R190). -/
def State.put (s : State) (o : Opnd) (v : Word) (lat : Nat) : State :=
  match o with
  | .s n => (s.setReg n v).setBusy (.s n) lat
  | .q q => s.reserve q (s.entry (qValue q v) false (some (max (s.now + lat) s.ownReady)) 0)

/-- A destination whose value comes later, under `ticket`. -/
def State.await (s : State) (o : Opnd) (ticket : Nat) : State :=
  match o with
  | .s _ => s
  | .q q => s.reserve q (s.entry 0 false none ticket)

/-- A result of the word with this ticket is in: where a later word can still trap, its stream then stands as `f` leaves it (R22). -/
def State.noteDelivered (s : State) (ticket : Nat) (f : Stream × VecState → Stream × VecState) : State :=
  { s with flight := s.flight.map fun y => if y.agent == s.agent && decide (ticket < y.ord) then { y with snap := y.snap.map f } else y }

/-- The first entry that waits under a ticket takes its value (R12, R121). -/
def fillTicket (ticket due : Nat) (v : Word) : List QEntry → List QEntry
  | [] => []
  | e :: t => if e.due.isNone && e.ticket == ticket then { e with value := v, due := some due } :: t else e :: fillTicket ticket due v t

/-- Deliver a value that a destination waits for: the register, or the first entry that waits under the ticket, which then fills. -/
def State.deliver (s : State) (o : Opnd) (ticket : Nat) (v : Word) : State :=
  match o with
  | .s n =>
    let t := s.setReg n v
    t.noteDelivered ticket fun x => ({ x.1 with s := x.1.s.set n (t.reg n) }, x.2)
  | .q q =>
    { s with bank := { s.bank with q := s.bank.q.set q (fillTicket ticket (max s.now s.ownReady) (qValue q v) s.bank.q[q]) } }

/-- Fill the entries of queue `q` that are due; entries whose consumer has exited are discarded, and STRAY is set (R121,
R128). -/
def State.fillQueue (s : State) (q : Fin 16) : State :=
  let now := s.qNow q
  let due := fun (e : QEntry) => e.filled.isNone && (match e.due with | some c => decide (c ≤ now) | none => false)
  let l := s.bank.q[q].map fun e => if due e then { e with filled := some now } else e
  if q.val < 12 ∧ (s.streamAt (qConsumer q)).exited then
    { s with bank := { s.bank with q := s.bank.q.set q (l.filter fun e => e.filled.isNone)
                                   stray := s.bank.stray || l.any fun e => e.filled.isSome } }
  else { s with bank := { s.bank with q := s.bank.q.set q l } }

/-! ## Registers that a word names, and which of them hold it (R44, R142) -/

/-- The physical register that a vector register number names (R138). -/
def VecState.phys (v : VecState) (n : Fin 64) : Fin 64 :=
  if n.val < 32 then n else ⟨32 + (n.val - 32 + v.vrot.toNat) % 32, by omega⟩

/-- The scalar registers among operands. -/
def scalars (l : List Opnd) : List RegId :=
  l.filterMap fun o => match o with | .s n => some (.s n) | .q _ => none

/-- A scalar register and its successors. -/
def upto (n : Nat) : Nat → List RegId
  | 0 => []
  | k + 1 => (if h : n < 32 then [RegId.s ⟨n, h⟩] else []) ++ upto (n + 1) k

/-- Registers that a word names besides the operands of `Instr.reads` and `Instr.writes`; vector registers through `p`.
Whether a word reads or writes a register, it waits for the earlier writers. The mask stack is written with a latency of 1,
so it never holds a word. -/
def namedRegs (p : Fin 64 → RegId) : Instr → List RegId
  | .brl _ _ => [.s 31]
  | .ldhi d _ => [.s d]
  | .qtry _ _ d => [.s d]
  | .cpys _ _ _ _ b c _ => upto b.val 3 ++ upto c.val 3
  | .cpyt _ _ _ b _ _ => upto b.val 2
  | .gath _ _ _ _ c _ | .scat _ _ _ _ c _ | .scadd _ _ _ _ c _ => upto c.val 2
  | .compact _ _ _ _ c _ => upto c.val 3
  | .intersect _ _ a b _ _ => upto a.val 2 ++ upto b.val 2
  | .select _ _ _ _ _ c _ => upto c.val 2
  | .dgetv _ vd _ _ mc _ => [p vd, .m mc]
  | .dcls _ _ md _ _ _ _ => [.m md, .m (md + 1)]
  | .vadd _ _ _ _ _ vd va vb | .vsub _ _ _ _ _ vd va vb | .vmul _ _ _ _ _ vd va vb | .vscl _ _ _ _ _ vd va vb
  | .vmulh _ _ _ vd va vb | .vmin _ _ _ vd va vb | .vmax _ _ _ vd va vb | .vand _ _ _ vd va vb | .vor _ _ _ vd va vb
  | .vxor _ _ _ vd va vb | .vshl _ _ _ vd va vb | .vshr _ _ _ vd va vb | .vsar _ _ _ vd va vb | .vperm _ _ _ vd va vb =>
    [p vd, p va, p vb]
  | .vfma _ _ _ _ _ vd va vb vc | .vfms _ _ _ _ _ vd va vb vc => [p vd, p va, p vb, p vc]
  | .vabs _ _ _ _ vd va | .vneg _ _ _ _ vd va | .vpopc _ _ _ vd va | .vclz _ _ _ vd va | .vmov _ _ _ vd va
  | .vexpo _ _ _ vd va | .vrcp _ _ vd va | .vrsq _ _ vd va | .vexp2 _ _ vd va | .vlog2 _ _ vd va | .vpsum _ _ _ _ _ vd va
  | .vexpd _ _ vd va | .vslu _ _ _ vd va _ | .vsld _ _ _ vd va _ | .vcomp _ _ vd va _ => [p vd, p va]
  | .vcvt _ _ _ _ _ _ vd va => [p vd, p va]
  | .vwid _ s d _ vd va =>
    let n := d.bits / s.bits
    ((upFrom 0 n).map fun i => p (vd + Fin.ofNat 64 i)) ++ [p va]
  | .vnar _ s d _ _ _ vd va =>
    let n := s.bits / d.bits
    ((upFrom 0 n).map fun i => p (va + Fin.ofNat 64 i)) ++ [p vd]
  | .vcmp _ _ _ _ md va vb => [.m md, p va, p vb]
  | .vsel _ _ _ vd va vb mc => [p vd, p va, p vb, .m mc]
  | .vbcast _ _ _ vd _ => [p vd]
  | .vget _ _ _ va _ => [p va]
  | .vins _ _ vd _ _ => [p vd]
  | .vred _ _ _ _ _ _ _ va => [p va]
  | .vld _ _ _ vd _ _ _ | .vst _ _ _ vd _ _ _ | .vlds _ _ _ vd _ _ _ | .vsts _ _ _ vd _ _ _ => [p vd]
  | .vldx _ _ _ vd _ vb _ | .vstx _ _ _ vd _ vb _ => [p vd, p vb]
  | .mpush _ ma => [.m ma]
  | .mset _ md (.vec va) => [.m md, p va]
  | .mset _ md .top | .mset _ md (.prefixOf _) | .mset _ md (.pattern _) => [.m md]
  | .mcnt _ _ _ ma => [.m ma]
  | .lslot d a _ => [.s d, .s a]
  | .lxmit c b _ => [.c c, .s b]
  | .lxmitMem c a => [.c c, .s a]
  | .lrecv c a b _ => [.c c, .s a, .s b]
  | .lrecvMem c a => [.c c, .s a]
  | .lwid _ d a b => [.c d, .c (d + 1), .c (d + 2), .c (d + 3), .c a, .s b]
  | .ladd _ _ d a b => [.c d, .c a, .c b]
  | .lqnt _ _ _ d a b _ => [.c d, .c a, .c (a + 1), .c (a + 2), .c (a + 3), .s b]
  | _ => []

/-- Every register that a word names. -/
def State.names (s : State) (i : Instr) : List RegId :=
  scalars i.reads ++ scalars i.writes ++ namedRegs (fun n => .v (s.bank.vec.phys n)) i

/-- The register that a destination writes. -/
def Dest.reg : Dest → Option RegId
  | .scalar (.s n) => some (.s n)
  | .scalar (.q _) => Option.none
  | .vec p => some (.v p)
  | .cargo c => some (.c c)
  | .none => Option.none

/-- Registers that a request writes besides its destination. -/
def Req.regs : Req → List RegId
  | .dget b c => scalars [b, c]
  | .dgetv mc => [.m mc]
  | .dcls _ _ md => [.m md, .m (md + 1)]
  | _ => []

/-- Whether a register waits for a value of unknown latency. -/
def State.pendingReg (s : State) (r : RegId) : Bool :=
  s.flight.any (fun x => x.agent == s.agent && (x.dest.reg == some r || x.req.regs.contains r))
    || s.st.fences.any (fun f => scalars [f.dst] == [r])
    || s.retires.any (fun t => t.agent == s.agent && scalars [t.dst] == [r])

/-- The interlock that holds a word (R14, R44): one whose data is on its way, an earlier writer of fixed latency, or a prepare
distance; where several hold it, the first of these decides whether the wait is external (log 70, DESIGN CHOICE). -/
def State.interlock (s : State) (i : Instr) : Option Wait :=
  let regs := (s.names i).filter (· != .s 0)
  if regs.any s.pendingReg then some (.ext .data)
  else if regs.any fun r => s.st.busy.any fun p => p.1 == r && decide (s.now < p.2) then some .result
  else
    match i with
    | .br k _ | .brl k _ => if s.now < s.st.k[k].ready then some .prepared else none
    | _ => none

end Sys2Proof.Machine
end

