-- ==== Sys2Proof/Machine/Ops.lean ====
section
/-! DEFINITION. Operations shared by the instructions: which core and bank is in hand, how a word ends (R10, R17), how it
waits (R124), how it traps (R22, R334, R336, R339) and returns (R338), and the writes to the core's own banks (R189). -/

namespace Sys2Proof.Machine

/-- What a meaning answers. -/
abbrev Result := Host.Outcome State Fault Refusal

/-! ## The core, bank and die in hand -/

/-- Take the core's other bank in hand. -/
def State.swapBank (s : State) : State :=
  { s with bank := s.core.other, bankNo := 1 - s.bankNo, core := { s.core with other := s.bank } }

/-- Take bank `b` of the core in hand. -/
def State.focusBank (s : State) (b : Nat) : State := if s.bankNo = b then s else s.swapBank

/-- The core number `n` with its two banks. -/
def State.coreAt (s : State) (n : Nat) : CoreRec × Bank × Bank :=
  if n = s.coreNo then
    (if s.bankNo = 0 then (s.core, s.bank, s.core.other) else (s.core, s.core.other, s.bank))
  else
    match Tbl.get? s.cores n with
    | some (c, b) => (c, b, c.other)
    | none => (CoreRec.zero, Bank.zero, Bank.zero)

/-- Bank `b` of core `n`. -/
def State.bankAt (s : State) (n b : Nat) : Bank := let (_, b0, b1) := s.coreAt n; if b = 0 then b0 else b1

/-- Take core `n` in hand, with its bank 0. -/
def State.focusCore (s : State) (n : Nat) : State :=
  if s.coreNo = n then s
  else
    let t := s.focusBank 0
    let (c, b0, _) := t.coreAt n
    { t with core := c, bank := b0, bankNo := 0, coreNo := n, cores := Tbl.del (Tbl.put t.cores t.coreNo (t.core, t.bank)) n }

/-- Take bank `b` of core `n` in hand. -/
def State.focus (s : State) (n b : Nat) : State := (s.focusCore n).focusBank b

/-- Take the link engine of die `d` in hand. -/
def State.focusDie (s : State) (d : Nat) : State :=
  if s.dieNo = d then s
  else { s with link := Tbl.get s.links d Link.zero, dieNo := d, links := Tbl.del (Tbl.put s.links s.dieNo s.link) d }

/-- The banks that hold an iteration: core and bank. -/
def State.banks (s : State) : List (Nat × Nat) :=
  let here (n : Nat) : List (Nat × Nat) :=
    (if (s.bankAt n 0).iter.isSome then [(n, 0)] else []) ++ (if (s.bankAt n 1).iter.isSome then [(n, 1)] else [])
  let rec go (done : Bool) : List Nat → List (Nat × Nat)
    | [] => if done then [] else here s.coreNo
    | n :: t => if !done && decide (s.coreNo < n) then here s.coreNo ++ here n ++ go true t else here n ++ go done t
  go false (s.cores.map Prod.fst)

/-- Act on bank `b` of core `n`, and take the bank in hand again that was in hand before. -/
def State.onBank (s : State) (n b : Nat) (f : State → State) : State := (f (s.focus n b)).focus s.coreNo s.bankNo

/-- Act on the link engine of die `d`. -/
def State.onDie (s : State) (d : Nat) (f : State → State) : State := (f (s.focusDie d)).focusDie s.dieNo

/-- Act on the stream of an agent, and take the stream in hand again that was in hand before. -/
def State.onAgent (s : State) (a : Agent) (f : State → State) : State :=
  match a.sid with
  | .L => { s.onDie a.core (fun t => f { t with sid := .L }) with sid := s.sid }
  | k => { s.onBank a.core a.bank (fun t => f { t with sid := k }) with sid := s.sid }

/-- The stream of an agent. -/
def State.streamOf (s : State) (a : Agent) : Stream :=
  match a.sid with
  | .L => (s.linkAt a.core).st
  | .A => (s.bankAt a.core a.bank).a
  | .X => (s.bankAt a.core a.bank).x
  | .N => (s.bankAt a.core a.bank).n

/-- Replace the core's record but for the banks. -/
def State.setCore (s : State) (f : CoreRec → CoreRec) : State := { s with core := f s.core }

/-- Replace the bank in hand. -/
def State.setBank (s : State) (f : Bank → Bank) : State := { s with bank := f s.bank }

/-- The core switches to its other bank, from the next cycle on, if that one can issue (R117). -/
def State.switchBank (s : State) : State :=
  let o := s.core.other
  if o.started && o.stopped.isNone && o.iter.isSome then
    s.setCore fun c => { c with issuing := 1 - s.bankNo, handed := s.w + 1 }
  else s.setCore fun c => { c with handed := s.w + 1 }

/-! ## Code (R90, R115, R371) -/

/-- The image that the stream in hand runs. -/
def State.image (s : State) : Option Image :=
  s.core.images.find? fun i => i.sid == s.sid && i.tag == s.st.tag && i.words.length == i.len

/-- The words of the code image in hand. -/
def State.code (s : State) : List Word :=
  match s.sid with
  | .L => s.link.code
  | .A | .X | .N =>
    match s.image with
    | some i => i.words
    | none => []

/-- The address space of the stream in hand. -/
def State.space (s : State) : Nat :=
  match s.sid with
  | .L => s.link.space
  | .A | .X | .N =>
    match s.bank.iter with
    | some i => i.space
    | none => 0

/-! ## The end of a word (R10, R16, R17) -/

/-- The loops that end at word `e`, in the order of R17: the word to go on at where a loop repeats, and the loop registers
after it. -/
def endLoops (e : Nat) : List (Fin 4) → Vector Loop 4 → Option Nat × Vector Loop 4
  | [], ls => (none, ls)
  | n :: t, ls =>
    let l := ls[n]
    if l.count ≠ 0 ∧ l.stop.toNat = e then
      if 1 < l.count.toNat then (some l.start.toNat, ls.set n { l with count := l.count - 1 })
      else endLoops e t (ls.set n { l with count := 0 })
    else endLoops e t ls

/-- The active loop whose END is word `e`, the most recently set first. -/
def Stream.loopAt (t : Stream) (e : Nat) : Option (Fin 4) :=
  t.order.find? fun n => t.l[n].count != 0 && t.l[n].stop.toNat == e

/-- The word has issued and the stream goes on at `target`. -/
def State.goto (s : State) (target : Nat) : State :=
  s.setSt { s.st with pc := target, last := s.st.pc, bound := s.now + 1, least := 0, wait := none }

/-- The word has issued and the stream goes on behind it, or at the START of a loop that repeats (R17). -/
def State.finish (s : State) : State :=
  let r := endLoops s.st.pc s.st.order s.st.l
  State.goto (s.setSt { s.st with l := r.2 }) (r.1.getD (s.st.pc + 1))

/-- The word waits: nothing of it has happened, and it is tried again in the next cycle. -/
def State.hold (s : State) (w : Wait) : State := s.setSt { s.st with wait := some w }

/-! ## Records (R342) -/

/-- AGENT numbers. -/
def agentCode : StreamId → Nat
  | .A => 0 | .X => 1 | .N => 2 | .L => 3

/-- INFO of a record. -/
def infoWord (c : Cause) (agent core bank : Nat) (write : Bool) (space : Nat) : Word :=
  BitVec.ofNat 64 (c.code + c.sub * 2 ^ 8 + agent * 2 ^ 16 + core % 512 * 2 ^ 20 + bank % 2 * 2 ^ 29 + (if write then 2 ^ 30 else 0)
    + space % 64 * 2 ^ 31)

/-- Whether an instruction stores: the WRITE bit of its record. -/
def storesTo : Instr → Bool
  | .st _ _ _ _ _ | .scst _ _ _ _ _ _ | .amo _ _ _ _ _ _ _ | .cas _ _ _ _ _ _ _ => true
  | .vst _ _ _ _ _ _ _ | .vsts _ _ _ _ _ _ _ | .vstx _ _ _ _ _ _ _ => true
  | .lxmitMem _ _ | .ldone => true
  | _ => false

/-- Hand a record to the Bureau; it is posted when a slot is free (R341). -/
def State.post (s : State) (r : Record) : State := { s with bureau := { s.bureau with posts := s.bureau.posts ++ [r] } }

/-! ## Taking a trap (R22, R23, R334 to R339) -/

/-- CAUSE (R23). -/
def Cause.word (c : Cause) : Word := BitVec.ofNat 64 (c.code % 256 + c.sub % 256 * 256)

/-- Causes that the stream's own handler takes (R334). -/
def Cause.handled (c : Cause) : Bool :=
  [0x01, 0x02, 0x03, 0x05, 0x09, 0x0A, 0x0B, 0x0C, 0x0D, 0x0E].contains c.code

/-- The word that a trap names: its own, or for subcode 7 the last one issued (R15). -/
def State.trapPc (s : State) (c : Cause) : Nat := if c = cILLEGAL 7 then s.st.last else s.st.pc

/-- Whether the trap enters the stream's handler (R334, R336). -/
def State.entersHandler (s : State) (c : Cause) : Bool :=
  c.handled && s.st.hvecEn && !s.st.active && s.sid != .L

/-- Write the trap state. -/
def State.writeTrap (s : State) (c : Cause) (epc : Nat) (v : Word) : State :=
  s.setSt { s.st with cause := c.word, epc := BitVec.ofNat 64 epc, tval := v, last := epc, wait := none }

/-- Enter the handler: the trapping word stands as the word issued before, and the first handler word issues 3 cycles
after it at the earliest (R336). -/
def State.enterHandler (s : State) : State :=
  s.setSt { s.st with active := true, pc := s.st.hvecTarget.toNat, bound := s.now + 1, least := s.now + 3 }

/-- Stop the stream in hand and its bank for the Bureau (R339 step 1). -/
def State.stopBank (s : State) : State :=
  let t := s.setSt { s.st with stopped := true }
  match s.sid with
  | .L => t
  | .A | .X | .N =>
    { t with bank := { t.bank with stopped := match t.bank.stopped with
                                     | some c => some c
                                     | none => some t.bank.cycle } }

/-- BRK and TRAPI issue, and the word behind them counts its IDLE from their cycle (R10, R22, R334). -/
def State.countIssue (s : State) (c : Cause) : State := if c.code = 4 ∨ c.code = 5 then s.setSt { s.st with bound := s.now + 1 } else s

/-- The record of a stream's trap (R342). -/
def State.trapRecord (s : State) (c : Cause) (epc : Nat) (v : Word) : Record :=
  let w := s.code.getD epc 0
  let write := match decode s.sid w with
    | .ok i => storesTo i
    | .error _ => false
  { info := infoWord c (agentCode s.sid) s.agent.core s.agent.bank write s.space, va := v, word := w
    pos := BitVec.ofNat 64 epc, who := .stream s.agent, task := match s.bank.iter with
      | some i => i.task
      | none => 0 }

/-- The record of a trap waits until what the bank has issued has completed (R339 steps 2 and 3); an L stream has no bank. -/
def State.handOver (s : State) (r : Record) : State := if s.sid = .L then s.post r else s.setSt { s.st with record := some r }

/-- Take a trap at word `epc`: into the handler, or to the Bureau with a record (log 18, DEDUCED). -/
def State.takeTrapAt (s : State) (c : Cause) (epc : Nat) (v : Word) : State :=
  if s.entersHandler c then (s.writeTrap c epc v).enterHandler
  else (((s.writeTrap c epc v).countIssue c).stopBank).handOver (s.trapRecord c epc v)

/-- Take a trap at the word in hand. -/
def State.takeTrap (s : State) (c : Cause) (v : Word) : State := s.takeTrapAt c (s.trapPc c) v

/-- A meaning that ends in a trap: the state of the word's issue with the trap taken, nothing popped and nothing written. -/
def State.trap (s : State) (c : Cause) (v : Word) : Result := .next (s.takeTrap c v)

/-- Return from the handler (R338): EPC + 1 after TRAPI, else EPC, 3 cycles on at the earliest. An ERET at the END of an active loop takes the
loop as every word does (R17), and R338 fixes the word it goes on at (log 69, DEDUCED). -/
def State.leaveHandler (s : State) : State :=
  let t := s.st
  let next := t.epc.toNat + (if t.cause.toNat % 256 = 5 then 1 else 0)
  let r := State.goto (s.setSt { t with l := (endLoops t.pc t.order t.l).2 }) next
  r.setSt { r.st with active := false, least := s.now + 3 }

/-- Whether the stream is held, and what then happens. -/
def State.blocked (s : State) : Block → State
  | .wait w => s.hold w
  | .trap c v => s.takeTrap c v

/-- Go on with a word whose sources and destinations hold it no more (R12). -/
def State.guard (s : State) (srcs dsts : List Opnd) (k : Result) : Result :=
  match s.block srcs dsts with
  | none => k
  | some b => .next (s.blocked b)

/-- The same for a word with a case of subcode 5 to 10: it is decided at issue, once no queue holds the word, and before a wait
that cannot end (R10, R24, R126). -/
def State.guardCase (s : State) (early : Option (Cause × Word)) (srcs dsts : List Opnd) (k : Result) : Result :=
  match early with
  | none => s.guard srcs dsts k
  | some (c, v) =>
    match s.block srcs dsts with
    | some (.wait w) => .next (s.hold w)
    | some (.trap _ _) | none => s.trap c v

/-! ## The core's own banks (R189 to R191) -/

/-- Put a nibble into a byte: 0 the whole byte, 1 the low one, 2 the high one. -/
def mergeNib (nib : Nat) (old new : Byte) : Byte :=
  if nib = 0 then new else if nib = 1 then (old &&& 0xF0#8) ||| (new &&& 0x0F#8) else (old &&& 0x0F#8) ||| (new <<< 4)

/-- Take a nibble out of a byte. -/
def pickNib (nib : Nat) (b : Byte) : Byte := if nib = 0 then b else if nib = 1 then b &&& 0x0F#8 else b >>> 4

/-- Whole bytes from an offset on. -/
def cellsAt (off : Nat) : List Byte → List OwnCell
  | [] => []
  | b :: t => { off := off, nib := 0, byte := b } :: cellsAt (off + 1) t

/-- Write cells of core `c`'s scratchpad; the other nibble of a byte keeps its value (R157). -/
def Memory.writeCells (m : Memory) (c : Nat) : List OwnCell → Memory
  | [] => m
  | x :: t => Memory.writeCells (m.write (scratchLoc c x.off) (mergeNib x.nib (m.read (scratchLoc c x.off)) x.byte)) c t

/-- Drop forward-table entries whose backing bytes the core writes (R239). -/
def State.dropForward (s : State) (core : Nat) (offs : List Nat) : State :=
  { s with forward := s.forward.filter fun f => !(f.core == core && offs.any fun o => decide (f.off ≤ o ∧ o < f.off + 2048)) }

/-- A write of class `cls` to the core's own banks, readable after `lat` counted cycles (R189); it has its place in program order. -/
def State.writeOwn (s : State) (cells : List OwnCell) (lat cls : Nat) (mapped : Bool) : State :=
  (State.dropForward { s with issued := s.issued + 1 } s.coreNo (cells.map OwnCell.off)).setCore fun c =>
    { c with early := c.early ++ [{ bank := s.bankNo, by_ := s.sid, ord := s.issued, cls := cls, mapped := mapped, due := s.now + lat, cells := cells }] }

/-- What is left of a cell when later cells have been performed. -/
def OwnCell.strike (c : OwnCell) (l : List OwnCell) : Option OwnCell :=
  let on := l.filter fun d => d.off == c.off
  if on.any fun d => d.nib == 0 || d.nib == c.nib then none
  else if c.nib ≠ 0 then some c
  else
    match on.any (·.nib == 1), on.any (·.nib == 2) with
    | true, true => none
    | true, false => some { c with nib := 2, byte := c.byte >>> 4 }
    | false, true => some { c with nib := 1 }
    | false, false => some c

/-- The cells of `e` that a later write of the same stream has overwritten are struck (R59). -/
def Early.strike (e : Early) (by' : Early) : Early :=
  if e.bank = by'.bank ∧ e.by_ = by'.by_ then { e with cells := e.cells.filterMap fun c => c.strike by'.cells } else e

/-- Perform the early writes that are due; `kept` are those before them that are not. -/
def commitEarly (core : Nat) (due : Early → Bool) : List Early → List Early → Memory → List Early × Memory
  | kept, [], m => (kept, m)
  | kept, e :: t, m =>
    if due e then commitEarly core due (kept.map fun k => k.strike e) t (m.writeCells core e.cells)
    else commitEarly core due (kept ++ [e]) t m

/-- Make the writes of the bank in hand readable whose cycle has come. -/
def State.expose (s : State) : State :=
  let r := commitEarly s.coreNo (fun e => e.bank == s.bankNo && decide (e.due ≤ s.bank.cycle - s.bank.slip)) [] s.core.early s.mem
  { s with mem := r.2, core := { s.core with early := r.1.filter fun e => e.cells != [] } }

/-- The bytes of the core's own banks as those of the writes issued so far that satisfy `p` leave them. -/
def State.bytesAfter (s : State) (p : Early → Bool) (off n : Nat) : List Byte :=
  let cells := (s.core.early.filter p).flatMap Early.cells
  (upFrom off n).map fun o => cells.foldl (fun b c => if c.off = o then mergeNib c.nib b c.byte else b) (s.mem.read (scratchLoc s.coreNo o))

/-- Read `n` bytes of core `c`'s scratchpad. -/
def State.scratchRead (s : State) (c off n : Nat) : List Byte := s.mem.readN (scratchLoc c off) n

/-- Bytes of an access size. -/
def sizeBytes : Size → Nat
  | .b => 1 | .h => 2 | .w => 4 | .d => 8

/-- A value of an engine command: 0 d, 1 a, 2 b, 3 c. -/
def Cmd.val (c : Cmd) (i : Nat) : Nat := (c.vals.getD i 0).toNat

/-- A value of a register beside a field: 0 and 1 behind b, 2 and 3 behind c, 4 behind a. -/
def Cmd.beside (c : Cmd) (i : Nat) : Nat := (c.more.getD i 0).toNat

/-- Source and destination offset of row `r` of a CPYS (R290). -/
def Cmd.rowOff (c : Cmd) (r : Nat) : Int × Int :=
  let n1 := max (c.beside 0) 1
  let i1 := Int.ofNat (r % n1)
  let i2 := Int.ofNat (r / n1)
  (i1 * signedNat 32 (c.val 3) + i2 * signedNat 32 (c.beside 2),
   i1 * signedNat 32 (c.val 3 / 2 ^ 32) + i2 * signedNat 32 (c.beside 2 / 2 ^ 32))

/-- A VA moved by a signed offset, modulo 2^64. -/
def moved (va : Nat) (off : Int) : Nat := patOf 64 (Int.ofNat va + off)

/-- The byte ranges that an accepted command writes, as first byte and length; for COMPACT and INTERSECT, whose lengths
come from their data, those written so far (log 21, DESIGN CHOICE). -/
def Cmd.writes (c : Cmd) : List (Nat × Nat) :=
  let d := c.dest.toNat
  match c.instr with
  | .cpy _ _ _ _ _ _ _ => [(d, c.val 2)]
  | .cpys _ _ _ _ _ _ _ => (upFrom 0 (c.beside 0 * c.beside 1)).map fun r => (moved d (c.rowOff r).2, c.val 2)
  | .cpyt esz _ _ _ _ _ =>
    (upFrom 0 (c.beside 0)).map fun j => (d + j * (c.val 3 / 2 ^ 32), c.val 2 * sizeBytes esz)
  | .cfill _ _ _ _ _ => [(d, c.val 1)]
  | .cfetchif _ _ _ _ _ _ => [(d, if c.held then c.bytes else 0)]
  | .kvfetch _ _ _ _ _ _ => [(d, c.bytes)]
  | .gath esz _ _ _ _ _ => [(d, c.val 3 * sizeBytes esz)]
  | .scat esz _ _ _ _ _ => c.data.map fun x => (d + x * sizeBytes esz, sizeBytes esz)
  | .scadd t _ _ _ _ _ => let e := if t = .int64 then 8 else 4; c.data.map fun x => (d + x * e, e)
  | .compact esz _ _ _ _ _ =>
    let n := c.walk.getD 1 0
    [(d, n * sizeBytes esz), (c.val 2, 2 * (c.walk.getD 0 0 + 1)), (c.beside 3, 2 * n)]
  | .intersect _ _ _ _ _ _ => [(d, c.bytes)]
  | .select _ _ _ _ _ _ _ => [(d, 8 * c.beside 2)]
  | _ => []

/-! ## Free values and numbers -/

/-- Take the next number of `State.issued`: the place of an access in program order, or the ticket of a result. -/
def State.ticket (s : State) : Nat × State := (s.issued, { s with issued := s.issued + 1 })

/-- The stream has no result and no access of its own on its way. -/
def State.drained (s : State) : Bool :=
  s.st.busy.all (fun p => decide (p.2 ≤ s.now)) && s.st.fences.isEmpty
    && s.flight.all (fun x => !(x.agent == s.agent && (x.dest != .none || !x.req.regs.isEmpty)))
    && s.retires.all (fun t => t.agent != s.agent)

end Sys2Proof.Machine
end

