-- ==== Sys2Proof/Machine/Pending.lean ====
section
/-! DEFINITION. What engine commands and nests write into the core's own banks, with the headers and exponent planes of copies (R194,
R195), and the pending bits of the scratchpad (R191). -/

namespace Sys2Proof.Machine

/-! ## Banks and their formats (R192, R194) -/

/-- Element type of an own bank under a set of BFMT registers: the bank that holds VA `va` of the self window. -/
def bankFmt (bfmt : Vector Word 16) (va : Nat) : Option (Fin 16 × Ty) :=
  match winOf va with
  | .self off =>
    let k : Fin 16 := Fin.ofNat 16 (off / 2 ^ 18)
    (Ty.ofCode (bfmt[k].toNat % 32)).map fun t => (k, t)
  | _ => none

/-- Source and destination types of a copy of destination `d` from source `a` (R194, R289): those of a conversion, or none
where bytes move unchanged. `src` is the source TYPE of a command with SF. -/
def convTypes (bfmt : Vector Word 16) (a d : Nat) (src : Option Ty) : Option (Ty × Ty) :=
  match bankFmt bfmt d with
  | none => none
  | some (_, td) =>
    match src with
    | some ts => if ts = td then none else some (ts, td)
    | none =>
      match bankFmt bfmt a with
      | some (_, ts) => if ts = td then none else some (ts, td)
      | none => none

/-- Fields of a BFMT register. -/
def bfRnd (v : Word) : Rnd := [Rnd.rne, .rtz, .rdn, .sr].getD (field v.toNat 14 13) .rne

def bfRun (v : Word) : Nat := 32 * 2 ^ field v.toNat 9 7

/-- The scratchpad offset of the header of the block at scratchpad offset `off` (R194). It stays within the bank (log 93, DESIGN CHOICE). -/
def headerAt (bfmt : Vector Word 16) (off : Nat) : Nat :=
  let k : Fin 16 := Fin.ofNat 16 (off / 2 ^ 18)
  k.val * 2 ^ 18 + (2 * field bfmt[k].toNat 49 33 + 2 * (off % 2 ^ 18 / 16)) % 2 ^ 18

/-! ## The rows of a copy -/

/-- The source TYPE of a command with SF. -/
def Cmd.srcType (c : Cmd) : Option Ty :=
  match c.instr with
  | .cpy _ true _ _ _ _ _ => Ty.ofCode (c.val 3 % 32)
  | .cpys _ true _ _ _ _ _ => Ty.ofCode (c.beside 3 % 32)
  | _ => none

/-- The rows of a copy: source, destination and length. -/
def Cmd.row (c : Cmd) (r : Nat) : Nat × Nat × Nat :=
  match c.instr with
  | .cpys _ _ _ _ _ _ _ => (moved (c.val 1) (c.rowOff r).1, moved c.dest.toNat (c.rowOff r).2, c.val 2)
  | .cfill _ _ _ _ _ => (0, c.dest.toNat, c.val 1)
  | _ => (c.val 1, c.dest.toNat, c.val 2)

def Cmd.rows (c : Cmd) : Nat :=
  match c.instr with
  | .cpys _ _ _ _ _ _ _ => c.beside 0 * c.beside 1
  | _ => 1

/-- Whether a command is a copy (R289 to R295). -/
def Cmd.isCopy (c : Cmd) : Bool :=
  match c.instr with
  | .cpy _ _ _ _ _ _ _ | .cpys _ _ _ _ _ _ _ | .cpyt _ _ _ _ _ _ | .cfill _ _ _ _ _ | .cfetchif _ _ _ _ _ _ | .kvfetch _ _ _ _ _ _ => true
  | _ => false

/-! ## The parts of a command's writes in the core's own banks -/

/-- The part of a byte range that a map entry holds, as a range of the scratchpad. -/
def MapEntry.inside (m : MapEntry) (r : Nat × Nat) : Option (Nat × Nat) :=
  let lo := max r.1 m.vabase
  let hi := min (r.1 + r.2) (m.vabase + m.len * 2048)
  if lo < hi then some (m.spbase + (lo - m.vabase), hi - lo) else none

/-- The parts of a byte range that lie in core `core`'s own scratchpad, through either window or through the entries `maps`. -/
def ownParts (core : Nat) (map : Vector MapEntry 16) (maps : List Nat) (r : Nat × Nat) : List (Nat × Nat) :=
  match winOf r.1 with
  | .self off => [(off, r.2)]
  | .core k off => if k = core then [(off, r.2)] else []
  | .mapped => maps.filterMap fun e => (map.toList.getD e MapEntry.zero).inside r
  | .control _ _ | .device _ | .nothing => []

/-- The bytes of core `core`'s scratchpad that a command writes, under the map of its bank. -/
def Cmd.ownWrites (c : Cmd) (core : Nat) (map : Vector MapEntry 16) : List (Nat × Nat) := c.writes.flatMap (ownParts core map c.maps)

/-- Whether a command converts (R194, R289): the others move bytes unchanged. -/
def Cmd.converts (c : Cmd) : Bool :=
  match c.instr with
  | .cpy _ _ _ _ _ _ _ | .cpys _ _ _ _ _ _ _ => true
  | _ => false

/-- The headers of the `n` bytes of e2m1x data at `va`, where they stand in the self window. -/
def headersAt (bfmt : Vector Word 16) (va n : Nat) : List (Nat × Nat) :=
  match winOf va with
  | .self off => (upFrom 0 ((n + 15) / 16)).map fun b => (headerAt bfmt (off + 16 * b), 2)
  | _ => []

/-- The headers that a command which converts into e2m1x writes, and those that one which converts from it reads (R194). -/
def Cmd.ownHeaders (c : Cmd) (reads : Bool) : List (Nat × Nat) :=
  if !c.converts then []
  else
    (upFrom 0 c.rows).flatMap fun r =>
      let (a, d, n) := c.row r
      match convTypes c.bfmt a d c.srcType with
      | some (ts, td) =>
        if reads then (if ts = .e2m1x then headersAt c.bfmt a ((n * ts.bits + td.bits - 1) / td.bits) else [])
        else if td = .e2m1x then headersAt c.bfmt d n else []
      | none => []

/-! ## Exponent planes (R195) -/

/-- The runs of a bank that a range of its bytes touches: number of the entry and the run's elements. -/
def touchedRuns (plane run bits lo n : Nat) : List (Nat × List Nat) :=
  let total := 2 ^ 21 / bits
  let e0 := lo * 8 / bits
  let e1 := ((lo + n) * 8 - 1) / bits
  if n = 0 then []
  else if plane = 1 then
    (upFrom (e0 / run) (e1 / run + 1 - e0 / run)).map fun r => (r, (upFrom (r * run) run).filter fun e => decide (e < total))
  else
    let g0 := e0 / 256 / run
    let g1 := e1 / 256 / run
    (upFrom g0 (g1 + 1 - g0)).flatMap fun g =>
      (upFrom 0 256).filterMap fun j =>
        let es := ((upFrom (g * run) run).map fun r => 256 * r + j).filter fun e => decide (e < total)
        if es.any fun e => decide (e0 ≤ e ∧ e ≤ e1) then some (256 * g + j, es) else none

/-- The part of a byte range of the scratchpad that lies in bank `k`: offset in the bank and length. -/
def bankPart (k : Nat) (r : Nat × Nat) : Nat × Nat :=
  let lo := max r.1 (k * 2 ^ 18)
  let hi := min (r.1 + r.2) ((k + 1) * 2 ^ 18)
  (lo - k * 2 ^ 18, hi - lo)

/-- The exponent-plane entries of bank `k` that ranges of the scratchpad touch: the entry's scratchpad offset, the bank's type, and the
elements of its run. -/
def planeRuns (bfmt : Vector Word 16) (k : Fin 16) (ranges : List (Nat × Nat)) : List (Nat × Ty × List Nat) :=
  let v := bfmt[k].toNat
  match Ty.ofCode (v % 32), field v 6 5 with
  | some t, plane + 1 =>
    (ranges.flatMap fun r => let p := bankPart k.val r; touchedRuns (plane + 1) (bfRun bfmt[k]) t.bits p.1 p.2).map fun r =>
      (k.val * 2 ^ 18 + (2 * field v 32 16 + 2 * r.1) % 2 ^ 18, t, r.2)
  | _, _ => []

/-! ## C of a nest (R313) -/

/-- A signed 32-bit field. -/
def sgn32 (v : BitVec 32) : Int := signedNat 32 v.toNat

/-- The offsets that the indices of the levels `l` give C; a level that does not move C counts once. -/
def cOffsets : List Level → List Int
  | [] => [0]
  | l :: t =>
    let rest := cOffsets t
    (upFrom 0 (if l.sc = 0 then 1 else l.bound.toNat)).flatMap fun n => rest.map fun x => Int.ofNat n * sgn32 l.sc + x

/-- The rows of C that a nest writes, with `cols` columns. -/
def Nest.cRows (n : Nest) (cols : Nat) : List (Nat × Nat) :=
  (cOffsets (n.lev.toList.take 6)).flatMap fun x =>
    (upFrom 0 128).map fun i => (moved n.cbase.toNat (x + Int.ofNat i * sgn32 n.lev[6].sc), 4 * cols)

/-- Columns of a panel: 512 for a GANG. -/
def Bank.columns (b : Bank) : Nat := if b.pmode = 2 then 512 else 256

/-! ## Pending bits (R191) -/

/-- Byte ranges that hold all that a command may write. -/
def Cmd.mayWrite (c : Cmd) : List (Nat × Nat) :=
  match c.instr with
  | .cfetchif _ _ _ _ _ _ => [(c.dest.toNat, 16384)]
  | .compact esz _ _ _ _ _ =>
    let n := min 65535 (c.val 3 * c.beside 2)
    [(c.dest.toNat, n * sizeBytes esz), (c.val 2, 2 * (c.val 3 + 1)), (c.beside 3, 2 * n)]
  | .intersect esz _ _ _ _ _ => [(c.dest.toNat, 128 * c.val 3 * sizeBytes esz)]
  | _ => c.writes

/-- Byte ranges that an accepted command touches with its writes, as far as they are known: of KVFETCH before it has read its tables and of
CFETCHIF before its home step, and of COMPACT and INTERSECT, which find them as they go, all that they may write (log 21, DESIGN CHOICE). -/
def Cmd.pends (c : Cmd) : List (Nat × Nat) :=
  match c.instr with
  | .cfetchif _ _ _ _ _ _ => if c.walk = [] then c.mayWrite else c.writes
  | .kvfetch _ _ _ _ _ _ => if c.checked then c.writes else [(c.dest.toNat, c.val 3 * 65536)]
  | _ => c.mayWrite

/-- The bytes of the core's scratchpad that an accepted command may still write: data, headers and plane entries. -/
def State.cmdPending (s : State) (c : Cmd) : List (Nat × Nat) :=
  let l := c.pends.flatMap (ownParts s.coreNo (s.bankAt s.coreNo c.bank).map c.maps)
  l ++ if c.isCopy then c.ownHeaders false ++ (List.finRange 16).flatMap fun k => (planeRuns c.bfmt k l).map fun e => (e.1, 2) else []

/-- The bytes of the core's scratchpad that a nest on the panel writes. -/
def State.nestPending (s : State) (n : ActiveNest) : List (Nat × Nat) :=
  let b := s.bankAt s.coreNo n.bank
  (n.cfg.cRows b.columns).flatMap (ownParts s.coreNo b.map n.maps)

/-- Whether the 8-byte word at word number `w` of the core's scratchpad has its pending bit set. -/
def State.pendingWord (s : State) (w : Nat) : Bool :=
  let hit := fun (l : List (Nat × Nat)) => l.any fun r => overlaps r.1 r.2 (8 * w) 8
  s.core.early.any (fun e => e.cells.any fun c => c.off / 8 == w)
    || (s.core.copyQ ++ s.core.indexQ).any (fun c => c.accepted && hit (s.cmdPending c))
    || (s.core.panel.nests ++ s.core.panel.pending.toList).any fun n => hit (s.nestPending n)

/-- The lowest pending word among the bytes of a load, where PEND.EN is set. -/
def State.earlyWord (s : State) (offs : List Nat) : Option Nat :=
  if s.bank.pend then
    ((offs.map (· / 8)).filter s.pendingWord).foldl (fun a w => match a with
      | none => some w
      | some v => some (min v w)) none
  else none

end Sys2Proof.Machine
end

