-- ==== Sys2Proof/Machine/Access.lean ====
section
/-! DEFINITION. Where an access of a stream goes: windows, region maps, homes (R185, R186, R198, R202, R203, R241, R173), and
the accesses in flight in their class lanes (R226 to R232, R59). -/

namespace Sys2Proof.Machine

/-! ## Declared regions and handed-over bytes -/

/-- The task with a launch-sequence number. -/
def State.taskAt (s : State) (seq : Nat) : Option Task := s.tasks.find? fun t => t.seq == seq

/-- Whether `n` bytes at `va` lie in a region of the task that admits the access, or in its argument block (R241). -/
def Task.declares (t : Task) (va n : Nat) (store : Bool) : Bool :=
  t.regions.any (fun r => decide (r.base ≤ va ∧ va + n ≤ r.base + r.ext) && (!store || r.wr))
    || (!store && decide (t.args ≤ va ∧ va + n ≤ t.args + 4096))

/-- UNDECL, then HANDED, for an access of an iteration (R241, R173). -/
def State.declared (s : State) (it : Option Iter) (va n : Nat) (store : Bool) : Option Cause :=
  match it with
  | none => none
  | some it =>
    match s.taskAt it.task with
    | none => none
    | some t =>
      if it.regchk && !t.declares va n store then some cUNDECL
      else if store && t.handed.any (fun r => overlaps r.1 r.2 va n) then some cHANDED
      else none

/-! ## Region maps (R197, R198) -/

/-- The valid entry of the bank in hand that holds `va`. -/
def State.mapAt (s : State) (va : Nat) : Option (Fin 16) :=
  (List.finRange 16).find? fun e =>
    let m := s.bank.map[e]
    m.valid && decide (m.vabase ≤ va ∧ va < m.vabase + m.len * 2048)

/-- Whether a granule is filled. -/
def MapEntry.isFilled (m : MapEntry) (g : Nat) : Bool := (Tbl.get? m.filled g).isSome

/-- A sorted list of numbers with one more. -/
def insertNat (x : Nat) : List Nat → List Nat
  | [] => [x]
  | y :: t => if x < y then x :: y :: t else if x = y then y :: t else y :: insertNat x t

/-- Set WRITTEN of the bytes at `va`. -/
def MapEntry.write (m : MapEntry) (va n : Nat) : MapEntry :=
  { m with written := (upFrom (va - m.vabase) n).foldl (fun w x => insertNat x w) m.written }

/-- Where an access goes. -/
inductive Route where
  /-- the core's own banks, at this offset; through an entry of the map -/
  | own (off : Nat) (entry : Option (Fin 16))
  /-- the core's own banks through its core-n window: as of the issue too (R189), with an external wait on a result (R188, R260) -/
  | across (off : Nat)
  /-- a granule of the map that must be filled first, and the offset in the scratchpad -/
  | fill (entry : Fin 16) (granule off : Nat)
  /-- a distant byte -/
  | away (p : Place)
  deriving DecidableEq, Repr

/-- A route in the core's own banks, unless an uncorrectable error stands in its `n` bytes (R355). -/
def State.sound (s : State) (off n : Nat) (r : Route) : Except Cause Route := if s.flawedOwn off n then .error (cUNCORR 0) else .ok r

/-- The window of an access of `n` bytes that is not translated (log 29, DEDUCED). -/
def State.window (s : State) (w : Win) (n : Nat) (store vector : Bool) : Except Cause Route :=
  match w with
  | .self off => if s.sid = .L then .error (cPERM 1) else s.sound off n (.own off none)
  | .core k off =>
    if s.sid ≠ .L ∧ k = s.coreNo then s.sound off n (.across off)
    else .ok (.away { home := 3, pa := scratchLoc k off, slot := 0, gen := 0, codec := 0 })
  | .control k off =>
    if store || vector then .error (cPERM 1) else .ok (.away { home := 4, pa := k * 2 ^ 16 + off, slot := 0, gen := 0, codec := 0 })
  | .device _ | .nothing | .mapped => .error (cPERM 1)

/-- The iteration of the stream in hand. -/
def State.iter (s : State) : Option Iter := if s.sid = .L then none else s.bank.iter

/-- The route of `n` bytes at `va` that lie in one granule and one page, after the form and alignment checks (R186, R198,
R203, R241): the first cause that holds, or the route with the translations kept. -/
def State.route (s : State) (va n : Nat) (store vector : Bool) : Except Cause (Route × State) :=
  match winOf va with
  | .mapped =>
    match (if s.sid = .L then none else s.mapAt va) with
    | some e =>
      let m := s.bank.map[e]
      if store && !m.rw then .error (cPERM 4)
      else
        match s.declared s.iter va n store with
        | some c => .error c
        | none =>
          let g := (va - m.vabase) / 2048
          let off := m.spbase + (va - m.vabase)
          if m.isFilled g then
            match s.sound off n (.own off (some e)) with
            | .error c => .error c
            | .ok r => .ok (r, s)
          else
            match s.xlate s.space (m.vabase + g * 2048) true m.rw with
            | .error c => .error c
            | .ok (_, s') => .ok (.fill e g off, s')
    | none =>
      match s.xlate s.space va (!store) store with
      | .error c => .error c
      | .ok (p, s') =>
        match s.declared s.iter va n store with
        | some c => .error c
        | none => .ok (.away p, s')
  | w =>
    match s.window w n store vector with
    | .error c => .error c
    | .ok r => .ok (r, s)

/-! ## Fills (R198) -/

/-- The place of a byte of the core's own scratchpad behind a granule that is to be filled. -/
def State.unfilled (s : State) (e : Fin 16) (g off : Nat) : Place :=
  { home := 5, pa := scratchLoc s.coreNo off, slot := e.val, gen := g, codec := 0 }

/-- Whether a fill is of granule `g` of entry `e`. -/
def Fill.of (f : Fill) (e g : Nat) : Bool := f.entry == e && f.granule == g

/-- The outcome of a fill that was asked for before. -/
def State.fillFault (s : State) (e g : Nat) : Option (Nat × Nat) := (s.bank.fills.find? fun f => f.of e g).bind Fill.fault

/-- Ask for the fill of a granule, for an access of the stream in hand at place `ord` of program order. -/
def State.askFill (s : State) (e g ord : Nat) : State :=
  if s.bank.fills.any fun f => f.of e g then s
  else s.setBank fun b => { b with fills := b.fills ++ [{ entry := e, granule := g, sid := s.sid, ord := ord, fault := none }] }

/-- Forget a fill. -/
def State.dropFill (s : State) (e g : Nat) : State := s.setBank fun b => { b with fills := b.fills.filter fun f => !f.of e g }

/-- A store waits at its issue for the fill of its granule, or takes the fault that the fill met (log 20, DEDUCED). -/
def State.waitFill (s : State) (va : Nat) (e : Fin 16) (g : Nat) : Result :=
  match s.fillFault e.val g with
  | some (code, sub) => (s.dropFill e.val g).trap ⟨code, sub⟩ (BitVec.ofNat 64 va)
  | none => .next ((s.askFill e.val g s.issued).hold (.ext .fill))

/-! ## The lanes -/

/-- Requests that write memory and whose failure a FENCE counts. -/
def Req.stores : Req → Bool
  | .store | .vstore | .dredo | .writeback => true
  | .load _ _ | .vload _ | .amo _ _ _ | .cas _ _ _ | .dget _ _ | .dgetv _ | .dcls _ _ _ => false

/-- Requests that change memory. -/
def Req.writes : Req → Bool
  | .store | .vstore | .writeback | .dredo | .amo _ _ _ | .cas _ _ _ => true
  | .load _ _ | .vload _ | .dget _ _ | .dgetv _ | .dcls _ _ _ => false

/-- Accesses whose outcome goes back to the stream; of a store, an uncorrectable error that it has met (R355). -/
def Access.returns (x : Access) : Bool := !x.req.stores || x.sc.isSome || x.dest != .none || x.fail == some (0x0F, 0)

/-- Whether an access has reached its place in every part. -/
def Access.performed (x : Access) : Bool := x.todo.isEmpty

/-- Whether a lane goes on behind an access: a load is acknowledged when it is read, a store when the acknowledgement is in
(STORE_ACK removes it); a store that failed or timed out holds nothing up. -/
def Access.acked (x : Access) : Bool := (x.performed && !x.req.stores) || x.fail.isSome

/-- Whether the stream in hand may not touch its own banks in class `cls` yet: a FENCE holds the class (R229), an SC
operation has not performed (R236), or an earlier access of the class has not been acknowledged (R227). -/
def State.laneHeld (s : State) (cls : Nat) : Bool :=
  s.st.fences.any (fun f => f.mask.getLsbD cls) || s.flight.any fun x => x.agent == s.agent && (x.sc.isSome || (x.cls == cls && !x.acked))

/-- Whether an access has still to perform on ranges of core `core`'s scratchpad. -/
def Access.touches (y : Access) (core : Nat) (l : List (Nat × Nat)) : Bool :=
  y.todo.any fun p => match p.place with
    | some a => l.any fun r => overlaps a.loc p.n (scratchLoc core r.1) r.2
    | none => false

/-- Whether the stream in hand may not touch ranges of its own banks in class `cls` yet: its lane holds them, a store would pass an earlier access
of the stream to the same bytes (R59), or stores that the stream has acquired have yet to perform on them (R122, R127, R134). -/
def State.ownHeld (s : State) (cls : Nat) (store : Bool) (l : List (Nat × Nat)) : Bool :=
  s.laneHeld cls || s.flight.any fun y => y.fail.isNone && y.touches s.coreNo l
    && ((store && y.agent == s.agent) || s.st.acq.any fun a => y.agent.key == a.1 && decide (y.ord < a.2))

/-- Whether an earlier write of the stream in hand to its own banks, in class `cls`, is not readable yet: an atomic step of the class follows it
(R227, R260). -/
def State.ownDue (s : State) (cls : Nat) : Bool := s.core.early.any fun e => e.bank == s.bankNo && e.by_ == s.sid && e.cls == cls

/-- Send an access into its lane, with the stream as it stands at the word (R22). -/
def State.send (s : State) (cls va : Nat) (req : Req) (dest : Dest) (todo : List Piece) (got : List (Nat × List Byte))
    (sc : Option (Scope × Option Nat)) (undo : List (Fin 16 × QEntry)) : State :=
  let x : Access :=
    { agent := s.agent, task := (match s.iter with
                                  | some i => i.task
                                  | none => 0)
      ord := s.issued, cls := cls, va := va, epc := s.st.pc, req := req, dest := dest, todo := todo, got := got, sc := sc, undo := undo
      fail := none, space := s.space, spaceGen := (s.spaceAt s.space).gen, at_ := s.w, snap := some ({ s.st with wait := none }, s.bank.vec) }
  { s with issued := s.issued + 1, flight := s.flight ++ [x] }

/-- Whether two accesses share a byte that the first has not performed on. -/
def Access.clashes (y x : Access) : Bool :=
  y.todo.any fun p => x.todo.any fun q =>
    match p.place, q.place with
    | some a, some b => overlaps a.loc p.n b.loc q.n
    | _, _ => false

/-- Whether a stream's FENCEs hold an access of class `cls` at place `ord` of its program order (R229). -/
def Stream.fenced (t : Stream) (cls ord : Nat) : Bool := t.fences.any fun f => decide (f.ord < ord) && f.mask.getLsbD cls

/-- Whether stores that an agent has acquired have still to perform on bytes of `x` (R122, R127, R134). -/
def State.awaitsAcquired (s : State) (x : Access) : Bool :=
  (s.streamOf x.agent).acq.any fun a => s.flight.any fun y => y.agent.key == a.1 && decide (y.ord < a.2) && y.fail.isNone && y.clashes x

/-- Whether a bank is stopped or evicted under LOCK, so that its counted clock stands (R124, R339, R345). -/
def Bank.clockStopped (b : Bank) : Bool := (b.stopped.isSome || b.evict.isSome) && b.iter.any Iter.lock

/-- Whether an earlier write of the agent to its own banks, in the class of `x`, is not readable yet (R227, R189). In a bank whose clock is
stopped, what it has issued completes (R339), and nothing waits for that clock. -/
def State.ownBefore (s : State) (x : Access) : Bool :=
  x.agent.sid != .L && !(s.bankAt x.agent.core x.agent.bank).clockStopped && (s.coreAt x.agent.core).1.early.any fun e =>
    e.bank == x.agent.bank && e.by_ == x.agent.sid && e.cls == x.cls && decide (e.ord < x.ord)

/-- Whether a HOST or PEER store of another agent has been accepted and has yet to perform on bytes of `x`: within the device it has
performed (R226), so `x` follows it. -/
def State.behindAccepted (s : State) (x : Access) : Bool :=
  s.flight.any fun y => y.accepted && y.ord != x.ord && y.fail.isNone && y.clashes x

/-- Whether the access at place `k` of the lanes may perform its next part: what comes before it in its class has been
acknowledged (R227), earlier accesses of its stream to the same bytes have performed (R59), no FENCE and no SC operation
holds it (R229, R236), and stores that its stream has acquired have performed on its bytes (R122, R127, R134). One that changes memory waits
until what its stream has still to read at earlier words has come back: those words can trap, and no later word has an effect then (R22) (log 38,
DESIGN CHOICE). -/
def State.mayPerform (s : State) (k : Nat) : Bool :=
  match s.flight[k]? with
  | none => false
  | some x =>
    let mine := (s.flight.take k).filter fun y => y.agent == x.agent
    !x.todo.isEmpty && x.sc.isNone
      && mine.all (fun y => (y.cls != x.cls || y.acked) && !(y.fail.isNone && y.clashes x) && !y.sc.isSome && !(x.req.writes && y.returns))
      && !(s.streamOf x.agent).fenced x.cls x.ord && !s.awaitsAcquired x && !s.ownBefore x && !s.behindAccepted x

/-! ## Performing (R226) -/

/-- A byte of a core control window: the hotness counters, little-endian; 0 beyond them (R186, R207). -/
def State.controlByte (s : State) (core off : Nat) : Byte :=
  if off < 0x1000 then BitVec.ofNat 8 (Tbl.get (s.coreAt core).1.hot (off / 8) 0 / 2 ^ (8 * (off % 8))) else 0

/-- Bytes at a place. -/
def State.placeRead (s : State) (p : Place) (n : Nat) : List Byte :=
  if p.home = 4 then (upFrom 0 n).map fun i => s.controlByte (p.pa / 2 ^ 16) (p.pa % 2 ^ 16 + i) else s.homeRead p n

/-- A store at a place; on a scratchpad, forward-table entries that it backs are dropped (R239). -/
def State.placeWrite (s : State) (p : Place) (bytes : List Byte) (nib : Nat) (whole : Bool) : State :=
  let t := s.homeStore p bytes nib whole
  if p.home = 3 then t.dropForward ((p.pa - 2 ^ 44) / 2 ^ 22) ((upFrom (p.pa % 2 ^ 22) bytes.length)) else t

/-- Bytes and their places, in runs of places that follow one another. -/
def placeRuns : List Place → List Byte → List (Place × List Byte)
  | p :: ps, b :: bs =>
    match placeRuns ps bs with
    | (q, l) :: t => if q = p.add 1 ∧ q.pa % 2 ^ 22 ≠ 0 then (p, b :: l) :: t else (p, [b]) :: (q, l) :: t
    | [] => [(p, [b])]
  | _, _ => []

/-- Write bytes at places: one partial write of each digested block (R214). -/
def State.putPlaces (s : State) (ps : List Place) (bytes : List Byte) : State :=
  (placeRuns ps bytes).foldl (fun (t : State) r => t.placeWrite r.1 r.2 0 false) s

/-- The new value of an AMO (R261). -/
def amoNew (op : AmoOp) (size : Nat) (old y : Nat) : Nat :=
  let m := 2 ^ (8 * size)
  let y := y % m
  let slt (a b : Nat) : Bool := decide (signedNat (8 * size) a < signedNat (8 * size) b)
  match op with
  | .add => (old + y) % m
  | .min => if slt y old then y else old
  | .minu => min old y
  | .max => if slt old y then y else old
  | .maxu => max old y
  | .and => old &&& y
  | .or => old ||| y
  | .xor => old ^^^ y
  | .swap => y

/-- Whether an AMO compares unsigned, which also extends its result (R261). -/
def amoUnsigned : AmoOp → Bool
  | .minu | .maxu => true
  | .add | .min | .max | .and | .or | .xor | .swap => false

/-- The new bytes of an atomic step on the old ones; none where a CAS fails. -/
def Req.update (r : Req) (old : List Byte) : Option (List Byte) :=
  match r with
  | .amo op size y => some (leBytes (amoNew op size (leNat old) y.toNat) size)
  | .cas size x y => if leNat old = x.toNat % 2 ^ (8 * size) then some (leBytes y.toNat size) else none
  | _ => none

/-- The value that a request gives its destination, from the bytes read. -/
def Req.result (r : Req) (got : List Byte) : Word :=
  match r with
  | .load size sgn => if sgn then signExt (8 * size) (leNat got) else BitVec.ofNat 64 (leNat got)
  | .amo op size _ => if size = 4 ∧ !amoUnsigned op then signExt 32 (leNat got) else BitVec.ofNat 64 (leNat got)
  | .cas size _ _ => if size = 4 then signExt 32 (leNat got) else BitVec.ofNat 64 (leNat got)
  | _ => 0

end Sys2Proof.Machine
end

