-- ==== Sys2Proof/Machine/Memory.lean ====
section
/-! DEFINITION. Scalar loads and stores (R58), SC accesses and atomics (R236, R237, R258 to R263), FENCE (R229 to R231,
R264), and the steps of the lanes. -/

namespace Sys2Proof.Machine

/-- The formed address (R19). -/
def formed (base : Word) (off : BitVec 20) : Word := base + off.signExtend 64

/-- ADDRFORM, then ALIGN (R19, R20). -/
def formCause (va : Word) (n : Nat) : Option Cause :=
  if badForm va n then some cADDRFORM else if va.toNat % n ≠ 0 then some cALIGN else none

/-! ## LD and ST -/

/-- A load of the core's own banks: the value as of the issue, readable at issue + 3 (R188, R189); PEND.EN traps it on a
pending word (R191). `s` is the state before the pops, `t` after them (log 19, DEDUCED). -/
def State.loadOwn (s t : State) (off va n : Nat) (sgn : Bool) (d : Opnd) : Result :=
  match s.earlyWord (upFrom off n) with
  | some w => s.trap cSCRATCHEARLY (BitVec.ofNat 64 (va + 8 * w - off))
  | none => .next ((t.put d (Req.result (.load n sgn) (s.scratchRead s.coreNo off n)) 3).finish)

/-- The one part of a scalar access of `n` bytes. -/
def scalarPiece (va : Nat) (p : Place) (n : Nat) (bytes : List Byte) : Piece :=
  { num := 0, va := va, place := some p, n := n, bytes := bytes, nib := 0 }

/-- A load whose value comes later (R188): `todo` its part, or `got` the bytes that it has read already. -/
def State.loadAway (t : State) (cls va n : Nat) (sgn : Bool) (d : Opnd) (todo : List Piece) (got : List (Nat × List Byte))
    (undo : List (Fin 16 × QEntry)) : State :=
  ((t.await d t.issued).send cls va (.load n sgn) (.scalar d) todo got none undo).finish

/-- A load of the core's own banks through its core-n window: the bytes as of the issue (R189), with an external wait (R188). -/
def State.loadAcross (s t : State) (off cls va n : Nat) (sgn : Bool) (d : Opnd) (undo : List (Fin 16 × QEntry)) : Result :=
  match s.earlyWord (upFrom off n) with
  | some w => s.trap cSCRATCHEARLY (BitVec.ofNat 64 (va + 8 * w - off))
  | none => .next (t.loadAway cls va n sgn d [] [(0, s.scratchRead s.coreNo off n)] undo)

/-- LD. -/
def execLd (sz : Size) (sgn : Bool) (d a : Opnd) (off : BitVec 20) (cls : Fin 16) (s : State) : Result :=
  s.guard [a] [d]
    (let x := s.take a
     let n := sizeBytes sz
     let va := formed x.1 off
     let undo := s.popped [a]
     match formCause va n with
     | some c => s.trap c va
     | none =>
       match x.2.route va.toNat n false false with
       | .error c => s.trap c va
       | .ok (.fill e g o, t) =>
         .next ((t.askFill e.val g t.issued).loadAway cls.val va.toNat n sgn d [scalarPiece va.toNat (t.unfilled e g o) n []] [] undo)
       | .ok (.own o _, t) =>
         if s.ownHeld cls false [(o, n)] then .next (s.hold (.ext .access)) else s.loadOwn t o va.toNat n sgn d
       | .ok (.across o, t) =>
         if s.ownHeld cls false [(o, n)] then .next (s.hold (.ext .access)) else s.loadAcross t o cls.val va.toNat n sgn d undo
       | .ok (.away p, t) => .next (t.loadAway cls.val va.toNat n sgn d [scalarPiece va.toNat p n []] [] undo))

/-- A store to the core's own banks, readable at issue + 3; through the map it sets WRITTEN (R189, R198). -/
def State.storeOwn (t : State) (off va : Nat) (entry : Option (Fin 16)) (bytes : List Byte) (lat cls : Nat) : State :=
  let u := t.writeOwn (cellsAt off bytes) lat cls entry.isSome
  match entry with
  | none => u
  | some e => u.setBank fun b => { b with map := b.map.set e (b.map[e].write va bytes.length) }

/-- ST. -/
def execSt (sz : Size) (d a : Opnd) (off : BitVec 20) (cls : Fin 16) (s : State) : Result :=
  s.guard [a, d] []
    (let x := s.take a
     let y := x.2.take d
     let n := sizeBytes sz
     let va := formed x.1 off
     let bytes := leBytes y.1.toNat n
     let own := fun (o : Nat) (e : Option (Fin 16)) (t : State) =>
       if s.ownHeld cls true [(o, n)] then .next (s.hold (.ext .access)) else .next (t.storeOwn o va.toNat e bytes 3 cls.val).finish
     match formCause va n with
     | some c => s.trap c va
     | none =>
       match y.2.route va.toNat n true false with
       | .error c => s.trap c va
       | .ok (.fill e g _, _) => s.waitFill va.toNat e g
       | .ok (.own o e, t) => own o e t
       | .ok (.across o, t) => own o none t
       | .ok (.away p, t) =>
         .next ((t.send cls.val va.toNat .store .none [scalarPiece va.toNat p n bytes] [] none (s.popped [a, d])).finish))

/-! ## Atomics and SC accesses -/

/-- What an atomic or SC access is at issue, for the checks of R259. -/
structure AtomicForm where
  size : Nat
  reads : Bool
  writes : Bool
  sc : Bool
  /-- add, swap and CAS, which a HOST page takes -/
  host : Bool
  deriving DecidableEq, Repr

/-- Cases 5 to 8 of R259 (log 30, DEDUCED). -/
def State.atomicRoute (s : State) (f : AtomicForm) (va : Nat) : Except Cause (Route × State) :=
  match winOf va with
  | .mapped =>
    if (if s.sid = .L then none else s.mapAt va).isSome then .error (cPERM 4)
    else
      match s.xlate s.space va f.reads f.writes with
      | .error c => .error c
      | .ok (p, t) =>
        if (f.sc && p.home != 0) || (!f.sc && p.home == 1 && !f.host) then .error (cPERM 5)
        else
          match s.declared s.iter va f.size f.writes with
          | some c => .error c
          | none => .ok (.away p, t)
  | .control _ _ => .error (cPERM 1)
  | w =>
    match s.window w f.size true false with
    | .error c => if f.sc ∧ c = cUNCORR 0 then .error (cPERM 5) else .error c
    | .ok r => if f.sc then .error (cPERM 5) else .ok (r, s)

/-- Cases 2 to 8 of R259: the first that holds, or the route. -/
def State.atomicCheck (s : State) (f : AtomicForm) (va : Word) : Except Cause (Route × State) :=
  match formCause va f.size with
  | some c => .error c
  | none => if f.sc ∧ s.bank.wheelCount = 0 then .error cNOWHEEL else s.atomicRoute f va.toNat

/-- The bytes of the core's own banks as the stream's own earlier writes leave them (R59). -/
def State.ownBytes (s : State) (off n : Nat) : List Byte := s.bytesAfter (fun e => e.bank == s.bankNo && e.by_ == s.sid) off n

/-- Strike bytes from the early writes of a stream: a later step of the stream has performed on them. -/
def strikeOwn (bank : Nat) (sid : StreamId) (cells : List OwnCell) (l : List Early) : List Early :=
  (l.map fun e => if e.bank == bank && e.by_ == sid then { e with cells := e.cells.filterMap fun c => c.strike cells } else e).filter
    fun e => e.cells != []

/-- An atomic step at the bank (R260): one step on the writes issued before it. -/
def State.atomicOwn (s : State) (off n : Nat) (r : Req) : Word × State :=
  let old := s.ownBytes off n
  let s' := match r.update old with
    | none => s
    | some new =>
      let u := s.dropForward s.coreNo (upFrom off n)
      { u with mem := u.mem.writeN (scratchLoc s.coreNo off) new
               core := { u.core with early := strikeOwn s.bankNo s.sid (cellsAt off new) u.core.early } }
  (r.result old, s')

/-- The scope that an SC mode names. -/
def scopeOf : ScMode → Option Scope
  | .plain => none
  | .device => some .device
  | .system => some .system

/-- What holds an atomic step at the core's own banks: the lane, or the stream's writes of the class that are not readable yet (R227). -/
def State.stepHeld (s : State) (cls off n : Nat) : Option Wait :=
  if s.ownHeld cls true [(off, n)] then some (.ext .access) else if s.ownDue cls then some .result else none

/-- Issue an atomic or SC access with its sources read. A window of the core's own banks takes the step at the issue: through the
self window its result is readable at issue + 6, through the core-n window it comes from a distance (R260). -/
def State.atomic (s t : State) (f : AtomicForm) (sc : Option Scope) (r : Req) (d : Option Opnd) (va : Word) (cls : Nat)
    (bytes : List Byte) (undo : List (Fin 16 × QEntry)) : Result :=
  let dest : Dest := match d with
    | some d => .scalar d
    | none => .none
  let await := fun (u : State) => match d with
    | some d => u.await d u.issued
    | none => u
  match t.atomicCheck f va with
  | .error c => s.trap c va
  | .ok (.own o _, u) =>
    (match s.stepHeld cls o f.size with
      | some w => .next (s.hold w)
      | none =>
        let x := u.atomicOwn o f.size r
        match d with
        | some d => .next ((x.2.put d x.1 6).finish)
        | none => .next x.2.finish)
  | .ok (.across o, u) =>
    (match s.stepHeld cls o f.size with
      | some w => .next (s.hold w)
      | none => .next (((await (u.atomicOwn o f.size r).2).send cls va.toNat r dest [] [(0, u.ownBytes o f.size)] none undo).finish))
  | .ok (.fill e g _, _) => s.waitFill va.toNat e g
  | .ok (.away p, u) =>
    .next (((await u).send cls va.toNat r dest [scalarPiece va.toNat p f.size bytes] [] (sc.map fun x => (x, none)) undo).finish)

/-- SCLD. -/
def execScld (sz : Size) (sgn : Bool) (system : Bool) (d a : Opnd) (off : BitVec 20) (cls : Fin 16) (s : State) : Result :=
  s.guard [a] [d]
    (let x := s.take a
     let n := sizeBytes sz
     s.atomic x.2 { size := n, reads := true, writes := false, sc := true, host := false }
       (some (if system then .system else .device)) (.load n sgn) (some d) (formed x.1 off) cls.val [] (s.popped [a]))

/-- SCST. -/
def execScst (sz : Size) (system : Bool) (d a : Opnd) (off : BitVec 20) (cls : Fin 16) (s : State) : Result :=
  s.guard [a, d] []
    (let x := s.take a
     let y := x.2.take d
     let n := sizeBytes sz
     s.atomic y.2 { size := n, reads := true, writes := true, sc := true, host := false }
       (some (if system then .system else .device)) .store none (formed x.1 off) cls.val (leBytes y.1.toNat n) (s.popped [a, d]))

/-- AMO. -/
def execAmo (op : AmoOp) (wide : Bool) (sc : ScMode) (d a b : Opnd) (cls : Fin 16) (s : State) : Result :=
  s.guard [a, b] [d]
    (let x := s.take a
     let y := x.2.take b
     let n := if wide then 8 else 4
     s.atomic y.2 { size := n, reads := true, writes := true, sc := sc != .plain, host := op == .add || op == .swap }
       (scopeOf sc) (.amo op n y.1) (some d) x.1 cls.val [] (s.popped [a, b]))

/-- CAS. -/
def execCas (wide : Bool) (sc : ScMode) (d a b c : Opnd) (cls : Fin 16) (s : State) : Result :=
  s.guard [a, b, c] [d]
    (let x := s.take a
     let y := x.2.take b
     let z := y.2.take c
     let n := if wide then 8 else 4
     s.atomic z.2 { size := n, reads := true, writes := true, sc := sc != .plain, host := true }
       (scopeOf sc) (.cas n y.1 z.1) (some d) x.1 cls.val [] (s.popped [a, b, c]))

/-! ## FENCE -/

/-- FENCE issues without waiting; an empty mask gives status 0 at once. -/
def execFence (scope : Scope) (d a : Opnd) (s : State) : Result :=
  s.guard [a] [d]
    (let x := s.take a
     let mask : BitVec 16 := x.1.setWidth 16
     if mask = 0 then .next ((x.2.put d 0 1).finish)
     else
       let t := x.2.await d s.issued
       .next ((State.setSt { t with issued := t.issued + 1 }
         { t.st with fences := t.st.fences ++ [{ mask := mask, scope := scope, ord := s.issued, dst := d }] }).finish))

/-- Whether an access has performed at a scope, or failed (R226, R229): a HOST or PEER store at a scope below SYSTEM once it is
accepted, any other store once its acknowledgement is in. -/
def Access.settled (x : Access) (scope : Scope) : Bool :=
  x.fail.isSome || (if x.req.stores then x.accepted && scope != .system else x.performed)

/-- Whether the stream's writes to its own banks that a FENCE waits for are readable: those through a region map at CORE only (R229). -/
def State.ownFenced (s : State) (f : Fencing) : Bool :=
  s.sid == .L || s.bank.clockStopped || s.core.early.all fun e =>
    e.bank != s.bankNo || e.by_ != s.sid || decide (f.ord ≤ e.ord) || !f.mask.getLsbD e.cls || (e.mapped && f.scope != .core) || decide (e.due ≤ s.now)

/-- Whether the accesses that a FENCE waits for have performed at its scope or failed (R229). -/
def State.fenceDone (s : State) (f : Fencing) : Bool :=
  s.ownFenced f && s.flight.all fun x => x.agent != s.agent || decide (f.ord ≤ x.ord) || !f.mask.getLsbD x.cls || x.settled f.scope

/-- Status word (R230) over the failed stores that a FENCE counts. -/
def fenceStatus (l : List Failed) : Word :=
  BitVec.ofNat 64 (min l.length 0xFFFFFFFF + (if l.any (·.why == 32) then 2 ^ 32 else 0) + (if l.any (·.why == 33) then 2 ^ 33 else 0)
    + if l.any (·.why == 34) then 2 ^ 34 else 0)

/-- The failed store first in program order. -/
def firstFailed : List Failed → Option Failed
  | [] => none
  | f :: t =>
    match firstFailed t with
    | none => some f
    | some g => some (if f.ord ≤ g.ord then f else g)

/-- Whether a FENCE counts a failed store: one that failed beyond its acceptance, after a FENCE below SYSTEM, only at SYSTEM (R231). -/
def Fencing.counts (f : Fencing) (x : Failed) : Bool := decide (x.ord < f.ord) && f.mask.getLsbD x.cls && (!x.beyond || f.scope == .system)

/-- The accepted stores of the stream in hand that a FENCE below SYSTEM has passed: their failures are for the next FENCE at SYSTEM (R231). -/
def State.passAccepted (s : State) (f : Fencing) : State :=
  { s with flight := s.flight.map fun x =>
      if x.agent == s.agent && decide (x.ord < f.ord) && f.mask.getLsbD x.cls && x.accepted then { x with beyond := true } else x }

/-- Write the status of the stream's oldest FENCE, if it is done. -/
def State.endFence (s : State) : State :=
  match s.st.fences with
  | [] => s
  | f :: rest =>
    if s.fenceDone f then
      let l := s.st.failed.filter f.counts
      let t := (s.passAccepted f).setSt { s.st with fences := rest, failed := s.st.failed.filter fun x => !f.counts x }
      let u : State := match firstFailed l with
        | some x => if s.sid = .L then t else t.setBank fun b => { b with ffa := BitVec.ofNat 56 x.va }
        | none => t
      u.deliver f.dst f.ord (fenceStatus l)
    else s

/-- The four kinds of stream. -/
def allStreams : List StreamId := [.A, .X, .N, .L]

/-- FENCE_STATUS: the oldest FENCE of each stream of the bank in hand, and of the link engine's. -/
def execFenceStatus (s : State) : Result :=
  let go := fun (t : State) (k : StreamId) => State.endFence { t with sid := k }
  let r := allStreams.foldl go s
  .next { r with sid := s.sid }

/-! ## Going out to a distant place -/

/-- No fault: the access waits, for a flit credit (R365) or behind a store that has been accepted and not performed (R226). -/
def cWAITS : Cause := ⟨0, 0⟩

/-- An access of `n` bytes at a distant place goes out from die `die`; none where it waits. -/
def State.goesOutOf (s : State) (die : Nat) (p : Place) (n : Nat) : Option State :=
  let held := (p.home == 1 || p.home == 2) && s.flight.any fun y => y.accepted && y.fail.isNone && y.todo.any fun q =>
    match q.place with
    | some a => overlaps a.loc q.n p.loc n
    | none => false
  if held then none else s.takeCredits die p n

/-- The same from the die in hand. -/
def State.goesOut (s : State) (p : Place) (n : Nat) : Option State := s.goesOutOf s.die p n

/-! ## The steps of the lanes -/

/-- Replace the access at place `k`. -/
def State.setAccess (s : State) (k : Nat) (f : Access → Access) : State :=
  { s with flight := s.flight.zipIdx.map fun p => if p.2 = k then f p.1 else p.1 }

/-- Take the access at place `k` out of the lanes. -/
def State.dropAccess (s : State) (k : Nat) : State := { s with flight := s.flight.eraseIdx k }

/-- The die that an access comes from. -/
def Agent.die (a : Agent) : Nat := if a.sid = .L then a.core else a.core / 96

/-- Add to counter `i` of the hotness counters of core `n` (R207): BYTES of tag t at 2t, STALL at 2t + 1. -/
def State.countHot (s : State) (n i by' : Nat) : State :=
  s.onBank n 0 fun t => t.setCore fun c => { c with hot := Tbl.put c.hot i ((Tbl.get c.hot i 0 + by') % 2 ^ 64) }

/-- The distant bytes of a part of a scalar or vector access, but for a byte whose other nibble is the next part. -/
def Piece.far (p : Piece) (rest : List Piece) : Nat :=
  match p.place with
  | some a => if 2 < a.home || rest.any (fun q => q.nib != 0 && q.place == p.place) then 0 else p.n
  | none => 0

/-- Count the distant bytes of a scalar or vector access of a stream once its last part is done, under tag 0 (R207). -/
def State.countStream (s : State) (x : Access) (far : Nat) (rest : List Piece) : State :=
  if x.agent.sid = .L ∨ x.req = .writeback ∨ !rest.isEmpty ∨ far = 0 then s else s.countHot x.agent.core 0 far

/-- Whether the bank of an access still holds the iteration that made it; an L stream has none. -/
def State.owns (s : State) (x : Access) : Bool :=
  x.agent.sid == .L || match (s.bankAt x.agent.core x.agent.bank).iter with
    | some it => it.task == x.task
    | none => false

/-- Note a store of an agent that failed, for its FENCEs (R230). -/
def State.noteFailed (s : State) (x : Access) (va why : Nat) : State :=
  if !s.owns x then s
  else s.onAgent x.agent fun t =>
    let u := t.setSt { t.st with failed := t.st.failed ++ [{ ord := x.ord, cls := x.cls, va := va, why := why, beyond := x.beyond }] }
    if t.sid = .L ∧ why ≠ 34 then { u with link := { u.link with lost := true } } else u

/-- The block of a digest read that fails is reported like a load. -/
def refusedBy (why : Nat) : Nat × Nat := ((refusalCause why).code, (refusalCause why).sub)

/-- Perform a plain part of an access: a read, a store, or an atomic step, with the digests in the same step (R214, R260). -/
def State.performPlain (s : State) (k : Nat) (x : Access) (p : Piece) (at_ : Place) (rest : List Piece) : State :=
  let old := s.placeRead at_ p.n
  let done (t : State) (got : List Byte) : State :=
    let far := x.far + p.far rest
    (t.setAccess k fun x => { x with todo := rest, far := far, got := if x.req.stores then x.got else x.got ++ [(p.num, got)] }).countStream
      x far rest
  match x.req with
  | .writeback => done (s.placeWrite at_ p.bytes 0 true) []
  | .store | .vstore =>
    let new := if p.nib = 0 then p.bytes else [mergeNib p.nib (old.headD 0) (p.bytes.headD 0)]
    done (s.placeWrite at_ new p.nib false) []
  | .amo _ _ _ | .cas _ _ _ =>
    match x.req.update old with
    | some new => done (s.placeWrite at_ new 0 false) old
    | none => done s old
  | _ => done s (old.map (pickNib p.nib))

/-- A part that its home refuses or that meets a dead link (R231, R232): a store performs nothing and is counted by a FENCE, once,
every other request faults its stream. An uncorrectable error (35) faults the stream of a store too, while it runs (R355). -/
def State.performFail (s : State) (k : Nat) (x : Access) (va why : Nat) (rest : List Piece) : State :=
  if x.req.stores && x.sc.isNone && (why != 35 || x.req == .writeback || !s.owns x || (s.streamOf x.agent).exited || x.fail.isSome) then
    let t := (s.setAccess k fun x => { x with todo := rest }).countStream x x.far rest
    if x.fail.isSome then t else t.noteFailed x va why
  else s.setAccess k fun x => { x with todo := [], fail := some (refusedBy why), va := va }

/-- Deliver a vector load: the bytes read, by element (R142, R158). -/
def putElems (bits : Nat) (v : VecReg) : List (Nat × List Byte) → VecReg
  | [] => v
  | (i, b) :: t =>
    let m : VecReg := BitVec.ofNat 4096 (2 ^ bits - 1) <<< (i * bits)
    putElems bits ((v &&& ~~~m) ||| (BitVec.ofNat 4096 (leNat b % 2 ^ bits) <<< (i * bits))) t

def State.setPhys (s : State) (p : Fin 64) (v : VecReg) : State :=
  s.setBank fun b => { b with vec := { b.vec with v := b.vec.v.set p v } }

/-- Deliver what an access has read to the stream in hand. -/
def State.deliverAccess (s : State) (x : Access) : State :=
  match x.dest with
  | .scalar d => s.deliver d x.ord (x.req.result ((x.got.headD (0, [])).2))
  | .vec p =>
    match x.req with
    | .vload bits =>
      let f := fun (v : VecState) => { v with v := v.v.set p (putElems bits v.v[p] x.got) }
      (s.setBank fun b => { b with vec := f b.vec }).noteDelivered x.ord fun y => (y.1, f y.2)
    | _ => s
  | .cargo c =>
    match x.got with
    | (_, bytes) :: _ => { s with link := { s.link with cr := s.link.cr.set c (BitVec.ofNat 32768 (leNat bytes)) } }
    | [] => s
  | .none => s

/-- STORE_ACK: the acknowledgement of a store that has performed is in (R227). -/
def execStoreAck (k : Nat) (s : State) : Result :=
  match s.flight[k]? with
  | none => .next s
  | some x => if x.performed && !x.returns then .next (s.dropAccess k) else .next s

/-- Cycles after which an access without data or acknowledgement fails (R230, R232, R288). -/
def patience : Nat := 2 ^ 24

/-- The first position of a bank's wheel at or behind W = `w` that no earlier SC operation has taken (R235, R236). -/
def wheelFrom (b : Bank) (w : Nat) : Option Nat :=
  (upFrom (max w b.wheelNext) 512).find? fun x =>
    (upFrom 0 b.wheelCount).any fun i => (b.wheelFirst + i * b.wheelStride) % 512 == x % 512

/-- Whether every access of the stream before the SC operation `x` has been acknowledged at its scope, with the stream's writes to
windows of its own banks, and nothing else holds it (R236 step 1, R229, R122). -/
def State.scClear (s : State) (k : Nat) (x : Access) (scope : Scope) : Bool :=
  let own := !(s.bankAt x.agent.core x.agent.bank).clockStopped && (s.coreAt x.agent.core).1.early.any fun e =>
    e.bank == x.agent.bank && e.by_ == x.agent.sid && !e.mapped && decide (e.ord < x.ord)
  (s.flight.take k).all (fun y => y.agent != x.agent || y.acked || (y.accepted && scope != .system))
    && !own && !(s.streamOf x.agent).fenced x.cls x.ord && !s.awaitsAcquired x

/-- SC_SEND: the operation takes the first held position of the wheel. -/
def execScSend (k : Nat) (s : State) : Result :=
  match s.flight[k]? with
  | none => .next s
  | some x =>
    match x.sc with
    | some (scope, none) =>
      match wheelFrom (s.bankAt x.agent.core x.agent.bank) s.w with
      | some w =>
        if x.fail.isNone && s.scClear k x scope then
          .next ((s.setAccess k fun x => { x with sc := some (scope, some w) }).onBank x.agent.core x.agent.bank fun t =>
            t.setBank fun b => { b with wheelNext := w + 1 })
        else .next s
      | none => .next s
    | _ => .next s

/-- SC_PERFORM: the operation performs at its home at W + 256. -/
def execScPerform (k : Nat) (s : State) : Result :=
  match s.flight[k]? with
  | none => .next s
  | some x =>
    match x.sc, x.todo with
    | some (_, some w), p :: rest =>
      if w + 256 ≤ s.w then
        match p.place with
        | some at_ =>
          match s.refusal x.agent.die at_ p.n with
          | some why => .next (s.performFail k x p.va why rest)
          | none => .next (s.performPlain k x p at_ rest)
        | none => .next s
      else .next s
    | _, _ => .next s

end Sys2Proof.Machine
end

