-- ==== Sys2Proof/Machine/Digest.lean ====
section
/-! DEFINITION. The digest instructions (R217 to R223), and registration (R208 to R210). -/

namespace Sys2Proof.Machine

/-! ## Gates (R141) and masks -/

/-- Whether a word is gated off. -/
def State.gatedOff (s : State) (g : Gate) : Bool :=
  match g with
  | none => false
  | some j => !s.bank.vec.gates.getLsbD j.val

def State.setMask (s : State) (m : Fin 8) (v : MaskReg) : State :=
  s.setBank fun b => { b with vec := { b.vec with m := b.vec.m.set m v } }

/-! ## Classes (R221) -/

/-- The class of a slot against a threshold: 0 NONE, 1 BELOW, 2 ABOVE, 3 STRADDLE. A NaN threshold classes every block STRADDLE. -/
def classify (e : DirEntry) (d : DSlot) (ty : Ty) (u : Word) : Nat :=
  let t := floatVal ty (u.toNat % 2 ^ ty.bits)
  let valid := d.tag.getLsbD 0
  let zero := d.tag.getLsbD 3
  if (fmtOf? ty).isSome && t.isNan then 3
  else if !valid || e.ty != ty || ((e.kind == 2 || e.kind == 4) && !zero) then 0
  else if !zero && e.kind == 3 && d.lo != 0 then 3
  else
    let lo := if zero || e.kind == 3 then 0 else d.lo.toNat
    let hi := if zero || e.kind == 3 then 0 else d.hi.toNat
    match fmtOf? ty with
    | some _ => if cmpVal false (fmtFp64.decode hi) t ≤ 0 then 1 else if 0 < cmpVal false (fmtFp64.decode lo) t then 2 else 3
    | none => if cmp64 ty hi u.toNat ≤ 0 then 1 else if 0 < cmp64 ty lo u.toNat then 2 else 3

/-! ## Blocks -/

/-- Code of a grain (R208). -/
def grainCode (g : Nat) : Nat := if g = 64 then 0 else if g = 256 then 1 else if g = 1024 then 2 else if g = 4096 then 3 else 4

/-- The info word of DGET (R219). -/
def digestInfo (e : DirEntry) (d : DSlot) : Nat := e.kind + e.ty.code * 2 ^ 3 + grainCode e.grain * 2 ^ 8 + d.tag.toNat * 2 ^ 12

/-- The registered block of a place: HBM alone has digests. -/
def State.digestOf (s : State) (p : Place) : Option (Nat × DirEntry × DSlot) := if p.home = 0 then s.blockAt p.pa else none

/-- Translate, in address space `sp`, `n` blocks of grain `g` from `va` on: a block in a window or beyond the last VA has no place and is not
translated; the first block that faults decides, with its VA (R218). `h` is the region of block 0. -/
def State.blockPieces (s : State) (sp va g : Nat) (h : Option Nat) (wr : Bool) (i : Nat) : Nat → Except (Cause × Nat) (List Piece × State)
  | 0 => .ok ([], s)
  | n + 1 =>
    let a := va + i * g
    if 2 ^ 56 ≤ a ∨ winOf a ≠ .mapped then
      match State.blockPieces s sp va g h wr (i + 1) n with
      | .error e => .error e
      | .ok (l, t) => .ok ({ num := i, va := a, place := none, n := 0, bytes := [], nib := 0 } :: l, t)
    else
      match s.xlate sp a true wr with
      | .error c => .error (c, a)
      | .ok (p, s') =>
        let here := match s'.digestOf p with
          | some (b, e, _) => if h = some e.handle then some { p with pa := b } else none
          | none => none
        match State.blockPieces s' sp va g h wr (i + 1) n with
        | .error e => .error e
        | .ok (l, t) => .ok ({ num := i, va := a, place := here, n := (if here.isSome then g else 0), bytes := [], nib := 0 } :: l, t)

/-- The parts of a digest instruction on up to `n` blocks: none of a window's. Where block 0 has no digest at the issue, its part has no length,
and its home step decides (R217); behind it stands the count of the others. -/
def State.digestParts (s : State) (va : Nat) (n : Nat) (wr : Bool) : Except (Cause × Nat) (List Piece × State) :=
  if n = 0 ∨ winOf va ≠ .mapped then .ok ([], s)
  else
    match s.xlate s.space va true wr with
    | .error c => .error (c, va)
    | .ok (p, s') =>
      match s'.digestOf p with
      | some (_, e, _) => s'.blockPieces s.space va e.grain (some e.handle) wr 0 n
      | none =>
        let part := fun (i k : Nat) (at_ : Option Place) => { num := i, va := va, place := at_, n := k, bytes := [], nib := 0 : Piece }
        .ok (part 0 0 (if p.home = 0 then some p else none) :: (if n = 1 then [] else [part 1 (n - 1) none]), s')

/-- Bytes that one block's home step returns to the stream. -/
def blockResult (r : Req) (e : DirEntry) (d : DSlot) : List Byte :=
  match r with
  | .dcls ty u _ => [BitVec.ofNat 8 (classify e d ty u)]
  | _ => leBytes d.lo.toNat 8 ++ leBytes d.hi.toNat 8 ++ leBytes (digestInfo e d) 2

/-- The home step of a block 0 that had no digest at the issue: every block is without one still, or the region that it lies in by now gives the
blocks, which are translated then (R217, R218). -/
def State.decideBlocks (s : State) (k : Nat) (x : Access) (p : Piece) (rest : List Piece) : State :=
  match p.place.bind s.digestOf with
  | none => s.setAccess k fun x => { x with todo := [] }
  | some (_, e, _) =>
    match State.blockPieces s x.space p.va e.grain (some e.handle) (x.req == .dredo) 0 (1 + (rest.map Piece.n).foldl (· + ·) 0) with
    | .ok (ps, t) => t.setAccess k fun x => { x with todo := ps }
    | .error (c, v) => s.setAccess k fun x => { x with todo := [], fail := some (c.code, c.sub), va := v }

/-- One block's home step (R215, R217): read the slot, or recompute it. Where the die's digest pool and directory are not ready, they refuse it
(R394). -/
def State.performBlock (s : State) (k : Nat) (x : Access) (p : Piece) (rest : List Piece) : State :=
  let none' := s.setAccess k fun x => { x with todo := rest }
  match p.place with
  | none => if rest.any fun q => q.place.isNone && q.n != 0 then s.setAccess k fun x => { x with todo := [] } else none'
  | some at_ =>
    match (if at_.home = 0 ∧ !s.digestReady at_.pa then some 33
        else if x.req = .dredo then s.refusal x.agent.die at_ p.n else s.outOfReach x.agent.die at_) with
    | some why => s.performFail k x p.va why rest
    | none =>
      if p.n = 0 then s.decideBlocks k x p rest
      else
      match s.digestOf at_ with
      | none => none'
      | some (_, e, d) =>
        match x.req with
        | .dredo => (s.redo at_).setAccess k fun x => { x with todo := rest, got := x.got ++ [(p.num, [])] }
        | _ =>
          if d.bad then s.performFail k x p.va 35 rest
          else s.setAccess k fun x => { x with todo := rest, got := x.got ++ [(p.num, blockResult x.req e d)] }

/-! ## The instructions -/

/-- DGET: d, b and c are destinations. -/
def execDget (d a b c : Opnd) (cls : Fin 16) (s : State) : Result :=
  s.guard [a] [d, b, c]
    (let x := s.take a
     if badForm x.1 1 then s.trap cADDRFORM x.1
     else
       match x.2.digestParts x.1.toNat 1 false with
       | .error (e, v) => s.trap e (BitVec.ofNat 64 v)
       | .ok ([], t) => .next ((((t.put d 0 1).put b 0 1).put c 0 1).finish)
       | .ok (ps, t) =>
         let u := ((t.await d s.issued).await b s.issued).await c s.issued
         .next ((u.send cls.val x.1.toNat (.dget b c) (.scalar d) ps [] none (s.popped [a])).finish))

/-- DGETV. -/
def execDgetv (g : Gate) (vd : Fin 64) (a b : Opnd) (mc : Fin 8) (cls : Fin 16) (s : State) : Result :=
  if s.gatedOff g then .next s.finish
  else
    s.guard [a, b] []
      (let x := s.take a
       let y := x.2.take b
       if badForm x.1 1 then s.trap cADDRFORM x.1
       else
         match y.2.digestParts x.1.toNat (min y.1.toNat 32) false with
         | .error (e, v) => s.trap e (BitVec.ofNat 64 v)
         | .ok ([], t) => .next ((t.setPhys (t.bank.vec.phys vd) 0).setMask mc 0).finish
         | .ok (ps, t) =>
           .next ((t.send cls.val x.1.toNat (.dgetv mc) (.vec (t.bank.vec.phys vd)) ps [] none (s.popped [a, b])).finish))

/-- DCLS. -/
def execDcls (g : Gate) (ty : Ty) (md : Fin 8) (a b c : Opnd) (cls : Fin 16) (s : State) : Result :=
  if s.gatedOff g then .next s.finish
  else
    s.guard [a, b, c] []
      (let x := s.take a
       let y := x.2.take b
       let z := y.2.take c
       if badForm x.1 1 then s.trap cADDRFORM x.1
       else
         match z.2.digestParts x.1.toNat (min y.1.toNat 1024) false with
         | .error (e, v) => s.trap e (BitVec.ofNat 64 v)
         | .ok ([], t) => .next ((t.setMask md 0).setMask (md + 1) 0).finish
         | .ok (ps, t) =>
           .next ((t.send cls.val x.1.toNat (.dcls ty z.1 md) .none ps [] none (s.popped [a, b, c])).finish))

/-- DREDO. -/
def execDredo (d a b : Opnd) (cls : Fin 16) (s : State) : Result :=
  s.guard [a, b] [d]
    (let x := s.take a
     let y := x.2.take b
     if badForm x.1 1 then s.trap cADDRFORM x.1
     else
       match y.2.digestParts x.1.toNat (min y.1.toNat 65536) true with
       | .error (e, v) => s.trap e (BitVec.ofNat 64 v)
       | .ok ([], t) => .next ((t.put d 0 1).finish)
       | .ok (ps, t) =>
         .next (((t.await d s.issued).send cls.val x.1.toNat .dredo (.scalar d) ps [] none (s.popped [a, b])).finish))

/-- Write the results of a digest instruction to the stream in hand, when every block's step has returned. -/
def State.deliverDigest (s : State) (x : Access) : State :=
  match x.req, x.dest with
  | .dget b c, .scalar d =>
    let g := (x.got.headD (0, [])).2
    ((s.deliver d x.ord (BitVec.ofNat 64 (leNat (g.take 8)))).deliver b x.ord
      (BitVec.ofNat 64 (leNat ((g.drop 8).take 8)))).deliver c x.ord (BitVec.ofNat 64 (leNat (g.drop 16)))
  | .dgetv mc, .vec p =>
    let v := x.got.foldl (fun (v : VecReg) r => v ||| (BitVec.ofNat 4096 (leNat (r.2.take 16)) <<< (128 * r.1))) 0
    let m := x.got.foldl (fun (m : MaskReg) r => m ||| (BitVec.ofNat 1024 (leNat (r.2.drop 16) / 2 ^ 12 % 16) <<< (4 * r.1))) 0
    let f := fun (y : VecState) => { y with v := y.v.set p v, m := y.m.set mc m }
    (s.setBank fun b => { b with vec := f b.vec }).noteDelivered x.ord fun y => (y.1, f y.2)
  | .dcls _ _ md, _ =>
    let plane := fun (i : Nat) => x.got.foldl (fun (m : MaskReg) r =>
      if leNat r.2 / 2 ^ i % 2 = 1 then m ||| (1#1024 <<< r.1) else m) 0
    let f := fun (y : VecState) => { y with m := (y.m.set md (plane 0)).set (md + 1 : Fin 8) (plane 1) }
    (s.setBank fun b => { b with vec := f b.vec }).noteDelivered x.ord fun y => (y.1, f y.2)
  | .dredo, .scalar d => s.deliver d x.ord (BitVec.ofNat 64 x.got.length)
  | _, _ => s

/-! ## Registration (R208 to R210) -/

/-- Slots of a die's pool, and entries of its directory. -/
def poolSlots : Nat := 8 * 2 ^ 20

/-- Types that a kind accepts (R209). -/
def kindTakes (kind : Nat) (ty : Ty) : Bool :=
  match kind with
  | 1 | 2 => ty != .e2m1x
  | 3 => true
  | 4 => ty == .bf16 || ty == .fp32 || ty == .e4m3 || ty == .e5m2
  | _ => false

/-- A descriptor as read from memory. -/
structure Descriptor where
  base : Nat
  kind : Nat
  ext : Nat
  ty : Ty
  grain : Nat
  seed : Nat
  dim : Nat
  deriving DecidableEq, Repr

/-- Read a descriptor's 32 bytes; none where it is BADDESC. -/
def readDescriptor (b : List Byte) : Option Descriptor :=
  let f := fun (o n : Nat) => leNat ((b.drop o).take n)
  let base := f 0 7
  let kind := f 7 1
  let ext := f 8 5
  let grain := [64, 256, 1024, 4096, 16384].getD (f 14 1) 0
  match Ty.ofCode (f 13 1) with
  | none => none
  | some ty =>
    let elems := grain * 8 / ty.bits
    let dim := f 20 2
    let seed := f 16 4
    if grain = 0 ∨ f 15 1 ≠ 0 ∨ f 22 2 ≠ 0 ∨ ¬ kindTakes kind ty ∨ base % grain ≠ 0 ∨ ext = 0 ∨ ext % grain ≠ 0
        ∨ (kind ≠ 4 ∧ (seed ≠ 0 ∨ dim ≠ 0))
        ∨ (kind = 4 ∧ (dim = 0 ∨ 2 ^ Nat.log2 dim ≠ dim ∨ elems % dim ≠ 0)) then none
    else some { base := base, kind := kind, ext := ext, ty := ty, grain := grain, seed := seed, dim := dim }

/-- The places of the blocks of a descriptor, in order; none where one is NOTHBM, as every block in a window or behind the last VA is. -/
def State.blockPlaces (s : State) (sp va g : Nat) : Nat → Option (List Place)
  | 0 => some []
  | n + 1 =>
    if 2 ^ 56 < va + g ∨ winOf va ≠ .mapped then none
    else
    match s.walk sp va with
    | .error _ => none
    | .ok e =>
      let p := e.place va
      if p.home = 0 ∧ g ≤ e.size ∧ p.codec = 0 ∧ p.gen = (s.keyAt p.slot).gen then
        (State.blockPlaces s sp (va + g) g n).map (p :: ·)
      else none

/-- Whether a block's range overlaps a registered one. -/
def State.blockTaken (s : State) (pa g : Nat) : Bool :=
  (s.blockAt pa).isSome || s.slots.any fun d =>
    match s.dirAt d.2.handle with
    | some e => overlaps d.1 e.grain pa g
    | none => false

/-- Slots of a die's pool that are taken. -/
def State.slotsOf (s : State) (die : Nat) : Nat := (s.slots.filter fun d => hbmDie d.1 == die).length

/-- Directory entries of a die that are taken. -/
def State.entriesOf (s : State) (die : Nat) : Nat :=
  (s.dir.filter fun e => s.slots.any fun d => d.2.handle == e.handle && hbmDie d.1 == die).length

/-- The status of a registration: 0 registered, 1 BADDESC, 2 NOTHBM, 3 OVERLAP, 4 NOSLOTS, in the order of R210. -/
def State.registerStatus (s : State) (sp : Nat) (d : Option Descriptor) : Nat × List Place :=
  match d with
  | none => (1, [])
  | some d =>
    match s.blockPlaces sp d.base d.grain (d.ext / d.grain) with
    | none => (2, [])
    | some ps =>
      if ps.any fun p => p.slot != (ps.headD p).slot then (2, [])
      else if ps.any fun p => s.blockTaken p.pa d.grain then (3, [])
      else if (upFrom 0 4).any fun die =>
          let n := (ps.filter fun p => hbmDie p.pa == die).length
          decide (poolSlots < s.slotsOf die + n) || (decide (0 < n) && decide (4096 ≤ s.entriesOf die)) then (4, [])
      else (0, ps)

/-- The status of a registration: that of R210, or NOTHBM where the digests of a block's die are not ready (R394) (log 94, DESIGN CHOICE). -/
def State.registers (s : State) (sp : Nat) (d : Option Descriptor) : Nat × List Place :=
  let r := s.registerStatus sp d
  if r.2.any fun p => p.home == 0 && !s.digestReady p.pa then (2, []) else r

/-- DIGEST_REGISTER: install the entries with VALID clear, and leave every slot to be computed, each block in a home step of its own.
HANDLE is written into the descriptor. -/
def execDigestRegister (space : Fin 64) (va : Word) (s : State) : Result :=
  match s.walk space.val va.toNat with
  | .error _ => .next { s with outs := s.outs ++ [.told 2] }
  | .ok e =>
    let at_ := e.place va.toNat
    let d := readDescriptor (s.homeRead at_ 32)
    let (st, ps) := s.registers space.val d
    match st, d with
    | 0, some d =>
      let h := s.handles + 1
      let p0 := ps.headD at_
      let entry : DirEntry := { handle := h, space := space.val, va := d.base, ext := d.ext, kind := d.kind, ty := d.ty, grain := d.grain
                                seed := d.seed, dim := d.dim, slot := p0.slot, gen := p0.gen }
      let t := { s with handles := h, dir := s.dir ++ [entry], redos := s.redos ++ ps.map Place.pa
                        slots := ps.foldl (fun m (p : Place) => Tbl.put m p.pa { handle := h, lo := 0, hi := 0, tag := 0 }) s.slots }
      .next (t.homeWrite (at_.add 24) (leBytes h 8) false)
    | _, _ => .next { s with outs := s.outs ++ [.told st] }

/-- The next slot of a registration is computed (R210, R215). A block whose key was killed in the meantime stays without a digest (R216). -/
def State.nextRedo (s : State) : State :=
  match s.redos with
  | [] => s
  | pa :: rest =>
    let t := { s with redos := rest }
    match t.blockAt pa with
    | some (b, e, _) => if e.gen = (t.keyAt e.slot).gen then t.redo (t.blockPlace e b) else t
    | none => t

/-- Whether a digest instruction that is not finished reads a region. -/
def State.digestUsed (s : State) (h : Nat) : Bool :=
  s.flight.any fun x => x.todo.any fun p =>
    match p.place with
    | some at_ => match s.digestOf at_ with
      | some (_, e, _) => e.handle == h && (match x.req with
        | .dget _ _ | .dgetv _ | .dcls _ _ _ | .dredo => true
        | _ => false)
      | none => false
    | none => false

/-- DIGEST_UNREGISTER: once no digest instruction references the entry, it is removed and its slots are free. -/
def execDigestUnregister (n : Nat) (s : State) : Result :=
  if s.digestUsed n then .next s
  else .next { s with dir := s.dir.filter fun e => e.handle != n, slots := s.slots.filter fun d => d.2.handle != n }

end Sys2Proof.Machine
end

