-- ==== Sys2Proof/Machine/Maps.lean ====
section
/-! DEFINITION. Region maps (R197 to R200, R265 to R268), circular buffers (R196, R269 to R271), async barriers (R272 to
R275), WAITEV (R354), and the actions that retire captured state (R243, R351, R352). -/

namespace Sys2Proof.Machine

/-- The A stream of the bank in hand. -/
def State.streamA (s : State) : State := { s with sid := .A }

/-! ## Fills (R198) -/

/-- Whether the fill `f` of 2 KiB at `p` in class `cls` for the bank in hand may read home: the earlier accesses of the stream that asked for
it to the same bytes and in the same class are done (R59, R227), no FENCE and no SC operation of it holds the class (R229, R236), and the
stores that it has acquired have performed on the bytes (R122). -/
def State.fillClear (s : State) (f : Fill) (cls : Nat) (p : Place) : Bool :=
  let t := { s with sid := f.sid }
  !t.st.fenced cls f.ord && s.flight.all fun y =>
    let mine := y.agent == t.agent && decide (y.ord < f.ord)
    let hits := y.fail.isNone && y.todo.any fun q =>
      match q.place with
      | some a => overlaps a.loc q.n p.loc 2048
      | none => false
    !(mine && (hits || y.sc.isSome || (y.cls == cls && !y.acked))) && !(hits && t.st.acq.any fun a => y.agent.key == a.1 && decide (y.ord < a.2))

/-- The bytes of a granule at home, or in the scratchpad that the forward table names for it, which holds the same (R239). -/
def State.granuleRead (s : State) (p : Place) : List Byte :=
  match s.forward.find? fun f => p.home == 0 && f.pa == p.pa && f.slot == p.slot && f.gen == p.gen with
  | some f => s.scratchRead f.core f.off 2048
  | none => s.homeRead p 2048

/-- Fill granule `g` of entry `e` of the bank in hand: translate, read home, write the scratchpad. `cWAITS` where the read of a page of the host or
of a peer waits (R226, R365, R366). -/
def State.fillGranule (s : State) (e : Fin 16) (g : Nat) : Except Cause State :=
  let m := s.bank.map[e]
  let off := m.spbase + g * 2048
  match s.xlate s.streamA.space (m.vabase + g * 2048) true m.rw with
  | .error c => .error c
  | .ok (p, t) =>
    match t.refusal (t.coreNo / 96) p 2048 with
    | some why => .error (refusalCause why)
    | none =>
      if t.flawedOwn off 2048 then .error (cUNCORR 0)
      else
        match t.goesOutOf (t.coreNo / 96) p 2048 with
        | none => .error cWAITS
        | some t =>
          let bytes := t.granuleRead p
          let u := t.dropForward t.coreNo (upFrom off 2048)
          .ok (State.setBank { u with mem := u.mem.writeN (scratchLoc u.coreNo off) bytes } fun b =>
            { b with map := b.map.set e { m with filled := Tbl.put m.filled g (p.slot, p.gen)
                                                 written := m.written.filter fun x => x / 2048 != g } })

/-- The fill of granule `g` of entry `e` ends in a fault, which the accesses that wait for it take. -/
def State.failFill (s : State) (e : Fin 16) (g : Nat) (c : Cause) : State :=
  let note := fun (f : Fill) => if f.of e.val g then { f with fault := some (c.code, c.sub) } else f
  s.setBank fun b => { b with fills := b.fills.map note }

/-- MAP_FILL: perform a fill that a word of the bank in hand waits for, unless the granule has been filled for another access since. -/
def execMapFill (e : Fin 16) (g : Nat) (s : State) : Result :=
  let m := s.bank.map[e]
  match s.bank.fills.find? fun f => f.of e.val g && f.fault.isNone with
  | none => .next s
  | some f =>
    if !m.valid || m.isFilled g then .next (s.dropFill e.val g)
    else
      let clear := match s.xlate s.streamA.space (m.vabase + g * 2048) true m.rw with
        | .ok (p, _) => s.fillClear f m.cls.val p
        | .error _ => true
      if clear = false then .next s
      else
        match s.fillGranule e g with
        | .ok t => .next (t.dropFill e.val g)
        | .error c => if c = cWAITS then .next s else .next (s.failFill e g c)

/-! ## Write-backs (R199) -/

/-- The bytes of core scratchpad as the writes issued so far leave them. -/
def State.latestBytes (s : State) (off n : Nat) : List Byte := s.bytesAfter (fun _ => true) off n

/-- How many of the numbers of a list follow one another from `x` on. -/
def runFrom (x : Nat) : List Nat → Nat
  | [] => 0
  | y :: t => if y = x then 1 + runFrom (x + 1) t else 0

/-- WRITTEN bytes of an entry that a write-back stores: all of them, or those of the VA ranges to which it keeps. -/
def MapEntry.dirty (m : MapEntry) (only : Option (List (Nat × Nat))) : List Nat :=
  match only with
  | none => m.written
  | some l => m.written.filter fun x => l.any fun r => decide (r.1 ≤ m.vabase + x ∧ m.vabase + x < r.1 + r.2)

/-- The first run of WRITTEN bytes that a write-back of an entry stores: offset and length. -/
def MapEntry.run (m : MapEntry) (only : Option (List (Nat × Nat))) : Option (Nat × Nat) :=
  match m.dirty only with
  | [] => none
  | x :: t => some (x, 1 + runFrom (x + 1) t)

/-- Bytes left of the page that holds `va`. -/
def State.pageLeft (s : State) (va : Nat) : Nat :=
  match s.cached s.space va with
  | some e => e.va + e.size - va
  | none => 4096 - va % 4096

/-- Whether a write-back is made by an instruction of the A stream: its stores are that stream's (R199, R267). -/
def WbBy.ofStream : WbBy → Bool
  | .rsync | .rmap | .runmap => true
  | .endTask | .evict | .hand => false

/-- The record of a fault in a write-back (R199, R342): the edge engine's, or the A stream's for its instruction. -/
def State.writebackRecord (s : State) (w : Writeback) (c : Cause) (va : Nat) : Record :=
  let edge := !w.by_.ofStream
  let a := s.bank.a
  { info := infoWord c (if edge then 7 else 0) s.coreNo s.bankNo true s.streamA.space, va := BitVec.ofNat 64 va
    word := if edge then 0 else s.streamA.code.getD a.pc 0
    pos := BitVec.ofNat 64 (if edge then w.sent else a.pc), who := .writeback s.coreNo s.bankNo
    task := (match s.bank.iter with
      | some i => i.task
      | none => 0) }

/-- Whether a later task with an edge from the task of the bank in hand has a region that covers the granule at `va` (R239, R172). -/
def State.consumed (s : State) (va : Nat) : Bool :=
  match s.bank.iter with
  | none => false
  | some it => s.tasks.any fun t => t.edges.contains it.task && t.regions.any fun r => decide (r.base ≤ va ∧ va + 2048 ≤ r.base + r.ext)

/-- The newest 4,096 entries of one home controller, and those of the others (R239). -/
def trimForward (die : Nat) : Nat → List Forward → List Forward
  | _, [] => []
  | n, f :: t => if hbmDie f.pa ≠ die then f :: trimForward die n t else if n = 0 then trimForward die 0 t else f :: trimForward die (n - 1) t

/-- Enter the granules that a write-back covers whole, and that a consumer's region covers, into the forward table of their home (R239). -/
def State.noteForward (s : State) (m : MapEntry) (p : Place) (off n : Nat) : State :=
  if p.home ≠ 0 then s
  else
    let gs := (upFrom 0 (n / 2048 + 1)).filterMap fun i =>
      let g := alignUp off 2048 + 2048 * i
      if g + 2048 ≤ off + n ∧ s.consumed (m.vabase + g) then
        some { pa := p.pa + (g - off), core := s.coreNo, off := m.spbase + g, slot := p.slot, gen := p.gen : Forward }
      else none
    if gs = [] then s else { s with forward := trimForward (hbmDie p.pa) 4096 (gs ++ s.forward) }

/-- Store `k` bytes of entry `e` from offset `off` on at their home: an instruction's into the lane of the entry's class, the edge engine's at
once; a fault where the edge engine's store or the read of the scratchpad meets an uncorrectable error (R355, R199), `cWAITS` where the store
waits (R226, R365, R366). A store of the edge engine that is refused or meets a dead link has failed, and performs nothing (R238). -/
def State.storeRun (s : State) (w : Writeback) (m : MapEntry) (p : Place) (off k : Nat) : Except Cause State :=
  let bytes := s.latestBytes (m.spbase + off) k
  if s.flawedOwn (m.spbase + off) k then .error (cUNCORR 0)
  else if w.by_.ofStream then
    let t := State.send s.streamA m.cls.val (m.vabase + off) .writeback .none [scalarPiece (m.vabase + off) p k bytes] [] none []
    .ok { t with sid := s.sid }
  else
    match s.refusal (s.coreNo / 96) p k with
    | some why => if why = 35 then .error (cUNCORR 0) else .ok s
    | none =>
      match s.goesOutOf (s.coreNo / 96) p k with
      | none => .error cWAITS
      | some s =>
        let v := s.homeWrite p bytes true
        .ok (if w.by_ = .endTask then v.noteForward m p off k else v)

/-- The write-back in progress stops on a fault, and its record is posted (R199). -/
def State.stopWriteback (s : State) (w : Writeback) (c : Cause) (va : Nat) : State :=
  (s.setBank fun b => { b with wb := some { w with stopped := true } }).post (s.writebackRecord w c va)

/-- Send the first run of WRITTEN bytes of entry `e` of the bank in hand home; `dead`: where its store waits, it fails (R367). -/
def State.sendRun (s : State) (w : Writeback) (e : Fin 16) (off n : Nat) (dead : Bool) : State :=
  let m := s.bank.map[e]
  let va := m.vabase + off
  match s.streamA.xlate s.streamA.space va false true with
  | .error c => s.stopWriteback w c va
  | .ok (p, t) =>
    let t := { t with sid := s.sid }
    let left := min n (t.streamA.pageLeft va)
    let k := if p.home = 2 then min left 2048 else left
    let sent := fun (u : State) => u.setBank fun b =>
      { b with map := b.map.set e { b.map[e] with written := b.map[e].written.filter fun x => !decide (off ≤ x ∧ x < off + k) }
               wb := some { w with sent := w.sent + k } }
    match t.storeRun w m p off k with
    | .error c => if c ≠ cWAITS then s.stopWriteback w c va else if dead then sent t else s
    | .ok u => sent u

/-- The next step of the write-back in progress of the bank in hand, if it is at entry `e`. -/
def State.writebackStep (s : State) (e : Fin 16) : State :=
  match s.bank.wb with
  | none => s
  | some w =>
    if w.stopped || w.left.head? != some e then s
    else
      match s.bank.map[e].run w.only with
      | none => s.setBank fun b => { b with wb := if w.by_ = .hand ∧ w.left.length ≤ 1 then none else some { w with left := w.left.drop 1 } }
      | some (off, n) => s.sendRun w e off n false

/-- Whether the next store of the write-back in progress waits (R365, R366, R226). -/
def State.writebackWaits (s : State) : Bool :=
  match s.bank.wb with
  | none => false
  | some w =>
    match w.left with
    | [] => false
    | e :: _ =>
      match s.bank.map[e].run w.only with
      | none => false
      | some (off, n) =>
        !w.stopped && !w.by_.ofStream && match s.streamA.xlate s.streamA.space (s.bank.map[e].vabase + off) false true with
          | .ok (p, t) => (match State.storeRun { t with sid := s.sid } w s.bank.map[e] p off (min n 2048) with
            | .error c => c == cWAITS
            | .ok _ => false)
          | .error _ => false

/-- The store of the write-back in progress that waits fails (R367). -/
def State.failRun (s : State) : State :=
  match s.bank.wb with
  | some w => (match w.left with
    | e :: _ => (match s.bank.map[e].run w.only with
      | some (off, n) => s.sendRun w e off n true
      | none => s)
    | [] => s)
  | none => s

/-- MAP_WRITEBACK. -/
def execMapWriteback (e : Fin 16) (s : State) : Result := .next (s.writebackStep e)

/-- Nests on the panel, the pending one last. -/
def Panel.all (p : Panel) : List ActiveNest := p.nests ++ p.pending.toList

/-- Whether nothing of the bank in hand still uses map entry `e` as it was (R265 step 1): writes to the core's own banks that are not readable,
accesses that wait for a fill through it, fills of it, accepted engine commands, and nests on the panel, whose pipes count as commands (R198). -/
def State.mapQuiet (s : State) (e : Nat) : Bool :=
  s.core.early.all (fun x => x.bank != s.bankNo) && s.bank.fills.all (fun f => f.entry != e || f.fault.isSome)
    && s.flight.all (fun x => x.agent.sid == .L || x.agent.core != s.coreNo || x.agent.bank != s.bankNo || x.todo.all fun p => match p.place with
        | some a => a.home != 5 || a.slot != e
        | none => true)
    && s.core.panel.all.all (fun n => n.bank != s.bankNo || !n.maps.contains e)
    && (s.core.copyQ ++ s.core.indexQ).all fun c => c.bank != s.bankNo || !c.accepted || c.done || !c.maps.contains e

/-- Whether every store of an instruction's write-back is acknowledged or has failed (R267). -/
def State.sentBack (s : State) : Bool := s.flight.all fun x => x.agent != s.streamA.agent || x.req != .writeback || x.fail.isSome

/-- Write entries back, wait for it, and go on with the count of bytes sent. Bytes that are written while an entry that is to change waits are
written back too (R265, R199). -/
def State.afterWriteback (s : State) (by_ : WbBy) (entries : List (Fin 16)) (k : Nat → State → State) : Result :=
  match s.bank.wb with
  | none =>
    if entries.all fun e => s.bank.map[e].written.isEmpty then .next (k 0 s)
    else .next ((s.setBank fun b => { b with wb := some { by_ := by_, left := entries, sent := 0, stopped := false } }).hold
      (.ext .access))
  | some w =>
    let more := entries.filter fun e => !s.bank.map[e].written.isEmpty
    if w.by_ = by_ ∧ w.left.isEmpty ∧ s.sentBack then
      (if by_ = .rsync ∨ more.isEmpty then .next (k w.sent (s.setBank fun b => { b with wb := none }))
       else .next ((s.setBank fun b => { b with wb := some { w with left := more } }).hold (.ext .access)))
    else .next (s.hold (.ext .access))

/-- Change map entry `e`; the outcomes of fills of the old one are forgotten. -/
def State.setEntry (s : State) (e : Fin 16) (m : MapEntry) : State :=
  s.setBank fun b => { b with map := b.map.set e m, fills := b.fills.filter fun f => f.entry != e.val }

/-! ## RMAP, RUNMAP, RSYNC -/

/-- Whether two entries share a VA or a scratchpad byte. -/
def MapEntry.shares (m n : MapEntry) : Bool :=
  overlaps m.vabase (m.len * 2048) n.vabase (n.len * 2048) || overlaps m.spbase (m.len * 2048) n.spbase (n.len * 2048)

/-- The first value that RMAP refuses (R265). -/
def State.rmapBad (s : State) (e : Fin 16) (a b c : Word) (new : MapEntry) : Option Word :=
  if a.toNat % 2048 ≠ 0 ∨ 2 ^ 56 ≤ a.toNat ∨ a.toNat / 2 ^ 48 = 0xFF ∨ 2 ^ 56 < a.toNat + 2048 * c.toNat then some a
  else if b.toNat % 2048 ≠ 0 ∨ 2 ^ 22 < b.toNat + 2048 * c.toNat then some b
  else if c.toNat = 0 ∨ 2048 < c.toNat then some c
  else if (List.finRange 16).any fun n => n != e && s.bank.map[n].valid && s.bank.map[n].shares new then some a
  else none

/-- RMAP (log 23, DEDUCED). -/
def execRmap (rw : Bool) (a b c : Opnd) (entry : Fin 16) (cls : Fin 16) (s : State) : Result :=
  s.guard [a, b, c] []
    (let x := s.take a
     let y := x.2.take b
     let z := y.2.take c
     let new : MapEntry := { valid := true, vabase := x.1.toNat, spbase := y.1.toNat, len := z.1.toNat, rw := rw, cls := cls
                             filled := [], written := [] }
     match s.rmapBad entry x.1 y.1 z.1 new with
     | some v => s.trap (cILLEGAL 14) v
     | none =>
       let install := fun (_ : Nat) (t : State) =>
         let p := (t.takes [a, b, c]).2
         (p.setEntry entry new).finish
       if s.bank.map[entry].valid then
         if s.mapQuiet entry.val then s.afterWriteback .rmap [entry] install else .next (s.hold (.ext .access))
       else .next (install 0 s))

/-- RUNMAP. -/
def execRunmap (entry : Fin 16) (s : State) : Result :=
  if s.bank.map[entry].valid then
    if s.mapQuiet entry.val then s.afterWriteback .runmap [entry] fun _ t => (t.setEntry entry MapEntry.zero).finish
    else .next (s.hold (.ext .access))
  else .next s.finish

/-- RSYNC: one entry, or all valid ones in ascending order. -/
def execRsync (d : Opnd) (entry : Option (Fin 16)) (s : State) : Result :=
  s.guard [] [d]
    (s.afterWriteback .rsync (((match entry with
        | some e => [e]
        | none => List.finRange 16)).filter fun e => s.bank.map[e].valid)
      fun n t => (t.put d (BitVec.ofNat 64 n) 1).finish)

/-! ## Circular buffers -/

/-- M: the largest multiple of COUNT that is not above 2^16. -/
def CBuf.modulus (c : CBuf) : Nat := c.count * (2 ^ 16 / c.count)

/-- A counter one on. -/
def CBuf.next (c : CBuf) (n : Nat) : Nat := (n + 1) % c.modulus

/-- Slots between two counters. -/
def CBuf.between (c : CBuf) (lo hi : Nat) : Nat := (hi + c.modulus - lo) % c.modulus

/-- The scratchpad offset of the slot that a counter value names. -/
def CBuf.slotAt (c : CBuf) (n : Nat) : Nat := c.base + n % c.count * c.slot

/-- Whether every slot is given out; one that was released in this cycle still counts (R271). -/
def CBuf.full (c : CBuf) : Bool := decide (c.between c.taken c.put + c.freed = c.count) && decide (0 < c.count)

/-- The buffer that a command names, with CB. -/
def bufferOf (i : Instr) (d : Nat) : Option Nat :=
  match i with
  | .cpy true _ _ _ _ _ _ | .cpys true _ _ _ _ _ _ | .cfetchif _ true _ _ _ _ | .kvfetch true _ _ _ _ _ => some d
  | _ => none

def Cmd.buffer (c : Cmd) : Option Nat := bufferOf c.instr (c.val 0)

/-- The barrier that a command names. -/
def barrierOf (i : Instr) : Option Nat := (tailOf i).map fun t => t.bar.val

/-- Outstanding commands of the bank in hand. -/
def State.cmds (s : State) : List Cmd := (s.core.copyQ ++ s.core.indexQ).filter fun c => c.bank == s.bankNo

/-- Whether an outstanding command of the bank names buffer `n`; barrier `n`. -/
def State.namesBuffer (s : State) (n : Nat) : Bool := s.cmds.any fun c => c.buffer == some n

def State.namesBarrier (s : State) (n : Nat) : Bool := s.cmds.any fun c => barrierOf c.instr == some n

/-- The place in program order before which the commands stand that a CBSET or ABSET of number `n` waits for: that of its own first attempt
(R269, R274). -/
def State.pushedBefore (s : State) (n : Fin 8) : Nat :=
  match s.st.wait with
  | some (.ext (.config k o)) | some (.ext (.phase k o _)) => if k = n then o else s.issued
  | _ => s.issued

/-- The bytes that later commands have brought to a barrier while its ABSET waits (R274). -/
def State.carriedOver (s : State) (n : Fin 8) : Nat :=
  match s.st.wait with
  | some (.ext (.phase k _ c)) => if k = n then c else 0
  | _ => 0

/-- CBSET. -/
def execCbset (buf : Fin 8) (a b c : Opnd) (s : State) : Result :=
  s.guard [a, b, c] []
    (let r := s.takes [a, b, c]
     let va := r.1.getD 0 0
     let vb := r.1.getD 1 0
     let vc := r.1.getD 2 0
     if va.toNat % 64 ≠ 0 ∨ 2 ^ 22 ≤ va.toNat then s.trap (cILLEGAL 14) va
     else if vb.toNat % 64 ≠ 0 ∨ vb.toNat = 0 ∨ 2 ^ 22 < vb.toNat then s.trap (cILLEGAL 14) vb
     else if vc.toNat = 0 ∨ 256 < vc.toNat then s.trap (cILLEGAL 14) vc
     else if 2 ^ 22 < va.toNat + vb.toNat * vc.toNat then s.trap (cILLEGAL 14) (BitVec.ofNat 64 (va.toNat + vb.toNat * vc.toNat))
     else if s.cmds.any fun k => k.buffer == some buf.val && decide (k.ord < s.pushedBefore buf) then
       .next (s.hold (.ext (.config buf (s.pushedBefore buf))))
     else
       let new : CBuf := { base := va.toNat, slot := vb.toNat, count := vc.toNat, taken := 0, done := 0, put := 0 }
       .next ((r.2.setBank fun k => { k with cb := k.cb.set buf new }).finish))

/-- A wait of the A stream that no command can end (R273) (log 32, DEDUCED). -/
def State.aStuck (s : State) : Bool :=
  s.bank.a.exited || (match s.bank.a.wait with
    | some (.ext (.buffer n)) => !s.namesBuffer n.val
    | some (.ext (.barrier n)) => !s.namesBarrier n.val
    | _ => false)

/-- CBWAIT. -/
def execCbwait (buf : Fin 8) (d : Opnd) (s : State) : Result :=
  let c := s.bank.cb[buf]
  s.guard [] [d]
    (if c.count = 0 then s.trap (cILLEGAL 14) (BitVec.ofNat 64 buf.val)
     else if c.done ≠ c.taken then .next ((s.put d (BitVec.ofNat 64 (c.slotAt c.taken)) 1).finish)
     else if !s.namesBuffer buf.val && (s.sid == .A || s.aStuck) then s.trap (cILLEGAL 11) (BitVec.ofNat 64 (0x20 + buf.val))
     else .next (s.hold (.ext (.buffer buf))))

/-- CBREL. -/
def execCbrel (buf : Fin 8) (s : State) : Result :=
  let c := s.bank.cb[buf]
  if c.count = 0 ∨ c.done = c.taken then s.trap (cILLEGAL 14) (BitVec.ofNat 64 buf.val)
  else if s.now < s.ownReady then .next (s.hold .result)
  else .next ((s.setBank fun k => { k with cb := k.cb.set buf { c with taken := c.next c.taken, freed := c.freed + 1 } }).finish)

/-! ## Async barriers -/

/-- ABSET. -/
def execAbset (bar : Fin 8) (a : Opnd) (s : State) : Result :=
  s.guard [a] []
    (let x := s.take a
     if 2 ^ 40 ≤ x.1.toNat then s.trap (cILLEGAL 14) x.1
     else if s.cmds.any fun k => barrierOf k.instr == some bar.val && decide (k.ord < s.pushedBefore bar) then
       .next (s.hold (.ext (.phase bar (s.pushedBefore bar) (s.carriedOver bar))))
     else
       .next ((x.2.setBank fun k => { k with abexp := k.abexp.set bar (x.1.setWidth 40)
                                             abarr := k.abarr.set bar (BitVec.ofNat 40 (min (s.carriedOver bar) (2 ^ 40 - 1))) }).finish))

/-- Whether a barrier's phase is complete. -/
def Bank.arrived (b : Bank) (bar : Fin 8) : Bool := decide (b.abexp[bar].toNat ≤ b.abarr[bar].toNat)

/-- ABWAIT. -/
def execAbwait (bar : Fin 8) (s : State) : Result :=
  if s.bank.arrived bar then .next s.finish
  else if !s.namesBarrier bar.val && (s.sid == .A || s.aStuck) then s.trap (cILLEGAL 11) (BitVec.ofNat 64 (0x28 + bar.val))
  else .next (s.hold (.ext (.barrier bar)))

/-! ## WAITEV (R354) -/

/-- Whether event `i` of a mask holds. -/
def State.eventHolds (s : State) (i : Nat) : Bool :=
  if i < 16 then (s.bank.q.toList.getD i []).any fun e => e.filled.isSome
  else if h : i < 24 then s.bank.arrived ⟨i - 16, by omega⟩
  else if h : i < 32 then let c := s.bank.cb[i - 24]'(by omega); c.done != c.taken
  else false

/-- Whether event `i` can still come to hold (R126, R273). -/
def State.eventOpen (s : State) (i : Nat) : Bool :=
  if h : i < 16 then
    (match s.popBlock ⟨i, h⟩ 0 with
      | some (.trap _ _) => false
      | _ => true)
  else if i < 24 then s.namesBarrier (i - 16)
  else s.namesBuffer (i - 24)

/-- The event numbers of a mask. -/
def eventsOf (m : Word) : List Nat := (upFrom 0 32).filter fun i => m.getLsbD i

/-- TVAL where a wait for events cannot end: that of the lowest event. -/
def eventTval (i : Nat) : Nat := if i < 16 then i else if i < 24 then 0x28 + (i - 16) else 0x20 + (i - 24)

/-- The word that waits for events. -/
def State.waitEvents (s : State) (d a b : Opnd) : Result :=
  s.guard [a, b] [d]
    (let x := s.take a
     let y := x.2.take b
     let evs := eventsOf x.1
     if x.1 = 0 ∨ 2 ^ 32 ≤ x.1.toNat ∨ evs.any (fun i => decide (i < 16) && qConsumer i != s.sid) then s.trap (cILLEGAL 14) x.1
     else
       let held := evs.filter s.eventHolds
       if held ≠ [] then .next ((y.2.put d (BitVec.ofNat 64 (held.foldl (fun m i => m + 2 ^ i) 0)) 1).finish)
       else if y.1 ≠ 0 ∧ y.1.toNat ≤ s.bank.cycle then .next ((y.2.put d (BitVec.ofNat 64 (2 ^ 63)) 1).finish)
       else if y.1 = 0 && !evs.any s.eventOpen && (s.sid == .A || s.aStuck) then
         s.trap (cILLEGAL 11) (BitVec.ofNat 64 (eventTval (evs.headD 0)))
       else .next (s.hold (.ext .event)))

/-- WAITEV. -/
def execWaitev (d a b : Opnd) (s : State) : Result := s.waitEvents d a b

/-- WAITEV_DEADLINE: a stream of the bank in hand that waits for events goes on at its deadline. -/
def execWaitevDeadline (sid : StreamId) (s : State) : Result :=
  let t := { s with sid := sid }
  match sid with
  | .L => .next s
  | .A | .X | .N =>
    if t.st.wait = some (.ext .event) then
      match decode sid (t.code.getD t.st.pc 0) with
      | .ok (.waitev d a b) =>
        match t.waitEvents d a b with
        | .next u => .next { u with sid := s.sid }
        | r => r
      | _ => .next s
    else .next s

/-! ## Keys and generations (R243, R350 to R353) -/

/-- Apply `f` to every bank of the device. -/
def State.everyBank (s : State) (f : Bank → Bank) : State :=
  { s with bank := f s.bank, core := { s.core with other := f s.core.other }
           cores := s.cores.map fun c => (c.1, { c.2.1 with other := f c.2.1.other }, f c.2.2) }

/-- Every engine command of the device. -/
def State.everyCmd (s : State) : List Cmd :=
  (s.core.copyQ ++ s.core.indexQ) ++ s.cores.flatMap fun c => c.2.1.copyQ ++ c.2.1.indexQ

/-- Drop a map granule that was filled under a key slot and generation (R200). -/
def MapEntry.dropKey (m : MapEntry) (slot gen : Nat) : MapEntry :=
  let gone := (m.filled.filter fun f => f.2 == (slot, gen)).map Prod.fst
  { m with filled := m.filled.filter fun f => f.2 != (slot, gen), written := m.written.filter fun x => !gone.contains (x / 2048) }

/-- Retire key slot `k`: key zero, generation one on, map granules and digest tags under it dropped (R200, R216, R351). -/
def State.killKey (s : State) (k : Nat) : State :=
  let g := (s.keyAt k).gen
  let t := s.everyBank fun b => { b with map := b.map.map fun m => m.dropKey k g }
  { t with keys := Tbl.put t.keys k { key := [0, 0, 0, 0], gen := min (g + 1) 0xFFFFFF }
           slots := t.slots.map fun d => match t.dirAt d.2.handle with
             | some e => if e.slot = k then (d.1, { d.2 with tag := d.2.tag &&& 4#4 }) else d
             | none => d }

/-- Raise the generation of address space `a`, and drop its block-table cache entries (R296, R352). -/
def State.raiseGen (s : State) (a : Nat) : State :=
  let sp := s.spaceAt a
  { s with spaces := Tbl.put s.spaces a { sp with gen := sp.gen + 1 }, btc := s.btc.filter fun e => e.2.1 != a }

/-- Whether a part of an access of agent `a` that has not performed holds key slot `k`: by its page, or by the granule that it waits behind. -/
def State.holdsKey (s : State) (a : Agent) (k : Nat) (p : Piece) : Bool :=
  match p.place with
  | none => false
  | some x =>
    if x.home = 5 then
      (match Tbl.get? (((s.bankAt a.core a.bank).map.toList.getD x.slot MapEntry.zero).filled) x.gen with
        | some t => t.1 == k
        | none => false)
    else decide (x.home ≤ 2) && x.slot == k

/-- Whether no operation holds key slot `k` any more: an access that has not performed, one that timed out among them (R231), or a command that
is not reported (R243, R351). -/
def State.keyFree (s : State) (k : Nat) : Bool :=
  s.flight.all (fun x => x.todo.all fun p => !s.holdsKey x.agent k p) && s.everyCmd.all fun c => !c.accepted || !c.slots.contains k

/-- Whether no operation holds a translation of the current generation of address space `a`. -/
def State.genFree (s : State) (a : Nat) : Bool :=
  let g := (s.spaceAt a).gen
  s.flight.all (fun x => x.performed || x.space != a || x.spaceGen != g) && s.everyCmd.all fun c => !c.accepted || c.space != a || c.spaceGen != g

/-- Whether every access of an agent before `ord` has been acknowledged. -/
def State.ackedBefore (s : State) (a : Agent) (ord : Nat) : Bool :=
  s.flight.all fun x => x.agent != a || decide (ord ≤ x.ord) || x.acked

/-- Put a KEYKILL, GENBUMP or ECANCEL of the stream in hand on its way: its result comes under the ticket. -/
def State.retire (s : State) (d : Opnd) (what : Retiring) : State :=
  let t := s.await d s.issued
  { t with issued := t.issued + 1
           retires := t.retires ++ [{ agent := s.agent, ord := s.issued, what := what, dst := d }] }

/-- KEYKILL. A key unit that is not ready refuses it (R394) (log 92, DEDUCED). -/
def execKeykill (d a : Opnd) (s : State) : Result :=
  s.guard [a] [d]
    (let x := s.take a
     let k := x.1.toNat
     if k = 0 ∨ 65535 < k then s.trap (cILLEGAL 14) x.1
     else if !(s.spaceAt s.space).priv.getLsbD 0 then s.trap (cPERM 3) x.1
     else if !bitOf s.bureau.ready0 28 then s.trap (cPERM 2) x.1
     else .next (x.2.retire d (.key k)).finish)

/-- GENBUMP: the privilege is checked at its issue. -/
def execGenbump (d : Opnd) (s : State) : Result :=
  s.guard [] [d]
    (if !(s.spaceAt s.space).priv.getLsbD 1 then s.trap (cPERM 3) (BitVec.ofNat 64 s.space)
     else .next (s.retire d (.gen s.space)).finish)

/-- Take the first entry that satisfies `p` out of a list. -/
def pluck {α : Type} (p : α → Bool) : List α → Option (α × List α)
  | [] => none
  | x :: t => if p x then some (x, t) else (pluck p t).map fun r => (r.1, x :: r.2)

/-- Whether a KEYKILL or GENBUMP waits for nothing more. -/
def State.retireReady (s : State) (r : Retire) (key : Bool) : Bool :=
  match r.what with
  | .key k => key && s.ackedBefore r.agent r.ord && s.keyFree k
  | .gen a => !key && s.ackedBefore r.agent r.ord && s.genFree a
  | .cancel _ _ => false

/-- The next held write of KILL or BUMP becomes the action. -/
def Action.finish (a : Action) (what gen : Nat) : Action :=
  { a with busy := a.held.head?, held := a.held.drop 1, last := what, lastGen := gen }

/-- KEY_RETIRE: the oldest KEYKILL that waits for nothing more; else KILL of the Bureau, which waits for no stream. -/
def execKeyRetire (s : State) : Result :=
  match pluck (fun r => s.retireReady r true) s.retires with
  | some ({ agent := a, ord := n, what := .key k, dst := d }, rest) =>
    let t := State.killKey { s with retires := rest } k
    .next (t.onAgent a fun u => u.deliver d n (BitVec.ofNat 64 (u.keyAt k).gen))
  | _ =>
    match s.bureau.kill.busy with
    | some k =>
      if s.keyFree k then
        let t := s.killKey k
        .next { t with bureau := { t.bureau with kill := t.bureau.kill.finish k (t.keyAt k).gen } }
      else .next s
    | none => .next s

end Sys2Proof.Machine
end

