-- ==== Sys2Proof/Machine/Engines.lean ====
section
/-! DEFINITION. The copy and index engines as the A stream drives them (R280 to R288, R296, R297): the checks at issue, the
push, and ECANCEL. -/

namespace Sys2Proof.Machine

/-! ## Reading the fields of a command word (R284) -/

/-- A field of a command: an operand, the first register of a pair or triple, or a dash. -/
inductive Field where
  | op (o : Opnd)
  | regs (n : Nat)
  | blank
  deriving DecidableEq, Repr

/-- A scalar register by number; 0 above s31. -/
def State.regNat (s : State) (n : Nat) : Word := if h : n < 32 then s.reg ⟨n, h⟩ else 0

/-- The value of a field. -/
def State.fieldVal (s : State) (f : Field) : Word × State :=
  match f with
  | .op o => s.take o
  | .regs n => (s.regNat n, s)
  | .blank => (0, s)

/-- The register `k` behind the one that a field names: 0 behind a queue and above s31 (R346). -/
def State.behind (s : State) (f : Field) (k : Nat) : Word :=
  match f with
  | .op (.s n) => s.regNat (n.val + k)
  | .op (.q _) => 0
  | .regs n => s.regNat (n + k)
  | .blank => s.regNat k

/-- The fields d, a, b and c of a command. -/
def fieldsOf : Instr → Field × Field × Field × Field
  | .cpy _ _ d a b c _ => (.op d, .op a, .op b, .op c)
  | .cpys _ _ d a b c _ => (.op d, .op a, .regs b.val, .regs c.val)
  | .cpyt _ d a b c _ => (.op d, .op a, .regs b.val, .op c)
  | .cfill _ d a b _ => (.op d, .op a, .op b, .blank)
  | .cfetchif _ _ d a b _ => (.op d, .op a, .op b, .blank)
  | .kvfetch _ d a b c _ => (.op d, .op a, .op b, .op c)
  | .btinv _ a b => (.blank, .op a, .op b, .blank)
  | .gath _ d a b c _ | .scat _ d a b c _ | .scadd _ d a b c _ => (.op d, .op a, .op b, .regs c.val)
  | .compact _ d a b c _ => (.op d, .op a, .op b, .regs c.val)
  | .intersect _ d a b c _ => (.op d, .regs a.val, .regs b.val, .op c)
  | .select _ _ d a b c _ => (.op d, .op a, .op b, .regs c.val)
  | _ => (.blank, .blank, .blank, .blank)

/-- The values of a command: d, a, b, c, then the registers behind b, c and a, and the state after the pops (a, b, c, d in
the order of R12). -/
def State.cmdValues (s : State) (i : Instr) : List Word × List Word × State :=
  let (fd, fa, fb, fc) := fieldsOf i
  let a := s.fieldVal fa
  let b := a.2.fieldVal fb
  let c := b.2.fieldVal fc
  let d := c.2.fieldVal fd
  ([d.1, a.1, b.1, c.1], [s.behind fb 1, s.behind fb 2, s.behind fc 1, s.behind fc 2, s.behind fa 1], d.2)

/-! ## The checks at issue (R286, R287) -/

/-- R286. -/
def wellFormedRange (v n : Nat) : Bool :=
  n == 0 || (decide (v < 2 ^ 56) && decide (v + n ≤ 2 ^ 56) &&
    match winOf v, winOf (v + n - 1) with
    | .mapped, .mapped => true
    | .self _, .self _ => true
    | .core j _, .core k _ => j == k
    | _, _ => false)

/-- The first value of a list whose condition holds. -/
def firstOf : List (Bool × Nat) → Option Nat
  | [] => none
  | (p, v) :: t => if p then some v else firstOf t

/-- Bytes of the source of `n` destination bytes. -/
def srcBytes (t : Option (Ty × Ty)) (n : Nat) : Nat :=
  match t with
  | none => n
  | some (ts, td) => (n * ts.bits + td.bits - 1) / td.bits

/-- Lowest and highest offset of CPYS rows of `n1` and `n2` steps (log 51, DEDUCED). -/
def hullOf (n1 n2 : Nat) (s1 s2 : Int) : Int × Int :=
  let a := (Int.ofNat n1 - 1) * s1
  let b := (Int.ofNat n2 - 1) * s2
  (min 0 a + min 0 b, max 0 a + max 0 b)

/-- The source TYPE rule of SF: a code above 14 or other bits set. -/
def badType (c : Nat) : Bool := decide (14 < c % 32) || c / 32 != 0

/-- Whether a VA lies in a window; in the self window. -/
def inWindow (va : Nat) : Bool := winOf va != .mapped

def inSelf (va : Nat) : Bool :=
  match winOf va with
  | .self _ => true
  | _ => false

/-- The SF row of R287. -/
def sfBad (cb : Bool) (d a c : Nat) : List (Bool × Nat) :=
  [(badType c, c), (inWindow a, a), (!cb && !inSelf d, d)]

/-- Whether a range fails R286, with its start. -/
def rangeBad (v n : Nat) : Bool × Nat := (!wellFormedRange v n, v)

/-- The TVAL of the ECMD that a command raises (R287), in the bank in hand. `v` are d, a, b, c; `m` the registers behind. -/
def State.cmdBad (s : State) (i : Instr) (v m : List Word) : Option Nat :=
  let d := (v.getD 0 0).toNat
  let a := (v.getD 1 0).toNat
  let b := (v.getD 2 0).toNat
  let c := (v.getD 3 0).toNat
  let k := fun (j : Nat) => (m.getD j 0).toNat
  let buf := s.bank.cb.toList.getD d CBuf.zero
  let cbRow := fun (cb : Bool) => (cb && (decide (7 < d) || buf.count == 0), d)
  let src := fun (cb : Bool) (sf : Bool) => srcBytes
    (convTypes s.bank.bfmt a (if cb then selfBase + buf.base else d) (if sf then Ty.ofCode (c % 32) else none))
  match i with
  | .cpy cb sf _ _ _ _ _ =>
    firstOf ([cbRow cb, (decide (2 ^ 40 ≤ b), b), (cb && decide (buf.slot < b), b)] ++ (if sf then sfBad cb d a c else [])
      ++ [rangeBad a (src cb sf b)] ++ (if cb then [] else [rangeBad d b]))
  | .cpys cb sf _ _ _ _ _ =>
    let n1 := k 0
    let n2 := k 1
    let hs := hullOf n1 n2 (signedNat 32 c) (signedNat 32 (k 2))
    let hd := hullOf n1 n2 (signedNat 32 (c / 2 ^ 32)) (signedNat 32 (k 2 / 2 ^ 32))
    let sl := srcBytes (convTypes s.bank.bfmt a (if cb then selfBase + buf.base else d)
      (if sf then Ty.ofCode (k 3 % 32) else none)) b
    firstOf ([cbRow cb, (b == 0 || decide (2 ^ 32 ≤ b), b), (n1 == 0 || decide (65535 < n1), n1), (n2 == 0 || decide (65535 < n2), n2)]
      ++ (if sf then sfBad cb d a (k 3) else [(k 3 != 0, k 3)])
      ++ [rangeBad (moved a hs.1) ((hs.2 - hs.1).toNat + sl),
          (if cb then decide (hd.1 < 0) || decide (Int.ofNat buf.slot < hd.2 + Int.ofNat b)
           else (rangeBad (moved d hd.1) ((hd.2 - hd.1).toNat + b)).1, moved (if cb then 0 else d) hd.1)])
  | .cpyt esz _ _ _ _ _ =>
    let e := sizeBytes esz
    let cols := k 0
    let sp := c % 2 ^ 32
    let dp := c / 2 ^ 32
    firstOf [(b == 0 || decide (65535 < b), b), (cols == 0 || decide (65535 < cols), cols), (decide (sp < cols * e), sp),
      (decide (dp < b * e), dp), rangeBad a ((b - 1) * sp + cols * e), rangeBad d ((cols - 1) * dp + b * e)]
  | .cfill _ _ _ _ _ => firstOf [rangeBad d a]
  | .cfetchif _ cb _ _ _ _ => firstOf ([cbRow cb, rangeBad a 1] ++ (if cb then [] else [rangeBad d 1]))
  | .kvfetch cb _ _ _ _ _ =>
    firstOf ([cbRow cb, rangeBad a 1] ++ (if cb then [] else [rangeBad d 1]) ++ [(a % 32 != 0, a), (decide (2 ^ 24 ≤ c), c)])
  | .btinv _ _ _ => firstOf [(a % 8 != 0, a), (decide (2 ^ 24 ≤ b), b), rangeBad a (8 * b)]
  | .gath esz _ _ _ _ _ =>
    firstOf [(decide (2 ^ 24 < c), c), (k 2 == 0 || decide (2 ^ 32 < k 2), k 2), rangeBad a (k 2 * sizeBytes esz), rangeBad b (4 * c),
      rangeBad d (c * sizeBytes esz)]
  | .scat esz _ _ _ _ _ =>
    firstOf [(decide (2 ^ 24 < c), c), (k 2 == 0 || decide (2 ^ 32 < k 2), k 2), rangeBad d (k 2 * sizeBytes esz), rangeBad b (4 * c),
      rangeBad a (c * sizeBytes esz)]
  | .scadd t _ _ _ _ _ =>
    let e := if t = .int64 then 8 else 4
    firstOf [(decide (2 ^ 24 < c), c), (k 2 == 0 || decide (2 ^ 32 < k 2), k 2), rangeBad d (k 2 * e), rangeBad b (4 * c),
      rangeBad a (c * e)]
  | .compact esz _ _ _ _ _ =>
    firstOf [(c == 0 || decide (65535 < c), c), (k 2 == 0 || decide (65536 < k 2), k 2), rangeBad a (c * k 2 * sizeBytes esz)]
  | .intersect _ _ _ _ _ _ => firstOf [(c == 0 || decide (2 ^ 24 < c), c), rangeBad a (8 * c), rangeBad b (8 * c)]
  | .select _ _ _ _ _ _ _ =>
    firstOf [(k 2 == 0 || decide (2 ^ 24 < k 2), k 2), (decide (2 ^ 32 ≤ c), c), rangeBad d (8 * k 2)]
  | _ => none

/-! ## The push (R233, R280, R281) -/

/-- The FIFO of an engine. -/
def CoreRec.fifo (c : CoreRec) (e : Eng) : List Cmd :=
  match e with
  | .copy => c.copyQ
  | .index => c.indexQ

/-- Replace the FIFO of an engine. -/
def State.setFifo (s : State) (e : Eng) (l : List Cmd) : State :=
  s.setCore fun c =>
    match e with
    | .copy => { c with copyQ := l }
    | .index => { c with indexQ := l }

/-- The engine that a command names. -/
def engOf : Instr → Eng
  | .gath _ _ _ _ _ _ | .scat _ _ _ _ _ _ | .scadd _ _ _ _ _ _ | .compact _ _ _ _ _ _ | .intersect _ _ _ _ _ _
  | .select _ _ _ _ _ _ _ => .index
  | _ => .copy

/-- An entry of a FIFO as a push of the stream in hand makes it. -/
def State.newCmd (s : State) (i : Instr) (v m : List Word) : Cmd :=
  { bank := s.bankNo
    task := (match s.bank.iter with
      | some it => it.task
      | none => 0)
    ord := s.issued, word := s.code.getD s.st.pc 0, instr := i, vals := v, more := m, rel := s.issued, accepted := false
    from_ := max s.now s.ownReady, checked := false, epc := s.st.pc, loops := s.st.l, undo := s.popped i.reads, dest := v.getD 0 0
    slot := none, bfmt := s.bank.bfmt, srseed := s.bank.vec.srseed, lanes := [], off := 0, walk := [], data := [], blocks := []
    count := 0, bytes := 0, flags := 0, status := 0, ovf := false, long := false, short := false, hole := false, held := false
    done := false, slots := [], space := s.space, spaceGen := 0, stopped := false }

/-- Push a command word of the stream in hand: the checks, then the wait for an entry, then the push. -/
def State.command (s : State) (i : Instr) : Result :=
  s.guard i.reads []
    (let (v, m, t) := s.cmdValues i
     match s.cmdBad i v m with
     | some x => s.trap cECMD (BitVec.ofNat 64 x)
     | none =>
       let e := engOf i
       if 8 ≤ (s.core.fifo e).length then .next (s.hold (.ext .engine))
       else .next (((State.setFifo { t with issued := t.issued + 1 } e (s.core.fifo e ++ [s.newCmd i v m]))).finish))

def execCpy (cb sf : Bool) (d a b c : Opnd) (t : CTail) (s : State) : Result := s.command (.cpy cb sf d a b c t)

def execCpys (cb sf : Bool) (d a : Opnd) (b c : Fin 30) (t : CTail) (s : State) : Result := s.command (.cpys cb sf d a b c t)

def execCpyt (esz : Size) (d a : Opnd) (b : Fin 31) (c : Opnd) (t : CTail) (s : State) : Result := s.command (.cpyt esz d a b c t)

def execCfill (pw : Size) (d a b : Opnd) (t : CTail) (s : State) : Result := s.command (.cfill pw d a b t)

def execCfetchif (pred : Pred) (cb : Bool) (d a b : Opnd) (t : CTail) (s : State) : Result := s.command (.cfetchif pred cb d a b t)

def execKvfetch (cb : Bool) (d a b c : Opnd) (t : CTail) (s : State) : Result := s.command (.kvfetch cb d a b c t)

def execBtinv (rpl : Bool) (a b : Opnd) (s : State) : Result := s.command (.btinv rpl a b)

def execGath (esz : Size) (d a b : Opnd) (c : Fin 31) (t : CTail) (s : State) : Result := s.command (.gath esz d a b c t)

def execScat (esz : Size) (d a b : Opnd) (c : Fin 31) (t : CTail) (s : State) : Result := s.command (.scat esz d a b c t)

def execScadd (ty : AddTy) (d a b : Opnd) (c : Fin 31) (t : CTail) (s : State) : Result := s.command (.scadd ty d a b c t)

def execCompact (esz : Size) (d a b : Opnd) (c : Fin 30) (t : CTail) (s : State) : Result := s.command (.compact esz d a b c t)

def execIntersect (esz : Size) (d : Opnd) (a b : Fin 31) (c : Opnd) (t : CTail) (s : State) : Result :=
  s.command (.intersect esz d a b c t)

def execSelect (ty : SelTy) (ge : Bool) (d a b : Opnd) (c : Fin 31) (t : CTail) (s : State) : Result :=
  s.command (.select ty ge d a b c t)

/-- Whether the A stream of the bank in hand waits for an index command to read its indices (R299). -/
def State.readsIndices (s : State) : Bool :=
  s.core.indexQ.any fun c => c.bank == s.bankNo && !c.checked &&
    match c.instr with
    | .gath _ _ _ _ _ _ | .scat _ _ _ _ _ _ | .scadd _ _ _ _ _ _ => true
    | _ => false

/-! ## ECANCEL (R297) -/

/-- Whether an ECANCEL names an engine. -/
def EngSel.has (x : EngSel) (e : Eng) : Bool :=
  match x, e with
  | .copy, .copy | .index, .index | .both, _ => true
  | .copy, .index | .index, .copy => false

/-- The commands of the bank in hand in the named engines that satisfy `p`. -/
def State.named (s : State) (x : EngSel) (p : Cmd → Bool) : List Cmd :=
  ((if EngSel.has x .copy then s.core.copyQ else []) ++ (if EngSel.has x .index then s.core.indexQ else [])).filter fun c =>
    c.bank == s.bankNo && p c

/-- Remove the commands of the bank in hand that are not accepted from the named engines. -/
def State.cancel (s : State) (x : EngSel) : State :=
  let keep := fun (l : List Cmd) => l.filter fun c => c.bank != s.bankNo || c.accepted
  s.setCore fun c => { c with copyQ := if EngSel.has x .copy then keep c.copyQ else c.copyQ
                              indexQ := if EngSel.has x .index then keep c.indexQ else c.indexQ }

/-- ECANCEL: the cut is made in the issue cycle; the result waits for the accepted commands. -/
def execEcancel (eng : EngSel) (d : Opnd) (s : State) : Result :=
  s.guard [] [d]
    (let n := (s.named eng fun c => !c.accepted).length
     let t := s.cancel eng
     if (t.named eng fun c => c.accepted).isEmpty then .next ((t.put d (BitVec.ofNat 64 n) 1).finish)
     else .next (t.retire d (.cancel eng n)).finish)

end Sys2Proof.Machine
end

