-- ==== Sys2Proof/Machine/EngineRun.lean ====
section
/-! DEFINITION. How an engine carries out its commands (R194, R195, R206, R214, R289 to R295, R298 to R303): one home step
at a time, in acceptance order. The functions work on a state with the command's bank in hand. -/

namespace Sys2Proof.Machine

/-- What a step of a command comes to: the state and the command after it, or a fault with its VA and whether a write met
it. -/
abbrev Unit' := Except (Cause × Nat × Bool) (State × Cmd)

/-! ## Accesses of an engine (R186, R198, R203, R241, R298) -/

/-- The state with the region-map entries `l` alone: a command uses those of its acceptance (R268). -/
def State.onlyMaps (s : State) (l : List Nat) : State :=
  s.setBank fun b => { b with map := b.map.mapIdx fun i m => if l.contains i then m else { m with valid := false } }

/-- The route of `n` bytes within 2 KiB; an address beyond the last VA lies outside every window (log 22, DESIGN CHOICE). -/
def State.engRoute (s : State) (c : Cmd) (va n : Nat) (store : Bool) : Except (Cause × Nat) (Route × State) :=
  if 2 ^ 56 < va + n then .error (cPERM 1, va)
  else
    match (s.onlyMaps c.maps).route va n store true with
    | .ok (r, t) => .ok (r, { t with bank := s.bank })
    | .error e =>
      if e = cUNDECL ∨ e = cHANDED then
        match (upFrom 0 n).find? fun i => (s.declared s.iter (va + i) 1 store).isSome with
        | some i => .error ((s.declared s.iter (va + i) 1 store).getD e, va + i)
        | none => .error (e, va)
      else .error (e, va)

/-- Tag of a command's buffer (R30). -/
def hotTag (i : Instr) : Nat :=
  match tailOf i with
  | some t => t.buf8.toNat
  | none => 0

/-- Add to a hotness counter of the core in hand (R207). -/
def State.addHot (s : State) (i n : Nat) : State :=
  s.setCore fun c => { c with hot := Tbl.put c.hot i ((Tbl.get c.hot i 0 + n) % 2 ^ 64) }

/-- Count the distant bytes of a command, and note the key slot it has translated under. -/
def Cmd.touch (c : Cmd) (p : Place) (n : Nat) : Cmd :=
  if p.home < 3 then { c with far := c.far + n, slots := if c.slots.contains p.slot then c.slots else p.slot :: c.slots } else c

/-- Whether an access of a command at a place goes out on the port that has died (R367). -/
def State.onDead (s : State) (c : Cmd) (p : Place) : Bool := decide (64 ≤ c.hurt) && p.home == 2 && s.portFor s.die p.pa == some (c.hurt - 64)

/-- How a distant access of a command fails, as `State.refusal` numbers it: at once where that was decided before, or by its home. -/
def State.engRefusal (s : State) (c : Cmd) (p : Place) (n : Nat) : Option Nat :=
  if c.hurt = 34 ∨ c.hurt = 35 ∨ (c.hurt = 33 ∧ (p.home = 1 ∨ p.home = 2)) then some c.hurt
  else if s.onDead c p then some 32 else s.refusal s.die p n

/-- The cause of a command's read that waits: none but the wait, or UNCORR where it has waited for 2^24 cycles (R288, R298). -/
def Cmd.waiting (c : Cmd) : Cause := if c.hurt = 36 then cUNCORR 2 else cWAITS

/-- The fill of a granule for a command's access at `va`; one that waits where a port has died was in flight on it. -/
def State.engFill (s : State) (c : Cmd) (e : Fin 16) (g va : Nat) : Except (Cause × Nat) State :=
  match s.fillGranule e g with
  | .ok u => .ok u
  | .error x => .error (if x ≠ cWAITS then x else if 64 ≤ c.hurt then cUNCORR 1 else c.waiting, va)

/-- Read up to 2 KiB that lie in one granule. -/
def State.engRead1 (s : State) (c : Cmd) (va n : Nat) : Except (Cause × Nat) (List Byte × State × Cmd) :=
  match s.engRoute c va n false with
  | .error e => .error e
  | .ok (.own off _, t) | .ok (.across off, t) => .ok (t.scratchRead t.coreNo off n, t, c)
  | .ok (.fill e g off, t) =>
    match t.engFill c e g va with
    | .error x => .error x
    | .ok u => .ok (u.scratchRead u.coreNo off n, u, c)
  | .ok (.away p, t) =>
    match t.engRefusal c p n with
    | some why => .error (refusalCause why, va)
    | none =>
      match t.goesOut p n with
      | none => .error (c.waiting, va)
      | some u => .ok (u.placeRead p n, u, c.touch p n)

/-- Read `n` bytes, 2 KiB at a time; `k` bounds the pieces. -/
def State.engReadK (s : State) (c : Cmd) (va n : Nat) : Nat → Except (Cause × Nat) (List Byte × State × Cmd)
  | 0 => .ok ([], s, c)
  | k + 1 =>
    if n = 0 then .ok ([], s, c)
    else
      let m := min n (2048 - va % 2048)
      match s.engRead1 c va m with
      | .error e => .error e
      | .ok (b, t, c') =>
        match State.engReadK t c' (va + m) (n - m) k with
        | .error e => .error e
        | .ok (b', u, c'') => .ok (b ++ b', u, c'')

def State.engRead (s : State) (c : Cmd) (va n : Nat) : Except (Cause × Nat) (List Byte × State × Cmd) :=
  s.engReadK c va n (n / 2048 + 2)

/-- Read bytes; those that the command has read before are not counted again (R207). -/
def State.engReadIf (s : State) (c : Cmd) (va n : Nat) (fresh : Bool) : Except (Cause × Nat) (List Byte × State × Cmd) :=
  match s.engRead c va n with
  | .error e => .error e
  | .ok (b, t, c') => .ok (b, t, if fresh then c' else { c' with far := c.far })

/-- A number of `n` bytes at `va`. -/
def State.engNat (s : State) (c : Cmd) (va n : Nat) (fresh : Bool) : Except (Cause × Nat) (Nat × State × Cmd) :=
  match s.engReadIf c va n fresh with
  | .error e => .error e
  | .ok (b, r) => .ok (leNat b, r)

/-- Write bytes into the core's own banks, through the map entry `e` or none. -/
def State.engOwn (s : State) (off va : Nat) (e : Option (Fin 16)) (b : List Byte) : State :=
  let t := s.dropForward s.coreNo (upFrom off b.length)
  let u := { t with mem := t.mem.writeN (scratchLoc t.coreNo off) b }
  match e with
  | none => u
  | some e => u.setBank fun k => { k with map := k.map.set e (k.map[e].write va b.length) }

/-- The first destination store of a command that fails sets STATUS, and its bytes are lost (R283, R288). -/
def Cmd.loses (c : Cmd) (why n : Nat) : Cmd :=
  { c with status := if c.status ≠ 0 then c.status else if why = 33 then 1 else if why = 34 then 3 else 2, lost := c.lost + n
           hurt := if c.hurt < 36 then 0 else c.hurt }

/-- Write bytes that lie in one granule, or one digested block; a destination that fails them sets STATUS (R288), an uncorrectable error
there is a fault (R355). -/
def State.engWrite1 (s : State) (c : Cmd) (va : Nat) (b : List Byte) (whole : Bool) : Except (Cause × Nat) (State × Cmd) :=
  match s.engRoute c va b.length true with
  | .error e => .error e
  | .ok (.own off e, t) => .ok (t.engOwn off va e b, c)
  | .ok (.across off, t) => .ok (t.engOwn off va none b, c)
  | .ok (.fill e g off, t) =>
    match t.engFill c e g va with
    | .error x => .error x
    | .ok u => .ok (u.engOwn off va (some e) b, c)
  | .ok (.away p, t) =>
    match t.engRefusal c p b.length with
    | some why => if why = 35 then .error (cUNCORR 0, va) else .ok (t, c.loses why b.length)
    | none =>
      match t.goesOut p b.length with
      | none => if c.hurt = 36 then .ok (t, c.loses 34 b.length) else .error (cWAITS, va)
      | some u => .ok (u.placeWrite p b 0 whole, c.touch p b.length)

/-- Write bytes 2 KiB at a time. -/
def State.engWriteK (s : State) (c : Cmd) (va : Nat) (b : List Byte) (whole : Bool) : Nat → Except (Cause × Nat) (State × Cmd)
  | 0 => .ok (s, c)
  | k + 1 =>
    if b.isEmpty then .ok (s, c)
    else
      let m := min b.length (2048 - va % 2048)
      match s.engWrite1 c va (b.take m) whole with
      | .error e => .error e
      | .ok (t, c') => State.engWriteK t c' (va + m) (b.drop m) whole k

def State.engWrite (s : State) (c : Cmd) (va : Nat) (b : List Byte) (whole : Bool) : Except (Cause × Nat) (State × Cmd) :=
  s.engWriteK c va b whole (b.length / 2048 + 2)

/-- A fault of a read or of a write, as a step's outcome. -/
def readFault {α : Type} : Except (Cause × Nat) α → Except (Cause × Nat × Bool) α
  | .ok x => .ok x
  | .error (c, v) => .error (c, v, false)

def writeFault {α : Type} : Except (Cause × Nat) α → Except (Cause × Nat × Bool) α
  | .ok x => .ok x
  | .error (c, v) => .error (c, v, true)

/-! ## Runs of destination bytes (R214, R298) -/

/-- Whether no entry `maps` of the region map covers a byte of a range. -/
def State.unmapped (s : State) (maps : List Nat) (va n : Nat) : Bool :=
  maps.all fun e => let m := s.bank.map.toList.getD e MapEntry.zero; !overlaps m.vabase (m.len * 2048) va n

/-- The digested block that holds `va`, where it lies wholly within the run of `len` bytes at `dst` and no map entry covers a byte of it:
its first byte and its length. -/
def State.blockIn (s : State) (c : Cmd) (dst len va : Nat) : Option (Nat × Nat) :=
  if winOf va ≠ .mapped then none
  else
    match s.xlate s.space va false true with
    | .error _ => none
    | .ok (p, _) =>
      match s.digestOf p with
      | some (b, e, _) =>
        let start := va - (p.pa - b)
        if p.pa - b ≤ va - dst ∧ start + e.grain ≤ dst + len ∧ s.unmapped c.maps start e.grain then some (start, e.grain) else none
      | none => none

/-- The bytes from `va` on of a run that ends at `stop` and does not hold the whole of the digested block there: one partial write (R214); none
where no such block is, or a map entry covers one of them. -/
def State.partIn (s : State) (c : Cmd) (stop va : Nat) : Option Nat :=
  if winOf va ≠ .mapped then none
  else
    match s.xlate s.space va false true with
    | .error _ => none
    | .ok (p, _) =>
      match s.digestOf p with
      | some (b, e, _) =>
        let n := min (stop - va) (b + e.grain - p.pa)
        if s.unmapped c.maps va n then some n else none
      | none => none

/-- Where the bytes of a run come from: offset in the run and count. -/
abbrev Source := State → Cmd → Nat → Nat → Except (Cause × Nat) (List Byte × State × Cmd)

/-- Move `n` bytes of a run: read, then write; OFF moves on by them. -/
def State.moveBytes (s : State) (c : Cmd) (dst k n : Nat) (src : Source) (block : Bool) : Unit' :=
  match readFault (src s c k n) with
  | .error e => .error e
  | .ok (b, t, c1) =>
    match writeFault (if block then t.engWrite1 c1 (dst + k) b true else t.engWrite c1 (dst + k) b true) with
    | .error e => .error e
    | .ok (u, c2) => .ok (u, { c2 with off := c2.off + n })

/-- The first of some sizes of a step that meets no fault; of the last one the fault stands. -/
def State.firstMove (s : State) (c : Cmd) (dst k : Nat) (src : Source) : List (Nat × Bool) → Except (Cause × Nat × Bool) (Nat × State × Cmd)
  | [] => .error (cWAITS, dst + k, true)
  | (n, block) :: rest =>
    match s.moveBytes c dst k n src block with
    | .ok (t, c') => .ok (n, t, c')
    | .error e => if rest.isEmpty || e.1 == cWAITS then .error e else State.firstMove s c dst k src rest

/-- A block that a fault has cut counts as a full write of its command when the last byte of it is written (R214) (log 74, DEDUCED). -/
def State.closeBlock (s : State) (blk : Option (Nat × Nat)) (stop : Nat) : State :=
  match blk with
  | none => s
  | some (b, g) =>
    if b + g ≠ stop then s
    else
      match s.xlate s.space b false true with
      | .ok (p, _) => s.redo p
      | .error _ => s

/-- The next home step of a run of `len` bytes at `dst`, of which `k` are written: a whole digested block, what the run has of one, or up to the
next 64-byte line; where that meets a fault, one byte, so that every byte before the fault is written. -/
def State.runStep (s : State) (c : Cmd) (dst len k : Nat) (src : Source) : Except (Cause × Nat × Bool) (Nat × State × Cmd) :=
  let va := dst + k
  let blk := s.blockIn c dst len va
  let line := min (len - k) (64 - va % 64)
  let whole := match blk with
    | some (b, g) => if b = va then [(g, true)] else []
    | none => (s.partIn c (dst + len) va).toList.map fun n => (n, true)
  match s.firstMove c dst k src (whole ++ [(line, false), (1, false)]) with
  | .error e => .error e
  | .ok (n, t, c') => .ok (n, if whole.map Prod.fst = [n] then t else t.closeBlock blk (va + n), c')

/-! ## BMC (R205, R206) -/

/-- CODEC of the page of a VA that no map entry of the command covers: 0 none, 1 BMC, 2 BMC-STRICT (log 48, DEDUCED). -/
def State.codecOf (s : State) (c : Cmd) (va : Nat) (store : Bool) : Nat :=
  if winOf va ≠ .mapped ∨ ¬ s.unmapped c.maps va 1 then 0
  else
    match s.xlate s.space va (!store) store with
    | .ok (p, _) => p.codec
    | .error _ => 0

/-- Header of a stream: UNITS (0 where MAGIC is wrong) and LENGTH. -/
def bmcHeader (b : List Byte) : Nat × Nat :=
  (if leNat (b.take 4) = 0x31434D42 then leNat ((b.drop 4).take 4) else 0, leNat ((b.drop 8).take 8))

/-- Bit `i` of a unit's bitmap. -/
def mapBit (m : List Byte) (i : Nat) : Bool := (m.getD (i / 8) 0).toNat / 2 ^ (i % 8) % 2 == 1

/-- Set bits of a bitmap. -/
def mapCount (m : List Byte) : Nat := ((upFrom 0 (8 * m.length)).filter (mapBit m)).length

/-- Expand a unit: bitmap and non-zero bytes. -/
def expandUnit (m : List Byte) : List Byte → Nat → Nat → List Byte
  | _, _, 0 => []
  | bs, i, k + 1 =>
    if mapBit m i then bs.headD 0 :: expandUnit m (bs.drop 1) (i + 1) k else 0 :: expandUnit m bs (i + 1) k

/-- Bytes `lo` to `hi - 1` of the expansion of the units from unit `j` on, which stand at `va`; `k` units are left. A unit counts as read
by the step that expands its first byte. -/
def State.expandFrom (s : State) (c : Cmd) (va j lo hi : Nat) : Nat → Except (Cause × Nat) (List Byte × State × Cmd)
  | 0 => .ok (List.replicate (hi - max lo (512 * j)) 0, s, c)
  | k + 1 =>
    if hi ≤ 512 * j then .ok ([], s, c)
    else
      let fresh := decide (lo ≤ 512 * j)
      match s.engReadIf c va 64 fresh with
      | .error e => .error e
      | .ok (m, t, c1) =>
        let n := mapCount m
        let next := fun (t : State) (c : Cmd) => State.expandFrom t c (va + 64 + n) (j + 1) lo hi k
        if 512 * (j + 1) ≤ lo then next t c1
        else
          match t.engReadIf c1 (va + 64) n fresh with
          | .error e => .error e
          | .ok (bs, u, c2) =>
            let x := ((expandUnit m bs 0 512).take (hi - 512 * j)).drop (lo - 512 * j)
            match next u c2 with
            | .error e => .error e
            | .ok (y, v, c3) => .ok (x ++ y, v, c3)

/-- Source of a run that expands the stream at `src`: bytes beyond LENGTH are zero. -/
def expandSource (src : Nat) : Source := fun s c k n =>
  match s.engReadIf c src 16 false with
  | .error e => .error e
  | .ok (h, t, c1) =>
    let (units, len) := bmcHeader h
    let hi := min (k + n) (max k len)
    match t.expandFrom c1 (src + 16) 0 k hi units with
    | .error e => .error e
    | .ok (b, u, c2) => .ok (b ++ List.replicate (n - b.length) 0, u, c2)

/-- VA of the bitmap of unit `j`, `k` units on from the one at `va`. -/
def State.unitVa (s : State) (c : Cmd) (va : Nat) : Nat → Except (Cause × Nat) (Nat × State × Cmd)
  | 0 => .ok (va, s, c)
  | k + 1 =>
    match s.engReadIf c va 64 false with
    | .error e => .error e
    | .ok (m, t, c1) => State.unitVa t c1 (va + 64 + mapCount m) k

/-- SHORT and LONG of an expansion of `n` bytes from the stream at `src`. -/
def State.bmcFlags (s : State) (c : Cmd) (src n : Nat) : Except (Cause × Nat) ((Bool × Bool) × State × Cmd) :=
  match s.engRead c src 16 with
  | .error e => .error e
  | .ok (h, t, c1) =>
    let (units, len) := bmcHeader h
    let need := (len + 511) / 512
    let short := decide (units < need) || decide (len < n)
    if need < units then .ok ((short, true), t, c1)
    else if need = 0 ∨ units < need then .ok ((short, false), t, c1)
    else
      match t.unitVa c1 (src + 16) (need - 1) with
      | .error e => .error e
      | .ok (va, u, c2) =>
        match u.engReadIf c2 va 64 false with
        | .error e => .error e
        | .ok (m, v, c3) =>
          .ok ((short, (upFrom 0 512).any fun i => mapBit m i && decide (len ≤ 512 * (need - 1) + i)), v, c3)

/-- An expansion of `n` bytes from the stream at `src`, under CODEC `codec`, begins: SHORT and LONG, which fault under BMC-STRICT. -/
def State.bmcStart (s : State) (c : Cmd) (src n codec : Nat) : Unit' :=
  match readFault (s.bmcFlags c src n) with
  | .error e => .error e
  | .ok ((short, long), t, c1) =>
    if codec = 2 ∧ short then .error (cCODEC 0, src, false)
    else if codec = 2 ∧ long then .error (cCODEC 1, src, false)
    else .ok (t, { c1 with short := c1.short || short, long := c1.long || long })

/-- The stored bytes of a unit that holds expanded bytes `b`, at most 512. -/
def packUnit (b : List Byte) : List Byte :=
  let on := fun (i : Nat) => b.getD i 0 != 0
  ((upFrom 0 64).map fun m => BitVec.ofNat 8 ((upFrom 0 8).foldl (fun a i => a + if on (8 * m + i) then 2 ^ i else 0) 0))
    ++ b.filter (· != 0)

/-! ## Conversions (R194, R289, R102, R107) -/

/-- The value of a source element: with its block header for e2m1x. -/
def srcVal (t : Ty) (header pat : Nat) : FVal :=
  match t with
  | .e2m1x => e2m1xVal header pat
  | _ =>
    match fmtOf? t with
    | some f => f.decode pat
    | none => .fin (decide (intOf t pat < 0)) (intOf t pat).natAbs 0

/-- One element into a type that is not e2m1x. -/
def copyElem (ts td : Ty) (env : Env) (header pat : Nat) : Nat × Flags :=
  match ts with
  | .e2m1x =>
    (match fmtOf? td with
      | some g => g.ofVal env (e2m1xVal header pat)
      | none => floatToInt td env.rnd (e2m1xVal header pat))
  | _ => convert ts td env pat

/-- Pack 4-bit or wider patterns into bytes. -/
def packPats (w : Nat) : List Nat → List Byte
  | [] => []
  | x :: t =>
    if w = 4 then
      match t with
      | [] => [BitVec.ofNat 8 (x % 16)]
      | y :: t' => BitVec.ofNat 8 (x % 16 + 16 * (y % 16)) :: packPats w t'
    else leBytes x (w / 8) ++ packPats w t

/-- Step the lanes of `n` result elements from element `j` on (R107): their states, and the lanes after them. -/
def stepFrom (seed : BitVec 16) (lanes : Tbl (BitVec 16)) (j : Nat) : Nat → List Nat × Tbl (BitVec 16)
  | 0 => ([], lanes)
  | n + 1 =>
    let r := laneStep seed lanes (j % 64)
    let q := stepFrom seed r.2 (j + 1) n
    (r.1.toNat :: q.1, q.2)

/-- A span of a copy: one run of destination bytes and where they come from. -/
structure SpanOf where
  /-- the source VA, where the bytes are read from memory, and the CODEC of its page -/
  src : Option Nat
  codec : Nat
  base : Source
  dst : Nat
  len : Nat
  conv : Option (Ty × Ty)
  /-- the command's number of the span's first element -/
  first : Nat

/-- How far a span is: destination bytes (of a compressed one its units, and 1 for the header), the bytes stored of a compressed one, and
those of the unit under way. -/
structure Span where
  k : Nat
  pos : Nat
  part : Nat
  deriving DecidableEq, Repr

/-- The header of the block of element `e` of a source in e2m1x at `src` (log 49, DESIGN CHOICE). -/
def State.sourceHeader (s : State) (c : Cmd) (src e : Nat) : Nat :=
  let va := src + e / 32 * 16
  match winOf va with
  | .self off => leNat (s.scratchRead s.coreNo (headerAt c.bfmt off) 2)
  | _ => (Config.sourceHeader va).toNat

/-- Where a conversion of `n` destination bytes at `va`, from element `e0` of a span's source on, meets an uncorrectable error in the core's own
banks beside its source bytes: its VA, and whether a write meets it (R355). -/
def State.convFlaw (s : State) (c : Cmd) (x : SpanOf) (ts td : Ty) (e0 va n : Nat) : Option (Nat × Bool) :=
  let at_ := fun (v : Nat) (f : Nat → Bool) => match winOf v with
    | .self off => f off
    | _ => false
  let src := x.src.getD 0 + e0 / 32 * 16
  if ts == .e2m1x && at_ src (fun off => s.flawedOwn (headerAt c.bfmt off) 2) then some (src, false)
  else if at_ va (fun off => s.flawedOwn off n || (td == .e2m1x && s.flawedOwn (headerAt c.bfmt off) 2)) then some (va, true)
  else none

/-- Convert the `m` elements from element `e0` of a span on; `rd` reads the bytes of its source. -/
def State.convElems (s : State) (c : Cmd) (x : SpanOf) (rd : Source) (ts td : Ty) (e0 m : Nat) : Except (Cause × Nat × Bool) (Nat × State × Cmd) :=
  let odd := if ts.bits = 4 then e0 % 2 else 0
  match readFault (rd s c (e0 * ts.bits / 8) (((odd + m) * ts.bits + 7) / 8)) with
  | .error e => .error e
  | .ok (raw, t, c1) =>
    let header := if ts = .e2m1x then t.sourceHeader c (x.src.getD 0) e0 else 0
    let pats := ((elements ts raw).drop odd).take m
    let va := x.dst + e0 * td.bits / 8
    match t.convFlaw c x ts td e0 va ((m * td.bits + 7) / 8) with
    | some y => .error (cUNCORR 0, y)
    | none =>
    match winOf va with
    | .self off =>
      let bf := c.bfmt[(Fin.ofNat 16 (off / 2 ^ 18) : Fin 16)]
      let rnd := bfRnd bf
      let (vs, lanes) := if rnd = .sr then stepFrom c.srseed c1.lanes (x.first + e0) m else (List.replicate m 0, c1.lanes)
      let out : List Nat × Flags × State :=
        match td with
        | .e2m1x =>
          let r := e2m1xBlock rnd (field bf.toNat 12 10) (pats.map (srcVal ts header)) vs
          (r.2.1, r.2.2, t.engOwn (headerAt c.bfmt off) 0 none (leBytes r.1 2))
        | _ =>
          let r := (pats.zip vs).map fun y => copyElem ts td { rnd := rnd, sat := bf.getLsbD 15, ftz := false, v := y.2 } header y.1
          (r.map Prod.fst, (r.map Prod.snd).foldl (· ||| ·) 0#6, t)
      let b := packPats td.bits out.1
      .ok (b.length, out.2.2.engOwn off 0 none b,
        { c1 with off := c1.off + b.length, lanes := lanes, flags := c1.flags ||| out.2.1 })
    | _ => .error (cPERM 1, va, true)

/-- Elements that begin from `va` on to the end of its bank. -/
def bankElems (bits va : Nat) : Nat := ((2 ^ 18 - va % 2 ^ 18) * 8 + bits - 1) / bits

/-- The next step of a span that converts: up to 32 elements of one block and of one bank, whose RND and SAT they take; where their source meets a fault, the elements of one byte. A
block of e2m1x is written whole. -/
def State.convStep (s : State) (c : Cmd) (x : SpanOf) (rd : Source) (ts td : Ty) (k : Nat) : Except (Cause × Nat × Bool) (Nat × State × Cmd) :=
  let e0 := k * 8 / td.bits
  match s.convElems c x rd ts td e0 (min (min (32 - e0 % 32) ((x.len - k) * 8 / td.bits)) (bankElems td.bits (x.dst + k))) with
  | .ok r => .ok r
  | .error e => if td = .e2m1x ∨ e.1 = cWAITS then .error e else s.convElems c x rd ts td e0 (if td.bits = 4 then 2 else 1)

/-! ## Exponent planes (R195) -/

/-- floor(log2 amax) - 10 of a run, with the two special entries. -/
def planeEntry (xs : List FVal) : Nat :=
  if xs.any fun x => x.isNan || x.isInf then 0x7FFF
  else
    let es := xs.filterMap fun x => match x with
      | .fin _ mag ex => if mag = 0 then none else some (log2Mag mag ex)
      | _ => none
    match es with
    | [] => 0xFF60
    | e :: t => patOf 16 (t.foldl max e - 10)

/-- The value of element `e` of bank `k` under its format. -/
def State.bankElem (s : State) (bfmt : Vector Word 16) (k : Fin 16) (t : Ty) (e : Nat) : FVal :=
  let off := k.val * 2 ^ 18 + e * t.bits / 8
  let raw := leNat (s.scratchRead s.coreNo off ((t.bits + 7) / 8))
  let pat := if t.bits = 4 then (if e % 2 = 0 then raw % 16 else raw / 16) else raw
  srcVal t (leNat (s.scratchRead s.coreNo (headerAt bfmt off) 2)) pat

/-- The scratchpad offset of the first plane entry that a copy's end recomputes and that meets an uncorrectable error, in the entry or in an
element of its run (R355). -/
def State.planeFlaw (s : State) (c : Cmd) : Option Nat :=
  if s.flaws.isEmpty then none
  else
    let l := if c.isCopy then c.ownWrites s.coreNo s.bank.map else []
    (List.finRange 16).findSome? fun k =>
      ((planeRuns c.bfmt k l).find? fun e => s.flawedOwn e.1 2 || e.2.2.any fun i =>
        s.flawedOwn (k.val * 2 ^ 18 + i * e.2.1.bits / 8) ((e.2.1.bits + 7) / 8)).map Prod.fst

/-- Recompute the plane entries of every run that a copy's writes touched. -/
def State.planes (s : State) (c : Cmd) : State :=
  let l := if c.isCopy then c.ownWrites s.coreNo s.bank.map else []
  (List.finRange 16).foldl (fun s k =>
    let entries := (planeRuns c.bfmt k l).map fun e => (e.1, planeEntry (e.2.2.map (s.bankElem c.bfmt k e.2.1)))
    entries.foldl (fun s x => s.engOwn x.1 0 none (leBytes x.2 2)) s) s

/-- The command has written everything: planes, then COUNT and the barrier's bytes; its distant bytes are counted (R207). -/
def State.complete (s : State) (c : Cmd) (count bytes : Nat) : Unit' :=
  match s.planeFlaw c with
  | some o => .error (cUNCORR 0, selfBase + o, true)
  | none => .ok ((s.planes c).addHot (2 * hotTag c.instr) c.far, { c with done := true, count := count, bytes := bytes, far := 0 })

/-- The barrier count of a copy that moves bytes (R283). -/
def Cmd.whole (c : Cmd) : Nat :=
  match c.instr with
  | .cpy _ _ _ _ _ _ _ | .cpys _ _ _ _ _ _ _ | .cfill _ _ _ _ _ => (c.row 0).2.2 * c.rows
  | .cpyt esz _ _ _ _ _ => c.val 2 * c.beside 0 * sizeBytes esz
  | _ => 0

/-- The command completes with BADCMD and has written nothing; its barrier takes the bytes that R283 names. -/
def Cmd.bad (c : Cmd) : Cmd := { c with status := 4, done := true, checked := true, count := 0, bytes := c.whole }

/-- The same after reads, whose distant bytes count (R207). -/
def State.endBad (s : State) (c : Cmd) : Unit' := .ok (s.addHot (2 * hotTag c.instr) c.far, { c.bad with far := 0 })

/-! ## Spans -/

/-- Whether a range of an own bank spans banks of different FMT (R289). -/
def mixedFmt (bfmt : Vector Word 16) (va n : Nat) : Bool :=
  match bankFmt bfmt va with
  | none => false
  | some (_, t) => (upFrom 0 17).any fun i =>
      let v := (va / 2 ^ 18 + i) * 2 ^ 18
      decide (va < v ∧ v < va + n) && (match bankFmt bfmt v with
        | some (_, t') => t' != t
        | none => false)

/-- Whether a side of a copy in an own bank is not a whole number of its elements, or of 32-element blocks for e2m1x (R289). -/
def splitElem (bfmt : Vector Word 16) (va n : Nat) : Bool :=
  match bankFmt bfmt va with
  | some (_, .e2m1x) => va % 16 != 0 || n % 16 != 0
  | some (_, t) => (n * 8) % t.bits != 0
  | none => false

/-- Whether a source of a copy that is in BMC pages, to a destination that is not, is misaligned (R206). -/
def State.bmcSplit (s : State) (c : Cmd) (a d : Nat) : Bool := a % 16 != 0 && s.codecOf c a false != 0 && s.codecOf c d true == 0

/-- Whether a row completes with BADCMD (R289, R206). -/
def State.rowBad (s : State) (c : Cmd) (row : Nat × Nat × Nat) : Bool :=
  let (a, d, n) := row
  let conv := convTypes c.bfmt a d c.srcType
  let sn := srcBytes conv n
  let split := fun (t : Ty) => (sn * 8) % t.bits != 0 || (t == .e2m1x && sn % 16 != 0)
  let e2 := fun (va k : Nat) => (match bankFmt c.bfmt va with
    | some (_, .e2m1x) => va % 16 != 0 || k % 16 != 0
    | _ => false)
  n != 0 && (e2 d n || splitElem c.bfmt a sn || mixedFmt c.bfmt d n || mixedFmt c.bfmt a sn
    || (match conv with
      | some (ts, td) => (n * 8) % td.bits != 0 || split ts
      | none => (bankFmt c.bfmt d).isSome && c.srcType.any split)) || s.bmcSplit c a d

/-- A pattern of CFILL as a source. -/
def fillSource (pw pattern : Nat) : Source := fun s c k n =>
  .ok ((upFrom k n).map fun i => BitVec.ofNat 8 (pattern / 2 ^ (8 * (i % pw))), s, c)

/-- Bytes as they stand at `src`. -/
def plainSource (src : Nat) : Source := fun s c k n => s.engRead c (src + k) n

/-- One step of a compressed span: the header first, then unit after unit; where a store meets a fault, one byte. -/
def State.packStep (s : State) (c : Cmd) (x : SpanOf) (p : Span) : Except (Cause × Nat × Bool) (Span × State × Cmd) :=
  let unit := fun (n : Nat) (b : List Byte) (t : State) (c1 : Cmd) =>
    (match writeFault (t.engWrite c1 (x.dst + p.pos) ((b.drop p.part).take n) false) with
      | .error e => .error e
      | .ok (u, c2) =>
        .ok (if p.part + n = b.length then { k := p.k + 1, pos := p.pos + n, part := 0 } else { p with pos := p.pos + n, part := p.part + n },
          u, { c2 with off := c2.off + n }) : Except (Cause × Nat × Bool) (Span × State × Cmd))
  let put := fun (b : List Byte) (t : State) (c1 : Cmd) =>
    (match unit (b.length - p.part) b t c1 with
      | .ok r => .ok r
      | .error e => if e.1 = cWAITS then .error e else unit 1 b t c1 : Except (Cause × Nat × Bool) (Span × State × Cmd))
  if p.k = 0 then put (leBytes 0x31434D42 4 ++ leBytes ((x.len + 511) / 512) 4 ++ leBytes x.len 8) s c
  else
    match readFault (x.base s c (512 * (p.k - 1)) (min 512 (x.len - 512 * (p.k - 1)))) with
    | .error e => .error e
    | .ok (b, t, c1) => put (packUnit b) t (if p.part = 0 then c1 else { c1 with far := c.far })

/-- The next step of a span; none for what is left of one that is written. A source in BMC pages is expanded, a destination in BMC pages
is compressed, and between two the stored bytes move (R206). -/
def State.spanStep (s : State) (c : Cmd) (x : SpanOf) (p : Span) : Except (Cause × Nat × Bool) (Option Span × State × Cmd) :=
  let dc := if x.conv.isSome then 0 else s.codecOf c x.dst true
  if dc ≠ 0 ∧ x.codec = 0 then
    if p.k = (x.len + 511) / 512 + 1 then .ok (none, s, c)
    else
      match s.packStep c x p with
      | .error e => .error e
      | .ok (p', t, c') => .ok (some p', t, c')
  else
    let stream := if x.codec ≠ 0 ∧ dc = 0 then x.src else none
    let begun : Unit' := match stream with
      | some a => if p.k = 0 then s.bmcStart c a (srcBytes x.conv x.len) x.codec else .ok (s, c)
      | none => .ok (s, c)
    if p.k = x.len then
      match (if x.len = 0 then begun else .ok (s, c)) with
      | .error e => .error e
      | .ok (t, c') => .ok (none, t, c')
    else
      match begun with
      | .error e => .error e
      | .ok (t, c1) =>
        let rd : Source := match stream with
          | some a => expandSource a
          | none => x.base
        let step := match x.conv with
          | some (ts, td) => t.convStep c1 x rd ts td p.k
          | none => t.runStep c1 x.dst x.len p.k rd
        match step with
        | .error e => .error e
        | .ok (m, u, c2) => .ok (some { p with k := p.k + m }, u, c2)

/-- The place in a span that `walk` holds from number `i` on. -/
def Cmd.spanAt (c : Cmd) (i : Nat) : Span := { k := c.walk.getD i 0, pos := c.walk.getD (i + 1) 0, part := c.walk.getD (i + 2) 0 }

def Span.nums (p : Span) : List Nat := [p.k, p.pos, p.part]

/-! ## CPY, CPYS, CPYT, CFILL -/

/-- Row `r` of CPY, CPYS or CFILL as a span. -/
def State.rowSpan (s : State) (c : Cmd) (r : Nat) : SpanOf :=
  let (a, d, n) := c.row r
  match c.instr with
  | .cfill pw _ _ _ _ => { src := none, codec := 0, base := fillSource (sizeBytes pw) (c.val 2), dst := d, len := n, conv := none, first := 0 }
  | _ =>
    let conv := convTypes c.bfmt a d c.srcType
    { src := some a, codec := s.codecOf c a false, base := plainSource a, dst := d, len := n, conv := conv
      first := match conv with
        | some (_, td) => r * (n * 8 / td.bits)
        | none => 0 }

/-- One step of a row of CPY, CPYS or CFILL. `walk` is the row and the place in its span. -/
def State.rowStep (s : State) (c : Cmd) : Unit' :=
  let r := c.walk.getD 0 0
  if c.rows ≤ r then s.complete c (c.off - c.lost) c.whole
  else
    match s.spanStep c (s.rowSpan c r) (c.spanAt 1) with
    | .error e => .error e
    | .ok (some p, t, c') => .ok (t, { c' with walk := r :: p.nums })
    | .ok (none, t, c') => .ok (t, { c' with walk := [r + 1, 0, 0, 0] })

/-- Source row `r` of CPYT: as it stands, or expanded (log 48, DEDUCED). -/
def State.tileSource (s : State) (c : Cmd) (r : Nat) : Source :=
  let a := c.val 1 + r * (c.val 3 % 2 ^ 32)
  if s.codecOf c a false = 0 then plainSource a else expandSource a

/-- Bytes of the source elements of destination row `j` of CPYT, rows `r` to `r + m - 1`. -/
def State.tileRow (s : State) (c : Cmd) (e j r : Nat) : Nat → Except (Cause × Nat) (List Byte × State × Cmd)
  | 0 => .ok ([], s, c)
  | m + 1 =>
    match s.tileSource c r s c (j * e) e with
    | .error x => .error x
    | .ok (b, t, c1) =>
      match State.tileRow t c1 e j (r + 1) m with
      | .error x => .error x
      | .ok (b', u, c2) => .ok (b ++ b', u, c2)

/-- Write the destination rows `j` to `j + k - 1` of a tile, each as one run. -/
def State.tileRows (s : State) (c : Cmd) (e r m j : Nat) : Nat → Unit'
  | 0 => .ok (s, c)
  | k + 1 =>
    match readFault (s.tileRow c e j r m) with
    | .error x => .error x
    | .ok (b, t, c1) =>
      match writeFault (t.engWrite c1 (c.dest.toNat + j * (c.val 3 / 2 ^ 32) + r * e) b true) with
      | .error x => .error x
      | .ok (u, c2) => State.tileRows u c2 e r m (j + 1) k

/-- The flags of the streams of source rows `r` to `r + m - 1` of CPYT. -/
def State.tileStart (s : State) (c : Cmd) (e r : Nat) : Nat → Unit'
  | 0 => .ok (s, c)
  | m + 1 =>
    let a := c.val 1 + r * (c.val 3 % 2 ^ 32)
    let codec := s.codecOf c a false
    match (if codec = 0 then .ok (s, c) else s.bmcStart c a (c.beside 0 * e) codec) with
    | .error x => .error x
    | .ok (t, c1) => State.tileStart t c1 e (r + 1) m

/-- The digests of the blocks that lie within the destination rows of a tile that has been written element by element (R214). -/
def State.tileClose (s : State) (c : Cmd) (e r m j n : Nat) : State :=
  (upFrom j n).foldl (fun s j =>
    let d := c.dest.toNat + j * (c.val 3 / 2 ^ 32) + r * e
    (upFrom 0 (m * e / 64 + 1)).foldl (fun s i => match s.blockIn c d (m * e) (min (d + 64 * i) (d + m * e - 1)) with
      | some (b, g) => s.closeBlock (some (b, g)) (b + g)
      | none => s) s) s

/-- One step of CPYT into BMC pages: destination row after row, each a stream (log 48, DEDUCED). `walk` is the row and the place in it. -/
def State.columnStep (s : State) (c : Cmd) (e : Nat) : Unit' :=
  let rows := c.val 2
  let j := c.walk.getD 0 0
  let base : Source := fun s c k n =>
    match s.tileRow c e j (k / e) ((k % e + n + e - 1) / e) with
    | .ok (b, t, c') => .ok ((b.drop (k % e)).take n, t, c')
    | .error x => .error x
  if c.beside 0 ≤ j then s.complete c (c.off - c.lost) c.whole
  else
    match (if c.walk = [] then s.tileStart c e 0 rows else .ok (s, c)) with
    | .error x => .error x
    | .ok (t, c1) =>
      match t.spanStep c1 { src := none, codec := 0, base := base, dst := c.dest.toNat + j * (c.val 3 / 2 ^ 32), len := rows * e, conv := none
                            first := 0 } (c.spanAt 1) with
      | .error x => .error x
      | .ok (some p, u, c') => .ok (u, { c' with walk := j :: p.nums })
      | .ok (none, u, c') => .ok (u, { c' with walk := [j + 1, 0, 0, 0] })

/-- One step of CPYT: a whole tile, or element by element where the tile meets a fault (R291, R298). `walk` is the tile's
first row and column, and the elements of it that are written (log 47, DEDUCED). -/
def State.tileStep (s : State) (c : Cmd) (e : Nat) : Unit' :=
  let rows := c.val 2
  let cols := c.beside 0
  let r := c.walk.getD 0 0
  let j := c.walk.getD 1 0
  let i := c.walk.getD 2 0
  if rows ≤ r then s.complete c (c.off - c.lost) c.whole
  else if cols ≤ j then .ok (s, { c with walk := [r + 32, 0, 0] })
  else
    let nr := min 32 (rows - r)
    let nc := min 32 (cols - j)
    let one := fun (s : State) (c : Cmd) =>
      let r' := r + i / nc
      let j' := j + i % nc
      (match s.moveBytes c (c.dest.toNat + j' * (c.val 3 / 2 ^ 32) + r' * e) 0 e (fun s c _ n => s.tileSource c r' s c (j' * e) n) false with
        | .error x => .error x
        | .ok (t, c') =>
          if i + 1 = nr * nc then .ok (t.tileClose c e r nr j nc, { c' with walk := [r, j + 32, 0] })
          else .ok (t, { c' with walk := [r, j, i + 1] }) : Unit')
    if i = 0 then
      match (if j = 0 then s.tileStart c e r nr else .ok (s, c)) with
      | .error x => .error x
      | .ok (s, c) =>
        match s.tileRows c e r nr j nc with
        | .ok (t, c') => .ok (t, { c' with off := c'.off + nr * nc * e, walk := [r, j + 32, 0] })
        | .error x => if x.1 = cWAITS then .error x else one s c
    else one s c

/-! ## CFETCHIF and KVFETCH -/

/-- The predicate of CFETCHIF on a class and the ZERO tag. -/
def predHolds (p : Pred) (cl : Nat) (zero : Bool) : Bool :=
  match p with
  | .nbelow => cl != 1
  | .nabove => cl != 2
  | .strad => cl == 3
  | .nzero => !zero

/-- The first byte of a range that fails R241 or R173, with the cause. -/
def State.firstUndeclared (s : State) (va n : Nat) (store : Bool) : Option (Cause × Nat) :=
  match s.declared s.iter va n store with
  | none => none
  | some e =>
    match (upFrom 0 n).find? fun i => (s.declared s.iter (va + i) 1 store).isSome with
    | some i => some ((s.declared s.iter (va + i) 1 store).getD e, va + i)
    | none => some (e, va)

/-- The CODEC under which CFETCHIF expands its block, which begins at `start`: 0 where it does not (R206). -/
def State.fetchCodec (s : State) (c : Cmd) (start : Nat) : Nat :=
  match winOf start with
  | .mapped =>
    if s.codecOf c c.dest.toNat true ≠ 0 then 0
    else match s.xlate s.space start true false with
      | .ok (p, _) => p.codec
      | .error _ => 0
  | _ => 0

/-- The home step of CFETCHIF on a block in memory: class, predicate and block in one step. -/
def State.fetchBlock (s : State) (c : Cmd) (p : Pred) (a : Nat) : Unit' :=
  match s.xlate s.space a true false with
  | .error e => .error (e, a, false)
  | .ok (at_, t) =>
    let blk := t.digestOf at_
    let g := match blk with
      | some (_, e, _) => e.grain
      | none => 64
    let start : Place := { at_ with pa := at_.pa / g * g }
    match t.firstUndeclared (a / g * g) g false with
    | some (e, v) => .error (e, v, false)
    | none =>
      match t.engRefusal c start g with
      | some why => .error (refusalCause why, a / g * g, false)
      | none =>
        if blk.any fun b => b.2.2.bad then .error (cUNCORR 0, a / g * g, false)
        else
          let (cl, zero) := match blk with
            | some (_, e, d) => (classify e d e.ty (BitVec.ofNat 64 (c.val 2)), d.tag.getLsbD 0 && d.tag.getLsbD 3)
            | none => (0, false)
          if !predHolds p cl zero then .ok (t, { c with walk := [0], bytes := g })
          else
            match t.goesOut start g with
            | none => .error (cWAITS, a / g * g, false)
            | some u =>
              let c := if t.fetchCodec c (a / g * g) = 0 then c.touch start g else { c.touch start g with far := c.far }
              .ok (u, { c with walk := [0], bytes := g, held := true, data := (u.homeRead start g).map BitVec.toNat })

/-- A step of CFETCHIF: the home step, then the block's bytes go out as a run (log 50, DEDUCED). `walk` is the place in it. -/
def State.fetchStep (s : State) (c : Cmd) (p : Pred) : Unit' :=
  let a := c.val 1
  if c.walk = [] then
    match winOf a with
    | .mapped => s.fetchBlock c p a
    | _ =>
      if predHolds p 0 false then
        match readFault (s.engRead c (a / 64 * 64) 64) with
        | .error e => .error e
        | .ok (b, t, c1) => .ok (t, { c1 with walk := [0], bytes := 64, held := true, data := b.map BitVec.toNat })
      else .ok (s, { c with walk := [0], bytes := 64 })
  else if !c.held then s.complete c 0 c.bytes
  else
    let base : Source := fun s c k n => .ok (((c.data.drop k).take n).map (BitVec.ofNat 8), s, c)
    let start := a / c.bytes * c.bytes
    let codec := s.fetchCodec c start
    match s.spanStep c { src := if codec = 0 then none else some start, codec := if codec = 0 then s.codecOf c a false else codec, base := base, dst := c.dest.toNat, len := c.bytes, conv := none, first := 0 }
        (c.spanAt 0) with
    | .error e => .error e
    | .ok (some p, t, c1) => .ok (t, { c1 with walk := p.nums })
    | .ok (none, t, c1) => t.complete c1 c1.bytes c1.bytes

/-- A block-table entry through the cache of the die (R296): the value, with the cache and the capture after it. -/
def State.blockEntry (s : State) (c : Cmd) (va : Nat) : Except (Cause × Nat) (Nat × State × Cmd) :=
  let die := s.coreNo / 96
  let keep := fun (t : State) (v : Nat) =>
    let rest := t.btc.filter fun e => !(e.1 == die && e.2.1 == c.space && e.2.2.1 == va)
    let mine := (rest.filter fun e => e.1 == die).take 4095
    { t with btc := (die, c.space, va, BitVec.ofNat 64 v) :: (mine ++ rest.filter fun e => e.1 != die) }
  let note := fun (c : Cmd) => { c with blocks := va :: c.blocks }
  match s.btc.find? fun e => e.1 == die && e.2.1 == c.space && e.2.2.1 == va with
  | some (_, _, _, v) => .ok (v.toNat, keep s v.toNat, note c)
  | none =>
    match s.engNat c va 8 true with
    | .error e => .error e
    | .ok (v, t, c1) => .ok (v, keep t v, note c1)

/-- The entry and bitmap of block `blk`, which stand in `cur` when the position before lies in the same block. -/
def State.kvBlock (s : State) (c : Cmd) (btva sbva blk : Nat) (cur : Option (Nat × Nat × Nat)) :
    Except (Cause × Nat) ((Nat × Nat) × State × Cmd) :=
  match cur.filter fun x => x.1 == blk with
  | some (_, e, m) => .ok ((e, m), s, c)
  | none =>
    match s.blockEntry c (btva + 8 * blk) with
    | .error x => .error x
    | .ok (e, t, c1) =>
      if e / 2 ^ 63 = 0 then .ok ((e, 0), t, c1)
      else
        match t.engNat c1 (sbva + 8 * blk) 8 true with
        | .error x => .error x
        | .ok (m, u, c2) => .ok ((e, m), u, c2)

/-- Collect the source VAs of the surviving tokens at positions `p` to `p + n - 1`; none where an entry is bad. -/
def State.kvTokens (s : State) (c : Cmd) (btva sbva tokb nblk p : Nat) :
    Nat → List Nat → Bool → Option (Nat × Nat × Nat) → Except (Cause × Nat) (Option (List Nat × Bool) × State × Cmd)
  | 0, acc, hole, _ => .ok (some (acc.reverse, hole), s, c)
  | n + 1, acc, hole, cur =>
    let blk := p / 64
    if nblk ≤ blk then State.kvTokens s c btva sbva tokb nblk (p + 1) n acc true cur
    else
      match s.kvBlock c btva sbva blk cur with
      | .error x => .error x
      | .ok ((e, m), t, c1) =>
        let here := some (blk, e, m)
        if field e 62 56 ≠ 0 ∨ (e / 2 ^ 63 = 1 ∧ e % 16 ≠ 0) then .ok (none, t, c1)
        else if e / 2 ^ 63 = 0 then State.kvTokens t c1 btva sbva tokb nblk (p + 1) n acc true here
        else if m / 2 ^ (p % 64) % 2 = 1 then
          let slot := ((upFrom 0 (p % 64)).filter fun i => m / 2 ^ i % 2 == 1).length
          State.kvTokens t c1 btva sbva tokb nblk (p + 1) n ((e % 2 ^ 56 + slot * tokb) :: acc) hole here
        else State.kvTokens t c1 btva sbva tokb nblk (p + 1) n acc hole here

/-- A sequence descriptor (R294): BTVA, SBVA, TOKB, NBLK and the reserved bytes. -/
def kvFields (b : List Byte) : Nat × Nat × Nat × Nat × Nat :=
  let f := fun (o n : Nat) => leNat ((b.drop o).take n)
  (f 0 8, f 8 8, f 16 4, f 20 4, f 24 8)

/-- What KVFETCH reads at acceptance (R295). -/
def State.kvPrepare (s : State) (c : Cmd) : Unit' :=
  match readFault (s.engRead c (c.val 1) 32) with
  | .error e => .error e
  | .ok (b, t, c1) =>
    let (btva, sbva, tokb, nblk, rest) := kvFields b
    let n := c.val 3
    if rest ≠ 0 ∨ 2 ^ 56 ≤ btva ∨ btva % 8 ≠ 0 ∨ 2 ^ 56 ≤ sbva ∨ sbva % 8 ≠ 0 ∨ tokb % 16 ≠ 0 ∨ tokb < 16 ∨ 65536 < tokb ∨ 2 ^ 24 < nblk
        ∨ ¬ wellFormedRange c.dest.toNat (n * tokb)
        ∨ (c.buffer.isSome ∧ (s.bank.cb.toList.getD (c.val 0) CBuf.zero).slot < n * tokb) then t.endBad c1
    else
      match readFault (t.kvTokens c1 btva sbva tokb nblk (c.val 2) n [] false none) with
      | .error e => .error e
      | .ok (none, u, c2) => u.endBad c2
      | .ok (some (l, hole), u, c2) =>
        .ok (u, { c2 with checked := true, data := l, hole := hole, walk := [0, 0, 0, 0, tokb], count := l.length, bytes := l.length * tokb })

/-- One step of KVFETCH: `walk` is the token, the place in it, and TOKB. -/
def State.kvStep (s : State) (c : Cmd) : Unit' :=
  let i := c.walk.getD 0 0
  let tokb := c.walk.getD 4 0
  match c.data[i]? with
  | none => s.complete c c.data.length (c.data.length * tokb)
  | some src =>
    match s.spanStep c { src := some src, codec := s.codecOf c src false, base := plainSource src, dst := c.dest.toNat + i * tokb, len := tokb
                         conv := none, first := 0 } (c.spanAt 1) with
    | .error e => .error e
    | .ok (some p, t, c1) => .ok (t, { c1 with walk := i :: p.nums ++ [tokb] })
    | .ok (none, t, c1) => .ok (t, { c1 with walk := [i + 1, 0, 0, 0, tokb] })

/-! ## BTINV -/

/-- Whether an entry of the block-table cache lies in the range of a BTINV. -/
def btCovers (space a n : Nat) (sp va : Nat) : Bool := sp == space && (n == 0 || decide (a ≤ va ∧ va < a + 8 * n))

/-- BTINV invalidates on every die, at its acceptance; `data` names the accepted KVFETCHs of the device that hold an entry which it
invalidates (R296). -/
def State.btPrepare (s : State) (c : Cmd) : Unit' :=
  let hit := fun (e : Nat × Nat × Nat × Word) => btCovers c.space (c.val 1) (c.val 2) e.2.1 e.2.2.1
  let users := s.everyCmd.filter fun k => k.accepted && k.blocks.any fun va => btCovers c.space (c.val 1) (c.val 2) k.space va
  .ok ({ s with btc := s.btc.filter fun e => !hit e }, { c with checked := true, count := (s.btc.filter hit).length, data := users.map Cmd.ord })

/-- Whether one of the KVFETCHs that BTINV waits for is not reported (R243). -/
def State.btHeld (s : State) (c : Cmd) : Bool := s.everyCmd.any fun k => c.data.contains k.ord

def State.btStep (s : State) (c : Cmd) : Unit' := if s.btHeld c then .ok (s, c) else .ok (s, { c with done := true })

/-! ## Index commands (R299 to R303) -/

/-- Read the indices of GATH, SCAT and SCADD (R299). -/
def State.readIndices (s : State) (c : Cmd) : Unit' :=
  match readFault (s.engRead c (c.val 2) (4 * c.val 3)) with
  | .error e => .error e
  | .ok (b, t, c1) => .ok (t, { c1 with checked := true, data := elements .uint32 b })

/-- The first index of GATH, SCAT or SCADD that reaches the bound: its position and value. -/
def Cmd.badIndex (c : Cmd) : Option (Nat × Nat) :=
  match c.instr with
  | .gath _ _ _ _ _ _ | .scat _ _ _ _ _ _ | .scadd _ _ _ _ _ _ =>
    (c.data.zipIdx.find? fun p => decide (c.beside 2 ≤ p.1)).map fun p => (p.2, p.1)
  | _ => none

/-- Write what is left of an element of `e` bytes at `dst`, of which `part` are written: all of it, or where that meets a fault one byte, so that
every byte before the fault is written (R298, R241). How many bytes of the element are written then. -/
def State.putElem (s : State) (c : Cmd) (src : Source) (dst e part : Nat) : Except (Cause × Nat × Bool) (Nat × State × Cmd) :=
  let move := fun (n : Nat) =>
    (match readFault (src s c part n) with
      | .error y => .error y
      | .ok (b, t, c1) =>
        match writeFault (t.engWrite c1 (dst + part) b false) with
        | .error y => .error y
        | .ok (u, c2) => .ok (part + n, u, { c2 with off := c2.off + n }) : Except (Cause × Nat × Bool) (Nat × State × Cmd))
  match move (e - part) with
  | .ok r => .ok r
  | .error y => if y.1 = cWAITS ∨ e ≤ part + 1 then .error y else move 1

/-- The bytes of a number. -/
def numSource (v e : Nat) : Source := fun s c k n => .ok (((leBytes v e).drop k).take n, s, c)

/-- One element of GATH or SCAT: `walk` is the element, and the bytes of it that are written. -/
def State.gathStep (s : State) (c : Cmd) (e : Nat) (scatter : Bool) : Unit' :=
  let i := c.walk.getD 0 0
  match c.data[i]? with
  | none => s.complete c c.data.length (c.data.length * e)
  | some x =>
    let (from_, far) := if scatter then (c.val 1 + i * e, c.dest.toNat + x * e) else (c.val 1 + x * e, c.dest.toNat + i * e)
    match s.putElem c (plainSource from_) far e (c.walk.getD 1 0) with
    | .error y => .error y
    | .ok (n, u, c2) => .ok (u, { c2 with walk := if n = e then [i + 1] else [i, n] })

/-- The sum of SCADD. -/
def addElem (t : AddTy) (x y : Nat) : Nat × Flags :=
  match t with
  | .int32 => ((x + y) % 2 ^ 32, 0#6)
  | .int64 => ((x + y) % 2 ^ 64, 0#6)
  | .fp32 => fAdd fmtFp32 { rnd := .rne, sat := false, ftz := false, v := 0 } (fmtFp32.decode x) (fmtFp32.decode y)

/-- One element of SCADD: the table element is read and written in one step. -/
def State.scaddStep (s : State) (c : Cmd) (ty : AddTy) : Unit' :=
  let e := if ty = .int64 then 8 else 4
  let i := c.walk.getD 0 0
  match c.data[i]? with
  | none => s.complete c c.data.length (c.data.length * e)
  | some x =>
    let far := c.dest.toNat + x * e
    match readFault (s.engNat c (c.val 1 + i * e) e true) with
    | .error y => .error y
    | .ok (v, t, c1) =>
      match readFault (t.engNat c1 far e true) with
      | .error y => .error y
      | .ok (old, u, c2) =>
        let r := addElem ty old v
        match writeFault (u.engWrite c2 far (leBytes r.1 e) false) with
        | .error y => .error y
        | .ok (w, c3) => .ok (w, { c3 with off := c3.off + e, walk := [i + 1], flags := c3.flags ||| r.2 })

/-- One step of COMPACT: `walk` is the row, the elements kept so far, the column, the phase (0 the row's first look, 1
values, 2 a column number, 3 the first offset), and the bytes written of the number or value under way. -/
def State.compactStep (s : State) (c : Cmd) (e : Nat) : Unit' :=
  let rows := c.val 3
  let cols := c.beside 2
  let r := c.walk.getD 0 0
  let off := c.walk.getD 1 0
  let col := c.walk.getD 2 0
  let phase := c.walk.getD 3 3
  let part := c.walk.getD 4 0
  let put := fun (s : State) (c : Cmd) (src : Source) (va n : Nat) (walk : List Nat) =>
    (match s.putElem c src va n part with
      | .error y => .error y
      | .ok (k, t, c1) => .ok (t, { c1 with walk := if k = n then walk else [r, off, col, phase, k] }) : Unit')
  let total := fun (rows' kept : Nat) => kept * e + 2 * kept + 2 * (rows' + 1)
  if phase = 3 then put s c (numSource 0 2) (c.val 2) 2 [0, 0, 0, 0]
  else if rows ≤ r then s.complete c r (total r off)
  else if phase = 0 then
    match readFault (s.engRead c (c.val 1 + r * cols * e) (cols * e)) with
    | .error y => .error y
    | .ok (b, t, c1) =>
      let z := ((chunks e b cols).filter fun x => x.any (· != 0)).length
      if 65535 < off + z then State.complete t { c1 with ovf := true } r (total r off)
      else .ok (t, { c1 with walk := [r, off, 0, 1] })
  else if cols ≤ col then put s c (numSource off 2) (c.val 2 + 2 * (r + 1)) 2 [r + 1, off, 0, 0]
  else if phase = 2 then put s c (numSource col 2) (c.beside 3 + 2 * off) 2 [r, off + 1, col + 1, 1]
  else
    match readFault (s.engReadIf c (c.val 1 + (r * cols + col) * e) e false) with
    | .error y => .error y
    | .ok (b, t, c1) =>
      if b.any (· != 0) ∨ part ≠ 0 then put t c1 (numSource (leNat b) e) (c.dest.toNat + off * e) e [r, off, col, 2]
      else .ok (t, { c1 with walk := [r, off, col + 1, 1] })

/-- Set bits of a word below bit `j`. -/
def bitsBelow (x j : Nat) : Nat := ((upFrom 0 j).filter fun i => x / 2 ^ i % 2 == 1).length

/-- One step of INTERSECT: `walk` is the word, oa, ob, the bit, the pairs, whether the pair's first half is written, and the bytes written of
the half under way. -/
def State.intersectStep (s : State) (c : Cmd) (e : Nat) : Unit' :=
  let k := c.walk.getD 0 0
  let oa := c.walk.getD 1 0
  let ob := c.walk.getD 2 0
  let j := c.walk.getD 3 0
  let n := c.walk.getD 4 0
  let half := c.walk.getD 5 0
  let part := c.walk.getD 6 0
  if c.val 3 ≤ k then s.complete c n (n * 2 * e)
  else
    let fresh := j == 0 && half == 0 && part == 0
    match readFault (s.engNat c (c.val 1 + 8 * k) 8 fresh) with
    | .error y => .error y
    | .ok (a, t, c1) =>
      match readFault (t.engNat c1 (c.val 2 + 8 * k) 8 fresh) with
      | .error y => .error y
      | .ok (b, u, c2) =>
        match (upFrom j (64 - j)).find? fun i => a / 2 ^ i % 2 == 1 && b / 2 ^ i % 2 == 1 with
        | none => .ok (u, { c2 with walk := [k + 1, oa + bitsBelow a 64, ob + bitsBelow b 64, 0, n, 0] })
        | some i =>
          let va := if half = 0 then c.beside 4 + (oa + bitsBelow a i) * e else c.beside 0 + (ob + bitsBelow b i) * e
          match u.putElem c2 (plainSource va) (c.dest.toNat + n * 2 * e + half * e) e part with
          | .error y => .error y
          | .ok (m, w, c4) =>
            .ok (w, { c4 with bytes := c4.bytes + (m - part)
                              walk := if m < e then [k, oa, ob, i, n, half, m]
                                      else if half = 0 then [k, oa, ob, i, n, 1] else [k, oa, ob, i + 1, n + 1, 0] })

/-- Element type of SELECT. -/
def selType : SelTy → Ty
  | .int32 => .int32
  | .uint32 => .uint32
  | .fp32 => .fp32
  | .int16 => .int16
  | .bf16 => .bf16

/-- Whether SELECT takes an element. -/
def selTakes (t : Ty) (ge : Bool) (v u : Nat) : Bool :=
  match fmtOf? t with
  | some f =>
    let x := f.decode v
    let y := f.decode u
    !x.isNan && !y.isNan && (decide (0 < cmpVal false x y) || (ge && cmpVal false x y == 0))
  | none => decide (intOf t u < intOf t v) || (ge && intOf t u == intOf t v)

/-- One step of SELECT: `walk` is the element, the matches, the sentinels, and the bytes written of the slot under way; beyond the last element,
the slots left take the sentinel. -/
def State.selectStep (s : State) (c : Cmd) (st : SelTy) (ge : Bool) : Unit' :=
  let t := selType st
  let e := t.bits / 8
  let n := c.val 3
  let max' := c.beside 2
  let i := c.walk.getD 0 0
  let found := c.walk.getD 1 0
  let pad := c.walk.getD 2 0
  let part := c.walk.getD 3 0
  let slot := fun (s : State) (c : Cmd) (k v : Nat) (walk : List Nat) =>
    (match s.putElem c (numSource v 8) (c.dest.toNat + 8 * k) 8 part with
      | .error y => .error y
      | .ok (m, u, c1) => .ok (u, { c1 with walk := if m = 8 then walk else [i, found, pad, m] }) : Unit')
  if max' ≤ found + pad then s.complete c found (8 * max')
  else if n ≤ i then slot s c (found + pad) 0xFFFFFFFF [i, found, pad + 1]
  else
    match readFault (s.engNat c (c.val 1 + i * e) e (part == 0)) with
    | .error y => .error y
    | .ok (v, u, c1) =>
      if part ≠ 0 ∨ selTakes t ge v (c.val 2 % 2 ^ t.bits) then slot u c1 found (i + v * 2 ^ 32) [i + 1, found + 1, 0]
      else .ok (u, { c1 with walk := [i + 1, found, 0] })

/-! ## A command's step -/

/-- What an accepted command reads or does at acceptance; BADCMD is found here. -/
def State.prepare (s : State) (c : Cmd) : Unit' :=
  match c.instr with
  | .cpy _ _ _ _ _ _ _ | .cpys _ _ _ _ _ _ _ =>
    if (upFrom 0 c.rows).any fun r => s.rowBad c (c.row r) then .ok (s, c.bad) else .ok (s, { c with checked := true })
  | .cpyt _ _ _ _ _ _ =>
    if (upFrom 0 (c.val 2)).any fun r => s.bmcSplit c (c.val 1 + r * (c.val 3 % 2 ^ 32)) c.dest.toNat then .ok (s, c.bad)
    else .ok (s, { c with checked := true })
  | .kvfetch _ _ _ _ _ _ => s.kvPrepare c
  | .btinv _ _ _ => s.btPrepare c
  | .gath _ _ _ _ _ _ | .scat _ _ _ _ _ _ | .scadd _ _ _ _ _ _ => s.readIndices c
  | _ => .ok (s, { c with checked := true })

/-- The next home step of a command. -/
def State.cmdStep (s : State) (c : Cmd) : Unit' :=
  match c.instr with
  | .cpy _ _ _ _ _ _ _ | .cpys _ _ _ _ _ _ _ | .cfill _ _ _ _ _ => s.rowStep c
  | .cpyt esz _ _ _ _ _ =>
    if s.codecOf c c.dest.toNat true = 0 then s.tileStep c (sizeBytes esz) else s.columnStep c (sizeBytes esz)
  | .cfetchif p _ _ _ _ _ => s.fetchStep c p
  | .kvfetch _ _ _ _ _ _ => s.kvStep c
  | .btinv _ _ _ => s.btStep c
  | .gath esz _ _ _ _ _ => s.gathStep c (sizeBytes esz) false
  | .scat esz _ _ _ _ _ => s.gathStep c (sizeBytes esz) true
  | .scadd ty _ _ _ _ _ => s.scaddStep c ty
  | .compact esz _ _ _ _ _ => s.compactStep c (sizeBytes esz)
  | .intersect esz _ _ _ _ _ => s.intersectStep c (sizeBytes esz)
  | .select st ge _ _ _ _ _ => s.selectStep c st ge
  | _ => .ok (s, { c with done := true })

end Sys2Proof.Machine
end

