-- ==== Sys2Proof/Machine/Vector.lean ====
section
/-! DEFINITION. The vector unit but for its loads and stores (R136 to R155, R159 to R162). -/

namespace Sys2Proof.Machine

/-! ## Elements (R137) and masks (R142) -/

/-- Element `i` of a register of `w`-bit elements. -/
def elemAt (w : Nat) (v : VecReg) (i : Nat) : Nat := v.toNat / 2 ^ (i * w) % 2 ^ w

/-- count(TYPE). -/
def count (t : Ty) : Nat := 4096 / t.bits

/-- `n` elements packed from element `i` upward, with the flags ORed. -/
def packElems (w : Nat) (f : Nat → Nat × Flags) : Nat → Nat → Nat × Flags
  | 0, _ => (0, 0#6)
  | n + 1, i =>
    let x := f i
    let r := packElems w f n (i + 1)
    (x.1 % 2 ^ w + 2 ^ w * r.1, x.2 ||| r.2)

/-- Bits packed from bit `i` upward. -/
def packBits (f : Nat → Bool) : Nat → Nat → Nat
  | 0, _ => 0
  | n + 1, i => (if f i then 1 else 0) + 2 * packBits f n (i + 1)

/-- The value of a vector register as a word names it (R138). -/
def State.vreg (s : State) (n : Fin 64) : VecReg := s.bank.vec.v[s.bank.vec.phys n]

/-- The current mask. -/
def State.topMask (s : State) : MaskReg := s.bank.vec.stack.headD 0

/-- Whether element `i` is enabled. -/
def State.enabled (s : State) (mk : Bool) (i : Nat) : Bool := !mk || s.topMask.getLsbD i

/-- Element `i` of register `n`, of TYPE `t`. -/
def State.el (s : State) (t : Ty) (n : Fin 64) (i : Nat) : Nat := elemAt t.bits (s.vreg n) i

/-- Write a vector register as named, readable after `lat`. -/
def State.setVec (s : State) (n : Fin 64) (v : VecReg) (lat : Nat) : State :=
  (s.setPhys (s.bank.vec.phys n) v).setBusy (.v (s.bank.vec.phys n)) lat

/-- The register `n` with its enabled elements computed by `f`, and their flags. -/
def State.mapped (s : State) (t : Ty) (mk : Bool) (n : Fin 64) (f : Nat → Nat × Flags) : VecReg × Flags :=
  let old := s.vreg n
  let r := packElems t.bits (fun i => if s.enabled mk i then f i else (elemAt t.bits old i, 0#6)) (count t) 0
  (BitVec.ofNat 4096 r.1, r.2)

/-- A word that computes its destination element by element. -/
def State.vector (s : State) (g : Gate) (t : Ty) (mk : Bool) (vd : Fin 64) (lat : Nat) (f : Nat → Nat × Flags) : Result :=
  if s.gatedOff g then .next s.finish
  else
    let r := s.mapped t mk vd f
    .next ((s.setVec vd r.1 lat).raiseFlags r.2).finish

/-! ## Element operations -/

/-- The environment of an element operation. -/
def State.venv (s : State) (r : Rnd) (sat : Bool) : Env := { rnd := r, sat := sat, ftz := s.bank.vec.ftz, v := 0 }

/-- A floating operand under FTZ as a pattern (R110). -/
def Fmt.flush (f : Fmt) (ftz : Bool) (pat : Nat) : Nat :=
  match f.decode pat with
  | .fin neg mag _ => if ftz && mag != 0 && decide (mag < 2 ^ f.mw) then f.sign neg else pat
  | _ => pat

/-- A two-operand arithmetic element: the exact integer result, or the floating operation (R146). -/
def arith2 (t : Ty) (env : Env) (i : Int → Int → Int) (f : Fmt → Env → FVal → FVal → Nat × Flags) (x y : Nat) : Nat × Flags :=
  match fmtOf? t with
  | none => intResult t env.sat (i (intOf t x) (intOf t y))
  | some m =>
    let (a, fa) := m.read env.ftz x
    let (b, fb) := m.read env.ftz y
    let (p, fl) := f m env a b
    (p, fa ||| fb ||| fl)

/-- Subtraction of floating values; a NaN operand is returned as it was read. -/
def fSub (f : Fmt) (env : Env) (x y : FVal) : Nat × Flags :=
  f.apply env [x, y] (addVal env.rnd x y.negate)

/-- VFMA and VFMS. -/
def arith3 (t : Ty) (env : Env) (neg : Bool) (x y z : Nat) : Nat × Flags :=
  match fmtOf? t with
  | none => intResult t env.sat (intOf t x * intOf t y + (if neg then -intOf t z else intOf t z))
  | some m =>
    let (a, fa) := m.read env.ftz x
    let (b, fb) := m.read env.ftz y
    let (c, fc) := m.read env.ftz z
    let (p, fl) := fFma m env neg a b c
    (p, fa ||| fb ||| fc ||| fl)

/-- VMIN and VMAX. -/
def minMax (t : Ty) (ftz mx : Bool) (x y : Nat) : Nat × Flags :=
  match fmtOf? t with
  | none => (if (if mx then decide (intOf t y ≤ intOf t x) else decide (intOf t x ≤ intOf t y)) then x else y, 0#6)
  | some m =>
    let (a, fa) := m.read ftz x
    let (b, fb) := m.read ftz y
    let (p, fl) := fMinMax m mx a b (m.flush ftz x) (m.flush ftz y)
    (p, fa ||| fb ||| fl)

/-- VABS (`inv` false) and VNEG: integers by their exact result, floats by the sign bit alone. -/
def signOp (t : Ty) (sat ftz inv : Bool) (x : Nat) : Nat × Flags :=
  match fmtOf? t with
  | none => intResult t sat (if inv then -intOf t x else Int.ofNat (intOf t x).natAbs)
  | some m =>
    let p := m.flush ftz x
    let top := 2 ^ (t.bits - 1)
    (if inv then (p + top) % (2 * top) else p % top, (m.read ftz x).2)

/-- The top half of a product (R147). -/
def mulTop (t : Ty) (x y : Nat) : Nat := patOf t.bits (intOf t x * intOf t y / Int.ofNat (2 ^ t.bits))

/-- VSAR repeats the top bit for the unsigned types as well. -/
def shiftArith (w x n : Nat) : Nat := patOf w (signedNat w x / Int.ofNat (2 ^ n))

/-- One bits of a pattern below bit `n`. -/
def popBits (x : Nat) : Nat → Nat
  | 0 => 0
  | n + 1 => x / 2 ^ n % 2 + popBits x n

/-- VCMP of an element (R148). -/
def compareElem (t : Ty) (ftz : Bool) (cc : VCond) (x y : Nat) : Bool × Flags :=
  match fmtOf? t with
  | none =>
    let a := intOf t x
    let b := intOf t y
    (cc.holds (if a < b then -1 else if b < a then 1 else 0), 0#6)
  | some m =>
    let (a, fa) := m.read ftz x
    let (b, fb) := m.read ftz y
    if a.isNan || b.isNan then
      let quiet := cc == .eq || cc == .ne
      (cc == .ne, fa ||| fb ||| flagIf (!quiet || a.isSnan || b.isSnan) fNV)
    else (cc.holds (cmpVal false a b), fa ||| fb)

/-- VSCL of an element (R152). -/
def scaleElem (t : Ty) (env : Env) (x n : Nat) : Nat × Flags :=
  match fmtOf? t with
  | none => (x, 0#6)
  | some m =>
    let (a, fa) := m.read env.ftz x
    -- beyond ±1,000 every scale gives what ±1,000 gives
    let k := max (-1000) (min 1000 (signedNat t.bits n))
    let (p, fl) := m.apply env [a] (match a with
      | .fin neg mag ex => some (.fin neg mag (ex + k))
      | v => some v)
    (p, fa ||| fl)

/-- VEXPO of an element. -/
def expoElem (t : Ty) (ftz : Bool) (x : Nat) : Nat × Flags :=
  match fmtOf? t with
  | none => (x, 0#6)
  | some m =>
    let (a, fa) := m.read ftz x
    let big := 2 ^ (t.bits - 1)
    (match a with
      | .fin _ mag ex => if mag = 0 then big else patOf t.bits (log2Mag mag ex)
      | _ => big - 1, fa)

/-- A function unit on an fp32 pattern: the operand and a tiny result flushed under FTZ (R110, R113). -/
def unitElem (f : FVal → Nat × Flags) (ftz : Bool) (x : Nat) : Nat × Flags :=
  let (a, fa) := fmtFp32.read ftz x
  let (p, fl) := f a
  let mag := p % 2 ^ 31
  -- rounded results reach the smallest normal number only from tiny ones that were inexact, or exactly
  if ftz && (mag != 0 && decide (mag < 2 ^ 23) || fl &&& fUF != 0) then (p / 2 ^ 31 * 2 ^ 31, fa ||| fUF ||| fNX)
  else (p, fa ||| fl)

/-! ## Arithmetic (R146, R147) -/

def execVadd (g : Gate) (ty : Ty) (rnd : Rnd) (sat mk : Bool) (vd va vb : Fin 64) (s : State) : Result :=
  s.vector g ty mk vd 2 fun i => arith2 ty (s.venv rnd sat) (· + ·) fAdd (s.el ty va i) (s.el ty vb i)

def execVsub (g : Gate) (ty : Ty) (rnd : Rnd) (sat mk : Bool) (vd va vb : Fin 64) (s : State) : Result :=
  s.vector g ty mk vd 2 fun i => arith2 ty (s.venv rnd sat) (· - ·) fSub (s.el ty va i) (s.el ty vb i)

def execVmul (g : Gate) (ty : Ty) (rnd : Rnd) (sat mk : Bool) (vd va vb : Fin 64) (s : State) : Result :=
  s.vector g ty mk vd 4 fun i => arith2 ty (s.venv rnd sat) (· * ·) fMul (s.el ty va i) (s.el ty vb i)

def execVmulh (g : Gate) (ty : Ty) (mk : Bool) (vd va vb : Fin 64) (s : State) : Result :=
  s.vector g ty mk vd 4 fun i => (mulTop ty (s.el ty va i) (s.el ty vb i), 0#6)

def execVfma (g : Gate) (ty : Ty) (rnd : Rnd) (sat mk : Bool) (vd va vb vc : Fin 64) (s : State) : Result :=
  s.vector g ty mk vd 4 fun i => arith3 ty (s.venv rnd sat) false (s.el ty va i) (s.el ty vb i) (s.el ty vc i)

def execVfms (g : Gate) (ty : Ty) (rnd : Rnd) (sat mk : Bool) (vd va vb vc : Fin 64) (s : State) : Result :=
  s.vector g ty mk vd 4 fun i => arith3 ty (s.venv rnd sat) true (s.el ty va i) (s.el ty vb i) (s.el ty vc i)

def execVmin (g : Gate) (ty : Ty) (mk : Bool) (vd va vb : Fin 64) (s : State) : Result :=
  s.vector g ty mk vd 2 fun i => minMax ty s.bank.vec.ftz false (s.el ty va i) (s.el ty vb i)

def execVmax (g : Gate) (ty : Ty) (mk : Bool) (vd va vb : Fin 64) (s : State) : Result :=
  s.vector g ty mk vd 2 fun i => minMax ty s.bank.vec.ftz true (s.el ty va i) (s.el ty vb i)

def execVabs (g : Gate) (ty : Ty) (sat mk : Bool) (vd va : Fin 64) (s : State) : Result :=
  s.vector g ty mk vd 2 fun i => signOp ty sat s.bank.vec.ftz false (s.el ty va i)

def execVneg (g : Gate) (ty : Ty) (sat mk : Bool) (vd va : Fin 64) (s : State) : Result :=
  s.vector g ty mk vd 2 fun i => signOp ty sat s.bank.vec.ftz true (s.el ty va i)

def execVand (g : Gate) (ty : Ty) (mk : Bool) (vd va vb : Fin 64) (s : State) : Result :=
  s.vector g ty mk vd 2 fun i => (s.el ty va i &&& s.el ty vb i, 0#6)

def execVor (g : Gate) (ty : Ty) (mk : Bool) (vd va vb : Fin 64) (s : State) : Result :=
  s.vector g ty mk vd 2 fun i => (s.el ty va i ||| s.el ty vb i, 0#6)

def execVxor (g : Gate) (ty : Ty) (mk : Bool) (vd va vb : Fin 64) (s : State) : Result :=
  s.vector g ty mk vd 2 fun i => (s.el ty va i ^^^ s.el ty vb i, 0#6)

def execVshl (g : Gate) (ty : Ty) (mk : Bool) (vd va vb : Fin 64) (s : State) : Result :=
  s.vector g ty mk vd 2 fun i => (s.el ty va i * 2 ^ (s.el ty vb i % ty.bits) % 2 ^ ty.bits, 0#6)

def execVshr (g : Gate) (ty : Ty) (mk : Bool) (vd va vb : Fin 64) (s : State) : Result :=
  s.vector g ty mk vd 2 fun i => (s.el ty va i / 2 ^ (s.el ty vb i % ty.bits), 0#6)

def execVsar (g : Gate) (ty : Ty) (mk : Bool) (vd va vb : Fin 64) (s : State) : Result :=
  s.vector g ty mk vd 2 fun i => (shiftArith ty.bits (s.el ty va i) (s.el ty vb i % ty.bits), 0#6)

def execVpopc (g : Gate) (ty : Ty) (mk : Bool) (vd va : Fin 64) (s : State) : Result :=
  s.vector g ty mk vd 2 fun i => (popBits (s.el ty va i) ty.bits, 0#6)

def execVclz (g : Gate) (ty : Ty) (mk : Bool) (vd va : Fin 64) (s : State) : Result :=
  s.vector g ty mk vd 2 fun i =>
    let x := s.el ty va i
    (if x = 0 then ty.bits else ty.bits - 1 - Nat.log2 x, 0#6)

/-- VCMP writes a mask; bits beyond count(TYPE) become 0 (R148). -/
def execVcmp (g : Gate) (ty : Ty) (cc : VCond) (mk : Bool) (md : Fin 8) (va vb : Fin 64) (s : State) : Result :=
  if s.gatedOff g then .next s.finish
  else
    let old := s.bank.vec.m[md]
    let r := packElems 1 (fun i =>
      if s.enabled mk i then
        let c := compareElem ty s.bank.vec.ftz cc (s.el ty va i) (s.el ty vb i)
        (if c.1 then 1 else 0, c.2)
      else (if old.getLsbD i then 1 else 0, 0#6)) (count ty) 0
    .next (((s.setMask md (BitVec.ofNat 1024 r.1)).setBusy (.m md) 2).raiseFlags r.2).finish

/-! ## Moves (R149) -/

def execVsel (g : Gate) (ty : Ty) (mk : Bool) (vd va vb : Fin 64) (mc : Fin 8) (s : State) : Result :=
  s.vector g ty mk vd 2 fun i => (if s.bank.vec.m[mc].getLsbD i then s.el ty va i else s.el ty vb i, 0#6)

def execVmov (g : Gate) (ty : Ty) (mk : Bool) (vd va : Fin 64) (s : State) : Result :=
  s.vector g ty mk vd 2 fun i => (s.el ty va i, 0#6)

def execVbcast (g : Gate) (ty : Ty) (mk : Bool) (vd : Fin 64) (a : Opnd) (s : State) : Result :=
  if s.gatedOff g then .next s.finish
  else s.guard [a] [] (let x := s.take a; x.2.vector none ty mk vd 2 fun _ => (x.1.toNat % 2 ^ ty.bits, 0#6))

/-- An element as a scalar: sign-extended for the signed integer types. -/
def elemWord (ty : Ty) (x : Nat) : Word := if ty.isSigned then signExt ty.bits x else BitVec.ofNat 64 x

def execVget (g : Gate) (ty : Ty) (d : Opnd) (va : Fin 64) (b : Opnd) (s : State) : Result :=
  if s.gatedOff g then .next s.finish
  else
    s.guard [b] [d]
      (let x := s.take b
       .next ((x.2.put d (elemWord ty (s.el ty va (x.1.toNat % count ty))) 2).finish))

def execVins (g : Gate) (ty : Ty) (vd : Fin 64) (a b : Opnd) (s : State) : Result :=
  if s.gatedOff g then .next s.finish
  else
    s.guard [a, b] []
      (let x := s.take a
       let y := x.2.take b
       .next ((y.2.setVec vd (putElems ty.bits (s.vreg vd) [(y.1.toNat % count ty, leBytes x.1.toNat 8)]) 2).finish))

/-! ## Conversions (R150, R151) -/

/-- The LFSR state with which result element `i` rounds, under sr (R107). -/
def State.laneV (s : State) (rnd : Rnd) (i : Nat) : Nat :=
  if rnd = .sr then (laneStep s.bank.vec.srseed s.bank.vec.lanes i).1.toNat else 0

/-- Step the lanes of the enabled result elements, under sr. -/
def State.stepLanes (s : State) (rnd : Rnd) (mk : Bool) (n : Nat) : State :=
  if rnd = .sr then
    let go := fun (l : Tbl (BitVec 16)) i => if s.enabled mk i then (laneStep s.bank.vec.srseed l i).2 else l
    s.setBank fun b => { b with vec := { b.vec with lanes := (upFrom 0 n).foldl go b.vec.lanes } }
  else s

def execVcvt (g : Gate) (ty dty : Ty) (rnd : Rnd) (sat mk : Bool) (vd va : Fin 64) (s : State) : Result :=
  if s.gatedOff g then .next s.finish
  else
    let r := s.mapped dty mk vd fun i => convert ty dty { s.venv rnd sat with v := s.laneV rnd i } (s.el ty va i)
    .next ((((s.stepLanes rnd mk (count dty)).setVec vd r.1 2).raiseFlags r.2).finish)

/-- Register `n + k`. -/
def vnext (n : Fin 64) (k : Nat) : Fin 64 := n + Fin.ofNat 64 k

/-- VWID: source element i goes to register vd + (i mod f), position i div f, under mask bit i. -/
def execVwid (g : Gate) (ty dty : Ty) (mk : Bool) (vd va : Fin 64) (s : State) : Result :=
  if s.gatedOff g then .next s.finish
  else
    let f := dty.bits / ty.bits
    let one := fun (k : Nat) =>
      let old := s.vreg (vnext vd k)
      packElems dty.bits (fun p =>
        let i := p * f + k
        if s.enabled mk i then convert ty dty (s.venv .rne false) (s.el ty va i) else (elemAt dty.bits old p, 0#6)) (count dty) 0
    let go := fun (t : State) k => (t.setVec (vnext vd k) (BitVec.ofNat 4096 (one k).1) 2).raiseFlags (one k).2
    .next ((upFrom 0 f).foldl go s).finish

/-- VNAR: destination element i comes from register va + (i mod f), position i div f. -/
def execVnar (g : Gate) (ty dty : Ty) (rnd : Rnd) (sat mk : Bool) (vd va : Fin 64) (s : State) : Result :=
  if s.gatedOff g then .next s.finish
  else
    let f := ty.bits / dty.bits
    let r := s.mapped dty mk vd fun i =>
      convert ty dty { s.venv rnd sat with v := s.laneV rnd i } (s.el ty (vnext va (i % f)) (i / f))
    .next ((((s.stepLanes rnd mk (count dty)).setVec vd r.1 2).raiseFlags r.2).finish)

/-! ## Exponents and function units (R113, R152, R153) -/

def execVscl (g : Gate) (ty : Ty) (rnd : Rnd) (sat mk : Bool) (vd va vb : Fin 64) (s : State) : Result :=
  s.vector g ty mk vd 2 fun i => scaleElem ty (s.venv rnd sat) (s.el ty va i) (s.el ty vb i)

def execVexpo (g : Gate) (ty : Ty) (mk : Bool) (vd va : Fin 64) (s : State) : Result :=
  s.vector g ty mk vd 2 fun i => expoElem ty s.bank.vec.ftz (s.el ty va i)

def execVrcp (g : Gate) (mk : Bool) (vd va : Fin 64) (s : State) : Result :=
  s.vector g .fp32 mk vd 8 fun i => unitElem vrcpVal s.bank.vec.ftz (s.el .fp32 va i)

def execVrsq (g : Gate) (mk : Bool) (vd va : Fin 64) (s : State) : Result :=
  s.vector g .fp32 mk vd 8 fun i => unitElem vrsqVal s.bank.vec.ftz (s.el .fp32 va i)

def execVexp2 (g : Gate) (mk : Bool) (vd va : Fin 64) (s : State) : Result :=
  s.vector g .fp32 mk vd 8 fun i => unitElem vexp2Val s.bank.vec.ftz (s.el .fp32 va i)

def execVlog2 (g : Gate) (mk : Bool) (vd va : Fin 64) (s : State) : Result :=
  s.vector g .fp32 mk vd 8 fun i => unitElem vlog2Val s.bank.vec.ftz (s.el .fp32 va i)

/-! ## Reductions (R114, R154) -/

/-- A node of a reduction tree: none where every element below is left out; its pattern, and the flags of its subtree. -/
abbrev TNode := Option (Nat × Flags)

/-- Combine the nodes of a level by pairs. -/
def pairUp (f : Nat → Nat → Nat × Flags) : List TNode → List TNode
  | some (x, fx) :: some (y, fy) :: t => let r := f x y; some (r.1, fx ||| fy ||| r.2) :: pairUp f t
  | none :: y :: t => y :: pairUp f t
  | x :: none :: t => x :: pairUp f t
  | [x] => [x]
  | [] => []

/-- The levels of a tree above `l`, `n` of them. -/
def treeLevels (f : Nat → Nat → Nat × Flags) (l : List TNode) : Nat → List (List TNode)
  | 0 => [l]
  | n + 1 => l :: treeLevels f (pairUp f l) n

/-- A floating element as it enters a tree: under FTZ a subnormal is a zero, and a NaN is quiet, NV where it signals (R110,
R112, R114, R143) (log 53, DEDUCED). -/
def Fmt.leaf (m : Fmt) (ftz : Bool) (x : Nat) : Nat × Flags :=
  let r := m.read ftz x
  if r.1.isNan then (m.nanPat r.1, flagIf r.1.isSnan fNV) else (m.flush ftz x, r.2)

/-- A leaf of a sum: the element, or -0 where it is disabled (R114). Under rdn the nodes add it as R103 says (log 87, DEDUCED). -/
def sumLeaf (m : Fmt) (ftz on : Bool) (x : Nat) : TNode := if on then some (m.leaf ftz x) else some (m.sign true, 0#6)

/-- A leaf of a min or max tree, which a disabled element leaves out (R154). -/
def pickLeaf (t : Ty) (ftz on : Bool) (x : Nat) : TNode :=
  if on then
    match fmtOf? t with
    | some m => some (m.leaf ftz x)
    | none => some (x, 0#6)
  else none

/-- The single node of the top level: the result, a NaN that a node has created among them (R112, R114) (log 87, DEDUCED). -/
def treeTop (f : Nat → Nat → Nat × Flags) (l : List TNode) : TNode :=
  ((treeLevels f l (Nat.log2 l.length)).getLastD []).headD none

/-- What min and max give where every element is disabled. -/
def emptyPick (t : Ty) (mx : Bool) : Nat :=
  match fmtOf? t with
  | some m => m.infPat mx
  | none => patOf t.bits (if mx then intMin t else intMax t)

/-- The reduction of the elements `xs`, with whether each is enabled. -/
def reduceElems (t : Ty) (op : RedOp) (env : Env) (xs : List (Bool × Nat)) : Nat × Flags :=
  match op with
  | .sum =>
    match fmtOf? t with
    | some m => (treeTop (fun x y => arith2 t env (· + ·) fAdd x y) (xs.map fun p => sumLeaf m env.ftz p.1 p.2)).getD (0, 0#6)
    | none => intResult t env.sat (xs.foldl (fun a p => if p.1 then a + intOf t p.2 else a) 0)
  | .min => (treeTop (minMax t env.ftz false) (xs.map fun p => pickLeaf t env.ftz p.1 p.2)).getD (emptyPick t false, 0#6)
  | .max => (treeTop (minMax t env.ftz true) (xs.map fun p => pickLeaf t env.ftz p.1 p.2)).getD (emptyPick t true, 0#6)

/-- The elements of a register with whether each is enabled. -/
def State.elems (s : State) (t : Ty) (mk : Bool) (n : Fin 64) : List (Bool × Nat) :=
  (upFrom 0 (count t)).map fun i => (s.enabled mk i, s.el t n i)

def execVred (g : Gate) (ty : Ty) (op : RedOp) (rnd : Rnd) (sat mk : Bool) (d : Opnd) (va : Fin 64) (s : State) : Result :=
  if s.gatedOff g then .next s.finish
  else
    s.guard [] [d]
      (let r := reduceElems ty op (s.venv rnd sat) (s.elems ty mk va)
       .next (((s.put d (elemWord ty r.1) 8).raiseFlags r.2).finish))

/-- The aligned tree nodes that cover elements 0 to i, largest first, added from left to right: `m` is what is left of i + 1,
`pos` the elements covered so far. -/
def coverSum (f : Nat → Nat → Nat × Flags) (levels : List (List TNode)) (m : Nat) : Nat → Nat → TNode → TNode
  | 0, _, acc => acc
  | j + 1, pos, acc =>
    if m / 2 ^ j % 2 = 1 then
      let node := (levels.getD j []).getD (pos / 2 ^ j) none
      let acc' := match acc, node with
        | some (x, fx), some (y, fy) => let r := f x y; some (r.1, fx ||| fy ||| r.2)
        | none, y => y
        | x, none => x
      coverSum f levels m j (pos + 2 ^ j) acc'
    else coverSum f levels m j pos acc

/-- Prefix sums of integers, each wrapped or saturated. -/
def prefixInts (t : Ty) (sat : Bool) (a : Int) : List (Bool × Nat) → List (Nat × Flags)
  | [] => []
  | (on, x) :: r =>
    let b := if on then a + intOf t x else a
    intResult t sat b :: prefixInts t sat b r

/-- The prefix sums of the elements. -/
def prefixElems (t : Ty) (env : Env) (xs : List (Bool × Nat)) : List (Nat × Flags) :=
  match fmtOf? t with
  | none => prefixInts t env.sat 0 xs
  | some m =>
    let add := fun x y => arith2 t env (· + ·) fAdd x y
    let k := Nat.log2 xs.length
    let levels := treeLevels add (xs.map fun p => sumLeaf m env.ftz p.1 p.2) k
    (upFrom 0 xs.length).map fun i => (coverSum add levels (i + 1) (k + 1) 0 none).getD (0, 0#6)

def execVpsum (g : Gate) (ty : Ty) (rnd : Rnd) (sat mk : Bool) (vd va : Fin 64) (s : State) : Result :=
  let r := prefixElems ty (s.venv rnd sat) (s.elems ty mk va)
  s.vector g ty mk vd 8 fun i => r.getD i (0, 0#6)

/-! ## Rearrangement (R155) -/

/-- The elements that the current mask keeps. -/
def State.kept (s : State) (ty : Ty) (va : Fin 64) : List Nat :=
  ((upFrom 0 (count ty)).filter fun i => s.topMask.getLsbD i).map (s.el ty va)

def execVcomp (g : Gate) (ty : Ty) (vd va : Fin 64) (d : Opnd) (s : State) : Result :=
  if s.gatedOff g then .next s.finish
  else
    s.guard [] [d]
      (let l := s.kept ty va
       let r := packElems ty.bits (fun i => (l.getD i 0, 0#6)) (count ty) 0
       .next (((s.setVec vd (BitVec.ofNat 4096 r.1) 4).put d (BitVec.ofNat 64 l.length) 4).finish))

/-- Mask bits set below bit `i`. -/
def maskRank (m : MaskReg) (i : Nat) : Nat := popBits m.toNat i

def execVexpd (g : Gate) (ty : Ty) (vd va : Fin 64) (s : State) : Result :=
  s.vector g ty false vd 4 fun i => (if s.topMask.getLsbD i then s.el ty va (maskRank s.topMask i) else 0, 0#6)

def execVslu (g : Gate) (ty : Ty) (mk : Bool) (vd va : Fin 64) (b : Opnd) (s : State) : Result :=
  if s.gatedOff g then .next s.finish
  else
    s.guard [b] []
      (let x := s.take b
       x.2.vector none ty mk vd 4 fun i => (if x.1.toNat ≤ i then s.el ty va (i - x.1.toNat) else 0, 0#6))

def execVsld (g : Gate) (ty : Ty) (mk : Bool) (vd va : Fin 64) (b : Opnd) (s : State) : Result :=
  if s.gatedOff g then .next s.finish
  else
    s.guard [b] []
      (let x := s.take b
       x.2.vector none ty mk vd 4 fun i => (if i + x.1.toNat < count ty then s.el ty va (i + x.1.toNat) else 0, 0#6))

def execVperm (g : Gate) (ty : Ty) (mk : Bool) (vd va vb : Fin 64) (s : State) : Result :=
  s.vector g ty mk vd 4 fun i => (s.el ty va (s.el ty vb i % count ty), 0#6)

/-! ## Rotation, gates and masks (R159 to R162) -/

def State.setVs (s : State) (f : VecState → VecState) : State := s.setBank fun b => { b with vec := f b.vec }

def execVrot (g : Gate) (abs : Bool) (step : BitVec 5) (s : State) : Result :=
  if s.gatedOff g then .next s.finish
  else .next (s.setVs fun v => { v with vrot := if abs then step else v.vrot + step }).finish

def execGset (gates : BitVec 8) (s : State) : Result := .next (s.setVs fun v => { v with gates := gates }).finish

def execGstep (a : Opnd) (s : State) : Result :=
  s.guard [a] []
    (let x := s.take a
     .next (x.2.setVs fun v => { v with gates := v.gates <<< 1 ||| (if x.1 ≠ 0 then 1#8 else 0#8) }).finish)

/-- Subcode 12, with DEPTH. -/
def State.depthTrap (s : State) : Result := s.trap (cILLEGAL 12) (BitVec.ofNat 64 s.bank.vec.stack.length)

def execMpush (g : Gate) (ma : Fin 8) (s : State) : Result :=
  if s.gatedOff g then .next s.finish
  else if 8 ≤ s.bank.vec.stack.length then s.depthTrap
  else .next (s.setVs fun v => { v with stack := (s.topMask &&& v.m[ma]) :: v.stack }).finish

def execMinv (g : Gate) (s : State) : Result :=
  if s.gatedOff g then .next s.finish
  else
    match s.bank.vec.stack with
    | top :: below :: rest => .next (s.setVs fun v => { v with stack := (below &&& ~~~top) :: below :: rest }).finish
    | _ => s.depthTrap

def execMpop (g : Gate) (s : State) : Result :=
  if s.gatedOff g then .next s.finish
  else
    match s.bank.vec.stack with
    | _ :: below :: rest => .next (s.setVs fun v => { v with stack := below :: rest }).finish
    | _ => s.depthTrap

/-- MSET, by its mode. -/
def execMset (g : Gate) (md : Fin 8) (mode : MsetMode) (s : State) : Result :=
  if s.gatedOff g then .next s.finish
  else
    match mode with
    | .prefixOf a =>
      s.guard [a] []
        (let x := s.take a
         .next (x.2.setMask md (BitVec.ofNat 1024 (packBits (fun i => decide (i < x.1.toNat)) 1024 0))).finish)
    | .pattern a =>
      s.guard [a] []
        (let x := s.take a
         .next (x.2.setMask md (BitVec.ofNat 1024 (packBits (fun i => x.1.getLsbD (i % 64)) 1024 0))).finish)
    | .top => .next (s.setMask md s.topMask).finish
    | .vec va => .next (s.setMask md ((s.vreg va).setWidth 1024)).finish

def execMcnt (g : Gate) (ty : Ty) (d : Opnd) (ma : Fin 8) (s : State) : Result :=
  if s.gatedOff g then .next s.finish
  else s.guard [] [d] (.next ((s.put d (BitVec.ofNat 64 (popBits s.bank.vec.m[ma].toNat (count ty))) 1).finish))

def execMempt (g : Gate) (ty : Ty) (k : Fin 12) (s : State) : Result :=
  if s.gatedOff g then .next s.finish
  else .next (s.setCond k (s.topMask.toNat % 2 ^ count ty == 0)).finish

end Sys2Proof.Machine
end

