-- ==== Sys2Proof/Machine/Link.lean ====
section
/-! DEFINITION. Links: the words of the L stream (R374 to R379), the fabric clock, cargos, ports and switch tables (R364 to
R373, R387). -/

namespace Sys2Proof.Machine

/-! ## Cargo registers -/

/-- Element `i` of a cargo of `w`-bit elements. -/
def cargoElem (w : Nat) (c : CargoReg) (i : Nat) : Nat := c.toNat / 2 ^ (i * w) % 2 ^ w

def cargoBytes (c : CargoReg) : List Byte := leBytes c.toNat 4096

def State.setLink (s : State) (f : Link → Link) : State := { s with link := f s.link }

def State.cr (s : State) (n : Fin 16) : CargoReg := s.link.cr[n]

/-- Write a cargo register; it is readable after `lat`. -/
def State.setCr (s : State) (n : Fin 16) (v : CargoReg) (lat : Nat) : State :=
  (s.setLink fun l => { l with cr := l.cr.set n v }).setBusy (.c n) lat

/-- Raise SA, NX, UF, OF, DZ and NV of LFLAGS (R373). -/
def State.raiseLink (s : State) (fl : Flags) : State := s.setLink fun l => { l with lflags := l.lflags ||| fl.setWidth 9 }

def lfMissing : BitVec 9 := 64#9
def lfLate : BitVec 9 := 128#9
def lfOverrun : BitVec 9 := 256#9

def State.markLink (s : State) (f : BitVec 9) : State := s.setLink fun l => { l with lflags := l.lflags ||| f }

/-- A port that is not one of the die's own (R374). -/
def State.badPort (s : State) (port : BitVec 6) : Bool := port.toNat / 16 != s.dieNo

/-! ## LSLOT, LXMIT, LRECV (R375) -/

/-- LSLOT. A wait for the slot ends with 0, even where the stream is tried again only after the slot. -/
def execLslot (d a : Fin 32) (imm : BitVec 20) (s : State) : Result :=
  let t : Word := BitVec.ofNat 64 s.link.f0 + s.reg a + imm.setWidth 64
  if s.fslot + 1 < t.toNat then .next (s.hold (.ext .slot))
  else
    let late := if s.st.wait = some (.ext .slot) then 0 else BitVec.ofNat 64 (s.fslot + 1 - t.toNat)
    .next ((s.setReg d late).setLink fun l => { l with cur := t.toNat }).finish

/-- LXMIT, port form: a cargo for a slot that has begun is discarded. -/
def execLxmit (c : Fin 16) (b : Fin 32) (port : BitVec 6) (s : State) : Result :=
  if s.badPort port then s.trap (cILLEGAL 14) (port.setWidth 64)
  else if s.link.cur ≤ s.fslot then .next (s.markLink lfLate).finish
  else
    .next (s.setLink fun l => { l with queued := l.queued ++
      [{ port := port.toNat, slot := l.cur, bytes := cargoBytes (s.cr c), side := s.reg b }] }).finish

/-- The place of 4 KiB for a mem form: ADDRFORM, ALIGN, then the translation (class 0, the L agent). -/
def State.cargoRoute (s : State) (va : Word) (store : Bool) : Except Cause (Place × State) :=
  if badForm va 4096 then .error cADDRFORM
  else if va.toNat % 4096 ≠ 0 then .error cALIGN
  else
    match s.route va.toNat 4096 store true with
    | .error c => .error c
    | .ok (.away p, t) => .ok (p, t)
    | .ok (_, _) => .error (cPERM 1)

def cargoPiece (va : Nat) (p : Place) (bytes : List Byte) : List Piece :=
  [{ num := 0, va := va, place := some p, n := 4096, bytes := bytes, nib := 0 }]

/-- LXMIT, mem form. -/
def execLxmitMem (c : Fin 16) (a : Fin 32) (s : State) : Result :=
  let va := s.reg a
  match s.cargoRoute va true with
  | .error e => s.trap e va
  | .ok (p, t) => .next (t.send 0 va.toNat .store .none (cargoPiece va.toNat p (cargoBytes (s.cr c))) [] none []).finish

/-- LRECV, port form: the oldest entry of the port's receive queue. -/
def execLrecv (c : Fin 16) (a b : Fin 32) (port : BitVec 6) (s : State) : Result :=
  if s.badPort port then s.trap (cILLEGAL 14) (port.setWidth 64)
  else
    let p := s.portAt port.toNat
    match p.rq with
    | [] => .next (s.hold (.ext .cargo))
    | e :: rest =>
      let t := { s with ports := Tbl.put s.ports port.toNat { p with rq := rest } }
      match e with
      | some (bytes, side) =>
        .next (((t.setCr c (BitVec.ofNat 32768 (leNat bytes)) 1).setReg b side).setReg a 0).finish
      | none => .next (((t.markLink lfMissing).setReg b 0).setReg a 1).finish

/-- LRECV, mem form. -/
def execLrecvMem (c : Fin 16) (a : Fin 32) (s : State) : Result :=
  let va := s.reg a
  match s.cargoRoute va false with
  | .error e => s.trap e va
  | .ok (p, t) => .next (t.send 0 va.toNat (.load 4096 false) (.cargo c) (cargoPiece va.toNat p []) [] none []).finish

/-! ## LWID, LADD, LQNT (R376 to R378) -/

/-- A value times a power of two. -/
def FVal.scale (x : FVal) (k : Int) : FVal :=
  match x with
  | .fin n m e => .fin n m (e + k)
  | .nan _ _ _ _ | .inf _ => x

/-- Element `i` of an e4m3 cargo under a scale code; of an e2m1x cargo, whose headers stand behind its data (R371). -/
def widenElem (e2m1x : Bool) (c : CargoReg) (code i : Nat) : Nat × Flags :=
  if e2m1x then fmtFp32.ofVal envRne (e2m1xVal (cargoElem 16 c (1024 + i / 32)) (cargoElem 4 c i))
  else fmtFp32.ofVal envRne ((fmtE4m3.decode (cargoElem 8 c i)).scale (Int.ofNat code - 127))

/-- 1,024 fp32 results as a cargo register. -/
def packCargo (f : Nat → Nat × Flags) : CargoReg × Flags :=
  let r := packElems 32 f 1024 0
  (BitVec.ofNat 32768 r.1, r.2)

/-- LWID: cargo a into fp32 registers d to d + 3. -/
def execLwid (e2m1x : Bool) (d a : Fin 16) (b : Fin 32) (s : State) : Result :=
  let c := s.cr a
  let code := (s.reg b).toNat % 256
  let part := fun (j : Nat) => packCargo fun i => widenElem e2m1x c code (1024 * j + i)
  .next ((upFrom 0 4).foldl (fun (t : State) j =>
    let r := part j
    (t.setCr (d + Fin.ofNat 16 j) r.1 16).raiseLink r.2) s).finish

/-- LADD. -/
def execLadd (rnd : Rnd) (sat : Bool) (d a b : Fin 16) (s : State) : Result :=
  let x := s.cr a
  let y := s.cr b
  let r := packCargo fun i => fAdd fmtFp32 { rnd := rnd, sat := sat, ftz := false, v := 0 }
    (fmtFp32.decode (cargoElem 32 x i)) (fmtFp32.decode (cargoElem 32 y i))
  .next ((s.setCr d r.1 16).raiseLink r.2).finish

/-- The 4,096 fp32 elements of registers a to a + 3. -/
def State.cargoVals (s : State) (a : Fin 16) : List FVal :=
  (upFrom 0 4096).map fun i => fmtFp32.decode (cargoElem 32 (s.cr (a + Fin.ofNat 16 (i / 1024))) (i % 1024))

/-- The largest finite magnitude, as mantissa and exponent. -/
def finiteMax : List FVal → Nat × Int
  | [] => (0, 0)
  | x :: t =>
    let r := finiteMax t
    match x with
    | .fin _ m e => if cmpVal false (.fin false r.1 r.2) (.fin false m e) < 0 then (m, e) else r
    | .nan _ _ _ _ | .inf _ => r

/-- The exponent e of R378 for e4m3. -/
def quantExp (xs : List FVal) : Int :=
  let r := finiteMax xs
  if r.1 = 0 then 0 else max (log2Mag r.1 r.2 - 8) (-127)

/-- LFSR states of 4,096 elements, and the lanes after them; none step but under sr (R107). -/
def State.linkLanes (s : State) (r : Rnd) : List Nat × Tbl (BitVec 16) :=
  if r = .sr then stepFrom 0 s.link.lanes 0 4096 else (List.replicate 4096 0, s.link.lanes)

/-- The codes of an e2m1x cargo block by block: bytes of data, headers, flags. -/
def quantBlocks (r : Rnd) (spc : Nat) : Nat → List FVal → List Nat → List Nat × List Nat × Flags
  | 0, _, _ => ([], [], 0#6)
  | n + 1, xs, vs =>
    let b := e2m1xBlock r spc (xs.take 32) (vs.take 32)
    let q := quantBlocks r spc n (xs.drop 32) (vs.drop 32)
    (b.2.1 ++ q.1, b.1 :: q.2.1, b.2.2 ||| q.2.2)

/-- LQNT: fp32 registers a to a + 3 into cargo d. -/
def execLqnt (e2m1x : Bool) (rnd : Rnd) (sat : Bool) (d a : Fin 16) (b : Fin 32) (spc : Fin 8) (s : State) : Result :=
  let xs := s.cargoVals a
  let ln := s.linkLanes rnd
  let t := s.setLink fun l => { l with lanes := ln.2 }
  if e2m1x then
    let q := quantBlocks rnd spc.val 128 xs ln.1
    let bytes := packPats 4 q.1 ++ packPats 16 q.2.1
    .next ((t.setCr d (BitVec.ofNat 32768 (leNat bytes)) 64).raiseLink q.2.2).finish
  else
    let e := quantExp xs
    let r := (xs.zip ln.1).map fun p =>
      fmtE4m3.ofVal { rnd := rnd, sat := sat, ftz := false, v := p.2 } (p.1.scale (-e))
    let u := (t.setCr d (BitVec.ofNat 32768 (leNat (packPats 8 (r.map Prod.fst)))) 64).raiseLink ((r.map Prod.snd).foldl (· ||| ·) 0#6)
    .next ((u.setReg b (BitVec.ofNat 64 (e + 127).toNat)).setBusy (.s b) 64).finish

/-! ## LDONE (R379) -/

/-- Whether every LXMIT of the run is sent or discarded and every mem access has performed: one that has failed never performs, and one that is
late may yet (R231) (log 89, DEDUCED). -/
def State.linkQuiet (s : State) : Bool :=
  s.link.queued.isEmpty && !s.link.lost && s.flight.all fun x => x.agent != s.agent || (x.performed && !x.req.stores)

/-- LDONE: it waits, sends the completion store, and at its performance ends the run. A translation fault, a refusal and a dead
link trap it; ACCESS_TIMEOUT traps it where no acknowledgement comes. -/
def execLdone (s : State) : Result :=
  let va := s.link.doneVa
  if !s.linkQuiet then .next (s.hold (.ext .access))
  else
    match s.route va.toNat 8 true false with
    | .error c => s.trap c va
    | .ok (.own _ _, _) | .ok (.across _, _) | .ok (.fill _ _ _, _) => s.trap (cPERM 1) va
    | .ok (.away p, t) =>
      if s.st.wait ≠ some (.ext .done) then .next ((t.setLink fun l => { l with doneSince := s.w }).hold (.ext .done))
      else
        match t.refusal s.die p 8 with
        | some why => s.trap (refusalCause why) va
        | none =>
          match t.goesOut p 8 with
          | none => .next (t.hold (.ext .done))
          | some t =>
            let u := (t.placeWrite p (leBytes 1 8) 0 false).finish
            .next ((u.setSt { u.st with exited := true }).setLink fun l => { l with active := false })

/-! ## The fabric clock and cargos -/

/-- FSLOT_ADVANCE: a slot ends, and the next one begins. -/
def execFslotAdvance (s : State) : Result := .next { s with fslot := (s.fslot + 1) % 2 ^ 64, fphase := 0 }

/-- Whether a port carries cargos: a dead port and one of 3 lanes do not (R367). -/
def Port.carries (p : Port) : Bool := p.live && p.lanes == 4

/-- CARGO_SEND: the first cargo of a port for the slot that is under way leaves; where no table routes it, or the port carries
none, it is discarded. Another cargo of the port whose slot is under way or over is discarded as well (log 31, DESIGN CHOICE). -/
def execCargoSend (port : Fin 64) (s : State) : Result :=
  .next (s.onDie (port.val / 16) fun t =>
    let due := fun (c : Cargo) => c.port == port.val && decide (c.slot ≤ t.fslot)
    let l := t.link
    let goes := (l.queued.filter due).find? fun c => c.slot == t.fslot && l.routed c.port c.slot && (t.portAt c.port).carries
    { t with link := { l with queued := l.queued.filter fun c => !due c }, outs := t.outs ++ (goes.map Out.cargo).toList })

/-- Whether a cargo is due on a port in fabric slot `slot` (R369, R387). -/
def State.cargoDue (s : State) (port slot : Nat) : Bool :=
  let l := s.linkAt (port / 16)
  l.active && decide (l.f0 ≤ slot) && decide (0 < l.period) &&
    (let i := (slot - l.f0) % l.period
     (s.mem.read (l.due + 8192 * (port % 16) + i / 8)).toNat / 2 ^ (i % 8) % 2 == 1)

/-- CARGO_RECEIVE: a cargo arrives on a port during the slot under way. At the end of the slot, the step without one brings what was due two
slots before into the port's receive queue, as the cargo that has arrived or as a MISSING entry; OVERRUN where the queue is full (R372). -/
def execCargoReceive (port : Fin 64) (arrived : Option (List Byte × Word)) (s : State) : Result :=
  let p := s.portAt port.val
  match arrived with
  | some x => .next { s with ports := Tbl.put s.ports port.val { p with came := some (p.came.getD x) } }
  | none =>
    let t : State := { s with ports := Tbl.put s.ports port.val { p with came := none } }
    if s.fphase < 48 then .next s
    else if s.fslot < 2 ∨ ¬ s.cargoDue port.val (s.fslot - 2) then .next t
    else
      let entry := if p.carries then p.came.map fun x => (leBytes (leNat x.1) 4096, x.2) else none
      if 4 ≤ p.rq.length then .next (t.onDie (port.val / 16) fun u => u.markLink lfOverrun)
      else .next { s with ports := Tbl.put s.ports port.val { p with rq := p.rq ++ [entry], came := none } }

/-! ## Ports (R365 to R367) -/

/-- Something of which the Bureau is told. -/
def State.tell (s : State) (what : Nat) : State := { s with outs := s.outs ++ [.told what] }

/-! ## Host accesses through BAR2 (R384, R385) -/

/-- Places of `n` bytes from `va` on for an access of the host agent; a window has none for it. -/
def State.hostPlaces (s : State) (a va : Nat) (wr : Bool) : Nat → Except Cause (List Place × State)
  | 0 => .ok ([], s)
  | n + 1 =>
    if winOf va ≠ .mapped ∨ 2 ^ 56 ≤ va then .error (cPERM 1)
    else
      match s.xlate a va (!wr) wr with
      | .error c => .error c
      | .ok (p, t) =>
        match t.refusal 0 p 1 with
        | some why => .error (refusalCause why)
        | none =>
          match State.hostPlaces t a (va + 1) wr n with
          | .error c => .error c
          | .ok (l, u) => .ok (p :: l, u)

def State.out (s : State) (o : Out) : State := { s with outs := s.outs ++ [o] }

/-- A host access through BAR2 fails. -/
def State.hostFails (s : State) (c : Cause) : State := (s.out .aborted).tell c.code

/-- Take a flit credit of die 0 for each 256 bytes of a host access that go to a peer; none where a port has too few, or carries a cargo in the
slot under way (R365, R366). -/
def State.hostCredits (s : State) (first : Bool) : List Place → Option State
  | [] => some s
  | p :: t =>
    if first || p.pa % 256 == 0 then
      match s.takeCredits 0 p 1 with
      | some u => State.hostCredits u false t
      | none => none
    else State.hostCredits s false t

/-- The places of a host access through BAR2 that waits for a credit; none of anything else. -/
def State.waitingPlaces (s : State) (i : Instr) : List Place :=
  let places := fun (off n : Nat) (wr : Bool) =>
    match s.hostPlaces (s.bureau.apas.toNat % 64) (s.bureau.apbase.toNat + off) wr n with
    | .ok r => r.1
    | .error _ => []
  match i with
  | .bar2Read off n => places off n false
  | .bar2Write off bytes => places off bytes.length true
  | _ => []

/-- The host accesses that wait on a port fail with it (R367). -/
def State.strandHost (s : State) (port : Nat) : State :=
  let dead := fun (i : Instr) => (s.waitingPlaces i).any fun p => p.home == 2 && s.portFor 0 p.pa == some port
  let gone := fun (l : List Instr) => l.filter fun i => !dead i
  let n := (s.hostWait.filter dead).length + (s.agenda.filter dead).length
  (upFrom 0 n).foldl (fun (t : State) _ => t.hostFails (cUNCORR 1)) { s with hostWait := gone s.hostWait, agenda := gone s.agenda }

/-- The completion store of a link engine that waits on a port fails with it, and LDONE traps (R367, R379). -/
def State.strandDone (s : State) (port : Nat) : State :=
  s.onAgent { core := port / 16, bank := 0, sid := .L } fun t =>
    match t.route t.link.doneVa.toNat 8 true false with
    | .ok (.away p, _) =>
      if t.st.wait = some (.ext .done) ∧ p.home = 2 ∧ t.portFor t.die p.pa = some port then t.takeTrap (cUNCORR 1) t.link.doneVa else t
    | _ => t

/-! ## The death of a port: what the lanes hold (R367) -/

/-- Whether a part of an access of die `die` goes out on a port. -/
def State.onPort (s : State) (die port : Nat) (p : Piece) : Bool :=
  match p.place with
  | some a => a.home == 2 && s.portFor die a.pa == some port
  | none => false

/-- Fail the parts of the access at place `k` that are on a port. -/
def State.failOnPort (s : State) (port k : Nat) : State :=
  match s.flight[k]? with
  | none => s
  | some x =>
    let gone := x.todo.filter (s.onPort x.agent.die port)
    if x.fail.isSome then s
    else gone.foldl (fun (t : State) p => t.performFail k x p.va 32 (x.todo.filter fun q => !gone.contains q)) s

/-- FLIT_CREDIT_RETURN: of 32 credits. -/
def execFlitCreditReturn (port : Fin 64) (s : State) : Result :=
  let p := s.portAt port.val
  .next { s with ports := Tbl.put s.ports port.val { p with credits := min 32 (p.credits + 1) } }

/-! ## Switch tables (R369, R387) -/

/-- The table of a die's ports goes to the planes. -/
def State.sendTable (s : State) (die : Fin 4) (v : Word) : State :=
  s.onDie die.val fun t => t.setLink fun l =>
    { l with swBusy := true, swRefused := none, swPa := BitVec.ofNat 64 (field v.toNat 51 12 * 4096) }

/-- SWLOAD. -/
def execSwload (die : Fin 4) (v : Word) (s : State) : Result := .next (s.sendTable die v)

/-- A port's row of the table in HBM: `period` entries. -/
def State.switchRow (s : State) (pa port period : Nat) : List Nat :=
  (upFrom 0 period).map fun i => leNat (s.mem.readN (pa + 2 * (period * port + i)) 2)

/-- SWITCH_TABLE_ANSWER: every plane but those that refuse their rows takes its own; the Bureau is told of each refusal, and the port of the
last one is recorded (R387) (log 83, DESIGN CHOICE). -/
def execSwitchTableAnswer (die : Fin 4) (refused : List (Fin 64)) (s : State) : Result :=
  if (s.linkAt die.val).swBusy then
    let t := s.onDie die.val fun t => t.setLink fun l =>
      { l with swBusy := false, swRefused := refused.getLast?.map Fin.val
               routes := (upFrom (16 * die.val) 16).foldl (fun r p =>
                 if (refused.map Fin.val).contains p then r
                 else Tbl.put r p (t.switchRow l.swPa.toNat (p % 16) (l.swper.toNat % 2 ^ 16))) l.routes }
    .next (refused.foldl (fun (u : State) p => u.tell p.val) t)
  else .next s

/-! ## Runs (R370, R371, R387) -/

/-- Read `n` bytes at `va` in address space `a` as a unit of die `die` does: translated with R, page by page; none at the first
byte that faults or that its home refuses, and `cWAITS` where a page of the host or of a peer makes it wait, from 256 bytes to 256 bytes (R226,
R365, R366). `first`: the byte begins the access; `pays`: it goes out on credits. -/
def State.spaceReadFrom (s : State) (die a va : Nat) (pays first : Bool) : Nat → Except (Cause × Nat) (List Byte × State)
  | 0 => .ok ([], s)
  | n + 1 =>
    match s.xlate a va true false with
    | .error c => .error (c, va)
    | .ok (p, t) =>
      match t.refusal die p 1 with
      | some why => .error (refusalCause why, va)
      | none =>
        match (if pays && (first || p.pa % 256 == 0) then t.goesOutOf die p (min (n + 1) (256 - p.pa % 256)) else some t) with
        | none => .error (cWAITS, va)
        | some t =>
          match State.spaceReadFrom t die a (va + 1) pays false n with
          | .error e => .error e
          | .ok (l, u) => .ok (t.homeByte p :: l, u)

/-- One access of `n` bytes. -/
def State.spaceRead (s : State) (die a va n : Nat) : Except (Cause × Nat) (List Byte × State) := s.spaceReadFrom die a va true true n

/-- The reads with which a run starts: they go out as credits come back, which the model does not follow (log 59, DESIGN CHOICE). -/
def State.startRead (s : State) (die a va n : Nat) : Except (Cause × Nat) (List Byte × State) := s.spaceReadFrom die a va false true n

/-- Words of a code image from its bytes. -/
def wordsOf (b : List Byte) : Nat → List Word
  | 0 => []
  | n + 1 => BitVec.ofNat 64 (leNat (b.take 8)) :: wordsOf (b.drop 8) n

/-- Length in words of the L image at `va`: of the loaded section that begins there; else the limit of R82 (log 59, DESIGN CHOICE). -/
def State.lcodeLength (s : State) (a va : Nat) : Nat :=
  match (s.bureau.loads.filter (·.space == a)).findSome? fun l => l.sections.find? fun x => x.1 == va with
  | some x => min (x.2 / 8) 4096
  | none => 4096

/-- A run starts where none is active; it issues from fabric slot F0 on. A record or an image that cannot be read starts none. -/
def State.startLink (s : State) (die : Fin 4) (v : Word) : State :=
  let l := s.linkAt die.val
  if l.active then s
  else
    let a := l.lras.toNat % 64
    match s.startRead die.val a (v.toNat % 2 ^ 56) 16 with
    | .error _ => s
    | .ok (rec, t) =>
      let va := leNat (rec.take 7)
      let n := t.lcodeLength a va
      match t.startRead die.val a va (8 * n) with
      | .error _ => t
      | .ok (b, u) =>
        u.onDie die.val fun w => w.setLink fun l =>
          { l with st := { Stream.zero with running := true }, cycle := 0, active := true, code := wordsOf b n
                   period := leNat ((rec.drop 8).take 2), cr := Vector.replicate 16 0, lflags := 0, cur := 0
                   f0 := l.lf0.toNat, space := a, due := field l.ldue.toNat 51 17 * 2 ^ 17, doneVa := l.ldoneva
                   queued := [], lanes := [], lost := false }

/-- LRUN. -/
def execLrun (die : Fin 4) (v : Word) (s : State) : Result := .next (s.startLink die v)

end Sys2Proof.Machine
end

