-- ==== Sys2Proof/Machine/EngineSteps.lean ====
section
/-! DEFINITION. The steps of the engines: acceptance (R281), performance, report (R282, R283, R288), and faults (R298). They
act on the core in hand. -/

namespace Sys2Proof.Machine

/-! ## Choosing a command -/

/-- Replace a command by its place in program order. -/
def State.setCmd (s : State) (e : Eng) (c : Cmd) : State := s.setFifo e ((s.core.fifo e).map fun k => if k.ord = c.ord then c else k)

/-- Remove a command. -/
def State.dropCmd (s : State) (e : Eng) (c : Cmd) : State := s.setFifo e ((s.core.fifo e).filter fun k => k.ord != c.ord)

/-- Act with the bank of a command in hand, as its A stream. -/
def State.asCmd (s : State) (c : Cmd) (f : State → State) : State :=
  { (f { s.focusBank c.bank with sid := .A }).focusBank s.bankNo with sid := s.sid }

/-- Class of a command; BTINV makes no access. -/
def Cmd.cls (c : Cmd) : Option (Fin 16) := (tailOf c.instr).map CTail.cls

/-! ## VINDEX (R299) -/

/-- The command is removed, and its A stream traps at the command's word as if the word had not issued (log 63, DEDUCED). -/
def State.vindex (s : State) (e : Eng) (c : Cmd) (i x : Nat) : State :=
  (s.dropCmd e c).asCmd c fun t =>
    let u := (t.unpop c.undo).setSt { t.st with l := c.loops }
    u.takeTrapAt cVINDEX c.epc (BitVec.ofNat 64 (i * 2 ^ 32 + x))

/-! ## The bytes of a command (R224, R304) -/

/-- Byte ranges that a command reads at addresses known at acceptance. -/
def Cmd.sources (c : Cmd) : List (Nat × Nat) :=
  match c.instr with
  | .cpy _ _ _ _ _ _ _ | .cpys _ _ _ _ _ _ _ =>
    (upFrom 0 c.rows).map fun r => let x := c.row r; (x.1, srcBytes (convTypes c.bfmt x.1 x.2.1 c.srcType) x.2.2)
  | .cpyt esz _ _ _ _ _ => (upFrom 0 (c.val 2)).map fun r => (c.val 1 + r * (c.val 3 % 2 ^ 32), c.beside 0 * sizeBytes esz)
  | .cfetchif _ _ _ _ _ _ => [(c.val 1, 1)]
  | .kvfetch _ _ _ _ _ _ => c.data.map fun va => (va, c.walk.getD 4 0)
  | .gath esz _ _ _ _ _ => c.data.map fun x => (c.val 1 + x * sizeBytes esz, sizeBytes esz)
  | .scat esz _ _ _ _ _ => [(c.val 1, c.val 3 * sizeBytes esz)]
  | .scadd t _ _ _ _ _ => [(c.val 1, c.val 3 * if t = .int64 then 8 else 4)]
  | .compact esz _ _ _ _ _ => [(c.val 1, c.val 3 * c.beside 2 * sizeBytes esz)]
  | .intersect _ _ _ _ _ _ => [(c.val 1, 8 * c.val 3), (c.val 2, 8 * c.val 3)]
  | .select st _ _ _ _ _ _ => [(c.val 1, c.val 3 * (selType st).bits / 8)]
  | _ => []

/-- Byte ranges that hold all that a command reads; those of a table element that SCADD updates are written as well. -/
def Cmd.mayRead (c : Cmd) : List (Nat × Nat) :=
  match c.instr with
  | .cfetchif _ _ _ _ _ _ => [(c.val 1 / 16384 * 16384, 16384)]
  | .intersect esz _ _ _ _ _ => c.sources ++ [(c.beside 4, 64 * c.val 3 * sizeBytes esz), (c.beside 0, 64 * c.val 3 * sizeBytes esz)]
  | .scadd _ _ _ _ _ _ => c.sources ++ c.writes
  | _ => c.sources

/-- What a command reads at acceptance: the indices, or the descriptor, the block-table entries and the bitmaps, which the descriptor names. -/
def State.acceptReads (s : State) (c : Cmd) : List (Nat × Nat) :=
  match c.instr with
  | .gath _ _ _ _ _ _ | .scat _ _ _ _ _ _ | .scadd _ _ _ _ _ _ => [(c.val 2, 4 * c.val 3)]
  | .kvfetch _ _ _ _ _ _ =>
    let at_ := (c.val 1, 32)
    (match s.engRead c (c.val 1) 32 with
      | .error _ => [at_]
      | .ok (b, _) =>
        let (btva, sbva, _, _, _) := kvFields b
        let lo := c.val 2 / 64
        let n := (c.val 2 + c.val 3) / 64 + 1 - lo
        [at_, (btva + 8 * lo, 8 * n), (sbva + 8 * lo, 8 * n)])
  | _ => []

/-- Where a byte range stands, as command `c` reaches it: in the core's own banks, in another core's, or at home page by page. A stream in
BMC pages may be longer than what it expands to. -/
def State.spots (s : State) (c : Cmd) (store : Bool) (r : Nat × Nat) : List (Nat × Nat) :=
  let r := if s.codecOf c r.1 store = 0 then r else (r.1, r.2 + r.2 / 8 + 592)
  let own := (ownParts s.coreNo s.bank.map c.maps r).map fun x => (scratchLoc s.coreNo x.1, x.2)
  match winOf r.1 with
  | .core k off => if k = s.coreNo then own else [(scratchLoc k off, r.2)]
  | .mapped =>
    own ++ (upFrom 0 ((r.1 % 4096 + r.2 + 4095) / 4096)).filterMap fun i =>
      let lo := max r.1 ((r.1 / 4096 + i) * 4096)
      let hi := min (r.1 + r.2) ((r.1 / 4096 + i + 1) * 4096)
      match s.xlate s.space lo (!store) store with
      | .ok (p, _) => some (p.loc, hi - lo)
      | .error _ => none
  | .self _ | .control _ _ | .device _ | .nothing => own

/-- Whether two lists of ranges share a byte. -/
def sharesByte (a b : List (Nat × Nat)) : Bool := a.any fun x => b.any fun y => overlaps x.1 x.2 y.1 y.2

/-- Ranges of VAs as places, with the bank of the command in hand. -/
def State.places (s : State) (c : Cmd) (store : Bool) (l : List (Nat × Nat)) : List (Nat × Nat) :=
  let t := { s.focusBank c.bank with sid := .A }
  l.flatMap (t.spots c store)

/-- What a copy reads and writes of the core's own banks beside its data: the headers of e2m1x blocks, and the exponent planes of the runs that its
writes touch, with the elements and the headers that they are computed from (R194, R195). -/
def State.besides (s : State) (c : Cmd) (store : Bool) : List (Nat × Nat) :=
  if !c.isCopy then []
  else
    let l := c.mayWrite.flatMap (ownParts s.coreNo (s.bankAt s.coreNo c.bank).map c.maps)
    let planes := (List.finRange 16).flatMap fun k => (planeRuns c.bfmt k l).map fun e => (k.val * 2 ^ 18, e)
    let data := planes.flatMap fun p => p.2.2.2.map fun i => (p.1 + i * p.2.2.1.bits / 8, (p.2.2.1.bits + 7) / 8)
    let heads := (planes.filter fun p => p.2.2.1 == .e2m1x).flatMap fun p => p.2.2.2.map fun i => (headerAt c.bfmt (p.1 + i / 2), 2)
    (c.ownHeaders (!store) ++ if store then planes.map fun p => (p.2.1, 2) else data ++ heads).map fun r => (scratchLoc s.coreNo r.1, r.2)

/-- All places that a command reads, and all that it may write. -/
def State.reach (s : State) (c : Cmd) (store : Bool) : List (Nat × Nat) :=
  s.places c store (if store then c.mayWrite else c.mayRead) ++ s.besides c store

/-- The accepted commands before `c` in its engine that are not finished. -/
def State.ahead (s : State) (e : Eng) (c : Cmd) : List Cmd := (s.core.fifo e).filter fun k => k.accepted && !k.done && decide (k.ord < c.ord)

/-- The commands accepted before `c` whose accesses to the same bytes come first (R304). -/
def State.follows (s : State) (e : Eng) (c : Cmd) : List Nat :=
  match s.ahead e c with
  | [] => []
  | l =>
    let r := s.reach c false
    let w := s.reach c true
    (l.filter fun k =>
      let kw := s.reach k true
      sharesByte kw r || sharesByte kw w || sharesByte (s.reach k false) w).map Cmd.ord

/-- The order of a command behind those before it, found again: pages that were not mapped at its acceptance may be by now (R304). -/
def State.reorder (s : State) (e : Eng) : State :=
  s.setFifo e ((s.core.fifo e).map fun k => if k.accepted && k.checked && !k.done then
    { k with after := k.after ++ (s.follows e k).filter fun o => !k.after.contains o } else k)

/-- Whether what `c` reads at acceptance waits: an earlier command of the engine in its class is not finished (R227), or one that may write
the bytes (R304). -/
def State.acceptHeld (s : State) (e : Eng) (c : Cmd) : Bool :=
  let l := State.acceptReads { s.focusBank c.bank with sid := .A } c
  !l.isEmpty && (s.ahead e c).any fun k => k.cls == c.cls || sharesByte (s.reach k true) (s.places c false l)

/-- Whether the next step of an accepted command waits for an earlier command: for those that it follows; before its first step, for what it
reads at acceptance, and until those before it have read what they read there, since that says which bytes they reach. -/
def State.cmdHeld (s : State) (e : Eng) (c : Cmd) : Bool :=
  if c.checked then (s.core.fifo e).any fun k => c.after.contains k.ord && !k.done
  else s.acceptHeld e c || (s.ahead e c).any fun k => !k.checked

/-! ## Captures (R204, R281, R351) -/

/-- Capture the translations of the pages of a range: they are kept, and so is the key slot. -/
def State.capture (s : State) (c : Cmd) (store : Bool) (r : Nat × Nat) : State × Cmd :=
  if r.2 = 0 ∨ winOf r.1 ≠ .mapped ∨ 2 ^ 56 < r.1 + r.2 then (s, c)
  else
    (upFrom 0 ((r.1 % 4096 + r.2 + 4095) / 4096)).foldl (fun x i =>
      let va := max r.1 ((r.1 / 4096 + i) * 4096)
      if !x.1.unmapped c.maps va 1 then x
      else
        match x.1.xlate x.1.space va (!store) store with
        | .error _ => x
        | .ok (p, t) => (t, if x.2.slots.contains p.slot then x.2 else { x.2 with slots := p.slot :: x.2.slots })) (s, c)

/-- Capture what a command will read and write. -/
def State.captureAll (s : State) (c : Cmd) : State × Cmd :=
  let x := c.sources.foldl (fun x r => State.capture x.1 x.2 false r) (s, c)
  c.writes.foldl (fun x r => State.capture x.1 x.2 true r) x

/-! ## Credits of a long step (R365) -/

/-- The same state with `k` credits at a port. -/
def State.withCredits (s : State) (port k : Nat) : State := { s with ports := Tbl.put s.ports port { s.portAt port with credits := k } }

/-- The state as a step sees it whose flits have taken credits before: they count with those that the ports have. -/
def State.lend (s : State) (paid : Tbl Nat) : State := paid.foldl (fun t p => t.withCredits p.1 ((t.portAt p.1).credits + p.2)) s

/-- The step has been taken. -/
def State.settle (s : State) (paid : Tbl Nat) : State := paid.foldl (fun t p => t.withCredits p.1 (min 32 (t.portAt p.1).credits)) s

/-- The state with credits without end at every live port of a die, and no cargo in the slot under way. -/
def State.rich (s : State) (die : Nat) : State :=
  (s.livePorts die).foldl (fun t q => t.withCredits q (2 ^ 40)) (s.onDie die fun t => { t with link := { t.link with routes := [] } })

/-- Whether a step of the core in hand that waits is held by port `q`, where every other port lets it go. -/
def State.shortAt (s : State) (waits : State → Bool) (q k : Nat) : Bool :=
  let r := s.rich (s.coreNo / 96)
  waits (r.withCredits q k) && !waits r

/-- A step that needs more flits than its ports have credits sends those that it can: each takes a credit, which comes back when the switch
forwards it. What the step has taken, by port. -/
def State.payAhead (s : State) (waits : State → Bool) (paid : Tbl Nat) : State × Tbl Nat :=
  (s.livePorts (s.coreNo / 96)).foldl (fun x q =>
    let k := (x.1.portAt q).credits
    if k != 0 && !(x.1.linkAt (q / 16)).routed q x.1.fslot && x.1.shortAt waits q k then (x.1.withCredits q 0, Tbl.put x.2 q (Tbl.get x.2 q 0 + k))
    else x) (s, paid)

/-! ## Performance -/

/-- One step of a command: what it reads at acceptance, with the captures, or its next home step. -/
def State.stepCmd (s : State) (e : Eng) (c : Cmd) : Except (Cause × Nat × Bool) State :=
  let t : State := State.lend { s.focusBank c.bank with sid := .A } c.paid
  match (if c.checked then t.cmdStep c else t.prepare c) with
  | .error x => .error x
  | .ok (u, c') =>
    let u := u.settle c.paid
    let (u, c') := if c.checked then (u, c') else u.captureAll c'
    let c' := { c' with paid := [], since := s.w, after := if c.checked then c'.after else s.follows e c' }
    let v : State := { (u.setCmd e c').focusBank s.bankNo with sid := s.sid }
    match (if c.checked then none else c'.badIndex) with
    | some (i, x) => .ok (v.vindex e c' i x)
    | none => .ok v

/-- The accepted commands of an engine that are not finished, up to one that is stopped: those behind it send nothing (R298). -/
def State.running (s : State) (e : Eng) : List Cmd :=
  (((s.core.fifo e).filter (·.accepted)).takeWhile fun c => !c.stopped).filter fun c => !c.done

/-- Whether the next step of a command waits. -/
def State.stepWaits (s : State) (e : Eng) (c : Cmd) : Bool :=
  match s.stepCmd e c with
  | .error x => x.1 == cWAITS
  | .ok _ => false

/-- A command whose next step waits sends what it has credits for. -/
def State.payCmd (s : State) (e : Eng) (c : Cmd) : State :=
  let x := s.payAhead (fun t => t.stepWaits e c) c.paid
  if x.2 = c.paid then s else x.1.setCmd e { c with paid := x.2 }

/-- Each of the commands `l` takes its next step, in acceptance order, up to one whose step meets a fault, which ENGINE_FAULT takes
(log 46, DEDUCED). -/
def State.engineRound (s : State) (e : Eng) : List Nat → State
  | [] => s
  | o :: t =>
    match (s.core.fifo e).find? fun c => c.ord == o with
    | none => State.engineRound s e t
    | some c =>
      if s.cmdHeld e c then State.engineRound (s.setCmd e { c with since := s.w }) e t
      else
        match s.stepCmd e c with
        | .error x => if x.1 = cWAITS then State.engineRound (s.payCmd e c) e t else s
        | .ok u => State.engineRound u e t

/-- The next `n` rounds of an engine: all its accepted commands run at once (R281). -/
def State.runEngine (s : State) (e : Eng) : Nat → State
  | 0 => s
  | n + 1 => State.runEngine (s.engineRound e ((s.running e).map Cmd.ord)) e n

/-! ## Acceptance (R281) -/

/-- Whether the stores that agent `a` issued before its access `n` have performed at CORE to DEVICE or failed (R233, R226). -/
def State.releasedBefore (s : State) (a : Agent) (n : Nat) : Bool :=
  s.flight.all fun x => x.agent != a || decide (n ≤ x.ord) || !x.req.writes || x.performed || x.accepted || x.fail.isSome

/-- Whether a CBSET of the bank in hand waits that a command which names its buffer was pushed behind (R269). -/
def State.behindConfig (s : State) (c : Cmd) : Bool :=
  [s.bank.a, s.bank.x, s.bank.n].any fun k => match k.wait with
    | some (.ext (.config n o)) => c.buffer == some n.val && decide (o ≤ c.ord)
    | _ => false

/-- Whether an entry can be accepted, with its bank in hand. -/
def State.mayAccept (s : State) (c : Cmd) : Bool :=
  decide (c.from_ ≤ s.bank.cycle - s.bank.slip)
    && s.releasedBefore { core := s.coreNo, bank := c.bank, sid := .A } c.rel && !s.behindConfig c
    && match c.buffer with
      | some d => !(s.bank.cb.toList.getD d CBuf.zero).full
      | none => true

/-- The map entries of the bank in hand that are valid. -/
def State.validMaps (s : State) : List Nat := ((List.finRange 16).filter fun e => s.bank.map[e].valid).map Fin.val

/-- Take the buffer slot, the BFMT registers, the seeds and the region map, and capture; the bank of the command is in hand. What it reads
at acceptance is read with it, or as soon as the engine's earlier accesses allow (R224). -/
def State.acceptCmd (s : State) (e : Eng) (c : Cmd) : State :=
  let base : Cmd := { c with accepted := true, checked := false, paid := [], bfmt := s.bank.bfmt, srseed := s.bank.vec.srseed, lanes := [], space := s.space
                             spaceGen := (s.spaceAt s.space).gen, maps := s.validMaps, since := s.w }
  let taken : State × Cmd := match c.buffer with
    | none => (s, base)
    | some d =>
      let b := s.bank.cb.toList.getD d CBuf.zero
      ({ s with bank := { s.bank with cb := s.bank.cb.set (Fin.ofNat 8 d) { b with put := b.next b.put } } },
       { base with slot := some b.put, dest := BitVec.ofNat 64 (selfBase + b.slotAt b.put) })
  let x := taken.1.captureAll taken.2
  let t := x.1.setCmd e x.2
  if t.cmdHeld e x.2 then t
  else
    match t.stepCmd e x.2 with
    | .ok u => u
    | .error _ => t

/-- CMD_ACCEPT: the oldest entry that is not accepted, if the engine may accept it. -/
def execCmdAccept (e : Eng) (s : State) : Result :=
  let l := s.core.fifo e
  if l.any (·.stopped) then .next s
  else
    match l.find? fun c => !c.accepted with
    | none => .next s
    | some c =>
      let t : State := { s.focusBank c.bank with sid := .A }
      if t.mayAccept c then .next { (t.acceptCmd e c).focusBank s.bankNo with sid := s.sid } else .next s

/-! ## Faults (R298) -/

/-- The record of a fault of a command. -/
def State.engineRecord (s : State) (e : Eng) (c : Cmd) (x : Cause) (va : Nat) (write : Bool) : Record :=
  { info := infoWord x (if e = .copy then 4 else 5) s.coreNo c.bank write c.space, va := BitVec.ofNat 64 va, word := c.word
    pos := BitVec.ofNat 64 c.off, who := .engine s.coreNo e c.ord, task := c.task }

/-- The first of some commands whose next step meets a fault. -/
def State.faulting (s : State) (e : Eng) : List Cmd → Option (Cmd × Cause × Nat × Bool)
  | [] => none
  | c :: t =>
    if s.cmdHeld e c then State.faulting s e t
    else
      match s.stepCmd e c with
      | .error (x, va, write) => if x = cWAITS then State.faulting s e t else some (c, x, va, write)
      | .ok _ => State.faulting s e t

/-- A command stops on a fault, and the record is posted. -/
def State.stopCmd (s : State) (e : Eng) (c : Cmd) (x : Cause) (va : Nat) (write : Bool) : State :=
  (s.setCmd e { c with stopped := true, hurt := 0 }).post (s.engineRecord e c x va write)

/-- ENGINE_FAULT: the next step of a command of the engine meets a fault; the command stops and the record is posted. -/
def execEngineFault (e : Eng) (s : State) : Result :=
  match s.faulting e (s.running e) with
  | none => .next s
  | some (c, x, va, write) => .next (s.stopCmd e c x va write)

/-- The next access outside the core of command `c` fails, as `why` says: a fault, or STATUS (R288, R298, R355); 36: the one that waits has waited
for 2^24 cycles; 64 and a port's number: what is on the port fails with it (R367). -/
def State.hurtCmd (s : State) (e : Eng) (c : Cmd) (why : Nat) : State :=
  match s.stepCmd e { c with hurt := why } with
  | .error (x, va, write) => if x = cWAITS then s else s.stopCmd e c x va write
  | .ok t => t.setFifo e ((t.core.fifo e).map fun k => if k.ord = c.ord ∧ k.hurt = why then { k with hurt := 0 } else k)

/-- The same of the first command of an engine that takes a step. -/
def State.hurtEngine (s : State) (e : Eng) (why : Nat) : State :=
  match (s.running e).find? fun c => !s.cmdHeld e c with
  | some c => s.hurtCmd e c why
  | none => s

/-- An engine's access has had no data and no acknowledgement for 2^24 cycles: a read faults, a store sets STATUS (R288, R298). -/
def State.lateEngine (s : State) (e : Eng) : State :=
  match (s.running e).find? fun c => !s.cmdHeld e c && decide (c.since + patience ≤ s.w) with
  | some c => s.hurtCmd e c (if s.stepWaits e c then 36 else 34)
  | none => s

/-! ## Reports (R282, R283, R288) -/

/-- The reply word. -/
def Cmd.reply (c : Cmd) : Word :=
  BitVec.ofNat 64 (c.count % 2 ^ 40 * 2 ^ 24 + c.word.toNat / 2 ^ 46 % 16 * 2 ^ 20 + c.status * 2 ^ 16 + c.flags.toNat * 2 ^ 8
    + (if c.ovf then 16 else 0) + (if c.long then 8 else 0) + (if c.short then 4 else 0) + (if c.hole then 2 else 0)
    + (if c.held then 1 else 0))

/-- Whether reply queue `q` of the bank in hand has a free entry. -/
def State.replyRoom (s : State) (q : Fin 16) : Bool :=
  decide (s.bank.q[q].length + (s.bank.popped.filter (· == q)).length < qDepth q)

/-- Push a reply word, which is filled in this cycle. -/
def State.pushReply (s : State) (q : Fin 16) (v : Word) : State :=
  s.reserve q { value := v, token := false, due := some s.bank.cycle, filled := some s.bank.cycle, rel := 0, src := s.agent.key, ticket := 0 }

/-- Add to the barrier that a command names, which saturates (R272), and to the phase that a waiting ABSET begins, where the command was pushed
behind it (R274). -/
def State.arrive (s : State) (c : Cmd) : State :=
  match barrierOf c.instr with
  | none => s
  | some n =>
    let k : Fin 8 := Fin.ofNat 8 n
    let carry := fun (t : Stream) => match t.wait with
      | some (.ext (.phase m o x)) => if m = k ∧ o ≤ c.ord then { t with wait := some (.ext (.phase m o (x + c.bytes))) } else t
      | _ => t
    s.setBank fun b => { b with abarr := b.abarr.set k (BitVec.ofNat 40 (min (b.abarr[k].toNat + c.bytes) (2 ^ 40 - 1)))
                                a := carry b.a, x := carry b.x, n := carry b.n }

/-- Advance DONE of the buffer of a command. -/
def State.slotDone (s : State) (c : Cmd) : State :=
  match c.buffer, c.slot with
  | some n, some _ =>
    let k : Fin 8 := Fin.ofNat 8 n
    s.setBank fun b => { b with cb := b.cb.set k { b.cb[k] with done := b.cb[k].next b.cb[k].done } }
  | _, _ => s

/-- Whether an ECANCEL waits for nothing more. -/
def State.cancelReady (s : State) (r : Retire) : Bool :=
  match r.what with
  | .cancel x _ =>
    let core := (s.coreAt r.agent.core).1
    ((if EngSel.has x .copy then core.copyQ else []) ++ (if EngSel.has x .index then core.indexQ else [])).all fun c =>
      c.bank != r.agent.bank || !c.accepted || decide (r.ord ≤ c.ord)
  | .key _ | .gen _ => false

/-- Write the results of the ECANCELs that wait for nothing more. -/
def State.settleCancels (s : State) : State :=
  let go := fun (t : State) (r : Retire) =>
    match r.what with
    | .cancel _ n => t.onAgent r.agent fun u => u.deliver r.dst r.ord (BitVec.ofNat 64 n)
    | .key _ | .gen _ => t
  let ready := s.retires.filter s.cancelReady
  ready.foldl go { s with retires := s.retires.filter fun r => !s.cancelReady r }

/-- CMD_REPORT: the oldest command, when everything of it is done; while the reply queue is full, reports wait (R282). -/
def execCmdReport (e : Eng) (s : State) : Result :=
  match s.core.fifo e with
  | [] => .next s
  | c :: _ =>
    let q : Fin 16 := if e = .copy then 12 else 13
    if c.accepted && c.done && !c.stopped && (s.focusBank c.bank).replyRoom q then
      .next (((s.dropCmd e c).asCmd c fun t =>
        let u := (t.arrive c).slotDone c
        if rplOf c.instr then u.pushReply q c.reply else u).settleCancels)
    else .next s

end Sys2Proof.Machine
end

