-- ==== Sys2Proof/Machine/Panel.lean ====
section
/-! DEFINITION. The panel (R305 to R329): the N stream's words, the feed and drain, NSAVE and NLOAD, and the panel's steps. -/

namespace Sys2Proof.Machine

/-! ## Configuration (R313, R314, R316) -/

def Nest.fa (n : Nest) : Nat := n.fmt % 32

def Nest.fb (n : Nest) : Nat := n.fmt / 32 % 32

/-- Run length in k-steps. -/
def Nest.run (n : Nest) : Nat := 32 * 2 ^ (n.fmt / 1024 % 8)

def Nest.twin (n : Nest) : Bool := n.fmt / 8192 % 2 == 1

def Nest.dlvl (n : Nest) : Nat := n.fmt / 16384 % 8

/-- Drain mode: 0 store, 1 add, 2 auto; C type: int32 or fp32. -/
def Nest.mode (n : Nest) : Nat := n.drn % 4

def Nest.int32 (n : Nest) : Bool := n.drn / 4 % 2 == 1

def Nest.rpl (n : Nest) : Bool := n.go % 2 == 1

def Nest.tag (n : Nest) : Nat := n.go / 32 % 256


/-- Sum of index × stride over the levels. -/
def strideSum (f : Level → BitVec 32) (n : Nest) (idx : List Nat) : Int :=
  (upFrom 0 6).foldl (fun a l => a + Int.ofNat (idx.getD l 0) * sgn32 (f (n.lev.toList.getD l { bound := 1, sa := 0, sb := 0, sc := 0 }))) 0

def Nest.pitch (n : Nest) : Level := n.lev[6]

/-- The operand pointers of a run. -/
def Nest.pa (n : Nest) (idx : List Nat) : Nat := moved n.abase.toNat (strideSum Level.sa n idx)

def Nest.pb (n : Nest) (idx : List Nat) : Nat := moved n.bbase.toNat (strideSum Level.sb n idx)

def Nest.pc (n : Nest) (idx : List Nat) : Nat := moved n.cbase.toNat (strideSum Level.sc n idx)

/-- Bound of a level. -/
def Nest.bound (n : Nest) (l : Nat) : Nat := (n.lev.toList.getD l { bound := 1, sa := 0, sb := 0, sc := 0 }).bound.toNat

/-- The run after one, level 0 innermost; none after the last. -/
def Nest.after (n : Nest) (l : Nat) : List Nat → Option (List Nat)
  | [] => none
  | x :: t =>
    if x + 1 < n.bound l then some ((x + 1) :: t)
    else (Nest.after n (l + 1) t).map fun r => 0 :: r

/-- The place of a run in its nest. -/
def Nest.ordinal (n : Nest) (l : Nat) : List Nat → Nat
  | [] => 0
  | x :: t => x + n.bound l * Nest.ordinal n (l + 1) t

/-- Whether a run stores (R314). -/
def Nest.stores (n : Nest) (idx : List Nat) : Bool :=
  if n.mode = 0 then true else if n.mode = 1 then false else (idx.take n.dlvl).all (· == 0)

/-! ## The words of the N stream -/

def State.setShadow (s : State) (f : Nest → Nest) : State := s.setBank fun b => { b with shadow := f b.shadow }

/-- The value check of NLVL and NBASE failed. -/
def State.badValue (s : State) (v : Word) : Result := s.trap (cILLEGAL 14) v

/-- NLVL. -/
def execNlvl (level : Fin 7) (a b c : Opnd) (s : State) : Result :=
  s.guard [a, b, c] []
    (let r := s.takes [a, b, c]
     let va := r.1.getD 0 0
     let vb := r.1.getD 1 0
     let vc := r.1.getD 2 0
     let bad := if level = 6 then va != 0 else decide (va.toNat = 0 ∨ 65535 < va.toNat)
     if bad then s.badValue va
     else if vc ≠ (vc.setWidth 32).signExtend 64 then s.badValue vc
     else
       let new : Level := { bound := if level = 6 then 0 else va.setWidth 16, sa := vb.setWidth 32, sb := (vb >>> 32).setWidth 32
                            sc := vc.setWidth 32 }
       .next (r.2.setShadow fun n => { n with lev := n.lev.set level new }).finish)

/-- NBASE. -/
def execNbase (a b c : Opnd) (s : State) : Result :=
  s.guard [a, b, c] []
    (let r := s.takes [a, b, c]
     match r.1.find? fun v => decide (2 ^ 56 ≤ v.toNat) with
     | some v => s.badValue v
     | none =>
       .next (r.2.setShadow fun n => { n with abase := r.1.getD 0 0, bbase := r.1.getD 1 0, cbase := r.1.getD 2 0 }).finish)

/-- NFMT. -/
def execNfmt (fa fb : Ty) (run : Fin 8) (twin : Bool) (dlvl : Fin 7) (s : State) : Result :=
  .next (s.setShadow fun n => { n with fmt := fa.code + fb.code * 32 + run.val * 1024 + (if twin then 8192 else 0) + dlvl.val * 16384 }).finish

/-- Code of a drain mode. -/
def modeCode : DrainMode → Nat
  | .store => 0 | .add => 1 | .auto => 2

/-- NDRN. -/
def execNdrn (mode : DrainMode) (ct : CTy) (a : Opnd) (s : State) : Result :=
  s.guard [a] []
    (let x := s.take a
     if x.1 ≠ 0 ∧ (ct = .int32 ∨ x.1.toNat % 4 ≠ 0 ∨ 2 ^ 56 ≤ x.1.toNat) then s.badValue x.1
     else .next (x.2.setShadow fun n => { n with drn := modeCode mode + (if ct = .int32 then 4 else 0), scale := x.1 }).finish)

/-- Whether a TYPE code is a floating format of R307. -/
def floatCode (c : Nat) : Bool := decide (10 ≤ c ∧ c ≤ 14)

/-- The ECMD of NGO (R322). -/
def Nest.goBad (n : Nest) : Option Nat :=
  if n.int32 ∧ (floatCode n.fa ∨ floatCode n.fb) then some 1
  else
    firstOf ([(n.cbase.toNat % 4 != 0, n.cbase.toNat), (n.pitch.sc.toNat % 4 != 0, n.pitch.sc.toNat)]
      ++ (upFrom 0 6).map fun l =>
        let v := (n.lev.toList.getD l { bound := 1, sa := 0, sb := 0, sc := 0 }).sc.toNat
        (decide (1 < n.bound l) && v % 4 != 0, v))

/-- Whether the other bank has a nest on the panel (R329). -/
def State.otherNest (s : State) : Bool := s.core.panel.all.any fun n => n.bank != s.bankNo

/-- A nest as NGO copies it. -/
def State.newNest (s : State) (cfg : Nest) : ActiveNest :=
  { id := s.issued, cfg := cfg, bank := s.bankNo, word := s.code.getD s.st.pc 0, rel := s.issued, from_ := max s.now s.ownReady
    scales := none, next := some [0, 0, 0, 0, 0, 0], drained := 0, flags := 0, status := 0, maps := s.validMaps }

/-- NGO. -/
def execNgo (rpl : Bool) (buf8 : BitVec 8) (cls : Fin 16) (s : State) : Result :=
  let cfg : Nest := { s.bank.shadow with go := (if rpl then 1 else 0) + buf8.toNat * 32, cls := cls.val }
  match cfg.goBad with
  | some v => s.trap cECMD (BitVec.ofNat 64 v)
  | none =>
    if s.otherNest || s.core.panel.pending.isSome then .next (s.hold (.ext .panel))
    else
      let n := s.newNest cfg
      let t := ({ s with issued := s.issued + 1 }.setCore fun c =>
        { c with panel := if c.panel.nests.isEmpty then { c.panel with nests := [n] } else { c.panel with pending := some n } }).setShadow
          fun x => { x with go := cfg.go, cls := cfg.cls }
      .next (t.setBank fun b => { b with nests := b.nests + if rpl then 1 else 0 }).finish

/-- NWAIT. -/
def execNwait (d : Opnd) (s : State) : Result :=
  s.guard [.q 14] [d] (let x := s.take (.q 14); .next ((x.2.put d x.1 1).finish))

/-- The nest whose progress PROG shows: the one that is fed, of the bank in hand. -/
def State.myNest (s : State) : Option ActiveNest := (s.core.panel.nests.filter fun n => n.bank == s.bankNo).getLast?

/-- PROG (R324). -/
def State.prog (s : State) (level : Nat) : Nat :=
  match s.myNest with
  | none => 0
  | some n =>
    if level < 6 then (n.next.getD []).getD level 0
    else
      (match s.core.panel.cur with
        | some r => r.k % 4096
        | none => 0) + 2 ^ 16 + (if s.core.panel.pending.isSome then 2 ^ 17 else 0)

/-- NPROG. -/
def execNprog (d : Opnd) (level : Fin 7) (s : State) : Result :=
  s.guard [] [d] (.next ((s.put d (BitVec.ofNat 64 (s.prog level.val)) 1).finish))

/-- The rail or stile of the most recent run of the bank in hand (R325). Where both banks of the core hold the panel, one without a nest
on it reads zeros (R329). -/
def State.csq (s : State) (i : Nat) : Nat :=
  let p := s.core.panel
  if p.lastBank ≠ s.bankNo ∨ s.otherNest ∨ (s.core.other.iter.isSome ∧ s.myNest.isNone) then 0
  else if i < 128 then p.lastRsq.getD i 0 else p.lastCsq.getD (i - 128) 0

/-- NCSQ. -/
def execNcsq (d a : Opnd) (s : State) : Result :=
  s.guard [a] [d]
    (let x := s.take a
     if 128 + s.bank.columns ≤ x.1.toNat then s.badValue x.1
     else .next ((x.2.put d (BitVec.ofNat 64 (s.csq x.1.toNat)) 4).finish))

/-! ## Operands (R307 to R310, R313) -/

/-- The load pipes of a nest read as an engine command of its bank (R198); `hurt` says how the next access fails. -/
def pipe (n : ActiveNest) (hurt : Nat) : Cmd :=
  { bank := n.bank, task := 0, ord := n.id, word := n.word
    instr := .cfill .b (.s 0) (.s 0) (.s 0) { cls := 0, bar := 0, rpl := false, buf8 := BitVec.ofNat 8 n.cfg.tag }
    vals := [], more := [], rel := 0, accepted := true, from_ := 0, checked := true, epc := 0, loops := Vector.replicate 4 Loop.zero
    undo := [], dest := 0, slot := none, bfmt := Vector.replicate 16 0, srseed := 0, lanes := [], off := 0, walk := [], data := []
    blocks := [], count := 0, bytes := 0, flags := 0, status := 0, ovf := false, long := false, short := false, hole := false
    held := false, done := false, slots := [], space := 0, spaceGen := 0, stopped := false, maps := n.maps, hurt := hurt }

def State.setPanel (s : State) (f : Panel → Panel) : State := s.setCore fun c => { c with panel := f c.panel }

/-- Note distant bytes of a nest (R207). -/
def State.countPipe (s : State) (n : ActiveNest) (k : Nat) : State :=
  if k = 0 then s else s.setPanel fun p => { p with far := Tbl.put p.far n.id (Tbl.get p.far n.id 0 + k) }

/-- Read bytes for the panel, with the bank of the nest in hand; an address that fails R19 is a fault (R313). Bytes that the nest reads
once more are not counted again. -/
def State.panelRead (s : State) (n : ActiveNest) (va k : Nat) (fresh : Bool) : Except (Cause × Nat) (List Byte × State) :=
  if 2 ^ 56 < va + k then .error (cADDRFORM, va)
  else
    match s.engRead (pipe n s.core.panel.hurt) va k with
    | .error e => .error e
    | .ok (b, t, c) => .ok (b, if fresh then t.countPipe n c.far else t)

/-- The scratchpad offset of a range that lies wholly in the core's own banks, through the self window or a map entry of the nest. -/
def State.ownOffset (s : State) (n : ActiveNest) (va k : Nat) : Option Nat :=
  match winOf va with
  | .self off => if off + k ≤ 2 ^ 22 then some off else none
  | .mapped =>
    n.maps.findSome? fun e =>
      let m := s.bank.map.toList.getD e MapEntry.zero
      if m.vabase ≤ va ∧ va + k ≤ m.vabase + m.len * 2048 then some (m.spbase + (va - m.vabase)) else none
  | _ => none

/-- The same, or through the core-n window of the issuing core (R308). -/
def State.homeOffset (s : State) (n : ActiveNest) (va k : Nat) : Option Nat :=
  match winOf va with
  | .core c off => if c = s.coreNo ∧ off + k ≤ 2 ^ 22 then some off else none
  | _ => s.ownOffset n va k

/-- The bank in which `k` bytes at a scratchpad offset lie, and their offset in it. -/
def bankHolding (off : Option Nat) (k : Nat) : Option (Fin 16 × Nat) :=
  match off with
  | some off => if off / 2 ^ 18 = (off + k - 1) / 2 ^ 18 then some (Fin.ofNat 16 (off / 2 ^ 18), off % 2 ^ 18) else none
  | none => none

/-- One operand element: its pattern, and its header for e2m1x. The two elements of a byte count it once. -/
def State.panelElem (s : State) (n : ActiveNest) (r : Run) (t : Ty) (row k : Nat) (fresh : Bool) : Except (Cause × Nat) (FVal × Nat × State) :=
  let va := (row + k * t.bits / 8) % 2 ^ 64
  match s.panelRead n va ((t.bits + 7) / 8) (fresh && (t.bits != 4 || k % 2 == 0)) with
  | .error e => .error e
  | .ok (b, u) =>
    let raw := leNat b
    let pat := if t.bits = 4 then (if k % 2 = 0 then raw % 16 else raw / 16) else raw
    match (if t = .e2m1x then u.homeOffset n va 1 else none) with
    | some off =>
      if u.flawedOwn (headerAt r.bfmt off) 2 then .error (cUNCORR 0, va)
      else .ok (srcVal t (leNat (u.scratchRead u.coreNo (headerAt r.bfmt off) 2)) pat, pat, u)
    | none => .ok (srcVal t 0 pat, pat, u)

/-- A run's elements, as row base and element number for each k. -/
abbrev RunAt := Nat → Nat × Nat

def Nest.rowA (n : Nest) (idx : List Nat) (i : Nat) : RunAt := fun k => (moved (n.pa idx) (Int.ofNat i * sgn32 n.pitch.sa), k)

def Nest.colB (n : Nest) (idx : List Nat) (j : Nat) : RunAt := fun k => (moved (n.pb idx) (Int.ofNat k * sgn32 n.pitch.sb), j)

/-- The scratchpad offset of the plane entry of a run, where the panel takes it from a plane (R307): element `k` of the row at `va` is its first,
`bytes` what the run spans from there, `column` says which plane. -/
def State.planeOf (s : State) (n : ActiveNest) (bfmt : Vector Word 16) (t : Ty) (run : Nat) (column : Bool) (va k bytes : Nat) : Option Nat :=
  let first := (va + k * t.bits / 8) % 2 ^ 64
  match bankHolding (s.ownOffset n first bytes) bytes with
  | none => none
  | some (b, off) =>
    let v := bfmt[b].toNat
    let e := off * 8 / t.bits + if t.bits = 4 then k % 2 else 0
    if v % 32 ≠ t.code ∨ bfRun bfmt[b] ≠ run ∨ field v 6 5 ≠ (if column then 2 else 1) ∨ off * 8 % t.bits ≠ 0 then none
    else
      let entry := fun (x : Nat) => some (b.val * 2 ^ 18 + (2 * field v 32 16 + 2 * x) % 2 ^ 18)
      if column then (if e / 256 % run = 0 then entry (256 * (e / 256 / run) + e % 256) else none)
      else (if e % run = 0 then entry (e / run) else none)

/-- Read the decoded elements of a run. -/
def State.runVals (s : State) (n : ActiveNest) (r : Run) (t : Ty) (at_ : RunAt) (k : Nat) : Nat → Except (Cause × Nat) (List FVal × State)
  | 0 => .ok ([], s)
  | m + 1 =>
    match s.panelElem n r t (at_ k).1 (at_ k).2 false with
    | .error e => .error e
    | .ok (v, _, u) =>
      match State.runVals u n r t at_ (k + 1) m with
      | .error e => .error e
      | .ok (vs, w) => .ok (v :: vs, w)

/-- The exponent of a run and whether it is special: from its plane, or from its data. -/
def State.runExp (s : State) (n : ActiveNest) (r : Run) (t : Ty) (at_ : RunAt) (column : Bool) : Except (Cause × Nat) (Int × Bool × State) :=
  let run := n.cfg.run
  let twin : Int := if n.cfg.twin then 5 else 0
  if (fmtOf? t).isNone ∧ t ≠ .e2m1x then .ok (0, false, s)
  else
    let span := if column then (run - 1) * 32 * t.bits + (t.bits + 7) / 8 else run * t.bits / 8
    let pitched := !column || sgn32 n.cfg.pitch.sb == Int.ofNat (32 * t.bits)
    match (if pitched then s.planeOf n r.bfmt t run column (at_ 0).1 (at_ 0).2 span else none) with
    | some off =>
      let x := signedNat 16 (leNat (s.scratchRead s.coreNo off 2))
      if s.flawedOwn off 2 then .error (cUNCORR 0, ((at_ 0).1 + (at_ 0).2 * t.bits / 8) % 2 ^ 64)
      else .ok (if x = 0x7FFF then (x, true, s) else (x + twin, false, s))
    | none =>
      match s.runVals n r t at_ 0 run with
      | .error e => .error e
      | .ok (vs, u) =>
        let x := signedNat 16 (planeEntry vs)
        .ok (if x = 0x7FFF then (x, true, u) else (if x = -160 && vs.all (fun v => match v with
          | .fin _ 0 _ => true
          | _ => false) then x else x + twin, false, u))

/-- Exponents of the rows or columns from `i` on. -/
def State.exps (s : State) (n : ActiveNest) (r : Run) (t : Ty) (at_ : Nat → RunAt) (column : Bool) (i : Nat) :
    Nat → Except (Cause × Nat) (List (Int × Bool) × State)
  | 0 => .ok ([], s)
  | m + 1 =>
    match s.runExp n r t (at_ i) column with
    | .error e => .error e
    | .ok (x, sp, u) =>
      match State.exps u n r t at_ column (i + 1) m with
      | .error e => .error e
      | .ok (l, w) => .ok ((x, sp) :: l, w)

/-- x × 2^-Ep rounded to the nearest integer, ties to even. -/
def planeRound (neg : Bool) (mag : Nat) (ex ep : Int) : Int :=
  let e := ex - ep
  let q := if 0 ≤ e then mag * 2 ^ e.toNat else roundQuot .rne neg 0 mag (2 ^ (-e).toNat)
  if neg then -Int.ofNat q else Int.ofNat q

/-- The lane value of an element, whether it was clamped (R307, R309), and whether it makes its run special (R310). -/
def laneOf (twin : Bool) (isInt : Bool) (ep : Int) (v : FVal) (pat : Nat) : Int × Bool × Bool :=
  let top : Int := if twin then 63 else 2047
  match v with
  | .fin neg mag ex =>
    let x := planeRound neg mag ex (if isInt then 0 else ep)
    if top < x then (top, true, false) else if x < -top then (-top, true, false) else (x, false, false)
  | _ => (max (-top) (min top (Config.specialLane pat).toInt), false, true)

/-- The lanes of one k-step, from row or column `i` on. -/
def State.lanes (s : State) (n : ActiveNest) (r : Run) (t : Ty) (at_ : Nat → RunAt) (i : Nat) :
    List Int → Except (Cause × Nat) (List (Int × Bool × Bool) × State)
  | [] => .ok ([], s)
  | ep :: rest =>
    match s.panelElem n r t ((at_ i) r.k).1 ((at_ i) r.k).2 true with
    | .error e => .error e
    | .ok (v, pat, u) =>
      match State.lanes u n r t at_ (i + 1) rest with
      | .error e => .error e
      | .ok (l, w) => .ok (laneOf n.cfg.twin ((fmtOf? t).isNone && t != .e2m1x) ep v pat :: l, w)

/-! ## The feed -/

/-- Whether a run of `m` elements of an e2m1x operand lies in one bank of the issuing core whose FMT is e2m1x (R308). -/
def State.runPlaced (s : State) (n : ActiveNest) (r : Run) (at_ : RunAt) (m : Nat) : Bool :=
  let spot := fun (k : Nat) => bankHolding (s.homeOffset n (((at_ k).1 + (at_ k).2 / 2) % 2 ^ 64) 1) 1
  match spot 0 with
  | none => false
  | some (b, _) => r.bfmt[b].toNat % 32 == Ty.code .e2m1x && (upFrom 1 (m - 1)).all fun k => (spot k).map Prod.fst == some b

/-- Whether the runs of an operand lie where they may (R308). -/
def State.opPlaced (s : State) (n : ActiveNest) (r : Run) (t : Ty) (at_ : Nat → RunAt) (runs : Nat) : Bool :=
  t != .e2m1x || (upFrom 0 runs).all fun i => s.runPlaced n r (at_ i) n.cfg.run

/-- The type of a code. -/
def tyOf (c : Nat) : Ty := (Ty.ofCode c).getD .int8

/-- Start the run at PROG: BADOP, or its exponents. -/
def State.startRun (s : State) (n : ActiveNest) (idx : List Nat) : Except (Cause × Nat) (Option Run × State) :=
  let cols := s.bank.columns
  let ta := tyOf n.cfg.fa
  let tb := tyOf n.cfg.fb
  let r0 : Run := { nest := n.id, idx := idx, k := 0, s := List.replicate (128 * cols) 0, rsq := List.replicate 128 0
                    csq := List.replicate cols 0, epA := [], epB := [], specA := [], specB := [], bfmt := s.bank.bfmt, flags := 0 }
  if !s.opPlaced n r0 ta (n.cfg.rowA idx) 128 || !s.opPlaced n r0 tb (n.cfg.colB idx) cols then .ok (none, s)
  else
    match s.exps n r0 ta (n.cfg.rowA idx) false 0 128 with
    | .error e => .error e
    | .ok (ea, t) =>
      match t.exps n r0 tb (n.cfg.colB idx) true 0 cols with
      | .error e => .error e
      | .ok (eb, u) =>
        .ok (some { r0 with epA := ea.map Prod.fst, epB := eb.map Prod.fst, specA := ea.map Prod.snd, specB := eb.map Prod.snd }, u)

/-- Add to the sums of a run, each in its register of `w` bits (R305). -/
def addSums (w : Nat) (l m : List Nat) : List Nat := l.zipWith (fun x y => (x + y) % 2 ^ w) m

/-- One k-step. -/
def State.feedK (s : State) (n : ActiveNest) (r : Run) : Except (Cause × Nat) (Run × State) :=
  match s.lanes n r (tyOf n.cfg.fa) (n.cfg.rowA r.idx) 0 r.epA with
  | .error e => .error e
  | .ok (la, t) =>
    match t.lanes n r (tyOf n.cfg.fb) (n.cfg.colB r.idx) 0 r.epB with
    | .error e => .error e
    | .ok (lb, u) =>
      let a := la.map Prod.fst
      let b := lb.map Prod.fst
      let sq := fun (x : Int) => (x * x).toNat
      let cells := a.flatMap fun x => b.map fun y => sq (x + y)
      .ok ({ r with k := r.k + 1, s := addSums 36 r.s cells, rsq := addSums 34 r.rsq (a.map sq), csq := addSums 34 r.csq (b.map sq)
                    specA := r.specA.zipWith (· || ·) (la.map fun x => x.2.2), specB := r.specB.zipWith (· || ·) (lb.map fun x => x.2.2)
                    flags := if la.any (fun x => x.2.1) || lb.any (fun x => x.2.1) then r.flags ||| 64#8 else r.flags }, u)

/-- Replace a nest that is on the panel. -/
def Panel.setNest (p : Panel) (n : ActiveNest) : Panel :=
  let put := fun (x : ActiveNest) => if x.id = n.id then n else x
  { p with nests := p.nests.map put, pending := p.pending.map put }

/-- The nest that is fed. -/
def Panel.feeding (p : Panel) : Option ActiveNest := p.nests.find? fun n => n.next.isSome

/-- Read the scale vector (R321): 256 values, 512 for a GANG. -/
def State.readScales (s : State) (n : ActiveNest) : Except (Cause × Nat) (List Nat × State) :=
  if n.cfg.scale = 0 then .ok ([], s)
  else
    match s.panelRead n n.cfg.scale.toNat (4 * s.bank.columns) true with
    | .error e => .error e
    | .ok (b, t) => .ok (elements .fp32 b, t)

/-- Whether the panel works for the core in this cycle (R329 SHARED), for a bank of mode `mode` on side `side`. -/
def State.inWindow (s : State) (b : Bank) : Bool := b.pmode != 1 || (s.w / 64 % 2 == 1) == b.side

/-- Whether what NGO released has performed (R233): the panel reads nothing for the nest before. -/
def State.nestReleased (s : State) (n : ActiveNest) : Bool :=
  decide (n.from_ ≤ s.bank.cycle - s.bank.slip) && s.releasedBefore { core := s.coreNo, bank := n.bank, sid := .N } n.rel

/-- Read the scale vector of a nest that NGO has copied (R321). -/
def State.scaleStep (s : State) (n : ActiveNest) : Except (Cause × Nat) State :=
  match s.readScales n with
  | .error e => .error e
  | .ok (l, t) => .ok (t.setPanel fun p => p.setNest { n with scales := some l })

/-- One step of the feed, with the bank of the nest in hand: the start of a run, or a k-step. A run starts when a copy of the accumulators is
free: of two, or under SHARED of one (R305, R315, R329). -/
def State.feedStep (s : State) (n : ActiveNest) (idx : List Nat) : Except (Cause × Nat) State :=
  let p := s.core.panel
  match p.cur with
  | none =>
    if p.saving ∨ (if s.bank.pmode = 1 then 1 else 2) ≤ p.fed.length then .ok s
    else
      (match s.startRun n idx with
        | .error e => .error e
        | .ok (some r, t) => .ok (t.setPanel fun p => { p with cur := some r })
        | .ok (none, t) => .ok (t.setPanel fun p => p.setNest { n with next := none, status := 5 }))
  | some r =>
    if p.saving ∧ s.bank.pmode ≠ 2 then .ok s
    else
      match s.feedK n r with
      | .error e => .error e
      | .ok (r', t) =>
        if r'.k < n.cfg.run then .ok (t.setPanel fun p => { p with cur := some r' })
        else
          .ok (t.setPanel fun p => { p.setNest { n with next := n.cfg.after 0 idx } with cur := none, fed := p.fed ++ [r'] })

/-- Act with bank `b` of the core in hand as its N stream. -/
def State.asNest {ε : Type} (s : State) (b : Nat) (f : State → Except ε State) : Except ε State :=
  match f { s.focusBank b with sid := .N } with
  | .error e => .error e
  | .ok t => .ok { t.focusBank s.bankNo with sid := s.sid }

/-- The nest whose scale vector is read next, as soon as NGO has copied it and what that released has performed (R321, R233). -/
def State.scaleNest (s : State) : Option ActiveNest :=
  s.core.panel.all.find? fun n => n.scales.isNone && !n.scaleStop && (s.focusBank n.bank).nestReleased n

/-- The next step of the feed: the read of a scale vector, else one for the nest that is fed; nothing where it may not go on. -/
def State.feedNext (s : State) : Except (Cause × Nat) State :=
  match s.scaleNest, s.core.panel.feeding with
  | some n, _ => s.asNest n.bank fun t => t.scaleStep n
  | none, none => .ok s
  | none, some n =>
    if s.core.panel.feedStop || n.scales.isNone then .ok s
    else
      s.asNest n.bank fun t =>
        match n.next with
        | some idx => if t.inWindow t.bank && t.nestReleased n then t.feedStep n idx else .ok t
        | none => .ok t

/-! ## The drain (R306, R314) -/

/-- p of a cell: half of S - RSQ - CSQ, a two's complement value of 36 bits. -/
def halfDiff (s rsq csq : Nat) : Int :=
  let dd := BitVec.ofInt 36 (Int.ofNat s - Int.ofNat rsq - Int.ofNat csq)
  if dd.toInt % 2 = 0 then dd.toInt / 2 else (Config.oddHalf dd).toInt

/-- The value of an element of a run: v or p, and its flags. -/
def drainValue (n : ActiveNest) (r : Run) (cols i j : Nat) : Int × Nat × BitVec 8 :=
  if r.specA.getD i false || r.specB.getD j false then (0, 0x7FC00000, 128#8)
  else
    let p := halfDiff (r.s.getD (i * cols + j) 0) (r.rsq.getD i 0) (r.csq.getD j 0)
    if n.cfg.int32 then (p, 0, 0)
    else
      let v := fmtFp32.round envRne (decide (p < 0)) p.natAbs (r.epA.getD i 0 + r.epB.getD j 0)
      match n.scales with
      | some (x :: l) =>
        let w := fMul fmtFp32 envRne (fmtFp32.decode v.1) (fmtFp32.decode ((x :: l).getD j 0))
        (p, w.1, (v.2 ||| w.2).setWidth 8)
      | _ => (p, v.1, v.2.setWidth 8)

/-- What an element leaves in C, from the old C. -/
def drainInto (n : ActiveNest) (stores : Bool) (old : Nat) (x : Int × Nat × BitVec 8) : Nat × BitVec 8 :=
  if n.cfg.int32 then
    let r := intResult .int32 true (if stores then x.1 else signedNat 32 old + x.1)
    (r.1, x.2.2 ||| r.2.setWidth 8)
  else if stores then (x.2.1, x.2.2)
  else
    let r := fAdd fmtFp32 envRne (fmtFp32.decode old) (fmtFp32.decode x.2.1)
    (r.1, x.2.2 ||| r.2.setWidth 8)

/-- Write one element of C, with the bank of the nest in hand. -/
def State.drainElem (s : State) (n : ActiveNest) (r : Run) (e : Nat) : Except (Cause × Nat) (ActiveNest × Run × State) :=
  let cols := s.bank.columns
  let i := e / cols
  let j := e % cols
  let va := moved (n.cfg.pc r.idx) (Int.ofNat i * sgn32 n.cfg.pitch.sc + Int.ofNat (4 * j))
  let x := drainValue n r cols i j
  let stores := n.cfg.stores r.idx
  match (if stores then .ok ([], s) else s.panelRead n va 4 true) with
  | .error y => .error y
  | .ok (b, t) =>
    if 2 ^ 56 < va + 4 then .error (cADDRFORM, va)
    else
      let y := drainInto n stores (leNat b) x
      match t.engWrite (pipe n t.core.panel.hurt) va (leBytes y.1 4) false with
      | .error z => .error z
      | .ok (u, c) =>
        .ok ({ n with status := if n.status = 0 then c.status else n.status }, { r with flags := r.flags ||| y.2 }, u.countPipe n c.far)

/-- The nest is done: its reply, if there is room for it (R322). -/
def ActiveNest.reply (n : ActiveNest) : Word :=
  BitVec.ofNat 64 (n.drained % 2 ^ 40 * 2 ^ 24 + 4 * 2 ^ 20 + n.status * 2 ^ 16 + n.flags.toNat % 64 * 2 ^ 8 + n.flags.toNat / 64 * 2 ^ 6)

/-- Whether every run of a nest is fed and drained. -/
def Panel.finished (p : Panel) (n : ActiveNest) : Bool :=
  n.next.isNone && (p.cur.toList ++ p.fed ++ (p.out.map Prod.fst).toList).all fun r => r.nest != n.id

/-- What the run that is fed has raised stays in PSTAT of the bank in hand (R307). -/
def State.keepRaised (s : State) : State :=
  match s.core.panel.cur with
  | some r => s.setBank fun b => { b with pstat := b.pstat ||| r.flags }
  | none => s

/-- The distant bytes of a nest that leaves the panel are counted under its tag (R207). -/
def State.countNest (s : State) (n : ActiveNest) : State :=
  (s.addHot (2 * n.cfg.tag) (Tbl.get s.core.panel.far n.id 0)).setPanel fun p => { p with far := Tbl.del p.far n.id }

/-- Report the oldest nest, with its bank in hand. -/
def State.reportNest (s : State) (n : ActiveNest) : State :=
  if n.cfg.rpl ∧ ¬ s.replyRoom 14 then s
  else
    let t := (s.countNest n).setPanel fun p => { p with nests := p.nests.filter fun x => x.id != n.id }
    if n.cfg.rpl then (t.pushReply 14 n.reply).setBank fun b => { b with nests := b.nests - 1 } else t

/-- The next step of the drain: an element, the end of a run, or a reply. -/
def State.drainNext (s : State) : Except (Cause × Nat) State :=
  let p := s.core.panel
  if p.drainStop then .ok s
  else
    match p.out with
    | some (r, e) =>
      (match p.nests.find? fun n => n.id == r.nest with
        | none => .ok (s.setPanel fun p => { p with out := none })
        | some n => s.asNest n.bank fun t =>
          if e < 128 * t.bank.columns then
            match t.drainElem n r e with
            | .error y => .error y
            | .ok (n', r', u) => .ok (u.setPanel fun p => { p.setNest n' with out := some (r', e + 1) })
          else
            .ok ((t.setPanel fun p => { p.setNest { n with drained := n.drained + 1, flags := n.flags ||| r.flags } with out := none }).setBank
              fun b => { b with pstat := b.pstat ||| r.flags }))
    | none =>
      match p.nests with
      | n :: _ => if p.finished n then s.asNest n.bank fun t => .ok (t.reportNest n) else .ok s
      | [] => .ok s

/-! ## The panel's steps -/

/-- The credits that the feed's or the drain's step under way has taken (R365). -/
def Panel.paid (p : Panel) (drain : Bool) : Tbl Nat := if drain then p.drainPaid else p.feedPaid

def State.setPaid (s : State) (drain : Bool) (l : Tbl Nat) : State :=
  s.setPanel fun p => if drain then { p with drainPaid := l } else { p with feedPaid := l }

/-- The next step of the feed or of the drain. -/
def State.panelNext (s : State) (drain : Bool) : Except (Cause × Nat) State :=
  let paid := s.core.panel.paid drain
  let t := s.lend paid
  match (if drain then t.drainNext else t.feedNext) with
  | .error x => .error x
  | .ok u => .ok (if paid.isEmpty then u else (u.settle paid).setPaid drain [])

/-- Whether the next step of the feed or of the drain waits. -/
def State.panelWaits (s : State) (drain : Bool) : Bool :=
  match s.panelNext drain with
  | .error x => x.1 == cWAITS
  | .ok _ => false

/-- The feed or the drain, whose next step waits, sends what it has credits for. -/
def State.payPanel (s : State) (drain : Bool) : State :=
  let x := s.payAhead (fun t => t.panelWaits drain) (s.core.panel.paid drain)
  if x.2 = s.core.panel.paid drain then s else x.1.setPaid drain x.2

/-- Note since when the next access of the feed or of the drain waits. -/
def State.noteWait (s : State) (drain : Bool) (waits : Bool) : State :=
  let go := fun (x : Nat) => if !waits then 0 else if x = 0 then s.w + 1 else x
  s.setPanel fun p => if drain then { p with drainWait := go p.drainWait } else { p with feedWait := go p.feedWait }

/-- `n` steps of the feed or of the drain; a fault ends them, and PANEL_FAULT takes it. -/
def State.runPanel (s : State) (drain : Bool) : Nat → State
  | 0 => s
  | n + 1 =>
    match s.panelNext drain with
    | .error (c, _) => (if c = cWAITS then s.payPanel drain else s).noteWait drain (c == cWAITS)
    | .ok t => State.runPanel (t.noteWait drain false) drain n

/-- NEST_ACTIVATE: the pending nest becomes active at a run boundary after the last run of the active one is fed. -/
def execNestActivate (s : State) : Result :=
  let p := s.core.panel
  match p.pending with
  | some n =>
    if p.feeding.isNone ∧ p.cur.isNone then .next (s.setPanel fun p => { p with nests := p.nests ++ [n], pending := none }) else .next s
  | none => .next s

/-- RUN_DRAIN: the conversion of the oldest fed run, once the C writes of the run before have ended, in the core's windows (R329); its copy is
free, and NCSQ reads it. -/
def execRunDrain (s : State) : Result :=
  let p := s.core.panel
  match p.fed, p.out with
  | r :: rest, none =>
    let b := match p.nests.find? fun n => n.id == r.nest with
      | some n => n.bank
      | none => p.lastBank
    if s.inWindow (s.bankAt s.coreNo b) then
      .next (s.setPanel fun p => { p with fed := rest, out := some (r, 0), lastRsq := r.rsq, lastCsq := r.csq, lastBank := b })
    else .next s
  | _, _ => .next s

/-- POS of a panel record: k-step and run ordinal of PROG, the next step to feed (R327, R342). -/
def Panel.pos (p : Panel) : Word :=
  let k := match p.cur with
    | some r => r.k % 4096
    | none => 0
  BitVec.ofNat 64 (k + 2 ^ 16 * (match p.feeding with
    | some n => n.cfg.ordinal 0 (n.next.getD [])
    | none => 0))

/-- The record of a panel fault. -/
def State.panelRecord (s : State) (n : ActiveNest) (c : Cause) (va : Nat) (part : PanelPart) : Record :=
  { info := infoWord c 6 s.coreNo n.bank (part == .drain) (s.focusBank n.bank).streamA.space, va := BitVec.ofNat 64 va, word := n.word
    pos := s.core.panel.pos, who := .panel s.coreNo n.id part
    task := (match (s.focusBank n.bank).bank.iter with
      | some i => i.task
      | none => 0) }

/-- What the next step of the feed or of the drain works for. -/
def State.panelWork (s : State) (drain : Bool) : Option (ActiveNest × PanelPart) :=
  let p := s.core.panel
  if drain then (p.out.bind fun o => p.nests.find? fun n => n.id == o.1.nest).map fun n => (n, .drain)
  else
    match s.scaleNest with
    | some n => some (n, .scales)
    | none => p.feeding.map fun n => (n, .feed)

/-- Stop, or let go on, a part of the panel; the read of scales is that of nest `id`. -/
def Panel.halt (p : Panel) (id : Nat) (part : PanelPart) (stop : Bool) : Panel :=
  let put := fun (n : ActiveNest) => if n.id = id then { n with scaleStop := stop } else n
  match part with
  | .feed => { p with feedStop := stop }
  | .drain => { p with drainStop := stop }
  | .scales => { p with nests := p.nests.map put, pending := p.pending.map put }

/-- The feed or the drain stops on a fault, and the record is posted (R327). -/
def State.stopPanel (s : State) (drain : Bool) (c : Cause) (va : Nat) : State :=
  match s.panelWork drain with
  | none => s
  | some (n, part) => (s.setPanel fun p => p.halt n.id part true).post (s.panelRecord n c va part)

/-- PANEL_FAULT: the feed's or the drain's next step meets a fault. -/
def execPanelFault (s : State) : Result :=
  let go := fun (s : State) (drain : Bool) => match s.panelNext drain with
    | .error (c, va) => if c = cWAITS then s else s.stopPanel drain c va
    | .ok _ => s
  .next (go (go s false) true)

/-- The next access of the feed or of the drain fails, as `why` says: a fault, or STATUS (R288, R322, R355). -/
def State.hurtPanel (s : State) (drain : Bool) (why : Nat) : State :=
  match (s.setPanel fun p => { p with hurt := why }).panelNext drain with
  | .error (c, va) => if c = cWAITS then s else s.stopPanel drain c va
  | .ok t => t.setPanel fun p => { p with hurt := 0 }

/-- An access of the panel has waited for 2^24 cycles: a read faults, a C store sets STATUS (R322). -/
def State.latePanel (s : State) : State :=
  let late := fun (x : Nat) => x != 0 && decide (x + patience ≤ s.w + 1)
  let why := fun (u : State) (drain : Bool) => if u.panelWaits drain then 36 else 34
  let t := if late s.core.panel.feedWait then s.hurtPanel false (why s false) else s
  if late t.core.panel.drainWait then t.hurtPanel true (why t true) else t

/-! ## NSAVE and NLOAD (R326) -/

/-- Bytes of a block. -/
def blockSize (gang : Bool) : Nat := if gang then 0x51C80 else 0x29140

/-- A configuration in 192 bytes. -/
def Nest.bytes (n : Nest) : List Byte :=
  (n.lev.toList.flatMap fun l => leBytes l.sa.toNat 4 ++ leBytes l.sb.toNat 4 ++ leBytes l.sc.toNat 4 ++ leBytes l.bound.toNat 2 ++ [0, 0])
    ++ leBytes n.abase.toNat 8 ++ leBytes n.bbase.toNat 8 ++ leBytes n.cbase.toNat 8 ++ leBytes n.scale.toNat 8
    ++ leBytes n.fmt 4 ++ leBytes n.drn 4 ++ leBytes n.go 4 ++ leBytes n.cls 4 ++ List.replicate 32 0

/-- Read a configuration; none where a reserved byte is not zero. -/
def readNest (b : List Byte) : Option Nest :=
  let f := fun (o n : Nat) => leNat ((b.drop o).take n)
  let lev := fun (l : Nat) => ({ bound := BitVec.ofNat 16 (f (16 * l + 12) 2), sa := BitVec.ofNat 32 (f (16 * l) 4)
                                 sb := BitVec.ofNat 32 (f (16 * l + 4) 4), sc := BitVec.ofNat 32 (f (16 * l + 8) 4) } : Level)
  if (upFrom 0 7).any (fun l => f (16 * l + 14) 2 != 0) ∨ f 160 32 ≠ 0 then none
  else
    some { lev := #v[lev 0, lev 1, lev 2, lev 3, lev 4, lev 5, lev 6], abase := BitVec.ofNat 64 (f 112 8), bbase := BitVec.ofNat 64 (f 120 8)
           cbase := BitVec.ofNat 64 (f 128 8), scale := BitVec.ofNat 64 (f 136 8), fmt := f 144 4, drn := f 148 4, go := f 152 4
           cls := f 156 4 }

/-- Bits packed eight to a byte. -/
def bitBytes (l : List Bool) (n : Nat) : List Byte :=
  (upFrom 0 n).map fun m => BitVec.ofNat 8 ((upFrom 0 8).foldl (fun a i => a + if l.getD (8 * m + i) false then 2 ^ i else 0) 0)

/-- The first `n` of a list, with `z` behind its end. -/
def sized {α : Type} (n : Nat) (z : α) (l : List α) : List α := (l ++ List.replicate n z).take n

/-- The columns `lo` to `lo + 255` of every row. -/
def cellsOf (cols lo : Nat) (l : List Nat) : List Nat := (upFrom 0 128).flatMap fun i => (l.drop (i * cols + lo)).take 256

/-- The block of a panel whose fed run is `cur`, its active and pending nests, and the bank's shadow: `blockSize gang` bytes. -/
def panelBlock (gang : Bool) (cur : Option Run) (active pending : Option ActiveNest) (shadow : Nest) : List Byte :=
  let cols := if gang then 512 else 256
  let r : Run := cur.getD { nest := 0, idx := [], k := 0, s := List.replicate (128 * cols) 0, rsq := List.replicate 128 0
                            csq := List.replicate cols 0, epA := List.replicate 128 0, epB := List.replicate cols 0
                            specA := [], specB := [], bfmt := Vector.replicate 16 0, flags := 0 }
  let idx := match active with
    | some n => n.next.getD []
    | none => []
  let scales := match active with
    | some n => n.scales.getD []
    | none => []
  let cfg := fun (x : Option ActiveNest) => match x with
    | some n => n.cfg.bytes
    | none => List.replicate 192 0
  let five := fun (n : Nat) (l : List Nat) => (sized n 0 l).flatMap fun x => leBytes x 5
  let two := fun (n : Nat) (l : List Int) => (sized n 0 l).flatMap fun x => leBytes (patOf 16 x) 2
  let four := fun (lo : Nat) => (sized 256 0 (scales.drop lo)).flatMap fun x => leBytes x 4
  five 32768 (cellsOf cols 0 r.s) ++ five 128 r.rsq ++ five 256 r.csq ++ two 128 r.epA ++ two 256 r.epB
    ++ bitBytes r.specA 16 ++ bitBytes (r.specB.take 256) 32
    ++ ((sized 6 0 idx).flatMap fun x => leBytes x 2) ++ leBytes r.k 2 ++ [0, 0]
    ++ cfg active ++ cfg pending ++ shadow.bytes ++ four 0
    ++ leBytes 0x314C4E50 4 ++ [BitVec.ofNat 8 ((if active.isSome then 1 else 0) + (if pending.isSome then 2 else 0)
        + (if cur.isSome && r.k != 0 then 4 else 0) + if gang then 8 else 0)] ++ List.replicate 59 0
    ++ (if gang then five 32768 (cellsOf cols 256 r.s) ++ five 256 (r.csq.drop 256) ++ two 256 (r.epB.drop 256)
        ++ bitBytes (r.specB.drop 256) 32 ++ four 256 ++ List.replicate 32 0 else [])

/-- The ECMD of NSAVE and NLOAD. -/
def blockBad (gang : Bool) (a : Word) : Bool :=
  match winOf a.toNat with
  | .self off => decide (2 ^ 56 ≤ a.toNat) || off % 64 != 0 || decide (2 ^ 22 < off + blockSize gang)
  | _ => true

/-- The offset of a self-window VA. -/
def selfOff (a : Word) : Nat := a.toNat % 2 ^ 22

/-- Take the active and the pending nest of the bank in hand off the panel, which is then idle with its copies zero; the reply of a nest
whose runs have all drained is still due. A record that stops the feed stops none that comes after. -/
def State.idlePanel (s : State) : State :=
  let mine := fun (n : ActiveNest) => n.bank == s.bankNo && n.next.isSome
  let gone := s.core.panel.all.filter mine
  (State.setPanel (gone.foldl State.countNest s.keepRaised) fun p =>
    { p with nests := p.nests.filter fun n => !mine n, pending := p.pending.filter fun n => !mine n
             cur := none, lastRsq := [], lastCsq := [], saving := false, feedStop := false }).setBank fun b =>
    { b with nests := b.nests - (gone.filter fun n => n.cfg.rpl).length }

/-- Whether the panel has nothing left to convert or write. -/
def Panel.quiet (p : Panel) : Bool := p.fed.isEmpty && p.out.isNone

/-- NSAVE; it has its place behind the earlier own stores of its stream, and among the accesses of its class (R227) (log 52, DEDUCED). -/
def execNsave (a : Opnd) (cls : Fin 16) (s : State) : Result :=
  s.guard [a] []
    (let x := s.take a
     let gang := s.bank.pmode == 2
     let p := s.core.panel
     if blockBad gang x.1 then s.trap cECMD x.1
     else if s.otherNest then .next (s.hold (.ext .panel))
     else if !p.quiet || (gang && p.cur.isSome) || p.nests.any fun n => n.scales.isNone then .next ((s.setPanel fun p => { p with saving := true }).hold (.ext .panel))
     else if s.ownHeld cls.val true [(selfOff x.1, blockSize gang)] then .next (s.hold (.ext .access))
     else if s.now < s.ownReady then .next (s.hold .result)
     else if s.flawedOwn (selfOff x.1) (blockSize gang) then s.trap (cUNCORR 0) x.1
     else
       let block := panelBlock gang p.cur p.feeding p.pending s.bank.shadow
       .next ((x.2.engOwn (selfOff x.1) 0 none block).idlePanel).finish)

/-- What a block holds. -/
structure Saved where
  run : Option Run
  active : Option (Nest × List Nat × List Nat)
  pending : Option Nest
  shadow : Nest
  gang : Bool
  deriving DecidableEq, Repr

/-- Read a block; none where MAGIC or reserved bytes are wrong. -/
def readBlock (bfmt : Vector Word 16) (b : List Byte) : Option Saved :=
  let f := fun (o n : Nat) => leNat ((b.drop o).take n)
  let flags := f 0x29104 1
  let gang := flags / 8 % 2 == 1
  let five := fun (w o n : Nat) => (upFrom 0 n).map fun i => f (o + 5 * i) 5 % 2 ^ w
  let two := fun (o n : Nat) => (upFrom 0 n).map fun i => signedNat 16 (f (o + 2 * i) 2)
  let bits := fun (o n : Nat) => (upFrom 0 n).map fun i => f (o + i / 8) 1 / 2 ^ (i % 8) % 2 == 1
  let lower := five 36 0 32768
  let upper := if gang then five 36 0x29140 32768 else []
  let cells := (upFrom 0 128).flatMap fun i => (lower.drop (256 * i)).take 256 ++ (upper.drop (256 * i)).take 256
  let idx := (upFrom 0 6).map fun l => f (0x28AB0 + 2 * l) 2
  let k := f 0x28ABC 2
  let scales := ((upFrom 0 256).map fun j => f (0x28D00 + 4 * j) 4) ++ (if gang then (upFrom 0 256).map fun j => f (0x51860 + 4 * j) 4 else [])
  let cfg := fun (i : Nat) => readNest ((b.drop (0x28AC0 + 192 * i)).take 192)
  if f 0x29100 4 ≠ 0x314C4E50 ∨ 16 ≤ flags ∨ f 0x29105 59 ≠ 0 ∨ f 0x28ABE 2 ≠ 0 ∨ (gang ∧ f 0x51C60 32 ≠ 0) then none
  else
    match cfg 0, cfg 1, cfg 2 with
    | some a, some p, some sh =>
      some { run := if flags / 4 % 2 = 1 then
                      some { nest := 0, idx := idx, k := k, s := cells, rsq := five 34 0x28000 128
                             csq := five 34 0x28280 256 ++ (if gang then five 34 0x51140 256 else []), epA := two 0x28780 128
                             epB := two 0x28880 256 ++ (if gang then two 0x51640 256 else [])
                             specA := bits 0x28A80 128
                             specB := bits 0x28A90 256 ++ (if gang then bits 0x51840 256 else []), bfmt := bfmt, flags := 0 }
                    else none
             active := if flags % 2 = 1 then some (a, idx, scales) else none
             pending := if flags / 2 % 2 = 1 then some p else none
             shadow := sh, gang := gang }
    | _, _, _ => none

/-- The NGO word of a configuration. -/
def Nest.goWord (n : Nest) : Word := BitVec.ofNat 64 (0x94 * 2 ^ 46 + n.cls * 2 ^ 18 + n.go)

/-- Restore a block onto the idle panel for the bank in hand; `unread`: the scale vector of its active nest was not captured, and is read. -/
def State.loadBlock (s : State) (b : Saved) (unread : Bool) : State :=
  let nest := fun (cfg : Nest) (id : Nat) => ({ s.newNest cfg with id := id, word := cfg.goWord } : ActiveNest)
  let act := b.active.map fun x => { nest x.1 s.issued with
    next := some x.2.1, scales := if unread then none else some (if x.1.scale = 0 then [] else x.2.2), drained := x.1.ordinal 0 x.2.1 }
  let pen := b.pending.map fun cfg => nest cfg (s.issued + 1)
  let more := ((act.toList ++ pen.toList).filter fun n => n.cfg.rpl).length
  ((State.setPanel { s with issued := s.issued + 2 } fun p =>
    { p with nests := act.toList, pending := pen, cur := if act.isSome then b.run.map fun r => { r with nest := s.issued } else none }).setShadow
      fun _ => b.shadow).setBank fun k => { k with nests := k.nests + more }

/-- NLOAD, behind them too. -/
def execNload (a : Opnd) (cls : Fin 16) (s : State) : Result :=
  s.guard [a] []
    (let x := s.take a
     let gang := s.bank.pmode == 2
     if blockBad gang x.1 then s.trap cECMD x.1
     else if s.core.panel.all ≠ [] then .next (s.hold (.ext .panel))
     else if s.ownHeld cls.val false [(selfOff x.1, blockSize gang)] then .next (s.hold (.ext .access))
     else if s.now < s.ownReady then .next (s.hold .result)
     else if s.flawedOwn (selfOff x.1) (blockSize gang) then s.trap (cUNCORR 0) x.1
     else
       match readBlock s.bank.bfmt (s.scratchRead s.coreNo (selfOff x.1) (blockSize gang)) with
       | some b =>
         if b.gang = gang then .next (x.2.loadBlock b false).finish
         else s.trap cECMD x.1
       | none => s.trap cECMD x.1)

end Sys2Proof.Machine
end

