-- ==== Sys2Proof/Machine/Lanes.lean ====
section
/-! DEFINITION. The steps that every access takes: it performs at its place (R226 to R232, R365) or fails there, and what it read returns to
its stream (R12, R44, R142); the death of a port (R367); and the accesses of peer devices (R201, R224). -/

namespace Sys2Proof.Machine

/-! ## MEMORY_ACCESS_PERFORM -/

/-- Whether a request is a digest instruction's. -/
def Req.digest : Req → Bool
  | .dget _ _ | .dgetv _ | .dcls _ _ _ | .dredo => true
  | .load _ _ | .store | .vload _ | .vstore | .writeback | .amo _ _ _ | .cas _ _ _ => false

/-- A part behind a granule of the region map of its bank (R198): it reads the scratchpad once the granule is filled, takes the fault that
the fill met, or asks for the fill. -/
def State.performBehind (s : State) (k : Nat) (x : Access) (p : Piece) (at_ : Place) (rest : List Piece) : State :=
  let b := s.bankAt x.agent.core x.agent.bank
  let g := at_.gen
  if (b.map.toList.getD at_.slot MapEntry.zero).isFilled g then
    (if s.flawed at_.loc p.n then s.performFail k x p.va 35 rest else s.performPlain k x p at_ rest)
  else
    match State.fillFault { s with bank := b } at_.slot g with
    | some f =>
      (s.setAccess k fun x => { x with todo := [], fail := some f, va := p.va }).onAgent x.agent fun t => t.dropFill at_.slot g
    | none => s.onAgent x.agent fun t => t.askFill at_.slot g x.ord

/-- Whether the next step of an access is its acceptance by D0's PCIe controller or the link engine: a store whose parts all lie at
HOST or PEER homes (R226) (log 27, DEDUCED). -/
def Access.accepts (x : Access) : Bool :=
  x.req.stores && !x.accepted && x.sc.isNone && x.todo.all fun p => match p.place with
    | some a => a.home == 1 || a.home == 2
    | none => false

/-- An uncorrectable error that a store of an instruction's write-back meets is a fault of the write-back (R199): its bytes are WRITTEN again,
the write-back stops, and the record is posted. -/
def State.writebackError (s : State) (k : Nat) (x : Access) (p : Piece) : State :=
  State.onBank (s.dropAccess k) x.agent.core x.agent.bank fun t =>
    match t.mapAt p.va, t.bank.wb with
    | some e, some w =>
      let w' := { w with stopped := true, left := if w.left.contains e then w.left else e :: w.left, sent := w.sent - p.n }
      (t.setBank fun b => { b with map := b.map.set e (b.map[e].write p.va p.n), wb := some w' }).post (t.writebackRecord w' (cUNCORR 0) p.va)
    | _, _ => t

/-- A part of the access at place `k` fails, as `why` says. -/
def State.partFails (s : State) (k : Nat) (x : Access) (p : Piece) (why : Nat) (rest : List Piece) : State :=
  if x.req = .writeback ∧ why = 35 ∧ s.owns x then s.writebackError k x p else s.performFail k x p.va why rest

/-- A part at a distant place: it goes out on a credit where it leaves the device, and its home refuses or performs it. -/
def State.performAway (s : State) (k : Nat) (x : Access) (p : Piece) (at_ : Place) (rest : List Piece) : State :=
  match s.refusal x.agent.die at_ p.n with
  | some why => s.partFails k x p why rest
  | none =>
    match s.takeCredits x.agent.die at_ p.n with
    | some t => t.performPlain k x p at_ rest
    | none => s

/-- Perform the next part of the access at place `k`. -/
def State.performLane (s : State) (k : Nat) : State :=
  match s.flight[k]? with
  | none => s
  | some x =>
    match x.todo with
    | [] => s
    | p :: rest =>
      if !s.mayPerform k then s
      else if x.req.digest then s.performBlock k x p rest
      else if x.accepts then s.setAccess k fun x => { x with accepted := true }
      else
        match p.place with
        | none => s.setAccess k fun x => { x with todo := rest }
        | some at_ => if at_.home = 5 then s.performBehind k x p at_ rest else s.performAway k x p at_ rest

/-- The next part of the access at place `k` meets an uncorrectable error, or is refused by its peer or by the host (R230, R260, R355). -/
def State.spoilLane (s : State) (k why : Nat) : State :=
  match s.flight[k]? with
  | none => s
  | some x =>
    match x.todo with
    | [] => s
    | p :: rest =>
      let due := match x.sc with
        | some (_, some w) => decide (w + 256 ≤ s.w)
        | some (_, none) => false
        | none => s.mayPerform k
      let away := match p.place with
        | some a => a.home == 1 || a.home == 2
        | none => false
      if due && (why == 35 || away) then s.partFails k x p why rest else s

/-! ## Accesses of peer devices (R201, R224) -/

/-- The place of an HBM byte for a peer's access: under the key and generation in which its 64-byte unit stands (log 77, DESIGN CHOICE). -/
def State.peerPlace (s : State) (pa : Nat) : Place :=
  let t := (Tbl.get? s.tags (pa / 64)).getD (0, (s.keyAt 0).gen)
  { home := 0, pa := pa, slot := t.1, gen := t.2, codec := 0 }

/-- Bytes that a peer reads. -/
def State.peerRead (s : State) (pa n : Nat) : List Byte := (upFrom pa n).map fun a => s.homeByte (s.peerPlace a)

/-- Write bytes for a peer: one partial write of each digested block (R214). -/
def State.peerWrite (s : State) (pa : Nat) (bytes : List Byte) : State := s.putPlaces ((upFrom pa bytes.length).map s.peerPlace) bytes

/-- An access of a peer to `n` bytes: refused outside HBM, in the Bureau's carve-out and where the stack is not ready (R201, R394). -/
def State.forPeer (s : State) (pa n : Nat) (k : State) : State :=
  if n = 0 ∨ 0x6000000000 < pa + n ∨ inCarve pa n then { s with outs := s.outs ++ [.aborted] }
  else if (s.refusal 0 (s.peerPlace pa) n).isSome ∨ (s.refusal 0 (s.peerPlace (pa + n - 1)) 1).isSome then { s with outs := s.outs ++ [.aborted] }
  else k

/-- An atomic step of a peer; the old bytes are its answer. -/
def State.peerAtomic (s : State) (r : Req) (pa n : Nat) : State :=
  if (n ≠ 4 ∧ n ≠ 8) ∨ pa % n ≠ 0 then { s with outs := s.outs ++ [.aborted] }
  else
    let old := s.peerRead pa n
    let t := match r.update old with
      | some new => s.peerWrite pa new
      | none => s
    s.forPeer pa n { t with outs := t.outs ++ [.peer old] }

/-! ## Accesses of the Bureau's cores (R2, R201, R224) -/

/-- The access of a core of the Bureau to `n` bytes of HBM from `pa` on, under the Bureau's own key (R350): refused outside HBM and where the stack
is not ready (R394). -/
def State.forBureau (s : State) (pa n : Nat) (k : State) : State :=
  if n = 0 ∨ 0x6000000000 < pa + n then { s with outs := s.outs ++ [.aborted] }
  else if (s.refusal 0 (s.bureauPlace pa) n).isSome ∨ (s.refusal 0 (s.bureauPlace (pa + n - 1)) 1).isSome then { s with outs := s.outs ++ [.aborted] }
  else k

/-- Bytes that a core of the Bureau reads. -/
def State.bureauRead (s : State) (pa n : Nat) : List Byte := s.homeRead (s.bureauPlace pa) n

/-- An atomic step of a core of the Bureau; the old bytes are its answer. -/
def State.bureauAtomic (s : State) (r : Req) (pa n : Nat) : State :=
  if (n ≠ 4 ∧ n ≠ 8) ∨ pa % n ≠ 0 then { s with outs := s.outs ++ [.aborted] }
  else
    let old := s.bureauRead pa n
    let t := match r.update old with
      | some new => s.bureauWrite pa new
      | none => s
    s.forBureau pa n { t with outs := t.outs ++ [.bureau old] }

/-- The slot or the tag of the digested block at a PA takes an uncorrectable error (R216). -/
def State.spoilSlot (s : State) (pa : Nat) : State :=
  match s.blockAt pa with
  | some (b, _, d) => { s with slots := Tbl.put s.slots b { d with bad := true } }
  | none => s

/-- MEMORY_ACCESS_PERFORM: the next part of an access in a lane, or the next steps of an engine, of one command of it, of the feed, of the
drain, of the write-back of the bank in hand or of a digest registration; one that fails there; or an access of a peer or of a core of the
Bureau. -/
def execMemoryAccessPerform (p : Perf) (s : State) : Result :=
  match p with
  | .lane k => .next (s.performLane k)
  | .engine e n => .next (s.runEngine e n)
  | .command e k => .next (s.engineRound e (((s.running e)[k]?).map Cmd.ord).toList)
  | .feed n => .next (s.runPanel false n)
  | .drain n => .next (s.runPanel true n)
  | .spoiled k => .next (s.spoilLane k 35)
  | .refused k => .next (s.spoilLane k 33)
  | .writeback =>
    match s.bank.wb with
    | some w =>
      (match w.left with
        | e :: _ => .next (s.writebackStep e)
        | [] => .next s)
    | none => .next s
  | .engineFails e why => if why = 33 ∨ why = 35 then .next (s.hurtEngine e why) else .next s
  | .panelFails drain why => if why = 33 ∨ why = 35 then .next (s.hurtPanel drain why) else .next s
  | .redo => .next s.nextRedo
  | .slotError pa => .next (s.spoilSlot pa)
  | .flaw loc n => .next { s with flaws := s.flaws ++ [(loc, n)] }
  | .mend => .next { s with flaws := [] }
  | .peerLoad pa n => .next (s.forPeer pa n { s with outs := s.outs ++ [.peer (s.peerRead pa n)] })
  | .peerStore pa bytes => .next (s.forPeer pa bytes.length (s.peerWrite pa bytes))
  | .peerAmo op pa size y => .next (s.peerAtomic (.amo op size y) pa size)
  | .peerCas pa size x y => .next (s.peerAtomic (.cas size x y) pa size)
  | .bureauLoad pa n => .next (s.forBureau pa n { s with outs := s.outs ++ [.bureau (s.bureauRead pa n)] })
  | .bureauStore pa bytes => .next (s.forBureau pa bytes.length (s.bureauWrite pa bytes))
  | .bureauAmo op pa size y => .next (s.bureauAtomic (.amo op size y) pa size)
  | .bureauCas pa size x y => .next (s.bureauAtomic (.cas size x y) pa size)

/-! ## ACCESS_TIMEOUT (R230 to R232) -/

/-- The completion store of the link engine in hand has had no acknowledgement for 2^24 cycles (R379). -/
def State.lateDone (s : State) : State :=
  if s.st.wait = some (.ext .done) ∧ s.link.doneSince + patience ≤ s.w then s.takeTrap (cUNCORR 2) s.link.doneVa else s

/-- An access of a lane has had neither data nor acknowledgement for 2^24 cycles: the parts of a store that have not performed fail (R157), and may
still perform once or never; every other access faults its stream, at its first part without data. -/
def State.lateLane (s : State) (k : Nat) (x : Access) : State :=
  if x.fail.isSome || x.performed || decide (s.w < x.at_ + patience) then s
  else if x.req.stores && x.sc.isNone then
    x.todo.foldl (fun (t : State) p => t.noteFailed x p.va 34) (s.setAccess k fun x => { x with fail := some (0x0F, 2) })
  else s.setAccess k fun x => { x with todo := [], fail := some (0x0F, 2), va := (x.todo.head?.map Piece.va).getD x.va }

/-- ACCESS_TIMEOUT of the access at place `k`; beyond the lanes, 0 and 1 name the copy and the index engine of the core in hand (R288, R298), 2
its panel (R322, R327), and 3 to 6 the completion stores of the four link engines (R379) (log 26, DESIGN CHOICE). -/
def execAccessTimeout (k : Nat) (s : State) : Result :=
  match s.flight[k]? with
  | some x => .next (s.lateLane k x)
  | none =>
    match k - s.flight.length with
    | 0 => .next (s.lateEngine .copy)
    | 1 => .next (s.lateEngine .index)
    | 2 => .next s.latePanel
    | d + 3 => if d < 4 then .next (s.onAgent { core := d, bank := 0, sid := .L } State.lateDone) else .next s

/-! ## The death of a port (R367) -/

/-- Whether a step of the core in hand is in flight on a port: it waits, and the port holds it. -/
def State.awaitsPort (s : State) (port : Nat) (waits : State → Bool) : Bool := waits s && s.shortAt waits port 0

/-- The accesses of the engines and of the panel of the core in hand that are in flight on a port fail. -/
def State.strandCore (s : State) (port : Nat) : State :=
  let engine := fun (t : State) (e : Eng) =>
    ((t.running e).filter fun c => !t.cmdHeld e c && t.awaitsPort port fun u => u.stepWaits e { c with paid := [] }).foldl
      (fun (u : State) c => u.hurtCmd e { c with paid := [] } (64 + port)) t
  let panel := fun (t : State) (drain : Bool) =>
    let u := t.setPaid drain []
    if u.awaitsPort port fun v => v.panelWaits drain then u.hurtPanel drain (64 + port) else t
  panel (panel (engine (engine s .copy) .index) false) true

/-- The fills and the edge engine's store of the bank in hand that are in flight on a port fail. -/
def State.strandBank (s : State) (port : Nat) : State :=
  let t := s.bank.fills.foldl (fun (t : State) f =>
    let e : Fin 16 := Fin.ofNat 16 f.entry
    let waits := fun (u : State) => match u.fillGranule e f.granule with
      | .error c => c == cWAITS
      | .ok _ => false
    if f.fault.isNone && t.awaitsPort port waits then t.failFill e f.granule (cUNCORR 1) else t) s
  if t.awaitsPort port State.writebackWaits then t.failRun else t

/-- Every unscheduled access in flight on a port fails, and the port leaves the live ones. -/
def State.killPort (s : State) (port : Fin 64) : State :=
  let t := ((upFrom 0 s.flight.length).foldl (fun (t : State) k => t.failOnPort port.val k) s).strandDone port.val
  let t := (t.banks.filter fun m => m.1 / 96 == port.val / 16).foldl (fun (t : State) m => t.onBank m.1 m.2 fun u => u.strandBank port.val)
    (if port.val < 16 then t.strandHost port.val else t)
  let cores := ((t.banks.map Prod.fst).eraseDups).filter fun n => n / 96 == port.val / 16
  let u := cores.foldl (fun (t : State) n => t.onBank n 0 fun v => v.strandCore port.val) t
  State.tell { u with ports := Tbl.put u.ports port.val { u.portAt port.val with live := false, lanes := 0 } } port.val

/-- PORT_DEAD. -/
def execPortDead (port : Fin 64) (s : State) : Result := .next (s.killPort port)

/-! ## LOAD_DATA_RETURN -/

/-- The destinations of an access. -/
def Access.dests (x : Access) : List Opnd :=
  (match x.dest with
    | .scalar d => [d]
    | .vec _ | .cargo _ | .none => [])
    ++ match x.req with
      | .dget b c => [b, c]
      | _ => []

/-- What a stream that traps late at the word of `x` keeps of what it is now: what is due to its earlier words (R22). -/
def Access.rewind (x : Access) (now : Stream) : Stream :=
  match x.snap with
  | none => now
  | some (t, _) =>
    { t with failed := now.failed, fences := now.fences.filter fun f => decide (f.ord < x.ord), acq := now.acq
             pops := now.pops.filter fun p => decide (p.1 < x.ord) || (p.1 == x.ord && !x.undo.contains p.2)
             stopped := now.stopped, record := now.record, exited := now.exited }

/-- Take back what the stream in hand has begun behind the access `x`: its registers, loops and vector state are as at the word; the entries
that later words popped stand at the heads of their queues again, and those that they pushed are gone, where no stream has popped them; their
accesses, writes to the core's own banks and commands that are not accepted are dropped (R22, R12) (log 38, DESIGN CHOICE). -/
def State.takeBack (s : State) (x : Access) : State :=
  let me := s.agent
  let mine := fun (k : Nat) (n : Nat) => k == me.key && decide (x.ord < n)
  let later := (s.st.pops.filter fun p => decide (x.ord < p.1)).map Prod.snd
  let t := (s.unpop later).unpop x.undo
  let u := t.setSt (x.rewind t.st)
  let drop := fun (l : List Cmd) => l.filter fun c => !(c.bank == s.bankNo && s.sid == .A && !c.accepted && decide (x.ord < c.rel))
  let v : State := if s.sid = .L then u else
    { u with bank := { u.bank with q := u.bank.q.map fun l => l.filter fun e => !mine e.src e.rel
                                   vec := if s.sid = .X then (x.snap.map Prod.snd).getD u.bank.vec else u.bank.vec }
             core := { u.core with copyQ := drop u.core.copyQ, indexQ := drop u.core.indexQ
                                   early := u.core.early.filter fun e => !(e.bank == s.bankNo && e.by_ == s.sid && decide (x.ord < e.ord)) } }
  { v with flight := v.flight.filter fun y => !(y.agent == me && decide (x.ord < y.ord))
           retires := v.retires.filter fun r => !(r.agent == me && decide (x.ord < r.ord)) }

/-- A late fault: the entries that the word reserved are gone, and its stream traps at the word. -/
def State.lateTrap (s : State) (x : Access) (code sub : Nat) : State :=
  let t := x.dests.foldl (fun (u : State) d => u.unreserve d x.ord) s
  (t.takeBack x).takeTrapAt ⟨code, sub⟩ x.epc (BitVec.ofNat 64 x.va)

/-- Take the accesses with one place in program order out of the lanes. -/
def State.dropOrd (s : State) (a : Agent) (ord : Nat) : State := { s with flight := s.flight.filter fun y => !(y.agent == a && y.ord == ord) }

/-- LOAD_DATA_RETURN: the access at place `k` has performed, and what it read goes to its destinations; or it has failed. -/
def execLoadDataReturn (k : Nat) (s : State) : Result :=
  match s.flight[k]? with
  | none => .next s
  | some x =>
    if !x.returns then .next s
    else
      match x.fail with
      | some (code, sub) => .next ((s.onAgent x.agent fun t => t.lateTrap x code sub).dropOrd x.agent x.ord)
      | none =>
        if x.performed then
          .next ((s.onAgent x.agent fun t => if x.req.digest then t.deliverDigest x else t.deliverAccess x).dropOrd x.agent x.ord)
        else .next s

end Sys2Proof.Machine
end

