-- ==== Sys2Proof/Machine/Launch.lean ====
section
/-! DEFINITION. Launches (R163 to R167, R172, R173, R180 to R182): LAUNCH and GRAPH, the records and their checks, acceptance
with its edges, and replies. -/

namespace Sys2Proof.Machine

/-! ## Replies (R180 to R182) -/

def cLAUNCHREF (sub : Nat) : Cause := ⟨0x11, sub⟩

/-- The reply word. -/
def Reply.value (r : Reply) : Word :=
  BitVec.ofNat 64 (r.seq % 2 ^ 32 * 2 ^ 32 + (if r.graph then 2 ^ 9 else 0) + (if r.stray then 2 ^ 8 else 0) + r.status)

/-- The LAUNCHREF record of a refusal (R334, R342) (log 14, DEDUCED). -/
def Reply.refused (r : Reply) : Record :=
  { info := infoWord (cLAUNCHREF r.status) 8 r.core r.bank false r.space, va := BitVec.ofNat 64 r.at_, word := r.word
    pos := BitVec.ofNat 64 r.number, who := .none, task := 0 }

/-- Post the refusal; a DONE reply is dropped. -/
def State.orPost (s : State) (r : Reply) : State := if r.status = 0 then s else s.post r.refused

/-- Whether an iteration is saved, or on its way back (R345 step 6). -/
def State.away (s : State) (task ord : Nat) : Bool :=
  s.tasks.any (fun t => t.seq == task && t.saved.any fun x => x.1 == ord)
    || s.banks.any fun m =>
      let b := s.bankAt m.1 m.2
      b.restore.isSome && (match b.iter with
        | some it => it.task == task && it.ord == ord
        | none => false)

/-- The bank that holds an iteration. -/
def State.residence (s : State) (task ord : Nat) : Option (Nat × Nat) :=
  s.banks.find? fun m =>
    match (s.bankAt m.1 m.2).iter with
    | some it => it.task == task && it.ord == ord
    | none => false

/-- Write the reply of a ring launch at DONE, and fire the queue's vector; a write that faults or is refused is lost, and DONE is
translated as it stands, with no check of its form (log 33, DESIGN CHOICE). -/
def State.writeDone (s : State) (r : Reply) (va space queue : Nat) : State :=
  match s.xlate space va false true with
  | .error _ => s
  | .ok (p, t) =>
    if (t.refusal 0 p 8).isSome then t
    else let u := t.homeWrite p (leBytes r.value.toNat 8) false; { u with outs := u.outs ++ [.msix (queue + 1)] }

/-- Note the outcome of a launch of a graph node: the first refusal stays (R169), and a first node that was refused has no number (R180). -/
def GraphInst.note (g : GraphInst) (r : Reply) : GraphInst :=
  { g with status := if g.status = 0 then r.status else g.status, badVa := if g.status = 0 then r.at_ else g.badVa
           badNumber := if g.status = 0 then r.number else g.badNumber, badWord := if g.status = 0 then 0 else g.badWord
           first := some (g.first.getD r.seq), stray := g.stray || r.stray }

/-- Deliver a reply; none where it cannot be delivered yet. -/
def State.deliverReply (s : State) (r : Reply) : Option State :=
  match r.target with
  | .nowhere => some (s.orPost r)
  | .bank _ _ task ord =>
    if s.away task ord then none
    else
      match s.residence task ord with
      | some m =>
        if (s.focus m.1 m.2).replyRoom 15 then
          some (s.onBank m.1 m.2 fun t => State.setBank ((State.pushReply { t with sid := .A } 15 r.value)) fun b => { b with launches := b.launches - 1 })
        else none
      | none => some (s.orPost r)
  | .done va space queue => some (if va = 0 then s.orPost r else s.writeDone r va space queue)
  | .graph inst => some { s with graphs := s.graphs.map fun g => if g.id = inst then g.note r else g }

/-- Deliver every reply that can be delivered, oldest first; `kept` are those before that cannot. -/
def State.settleFrom (s : State) (kept : List Reply) : List Reply → State
  | [] => { s with replies := kept }
  | r :: t =>
    match s.deliverReply r with
    | some u => State.settleFrom { u with sid := s.sid } kept t
    | none => State.settleFrom s (kept ++ [r]) t

def State.settleReplies (s : State) : State := s.settleFrom [] s.replies

/-- A reply is due. -/
def State.answer (s : State) (r : Reply) : State := State.settleReplies { s with replies := s.replies ++ [r] }

/-! ## LAUNCH and GRAPH (R181) -/

/-- Where the reply of a command of the bank in hand goes. -/
def State.replyTo (s : State) (rpl : Bool) : ReplyTo :=
  if rpl then
    match s.bank.iter with
    | some it => .bank s.coreNo s.bankNo it.task it.ord
    | none => .bank s.coreNo s.bankNo 0 0
  else .nowhere

/-- Hand a command of the stream in hand to the launch unit. -/
def State.submit (s t : State) (graph : Bool) (va : Nat) (arg : Word) (rpl : Bool) : State :=
  let r : LaunchReq :=
    { graph := graph, va := va, arg := arg, space := s.space, parent := s.bank.iter.map Iter.task, core := s.coreNo, bank := s.bankNo
      word := s.code.getD s.st.pc 0, at_ := va, rel := s.issued, acq := t.st.acq, reply := s.replyTo rpl, stopped := false }
  State.setBank { t with launches := t.launches ++ [r], issued := t.issued + 1 } fun b =>
    { b with launches := b.launches + if rpl then 1 else 0 }

/-- LAUNCH. -/
def execLaunch (rpl : Bool) (a b : Opnd) (s : State) : Result :=
  s.guard [a, b] []
    (let x := s.take a
     let y := x.2.take b
     if x.1.toNat % 256 ≠ 0 ∨ 2 ^ 56 ≤ x.1.toNat then s.trap cECMD x.1
     else if y.1.toNat % 8 ≠ 0 ∨ 2 ^ 56 ≤ y.1.toNat then s.trap cECMD y.1
     else if rpl ∧ 8 ≤ s.bank.launches then .next (s.hold (.ext .launch))
     else .next (s.submit y.2 false x.1.toNat y.1 rpl).finish)

/-- GRAPH. -/
def execGraph (rpl : Bool) (a b : Opnd) (s : State) : Result :=
  s.guard [a, b] []
    (let x := s.take a
     let y := x.2.take b
     if x.1.toNat % 32 ≠ 0 ∨ 2 ^ 56 ≤ x.1.toNat then s.trap cECMD x.1
     else if y.1.toNat = 0 ∨ 65536 < y.1.toNat then s.trap cECMD y.1
     else if rpl ∧ 8 ≤ s.bank.launches then .next (s.hold (.ext .launch))
     else .next (s.submit y.2 true x.1.toNat y.1 rpl).finish)

/-! ## Records (R163 to R167) -/

/-- Why a launch is not accepted: a fault that the Bureau answers, a status, or a read that waits. -/
inductive Refusing where
  | fault (c : Cause) (va : Nat)
  | status (n : Nat)
  /-- the read waits for a flit credit or behind a store (R365, R226) -/
  | waits
  deriving DecidableEq, Repr

/-- Whether a VA lies in the pages of an image that an unload has unmapped: a launch that names it is handled as one whose page is not
present, also while a TLB still holds the entry (R95). -/
def State.unloaded (s : State) (space va : Nat) : Bool :=
  s.bureau.loads.any fun l => l.unloading && l.space == space && l.sections.any fun x => decide (x.1 ≤ va ∧ va < x.1 + (x.2 + 4095) / 4096 * 4096)

/-- Read `n` bytes of a record from die `die`. A translation fault is posted, and so is an uncorrectable error (R355); what its home refuses is
status 7 (log 10, DESIGN CHOICE). -/
def State.recordRead (s : State) (die space va n : Nat) : Except Refusing (List Byte × State) :=
  if winOf va ≠ .mapped ∨ 2 ^ 56 < va + n then .error (.status 7)
  else if s.unloaded space va then .error (.fault (cNOTPRESENT false) va)
  else
    match s.spaceRead die space va n with
    | .ok r => .ok r
    | .error (c, at_) =>
      if c = cWAITS then .error .waits
      else if c.code = 0x06 ∨ c.code = 0x08 ∨ c = cPERM 0 ∨ c = cUNCORR 0 then .error (.fault c at_) else .error (.status 7)

/-- Bytes `o` to `o + n - 1` as a number. -/
def numAt (b : List Byte) (o n : Nat) : Nat := leNat ((b.drop o).take n)

/-- Words of an image's stream at most (R82). -/
def imageLimit (i : Nat) : Nat := if i = 2 then 2048 else 8192

/-- The image references: VA, tag, length; none where one is BADRECORD. -/
def readImages (b : List Byte) : Option (List (Nat × Nat × Nat)) :=
  let im := (upFrom 0 3).map fun i => (numAt b (16 * i) 8, numAt b (16 * i + 8) 4, numAt b (16 * i + 12) 2)
  if (upFrom 0 3).any fun i =>
      let x := im.getD i (0, 0, 0)
      decide (2 ^ 56 ≤ x.1) || x.2.1 == 0 || x.2.2 == 0 || decide (imageLimit i < x.2.2) || numAt b (16 * i + 14) 2 != 0
  then none
  else some im

/-- Whether a task record is BADRECORD by its own bytes (log 15, DESIGN CHOICE). -/
def badRecord (b : List Byte) : Bool :=
  let nreg := numAt b 80 1
  let ngrp := numAt b 81 1
  let fl := numAt b 84 2
  [55, 63, 71, 79].any (fun o => numAt b o 1 != 0) || decide (64 ≤ numAt b 82 1) || decide (4 ≤ numAt b 83 1) || decide (64 ≤ fl)
    || fl / 2 % 4 == 3 || decide (512 < numAt b 86 2) || (b.drop 88).any (· != 0) || numAt b 48 7 % 8 != 0 || decide (16 < nreg)
    || decide (4 < ngrp) || (nreg == 0 && numAt b 56 7 != 0) || (ngrp == 0 && numAt b 72 7 != 0) || numAt b 56 7 % 16 != 0
    || numAt b 64 7 % 16 != 0 || numAt b 72 7 % 8 != 0

/-- Bounds and ORDER of a nest record; none where it is BADRECORD (R164). -/
def readNestRecord (b : List Byte) : Option (List Nat × List Nat) :=
  let bounds := (upFrom 0 6).map fun i => numAt b (2 * i) 2
  let o := numAt b 12 4
  let order := (upFrom 0 6).map fun i => o / 8 ^ i % 8
  if bounds.any (· == 0) || decide (2 ^ 18 ≤ o) || !(upFrom 0 6).all (fun l => order.contains l)
      || decide (2 ^ 40 < bounds.foldl (· * ·) 1) then none
  else some (bounds, order)

/-- Region records; none where one is BADRECORD (R165). -/
def readRegions (b : List Byte) : Nat → Option (List Region)
  | 0 => some []
  | n + 1 =>
    let m := numAt b 7 1
    let ext := numAt b 8 5
    if m % 4 = 0 ∨ 64 ≤ m ∨ numAt b 13 3 ≠ 0 ∨ ext = 0 ∨ 2 ^ 56 < numAt b 0 7 + ext then none
    else
      (readRegions (b.drop 16) n).map fun l =>
        { base := numAt b 0 7, ext := ext, rd := m % 4 != 2, wr := m % 4 != 1, cls := m / 4 } :: l

/-- Group descriptors: slot and SAME mask; none where one is BADRECORD (R166). -/
def readGroups (b : List Byte) : Nat → Option (List (Nat × Nat))
  | 0 => some []
  | n + 1 =>
    let w := numAt b 0 8
    if 256 ≤ w then none
    else
      match readGroups (b.drop 8) n with
      | none => none
      | some l => if l.any fun g => g.1 == w / 64 then none else some ((w / 64, w % 64) :: l)

/-- Members of each gang: the levels that are not SAME in every slot vary (R133). -/
def gangLevels (groups : List (Nat × Nat)) : List Nat :=
  (upFrom 0 6).filter fun l => groups.any fun g => g.2 / 2 ^ l % 2 == 0

def gangSize (bounds : List Nat) (groups : List (Nat × Nat)) : Nat :=
  (gangLevels groups).foldl (fun a l => a * bounds.getD l 1) 1

/-- Read the records of a launch and make every check of R167. -/
def State.readTask (s : State) (r : LaunchReq) : Except Refusing (Task × State) :=
  match s.recordRead (r.core / 96) r.space r.va 256 with
  | .error e => .error e
  | .ok (b, t) =>
    match readImages b with
    | none => .error (.status 2)
    | some imgs =>
      if badRecord b ∨ r.va % 256 ≠ 0 then .error (.status 2)
      else
        match t.recordRead (r.core / 96) r.space (numAt b 64 7) 16 with
        | .error e => .error e
        | .ok (nb, t) =>
          match readNestRecord nb with
          | none => .error (.status 2)
          | some (bounds, order) =>
            match t.recordRead (r.core / 96) r.space (numAt b 56 7) (16 * numAt b 80 1) with
            | .error e => .error e
            | .ok (rb, t) =>
              match readRegions rb (numAt b 80 1) with
              | none => .error (.status 2)
              | some regions =>
                match t.recordRead (r.core / 96) r.space (numAt b 72 7) (8 * numAt b 81 1) with
                | .error e => .error e
                | .ok (gb, t) =>
                  match readGroups gb (numAt b 81 1) with
                  | none => .error (.status 2)
                  | some groups =>
                    if 384 < gangSize bounds groups ∧ groups ≠ [] then .error (.status 1)
                    else
                      .ok ({ seq := 0, space := r.space, record := r.va, guarded := false, queue := numAt b 82 1, prio := numAt b 83 1
                             flags := numAt b 84 2, wheel := numAt b 86 2
                             args := if r.arg = 0 then numAt b 48 7 else r.arg.toNat, imgs := imgs, bounds := bounds, order := order
                             regions := regions, groups := groups, held := false, edges := [], handed := [], parent := none
                             placed := [], retired := [], saved := [], stray := false, aborted := false, complete := false
                             reply := r.reply, core := r.core, bank := r.bank, at_ := r.at_, word := r.word }, t)

/-! ## Acceptance (R172, R173) -/

/-- Whether two regions make an edge. -/
def Region.conflicts (x y : Region) : Bool := (x.wr || y.wr) && overlaps x.base x.ext y.base y.ext

/-- The bytes that a parent region hands over to a child region (R173). -/
def Region.handedTo (x y : Region) : Option (Nat × Nat) :=
  let lo := max x.base y.base
  let hi := min (x.base + x.ext) (y.base + y.ext)
  if x.wr ∧ lo < hi then some (lo, hi - lo) else none

/-- Accept a task: its number, its edges, and what its parent hands over. -/
def State.acceptTask (s : State) (t : Task) (parent : Option Nat) : State :=
  let seq := s.seq + 1
  let before := s.tasks.filter fun e => e.space == t.space && parent != some e.seq
      && e.regions.any fun x => t.regions.any fun y => x.conflicts y
  let hand := fun (e : Task) => if parent = some e.seq ∧ e.space = t.space then
    { e with handed := e.handed ++ e.regions.flatMap fun x => t.regions.filterMap fun y => x.handedTo y } else e
  { s with seq := seq
           tasks := (s.tasks.map hand) ++ [{ t with seq := seq, parent := parent, edges := before.map Task.seq }] }

/-- Whether the stores that a launch released have performed or failed, and those to the core's own banks are readable (R181, R173,
R190). -/
def State.launchReleased (s : State) (r : LaunchReq) : Bool :=
  s.releasedBefore { core := r.core, bank := r.bank, sid := .A } r.rel
    && (s.coreAt r.core).1.early.all (fun e => e.bank != r.bank || e.by_ != .A || decide (r.rel ≤ e.ord))
    && r.acq.all fun a => s.flight.all fun x =>
      x.agent.key != a.1 || decide (a.2 ≤ x.ord) || !x.req.writes || x.performed || x.fail.isSome

/-- The bytes that the parent of a launch hands over to the task `t` (R173). -/
def State.handed (s : State) (r : LaunchReq) (t : Task) : List (Nat × Nat) :=
  match r.parent.bind s.taskAt with
  | none => []
  | some p => if p.space = t.space then p.regions.flatMap fun x => t.regions.filterMap fun y => x.handedTo y else []

/-- Whether the bank of a launch still holds the iteration that launched. -/
def State.parentHere (s : State) (r : LaunchReq) : Bool :=
  match (s.bankAt r.core r.bank).iter with
  | some it => r.parent == some it.task
  | none => false

/-- The map entries of the launching bank that hold bytes which are handed over and not at home yet: the launch unit has them written
back before it accepts the task (R173) (log 75, DEDUCED). -/
def State.handBack (s : State) (r : LaunchReq) (t : Task) : List (Fin 16) :=
  let only := some (s.handed r t)
  let b := s.bankAt r.core r.bank
  if s.parentHere r then (List.finRange 16).filter fun e => b.map[e].valid && b.map[e].rw && b.map[e].dirty only != [] else []

/-- The reply of a launch. -/
def LaunchReq.reply' (r : LaunchReq) (seq status : Nat) : Reply :=
  { target := r.reply, graph := r.graph, seq := seq, number := seq, stray := false, status := status, space := r.space, core := r.core, bank := r.bank
    at_ := r.at_, word := r.word }

/-- The record of a translation fault on a launch record: AGENT 8, the die, and the number that the launch would take (log 34, DEDUCED). -/
def State.launchRecord (_s : State) (c : Cause) (va core space : Nat) (who : Waiter) (seq : Nat) : Record :=
  { info := infoWord c 8 (core / 96) 0 false space, va := BitVec.ofNat 64 va, word := 0, pos := BitVec.ofNat 64 seq, who := who, task := 0 }

/-- Note the number of the first TASK node of a graph instance. -/
def State.noteFirst (s : State) (target : ReplyTo) : State :=
  match target with
  | .graph inst => { s with graphs := s.graphs.map fun g => if g.id = inst && g.first.isNone then { g with first := some s.seq } else g }
  | .nowhere | .bank _ _ _ _ | .done _ _ _ => s

/-- Drop the head of the launches. -/
def State.dropLaunch (s : State) : State := { s with launches := s.launches.drop 1 }

/-- LAUNCH_ACCEPT: the oldest launch, when the stores that it released have performed, what its parent hands over is at home, and fewer than
4,096 tasks and guarded reads are pending or in flight. -/
def execLaunchAccept (s : State) : Result :=
  match s.launches with
  | [] => .next s
  | r :: _ =>
    if r.stopped || decide (4096 ≤ s.tasks.length) || !s.launchReleased r then .next s
    else if r.graph then
      .next (State.dropLaunch { s with graphId := s.graphId + 1, graphs := s.graphs ++
        [{ id := s.graphId + 1, space := r.space, va := r.va, n := r.arg.toNat, node := 0, stack := [], reading := none, value := none
           ended := false, status := 0, first := none, badVa := r.at_, stopped := false, stray := false, reply := r.reply, core := r.core
           bank := r.bank, word := r.word }] })
    else
      match s.readTask r with
      | .error (.fault c va) =>
        .next (State.post { s with launches := { r with stopped := true } :: s.launches.drop 1 }
          (s.launchRecord c va r.core r.space .launch (s.seq + 1)))
      | .error (.status n) => .next (s.dropLaunch.answer (r.reply' 0 n))
      | .error .waits => .next s
      | .ok (t, u) =>
        match u.handBack r t with
        | [] => .next ((u.dropLaunch.acceptTask t r.parent).noteFirst r.reply)
        | e :: rest =>
          let w : Writeback := { by_ := .hand, left := e :: rest, sent := 0, stopped := false, only := some (u.handed r t) }
          .next (u.onBank r.core r.bank fun v => v.setBank fun b => if b.wb.isSome then b else { b with wb := some w })

/-! ## Rings (R182) -/

/-- Records of a ring; the address space of a ring. -/
def LQueue.size (q : LQueue) : Nat := 2 ^ (q.ringCfg.toNat % 32)

def LQueue.space (q : LQueue) : Nat := field q.ringCfg.toNat 13 8

def LQueue.enabled (q : LQueue) : Bool := q.ringCfg.getLsbD 63

def State.queueAt (s : State) (q : Nat) : LQueue := Tbl.get s.queues q (LQueue.zero q)

def State.setQueue (s : State) (q : Nat) (f : LQueue → LQueue) : State := { s with queues := Tbl.put s.queues q (f (s.queueAt q)) }

/-- Whether a ring holds a record that is not consumed; they are consumed after EN is cleared as well (R387). -/
def LQueue.waiting (q : LQueue) : Bool := q.cons % q.size != q.prod % q.size

/-- Consume a ring record. -/
def State.ringStep (s : State) (q : Nat) (rec : List Byte) (at_ : Nat) : State :=
  let l := s.queueAt q
  let t := s.setQueue q fun l => { l with cons := (l.cons + 1) % 2 ^ 32 }
  let va := numAt rec 8 8
  let arg := numAt rec 16 8
  let kind := numAt rec 0 1
  let r : LaunchReq :=
    { graph := kind == 2, va := va, arg := BitVec.ofNat 64 arg, space := l.space, parent := none, core := 0, bank := 0, word := 0, at_ := at_
      rel := 0, acq := [], reply := .done (numAt rec 24 8) l.space q, stopped := false }
  if kind ≠ 1 ∧ kind ≠ 2 then t.post { r.reply' 0 8 with target := .nowhere }.refused
  else if (kind = 1 ∧ (va % 256 ≠ 0 ∨ 2 ^ 56 ≤ va ∨ arg % 8 ≠ 0 ∨ 2 ^ 56 ≤ arg))
      ∨ (kind = 2 ∧ (va % 32 ≠ 0 ∨ 2 ^ 56 ≤ va ∨ arg = 0 ∨ 65536 < arg)) then t.answer (r.reply' 0 2)
  else { t with launches := t.launches ++ [r] }

/-- RING_RECORD: the next record of a ring, in ring order. A translation fault on it is posted, and the ring waits (log 65, DEDUCED). -/
def execRingRecord (q : Fin 64) (s : State) : Result :=
  let l := s.queueAt q.val
  if l.waiting && !l.stopped then
    let va := l.ringVa.toNat % 2 ^ 56 + 32 * (l.cons % l.size)
    match s.recordRead 0 l.space va 32 with
    | .ok (b, t) => .next (t.ringStep q.val b va)
    | .error (.fault c at_) =>
      .next ((s.setQueue q.val fun l => { l with stopped := true }).post (s.launchRecord c at_ 0 l.space (.ring q.val) 0))
    | .error .waits => .next s
    | .error (.status n) =>
      .next ((s.setQueue q.val fun l => { l with cons := (l.cons + 1) % 2 ^ 32 }).post
        { info := infoWord (cLAUNCHREF n) 8 0 0 false l.space, va := BitVec.ofNat 64 va, word := 0, pos := 0, who := .none, task := 0 })
  else .next s

end Sys2Proof.Machine
end

