-- ==== Sys2Proof/Machine/Graphs.lean ====
section
/-! DEFINITION. Graphs (R168 to R171): the walk of an instance, guarded reads, and its completion. -/

namespace Sys2Proof.Machine

/-- A graph node as read (R168). -/
structure Node where
  kind : Nat
  cc : Nat
  next : Nat
  alt : Nat
  va : Nat
  imm : Word
  body : Nat
  deriving DecidableEq, Repr

/-- Read a node's 32 bytes; none where it is a node fault (R168, R169). -/
def readNode (b : List Byte) : Option Node :=
  let k := numAt b 0 1
  let n : Node := { kind := k, cc := numAt b 1 1, next := numAt b 4 2, alt := numAt b 6 2, va := numAt b 8 7
                    imm := BitVec.ofNat 64 (numAt b 16 8), body := numAt b 24 2 }
  if 3 < k ∨ numAt b 2 2 ≠ 0 ∨ numAt b 15 1 ≠ 0 ∨ numAt b 26 6 ≠ 0 ∨ 11 < n.cc
      ∨ (k ≠ 2 ∧ (n.cc ≠ 0 ∨ n.alt ≠ 0 ∨ n.imm ≠ 0)) ∨ (k ≠ 3 ∧ n.body ≠ 0)
      ∨ (k = 1 ∧ n.va % 256 ≠ 0) ∨ ((k = 2 ∨ k = 3) ∧ n.va % 8 ≠ 0) then none
  else some n

/-- VA of the node at which a walk stands. -/
def GraphInst.nodeVa (g : GraphInst) : Nat := g.va + 32 * g.node

/-- The node at which a walk stands; status 4 is BADGRAPH. An index past the graph is met where the walk comes to it only (R169) (log 12, DESIGN
CHOICE). -/
def State.nodeOf (s : State) (g : GraphInst) : Except Refusing (Node × State) :=
  if g.n ≤ g.node then .error (.status 4)
  else
    match s.recordRead (g.core / 96) g.space g.nodeVa 32 with
    | .error e => .error e
    | .ok (b, t) =>
      match readNode b with
      | none => .error (.status 4)
      | some n => .ok (n, t)

def State.graphAt (s : State) (inst : Nat) : Option GraphInst := s.graphs.find? fun g => g.id == inst

def State.setGraph (s : State) (g : GraphInst) : State := { s with graphs := s.graphs.map fun x => if x.id = g.id then g else x }

/-- The walk stops with a status; the first refusal stays. -/
def GraphInst.stop (g : GraphInst) (status : Nat) : GraphInst :=
  { g with ended := true, status := if g.status = 0 then status else g.status, badVa := if g.status = 0 then g.nodeVa else g.badVa
           badNumber := if g.status = 0 then g.reading.getD 0 else g.badNumber, badWord := if g.status = 0 then g.word else g.badWord }

/-- The walk goes on at a node. -/
def GraphInst.move (g : GraphInst) (next : Nat) : GraphInst := { g with node := next, value := none }

/-- Act on the node at which an instance stands, where it is of kind `kind`; a node fault ends the walk, and a translation fault
on the node is posted. -/
def State.atNode (s : State) (inst kind : Nat) (f : State → GraphInst → Node → State) : Result :=
  match s.graphAt inst with
  | none => .next s
  | some g =>
    if g.ended || g.stopped || g.reading.isSome then .next s
    else
      match s.nodeOf g with
      | .ok (n, t) => .next (if n.kind = kind then f t g n else s)
      | .error .waits => .next s
      | .error (.status st) => .next (s.setGraph (g.stop st))
      | .error (.fault c va) => .next ((s.setGraph { g with stopped := true }).post (s.launchRecord c va g.core g.space (.graph inst) 0))

/-- GRAPH_NODE_TASK: launch the record with its own ARGS, and move on (log 12, DESIGN CHOICE). -/
def execGraphNodeTask (inst : Nat) (s : State) : Result :=
  s.atNode inst 1 fun t g n =>
    State.setGraph { t with launches := t.launches ++
      [{ graph := false, va := n.va, arg := 0, space := g.space, parent := none, core := g.core, bank := g.bank, word := 0, at_ := g.nodeVa
         rel := 0, acq := [], reply := .graph inst, stopped := false }] } (g.move n.next)

/-- Begin a guarded read: a task of no iterations with one 8-byte read region (R170). It waits while 4,096 are pending, and until the
tasks that the walk has launched before it are accepted: their numbers come first (R172). -/
def State.guardRead (s : State) (g : GraphInst) (va : Nat) : State :=
  if 4096 ≤ s.tasks.length ∨ s.launches.any (fun r => r.reply == .graph g.id) then s
  else
    let t : Task :=
      { seq := 0, space := g.space, record := va, guarded := true, queue := 0, prio := 0, flags := 0, wheel := 0, args := 0, imgs := []
        bounds := [], order := [], regions := [{ base := va, ext := 8, rd := true, wr := false, cls := 0 }], groups := [], held := false
        edges := [], handed := [], parent := none, placed := [], retired := [], saved := [], stray := false, aborted := false
        complete := false, reply := .nowhere, core := g.core, bank := g.bank, at_ := g.nodeVa, word := 0 }
    (s.acceptTask t none).setGraph { g with reading := some (s.seq + 1) }

/-- GRAPH_NODE_COND: the guarded read first, then the comparison. -/
def execGraphNodeCond (inst : Nat) (s : State) : Result :=
  s.atNode inst 2 fun t g n =>
    match g.value with
    | none => t.guardRead g n.va
    | some x =>
      match Cond.ofCode n.cc with
      | some cc => t.setGraph (g.move (if cc.holds x n.imm then n.next else n.alt))
      | none => t.setGraph (g.stop 4)

/-- GRAPH_NODE_LOOP (R171). -/
def execGraphNodeLoop (inst : Nat) (s : State) : Result :=
  s.atNode inst 3 fun t g n =>
    let first :=
      match g.value with
      | none => t.guardRead g n.va
      | some c =>
        if c = 0 then t.setGraph (g.move n.next)
        else if 8 ≤ g.stack.length then t.setGraph (g.stop 5)
        else t.setGraph { g.move n.body with stack := (g.node, c.toNat) :: g.stack }
    match g.stack with
    | [] => first
    | (l, k) :: rest =>
      if l = g.node then
        if k - 1 = 0 then t.setGraph { g.move n.next with stack := rest }
        else t.setGraph { g.move n.body with stack := (l, k - 1) :: rest }
      else if rest.any (fun e => e.1 == g.node) then t.setGraph (g.stop 4)
      else first

/-- GRAPH_NODE_END: the walk ends, and its stack is abandoned. -/
def execGraphNodeEnd (inst : Nat) (s : State) : Result :=
  s.atNode inst 0 fun t g _ => t.setGraph { g with ended := true, stack := [] }

/-- Release every edge of a task and forget it. -/
def State.dropTask (s : State) (seq : Nat) : State :=
  { s with tasks := (s.tasks.filter fun t => t.seq != seq).map fun t => { t with edges := t.edges.filter (· != seq) } }

/-- GUARDED_READ: once its edges are released, the word is read (R170). -/
def execGuardedRead (inst : Nat) (s : State) : Result :=
  match s.graphAt inst with
  | none => .next s
  | some g =>
    match g.reading with
    | none => .next s
    | some seq =>
      match s.taskAt seq with
      | none => .next s
      | some t =>
        if t.edges ≠ [] ∨ g.stopped then .next s
        else
          match s.recordRead (g.core / 96) g.space t.record 8 with
          | .ok (b, u) => .next ((u.dropTask seq).setGraph { g with reading := none, value := some (BitVec.ofNat 64 (leNat b)) })
          | .error .waits => .next s
          | .error (.status st) => .next ((s.dropTask seq).setGraph { g.stop st with reading := none })
          | .error (.fault c va) =>
            .next ((s.setGraph { g with stopped := true }).post (s.launchRecord c va g.core g.space (.graph inst) seq))

/-- Whether a launch, a task or a reply of a graph instance is still open. -/
def State.graphOpen (s : State) (inst : Nat) : Bool :=
  s.launches.any (fun r => r.reply == .graph inst) || s.tasks.any (fun t => t.reply == .graph inst && !t.complete)
    || s.replies.any fun r => r.target == .graph inst

/-- GRAPH_INSTANCE_COMPLETE: the walk has ended and every task that it launched has completed (R169). A record of its refusal
names the node: WORD is 0 where a task of it was refused, and POS the number that was drawn there (R342) (log 14, DEDUCED). -/
def execGraphInstanceComplete (inst : Nat) (s : State) : Result :=
  match s.graphAt inst with
  | none => .next s
  | some g =>
    if g.ended && !s.graphOpen inst then
      .next (State.answer { s with graphs := s.graphs.filter fun x => x.id != inst }
        { target := g.reply, graph := true, seq := g.first.getD 0, number := g.badNumber, stray := g.stray, status := g.status, space := g.space, core := g.core / 96
          bank := 0, at_ := g.badVa, word := g.badWord })
    else .next s

end Sys2Proof.Machine
end

