-- ==== Sys2Proof/Machine/Control.lean ====
section
/-! DEFINITION. Steer, condition, loop and trap words (R13 to R18, R50 to R57, R60, R337, R338). -/

namespace Sys2Proof.Machine

/-- NOP has no effect beyond its wait. -/
def execNop (s : State) : Result := .next s.finish

/-- Write a target, and start the prepare distance of 4 cycles (R13, R14). -/
def State.setTarget (s : State) (k : Fin 12) (target : BitVec 13) : State :=
  s.setSt { s.st with k := s.st.k.set k { s.st.k[k] with target := target, ready := s.now + 4 } }

def execPrep (k : Fin 12) (target : BitVec 13) (s : State) : Result := .next (s.setTarget k target).finish

/-- PREPR traps on a value of 8,192 or more (R13). -/
def execPrepr (k : Fin 12) (a : Opnd) (s : State) : Result :=
  s.guard [a] []
    (let x := s.take a
     if 8192 ≤ x.1.toNat then s.trap (cILLEGAL 5) x.1
     else .next (x.2.setTarget k (x.1.setWidth 13)).finish)

/-- The check of R14 on a branch after its waits: subcode 6, 8, then 5. -/
def State.branchTrap (s : State) (k : Fin 12) (sense : Bool) : Option (Cause × Word) :=
  let t := s.st
  if !t.k[k].set then some (cILLEGAL 6, BitVec.ofNat 64 k.val)
  else
    match t.loopAt t.pc with
    | some l => some (cILLEGAL 8, BitVec.ofNat 64 l.val)
    | none =>
      if t.k[k].value = sense ∧ s.code.length ≤ t.k[k].target.toNat then some (cILLEGAL 5, t.k[k].target.setWidth 64)
      else none

/-- Consume the condition. -/
def State.useCond (s : State) (k : Fin 12) : State :=
  s.setSt { s.st with k := s.st.k.set k { s.st.k[k] with set := false } }

/-- Go to the target where the condition has the sense, else to the next word. -/
def State.branch (s : State) (k : Fin 12) (sense : Bool) : State :=
  s.goto (if s.st.k[k].value = sense then s.st.k[k].target.toNat else s.st.pc + 1)

def execBr (k : Fin 12) (sense : Bool) (s : State) : Result :=
  match s.branchTrap k sense with
  | some (c, v) => s.trap c v
  | none => .next ((s.useCond k).branch k sense)

/-- BRL writes s31 whether or not it is taken. -/
def execBrl (k : Fin 12) (sense : Bool) (s : State) : Result :=
  match s.branchTrap k sense with
  | some (c, v) => s.trap c v
  | none => .next (((s.useCond k).setReg 31 (BitVec.ofNat 64 (s.st.pc + 1))).branch k sense)

/-! ## Conditions (R50 to R54): every producer completes one cycle after its issue -/

def execCmp (cc : Cond) (k : Fin 12) (a b : Opnd) (s : State) : Result :=
  s.guard [a, b] []
    (let x := s.take a
     let y := x.2.take b
     .next (y.2.setCond k (cc.holds x.1 y.1)).finish)

def execCmpi (cc : Cond) (k : Fin 12) (a : Opnd) (imm : BitVec 25) (s : State) : Result :=
  s.guard [a] [] (let x := s.take a; .next (x.2.setCond k (cc.holds x.1 (imm.signExtend 64))).finish)

def execCset (cc : Cond) (d a b : Opnd) (s : State) : Result :=
  s.guard [a, b] [d]
    (let x := s.take a
     let y := x.2.take b
     .next ((y.2.put d (if cc.holds x.1 y.1 then 1 else 0) 1).finish))

def execCseti (cc : Cond) (d b : Opnd) (imm : BitVec 25) (s : State) : Result :=
  s.guard [b] [d]
    (let x := s.take b
     .next ((x.2.put d (if cc.holds x.1 (imm.signExtend 64) then 1 else 0) 1).finish))

/-- SCOMB reads the values as they stand and consumes nothing. -/
def execScomb (op : Comb) (k ka kb : Fin 12) (s : State) : Result :=
  .next (s.setCond k (op.holds s.st.k[ka].value s.st.k[kb].value)).finish

/-- SPOP: an outcome's bit, whether data is not zero, 0 for a token. -/
def execSpop (k : Fin 12) (q : Fin 16) (s : State) : Result :=
  s.guard [.q q] [] (let x := s.take (.q q); .next (x.2.setCond k (x.1 != 0)).finish)

def execSpush (k : Fin 12) (q : Fin 16) (s : State) : Result :=
  s.guard [] [.q q] (.next ((s.put (.q q) (if s.st.k[k].value then 1 else 0) 1).finish))

/-! ## Loops (R16 to R18, R57) -/

/-- The trap of an LSET: subcode 8 for end < START with its own number, then for a word at an active END. -/
def State.loopTrap (s : State) (l : Fin 4) (stop : BitVec 13) : Option (Cause × Word) :=
  if stop.toNat < s.st.pc + 1 then some (cILLEGAL 8, BitVec.ofNat 64 l.val)
  else
    match s.st.loopAt s.st.pc with
    | some n => some (cILLEGAL 8, BitVec.ofNat 64 n.val)
    | none => none

/-- Set a loop register; it is then the most recently set. -/
def State.setLoop (s : State) (l : Fin 4) (x : Loop) : State :=
  s.setSt { s.st with l := s.st.l.set l x, order := l :: s.st.order.filter (· != l) }

/-- LSET: subcode 8, whatever the count, before a wait that cannot end (R24, R57). -/
def execLset (l : Fin 4) (a : Opnd) (stop : BitVec 13) (s : State) : Result :=
  s.guardCase (s.loopTrap l stop) [a] []
    (let x := s.take a
     let n : BitVec 32 := x.1.setWidth 32
     if n = 0 then .next ((x.2.setLoop l { s.st.l[l] with count := 0 }).goto (stop.toNat + 1))
     else .next ((x.2.setLoop l { count := n, start := BitVec.ofNat 13 (s.st.pc + 1), stop := stop }).goto (s.st.pc + 1)))

/-- LEND makes the pass its loop is in the last one. -/
def execLend (l : Fin 4) (s : State) : Result :=
  .next (s.setSt { s.st with l := s.st.l.set l { s.st.l[l] with count := if s.st.l[l].count = 0 then 0 else 1 } }).finish

/-! ## Traps and returns -/

def execTrap (imm : BitVec 34) (s : State) : Result := s.trap cTRAPI (imm.signExtend 64)

/-- BRK goes to the Bureau whatever HVEC holds; the device does not interpret its tag. -/
def execBrk (_imm : BitVec 34) (s : State) : Result := s.trap cBRK 0

def execEret (s : State) : Result := if s.st.active then .next s.leaveHandler else s.trap (cILLEGAL 15) 0

end Sys2Proof.Machine
end

