-- ==== Sys2Proof/Machine/Registers.lean ====
section
/-! DEFINITION. The control registers (R61, R62 and the rules that define each), CRR and CRW, and the two register writes
that are steps of their own. -/

namespace Sys2Proof.Machine

/-- HVEC (R335). -/
def Stream.hvec (t : Stream) : Word :=
  BitVec.ofNat 64 ((if t.hvecEn then 2 ^ 63 else 0) + (if t.active then 2 ^ 62 else 0) + t.hvecTarget.toNat)

/-- CBCFGn and CBCNTn (R196). -/
def CBuf.cfg (c : CBuf) : Word := BitVec.ofNat 64 (c.base % 2 ^ 22 + c.slot % 2 ^ 23 * 2 ^ 22 + c.count % 512 * 2 ^ 45)

def CBuf.cnt (c : CBuf) : Word := BitVec.ofNat 64 (c.put % 2 ^ 16 + c.done % 2 ^ 16 * 2 ^ 16 + c.taken % 2 ^ 16 * 2 ^ 32)

/-- VSTATE (R139). -/
def VecState.word (v : VecState) : Word :=
  BitVec.ofNat 64 (v.vrot.toNat + v.gates.toNat * 2 ^ 8 + v.stack.length % 16 * 2 ^ 16)

/-- WHEELMAP (R235). -/
def Bank.wheelMap (b : Bank) : Word :=
  BitVec.ofNat 64 (b.wheelFirst % 512 + b.wheelStride % 1024 * 2 ^ 9 + b.wheelCount % 1024 * 2 ^ 19)

/-- The control register `n` as the stream in hand reads it; none where it may not, or where there is none (R61). -/
def State.crRead (s : State) (n : Nat) : Option Word :=
  let b := s.bank
  let x := s.sid = .X
  let axn := s.sid ≠ .L
  if n = 0x000 then some (BitVec.ofNat 64 (if s.sid = .L then s.link.cycle else b.cycle))
  else if n = 0x010 then some s.st.cause
  else if n = 0x011 then some s.st.epc
  else if n = 0x012 then some s.st.tval
  else if n = 0x013 ∧ axn then some s.st.hvec
  else if n = 0x020 ∧ x then some (b.vec.vflags.setWidth 64)
  else if n = 0x021 ∧ x then some (if b.vec.ftz then 1 else 0)
  else if n = 0x022 ∧ x then some (b.vec.srseed.setWidth 64)
  else if n = 0x023 ∧ x then some b.vec.word
  else if n = 0x030 ∧ axn then some (BitVec.ofNat 64 b.slip)
  else if n = 0x031 ∧ axn then some (if b.pend then 1 else 0)
  else if n = 0x032 ∧ axn then some (b.ffa.setWidth 64)
  else if n = 0x040 ∧ axn then some (s.draws ++ s.lotto)
  else if n = 0x041 ∧ axn then some b.wheelMap
  else if n = 0x050 ∧ axn then some (b.pstat.setWidth 64)
  else if n = 0x051 ∧ axn then some (BitVec.ofNat 64 (b.pmode.toNat + if b.side then 4 else 0))
  else if n = 0x060 ∧ ¬ axn then some (s.link.lflags.setWidth 64)
  else if n = 0x061 ∧ ¬ axn then some (BitVec.ofNat 64 s.fslot)
  else if n = 0x070 then some s.bureau.ready0
  else if n = 0x071 then some s.bureau.ready1
  else if 0x100 ≤ n ∧ n < 0x110 ∧ axn then b.bfmt.toList[n - 0x100]?
  else if 0x110 ≤ n ∧ n < 0x120 ∧ axn then
    (b.cb.toList[(n - 0x110) / 2]?).map fun c => if n % 2 = 0 then c.cfg else c.cnt
  else if 0x120 ≤ n ∧ n < 0x130 ∧ axn then
    (if n % 2 = 0 then b.abexp.toList[(n - 0x120) / 2]? else b.abarr.toList[(n - 0x120) / 2]?).map (·.setWidth 64)
  else none

/-- Whether a BFMT value is not allowed (R193). -/
def bfmtBad (v : Word) : Bool :=
  let x := v.toNat
  let fmt := x % 32
  let plane := field x 6 5
  let run := field x 9 7
  let spc := field x 12 10
  let rnd := field x 14 13
  decide (2 ^ 50 ≤ x) || decide (15 ≤ fmt) || run == 7 || plane == 3
    || (plane != 0 && !(fmt == 10 || fmt == 12 || fmt == 13 || fmt == 14))
    || (rnd == 3 && !(fmt == 12 || fmt == 13 || fmt == 14))
    || (spc != 0 && fmt != 14)

/-- Write SRSEED and seed every lane anew (R107, R111). -/
def State.seedLanes (s : State) (v : Word) : State :=
  s.setBank fun b => { b with vec := { b.vec with srseed := v.setWidth 16, lanes := [] } }

def State.setBfmt (s : State) (n : Fin 16) (v : Word) : State := s.setBank fun b => { b with bfmt := b.bfmt.set n v }

/-- Write control register `n`: the new state, or the subcode of the ILLEGAL that refuses it (R61, R193). -/
def State.crWrite (s : State) (n : Nat) (v : Word) : Except Nat State :=
  let x := s.sid = .X
  let axn := s.sid ≠ .L
  if n = 0x013 ∧ axn then
    .ok (s.setSt { s.st with hvecEn := v.getLsbD 63, hvecTarget := v.setWidth 13 })
  else if n = 0x020 ∧ x then .ok (s.setBank fun b => { b with vec := { b.vec with vflags := v.setWidth 6 } })
  else if n = 0x021 ∧ x then .ok (s.setBank fun b => { b with vec := { b.vec with ftz := v.getLsbD 0 } })
  else if n = 0x022 ∧ x then .ok (s.seedLanes v)
  else if n = 0x031 ∧ axn then .ok (s.setBank fun b => { b with pend := v.getLsbD 0 })
  else if n = 0x050 ∧ s.sid = .N then .ok (s.setBank fun b => { b with pstat := v.setWidth 8 &&& 0xFD#8 })
  else if n = 0x060 ∧ ¬ axn then .ok { s with link := { s.link with lflags := v.setWidth 9 } }
  else if h : 0x100 ≤ n ∧ n < 0x110 ∧ (s.sid = .A ∨ s.sid = .X) then
    (if bfmtBad v then .error 13 else .ok (s.setBfmt ⟨n - 0x100, by omega⟩ v))
  else .error 9

/-- The case of CRR: a register that is unknown, or that the stream may not read. -/
def State.crrCase (s : State) (creg : BitVec 12) : Option (Cause × Word) :=
  if (s.crRead creg.toNat).isSome then none else some (cILLEGAL 9, creg.setWidth 64)

/-- The case of CRW: a register that is unknown, or that the stream may not write. -/
def State.crwCase (s : State) (creg : BitVec 12) : Option (Cause × Word) :=
  match s.crWrite creg.toNat 0 with
  | .error e => some (cILLEGAL e, creg.setWidth 64)
  | .ok _ => none

/-- CRR: the register's value at the issue cycle. -/
def execCrr (d : Opnd) (creg : BitVec 12) (s : State) : Result :=
  s.guardCase (s.crrCase creg) [] [d]
    (.next ((s.put d ((s.crRead creg.toNat).getD 0) 1).finish))

/-- CRW: whether the register may be written, then its value, both at issue. -/
def execCrw (a : Opnd) (creg : BitVec 12) (s : State) : Result :=
  s.guardCase (s.crwCase creg) [a] []
    (let x := s.take a
     match x.2.crWrite creg.toNat x.1 with
     | .error e => s.trap (cILLEGAL e) (creg.setWidth 64)
     | .ok t => .next t.finish)

/-- The step that seeds the lanes of the bank in hand. -/
def execSrseedWrite (v : Word) (s : State) : Result := .next (s.seedLanes v)

/-- The step that writes a BFMT register of the bank in hand; a value that is not allowed leaves it as it is (R193). -/
def execBfmtWrite (n : Fin 16) (v : Word) (s : State) : Result := .next (if bfmtBad v then s else s.setBfmt n v)

end Sys2Proof.Machine
end

