-- ==== Sys2Proof/Machine/Streams.lean ====
section
/-! DEFINITION. Streams, queues and groups (R121, R126 to R134): the words, and the steps by which queue entries fill, a
rendezvous or a barrier releases its streams, and a wait that cannot end traps. -/

namespace Sys2Proof.Machine

/-! ## Queue words -/

/-- PUSHT fills its entry at its issue, unless the stream has own writes that are not readable (R121, R190). -/
def execPusht (q : Fin 16) (s : State) : Result :=
  s.guard [] [.q q] (.next (((s.reserve q (s.entry 0 true (some (max s.now s.ownReady)) 0)).fillQueue q).finish))

/-- QTRY never waits on its queue (R130). -/
def execQtry (k : Fin 12) (q : Fin 16) (d : Fin 32) (s : State) : Result :=
  match s.popBlock q 0 with
  | none => let x := s.take (.q q); .next ((x.2.setReg d x.1).setCond k true).finish
  | some _ => .next (s.setCond k false).finish

/-- Entries filled at the cycle of issue (log 8, DEDUCED). -/
def State.filledIn (s : State) (q : Fin 16) : Nat := (s.bank.q[q].filter fun e => e.filled.isSome).length

/-- QFLUSH discards them (R131); their places are free for a push in the same cycle (log 72, DESIGN CHOICE). -/
def execQflush (d : Opnd) (q : Fin 16) (s : State) : Result :=
  s.guard [] [d]
    (.next ((State.put { s with bank := { s.bank with q := s.bank.q.set q (s.bank.q[q].filter fun e => e.filled.isNone) } }
      d (BitVec.ofNat 64 (s.filledIn q)) 1).finish))

def execQcnt (d : Opnd) (q : Fin 16) (s : State) : Result :=
  s.guard [] [d] (.next ((s.put d (BitVec.ofNat 64 (s.filledIn q)) 1).finish))

/-- The entries that are due in a queue are filled (R121, R128). -/
def execQueueEntryFill (q : Fin 16) (s : State) : Result := .next (s.fillQueue q)

/-! ## Rendezvous (R127) and exit (R128) -/

/-- START opens a wait. -/
def execStart (s : State) : Result := .next (s.hold .start)

/-- JOIN opens a wait once the stream's own writes are readable (R190). -/
def execJoin (s : State) : Result := .next (s.hold (if s.ownReady ≤ s.now then .join else .result))

/-- The streams of a bank. -/
def bankStreams : List StreamId := [.A, .X, .N]

/-- Whether a stream waits at a rendezvous. -/
def Stream.meets (t : Stream) : Bool := t.wait == some .start || t.wait == some .join

/-- Whether every stream that has not exited waits at a rendezvous. -/
def State.allMeet (s : State) : Bool :=
  bankStreams.any (fun k => (s.streamAt k).meets && !(s.streamAt k).exited)
    && bankStreams.all fun k => (s.streamAt k).exited || (s.streamAt k).meets

/-- Acquire all that the given agents have stored so far. -/
def State.acquireAll (s : State) : List Agent → State
  | [] => s
  | a :: t => State.acquireAll (if a = s.agent then s else s.acquire a.key s.issued) t

/-- Leave a rendezvous. -/
def State.leave (s : State) (joins : List Agent) : State :=
  let t := if s.st.wait = some .join then s.acquireAll joins else s
  t.finish

/-- Act on every stream of the bank in hand that satisfies `p`. -/
def State.onStreams (s : State) (p : Stream → Bool) (f : State → State) : State :=
  let go := fun (s : State) k => if p (s.streamAt k) then { f { s with sid := k } with sid := s.sid } else s
  bankStreams.foldl go s

/-- The agent of a stream of the bank in hand. -/
def State.agentOf (s : State) (k : StreamId) : Agent := State.agent { s with sid := k }

/-- All waiting streams leave in the same cycle. -/
def execRendezvousRelease (s : State) : Result :=
  if s.allMeet then
    let joins := (bankStreams.filter fun k => (s.streamAt k).wait == some .join && !(s.streamAt k).exited).map s.agentOf
    .next (s.onStreams (fun t => t.meets && !t.exited) fun t => t.leave joins)
  else .next s

/-- Whether an entry that the stream in hand has pushed is not filled yet. -/
def State.pushesOpen (s : State) : Bool :=
  (upFrom 0 12).any fun q => qProducer q == some s.sid && (s.bank.q.toList.getD q []).any fun e => e.filled.isNone

/-- Discard the filled entries of the queues that the stream in hand consumes; STRAY where there is one. -/
def State.discardQueues (s : State) : State :=
  let go := fun (s : State) (q : Nat) => if h : q < 16 then
      if qConsumer q = s.sid then s.fillQueue ⟨q, h⟩ else s
    else s
  (upFrom 0 12).foldl go s

/-- EXIT issues when every earlier word has completed. -/
def execExit (s : State) : Result :=
  if !s.drained then .next (s.hold (if s.st.busy.any fun p => decide (s.now < p.2) then .result else .ext .data))
  else if s.pushesOpen then .next (s.hold .result)
  else .next ((s.setSt { s.st with exited := true }).discardQueues).finish

/-! ## Barriers (R132 to R134) -/

/-- GBAR: subcode 10 without a descriptor; the arrival waits for the stream's own writes (R190). The wait is the arrival: it stands
in the stream until the phase completes. -/
def execGbar (gs : Fin 4) (s : State) : Result :=
  match s.bank.phase[gs] with
  | none => s.trap (cILLEGAL 10) (BitVec.ofNat 64 gs.val)
  | some p => .next (s.hold (if s.ownReady ≤ s.now then .gbar gs p else .result))

/-- Whether a stream waits in group slot `gs`. -/
def Stream.atBar (t : Stream) (gs : Fin 4) : Bool :=
  match t.wait with
  | some (.gbar n _) => n == gs
  | _ => false

/-- Whether two index lists agree on the levels of a SAME mask. -/
def agree (mask : Nat) (x y : List Nat) : Bool :=
  (upFrom 0 6).all fun l => mask / 2 ^ l % 2 == 0 || x.getD l 0 == y.getD l 0

/-- The resident members of the instance of group slot `gs` that the bank in hand belongs to (R132). A member that has
retired counts as arrived (log 9, DEDUCED). -/
def State.members (s : State) (gs : Fin 4) : List (Nat × Nat) :=
  match s.bank.iter with
  | none => []
  | some me => s.banks.filter fun m =>
      match (s.bankAt m.1 m.2).iter with
      | some it => it.task == me.task && agree s.bank.same[gs] me.idx it.idx
      | none => false

/-- The streams of a member that wait in the slot. -/
def State.atBar (s : State) (gs : Fin 4) (m : Nat × Nat) : List Agent :=
  let b := s.bankAt m.1 m.2
  [(StreamId.A, b.a), (.X, b.x), (.N, b.n)].filterMap fun p =>
    if p.2.atBar gs then some { core := m.1, bank := m.2, sid := p.1 } else none

/-- Let the waiting streams of the bank in hand go, and open the next phase. -/
def State.passBar (s : State) (gs : Fin 4) (all : List Agent) : State :=
  let t := s.onStreams (fun t => t.atBar gs) fun t => (t.acquireAll all).finish
  t.setBank fun b => { b with phase := b.phase.set gs (b.phase[gs].map (· + 1)) }

/-- The phase completes when every member has arrived. -/
def execGbarPhaseComplete (gs : Fin 4) (s : State) : Result :=
  let ms := s.members gs
  let waiting := ms.map (s.atBar gs)
  if ms ≠ [] ∧ waiting.all (fun l => !l.isEmpty) then
    .next (ms.foldl (fun t m => t.onBank m.1 m.2 fun u => u.passBar gs waiting.flatten) s)
  else .next s

/-! ## A wait that cannot end (R126) -/

/-- Sources and destinations whose queues a word waits for. -/
def queueReads : Instr → List Opnd
  | .spop _ q => [.q q]
  | i => i.reads

def queueWrites : Instr → List Opnd
  | .spush _ q | .pusht q => [.q q]
  | i => i.writes

/-- Whether stream `k` of the bank in hand stands, as things are now, in an internal wait that only another stream of its bank could
end; the TVAL of the trap. -/
def State.stuck (s : State) (k : StreamId) : Option Nat :=
  let t := { s with sid := k }
  match t.st.wait with
  | some .start | some .join => some 0xFFFF
  | some (.pop _) | some (.push _) =>
    (match decode k (t.code.getD t.st.pc 0) with
      | .ok i =>
        (match t.block (queueReads i) (queueWrites i) with
          | some (.wait (.pop q)) => if q.val < 12 then some q.val else none
          | some (.wait (.push q)) => some q.val
          | _ => none)
      | .error _ => none)
  | _ => none

/-- Whether something of the bank in hand is in flight, an entry filled or a place freed in this cycle among it (R121). -/
def State.bankBusy (s : State) : Bool :=
  (List.finRange 16).any (fun q => s.bank.q[q].any fun e => !e.ready (s.qNow q)) || !s.bank.popped.isEmpty
    || bankStreams.any (fun k => !(State.drained { s with sid := k }))
    || (s.core.copyQ ++ s.core.indexQ).any (fun c => c.bank == s.bankNo)
    || s.flight.any (fun x => x.agent.sid != .L && x.agent.core == s.coreNo && x.agent.bank == s.bankNo)
    || s.core.early.any (fun e => e.bank == s.bankNo)
    || s.bank.wb.isSome

/-- The case of subcode 5 to 10 that a word which waits for a queue has, and that comes before subcode 11 (R24). -/
def State.earlyCase (s : State) : Option (Cause × Word) :=
  match decode s.sid (s.code.getD s.st.pc 0) with
  | .ok (.lset l _ stop) => s.loopTrap l stop
  | .ok (.crr _ creg) => s.crrCase creg
  | .ok (.crw _ creg) => s.crwCase creg
  | _ => none

/-- The trap is raised in the first waiting stream; the others go on waiting. -/
def execWaitCannotEnd (s : State) : Result :=
  let live := bankStreams.filter fun k => !(s.streamAt k).exited
  if s.bank.started && s.bank.stopped.isNone && !live.isEmpty && live.all (fun k => (s.stuck k).isSome) && !s.bankBusy
      && !s.allMeet then
    match live with
    | k :: _ =>
      let u := { s with sid := k }
      let c := u.earlyCase.getD (cILLEGAL 11, BitVec.ofNat 64 ((s.stuck k).getD 0))
      .next { u.takeTrap c.1 c.2 with sid := s.sid }
    | [] => .next s
  else .next s

end Sys2Proof.Machine
end

