-- ==== Sys2Proof/Machine/Jobs.lean ====
section
/-! DEFINITION. Launch queues, the lottery, placement, images, start, retirement and completion (R115 to R118, R128, R133,
R135, R174 to R179, R235, R238). -/

namespace Sys2Proof.Machine

/-! ## Queues (R174) -/

/-- Iterations of a task. -/
def Task.total (t : Task) : Nat := t.bounds.foldl (· * ·) 1

/-- Whether a task has iterations or gangs to place. -/
def Task.workLeft (t : Task) : Bool :=
  !t.guarded && !t.aborted && (decide (t.placed.length < t.total) || !t.saved.isEmpty)

/-- The oldest task of a queue with work left. -/
def State.headTask (s : State) (q : Nat) : Option Task := s.tasks.find? fun t => t.queue == q && t.workLeft

def State.setTask (s : State) (seq : Nat) (f : Task → Task) : State :=
  { s with tasks := s.tasks.map fun t => if t.seq = seq then f t else t }

/-- GROUP_TABLE_ACQUIRE: the head task of a queue takes an entry for each descriptor, if there are as many (R166). -/
def execGroupTableAcquire (q : Fin 64) (s : State) : Result :=
  match s.headTask q.val with
  | none => .next s
  | some t =>
    if t.held || t.groups.isEmpty || decide (s.groupFree < t.groups.length) then .next s
    else .next (State.setTask { s with groupFree := s.groupFree - t.groups.length } t.seq fun t => { t with held := true })

/-! ## Indices and gangs (R133, R178) -/

/-- Indices of levels 0 to 5 from an ordinal: the innermost level first. -/
def digits (bounds : List Nat) (ord : Nat) : List Nat → List Nat → List Nat
  | [], idx => idx
  | l :: inner, idx =>
    let b := bounds.getD l 1
    digits bounds (ord / b) inner (idx.set l (ord % b))

def Task.indices (t : Task) (ord : Nat) : List Nat := digits t.bounds ord t.order.reverse [0, 0, 0, 0, 0, 0]

/-- The ordinal of indices. -/
def Task.ordinal (t : Task) (idx : List Nat) : Nat := t.order.foldl (fun o l => o * t.bounds.getD l 1 + idx.getD l 0) 0

/-- The lowest ordinal from `o` on that is not placed. -/
def firstFree (placed : List Nat) (o : Nat) : Nat → Nat
  | 0 => o
  | n + 1 => if placed.contains o then firstFree placed (o + 1) n else o

def Task.nextOrd (t : Task) : Nat := firstFree t.placed 0 t.placed.length

/-- The index lists that agree with `idx` but on the given levels. -/
def spread (bounds : List Nat) : List Nat → List Nat → List (List Nat)
  | [], idx => [idx]
  | l :: t, idx => (upFrom 0 (bounds.getD l 1)).flatMap fun i => spread bounds t (idx.set l i)

/-- The ordinals of the next gang, ascending. -/
def Task.nextGang (t : Task) : List Nat :=
  ((spread t.bounds (gangLevels t.groups) (t.indices t.nextOrd)).map t.ordinal).foldl (fun l o => insertNat o l) []

/-! ## What a bank can take (R177, R116, R235, R394) -/

def coreTotal : Nat := 384

/-- Panel mode of a task: 0 SOLO, 1 SHARED, 2 GANG. -/
def Task.panel (t : Task) : Nat := t.flags / 2 % 4

def Task.banks2 (t : Task) : Bool := t.flags / 32 % 2 == 1

/-- A bank, with one bank taken as free. -/
def State.bankBut (s : State) (gone : Option (Nat × Nat)) (n b : Nat) : Bank := if gone = some (n, b) then Bank.zero else s.bankAt n b

/-- What a bank is asked for, beside what it holds: a bank that is taken as free, and the cores on which members of the same gang are
counted as placed (R344). -/
structure Beside where
  gone : Option (Nat × Nat)
  held : List Nat
  deriving DecidableEq, Repr

/-- The holders of the panel of pair `p`: core, bank, mode. Cores 2p and 2p + 1 are a pair (log 76, DESIGN CHOICE); a member that is
counted as placed, of mode `mode`, stands in either bank. -/
def State.pairHolders (s : State) (x : Beside) (mode p : Nat) : List (Nat × Nat × Nat) :=
  ([(2 * p, 0), (2 * p, 1), (2 * p + 1, 0), (2 * p + 1, 1)].filterMap fun m =>
    let b := s.bankBut x.gone m.1 m.2
    if b.iter.isSome then some (m.1, m.2, b.pmode.toNat) else none)
    ++ (x.held.filter fun m => m / 2 == p).map fun m => (m, 2, mode)

/-- Whether a GANG iteration on the pair below holds a pair's panel. Pairs 2g and 2g + 1 of a cluster are ganged (log 35, PRESUMED). -/
def State.ganged (s : State) (x : Beside) (mode p : Nat) : Bool :=
  p % 2 == 1 && (s.pairHolders x mode (p - 1)).any fun h => h.2.2 == 2

/-- The panel row of R177. -/
def State.panelFits (s : State) (x : Beside) (mode n b : Nat) : Bool :=
  let p := n / 2
  let hs := s.pairHolders x mode p
  !s.ganged x mode p &&
    (if mode = 0 then hs.all fun h => h.1 == n && h.2.1 != b && h.2.2 == 0
     else if mode = 1 then hs.all fun h => h.2.2 == 1
     else p % 2 == 0 && hs.isEmpty && (s.pairHolders x mode (p + 1)).isEmpty)

/-- Image tag and length of stream `i` of the task in a bank. -/
def State.imageOf (s : State) (b : Bank) (i : Nat) : Option (Nat × Nat) :=
  match b.iter with
  | none => none
  | some it => (s.taskAt it.task).bind fun t => (t.imgs[i]?).map fun x => x.2

/-- Whether a task's images can be resident beside those of another bank (R116). -/
def State.imagesFit (s : State) (t : Task) (other : Bank) : Bool :=
  (upFrom 0 3).all fun i =>
    match s.imageOf other i, t.imgs[i]? with
    | some (tag, len), some x => tag == x.2.1 || decide (len + x.2.2 ≤ imageLimit i)
    | _, _ => true

/-- The wheel positions of a set. -/
def positions (first stride count : Nat) : List Nat := (upFrom 0 count).map fun i => (first + i * stride) % 512

/-- Positions held by resident iterations. -/
def State.wheelHeld (s : State) (gone : Option (Nat × Nat)) : List Nat :=
  s.banks.flatMap fun m =>
    let b := s.bankBut gone m.1 m.2
    positions b.wheelFirst b.wheelStride b.wheelCount

def strideFor (count : Nat) : Nat := if count = 0 then 0 else 2 ^ Nat.log2 (512 / count)

/-- FIRST of a free set of `count` positions; none where there is none (R235). -/
def wheelSet (held : List Nat) (count : Nat) : Option Nat :=
  if count = 0 then some 0
  else (upFrom 0 512).find? fun f => (positions f (strideFor count) count).all fun p => !held.contains p

/-- The cluster of a core: cores 24c to 24c + 23 are cluster c, and cores 96d to 96d + 95 die d (log 76, DESIGN CHOICE). -/
def clusterOf (n : Nat) : Nat := n / 24

/-- The cores reserved for queue `q`, ascending. -/
def State.reservedFor (s : State) (q : Nat) : List Nat :=
  (upFrom 0 coreTotal).filter fun n => (s.coreAt n).1.reserved == some q

/-- Whether a bank can take an iteration of a task for queue `q`. -/
def State.fitsBeside (s : State) (x : Beside) (q : Nat) (t : Task) (n b : Nat) : Bool :=
  let core := (s.coreAt n).1
  let other := s.bankBut x.gone n (1 - b)
  decide (n < coreTotal) && !core.mappedOut && bitOf s.bureau.ready0 (clusterOf n) && !(Tbl.get s.clusters (clusterOf n) Cluster.zero).stopped
    && (core.reserved == none || core.reserved == some q)
    && ((s.bankAt n b).heir == none || (s.bankAt n b).heir == some q)
    && (s.bankBut x.gone n b).iter.isNone
    && (match other.iter with
        | some it => !it.banks2 && !t.banks2
        | none => true)
    && s.panelFits x t.panel n b && s.imagesFit t other && (wheelSet (s.wheelHeld x.gone) t.wheel).isSome

/-- The same, with the cores already reserved for the task's gang counted (R344). -/
def State.fits (s : State) (gone : Option (Nat × Nat)) (q : Nat) (t : Task) (n b : Nat) : Bool :=
  s.fitsBeside { gone := gone, held := if t.groups.isEmpty then [] else (s.reservedFor q).filter (· != n) } q t n b

/-- Whether queue `q` is ready for a bank (R174). A core that a gang holds already serves no second member of it (R133). -/
def State.queueReady (s : State) (gone : Option (Nat × Nat)) (q n b : Nat) : Bool :=
  (s.queueAt q).tickets != 0 &&
    match s.headTask q with
    | some t => t.edges.isEmpty && (t.groups.isEmpty || (t.held && (s.coreAt n).1.reserved == none)) && s.fits gone q t n b
    | none => false

/-! ## Placement -/

/-- Whether an image is named by an iteration of the core in hand. -/
def State.named' (s : State) (i : Nat) (tag : Nat) : Bool :=
  [s.bank, s.core.other].any fun b => (s.imageOf b i).any fun x => x.1 == tag

/-- The stream whose image a reference names: A, X, N. -/
def sidOf (i : Nat) : StreamId := if i = 0 then .A else if i = 1 then .X else .N

/-- The image of a stream in a task's references. -/
def imageIndex (k : StreamId) : Nat := if k = .A then 0 else if k = .X then 1 else 2

/-- The least recently used image of stream `i` of the core in hand that no resident iteration names. -/
def State.oldestImage (s : State) (i : Nat) : Option Image :=
  (s.core.images.filter fun x => x.sid == sidOf i && !s.named' i x.tag).foldl (fun a x =>
    match a with
    | none => some x
    | some y => some (if x.use < y.use then x else y)) none

/-- Evict images of stream `i` until one of `len` words fits: at most four, and their lengths within the memory (R115). -/
def State.makeRoom (s : State) (i len : Nat) : Nat → State
  | 0 => s
  | n + 1 =>
    let l := s.core.images.filter fun x => x.sid == sidOf i
    if l.length < 4 ∧ (l.foldl (fun a x => a + x.len) 0) + len ≤ imageLimit i then s
    else
      match s.oldestImage i with
      | none => s
      | some x => State.makeRoom (s.setCore fun c => { c with images := c.images.filter fun y => !(y.sid == x.sid && y.tag == x.tag) }) i len n

/-- Use an image of stream `i`: the resident copy, or one that is to be loaded. -/
def State.useImage (s : State) (space i : Nat) (ref : Nat × Nat × Nat) : State :=
  let tag := ref.2.1
  let t := { s with uses := s.uses + 1 }
  if t.core.images.any fun x => x.sid == sidOf i && x.tag == tag then
    t.setCore fun c => { c with images := c.images.map fun x => if x.sid = sidOf i ∧ x.tag = tag then { x with use := s.uses } else x }
  else
    (t.makeRoom i ref.2.2 8).setCore fun c => { c with images := c.images ++
      [{ sid := sidOf i, tag := tag, va := ref.1, space := space, words := [], len := ref.2.2, use := s.uses, stopped := false, bank := s.bankNo }] }

/-- The phase of group slot `gs` in which a new member arrives first; none without a descriptor (R134). -/
def Task.phaseOf (t : Task) (gs : Nat) : Option Nat := if t.groups.any (fun g => g.1 == gs) then some 0 else none

/-- Place iteration `ord` of a task in bank `b` of core `n`; `area` is the save area that it comes back from. -/
def State.placeIn (s : State) (t : Task) (ord n b : Nat) (area : Option Nat) : State :=
  let first := (wheelSet (s.wheelHeld none) t.wheel).getD 0
  let u := s.onBank n b fun u =>
    let same := fun (gs : Nat) => ((t.groups.find? fun g => g.1 == gs).map Prod.snd).getD 0
    let tag := fun (i : Nat) => (t.imgs.getD i (0, 0, 0)).2.1
    let v := u.setBank fun _ =>
      { Bank.zero with
        a := { Stream.zero with tag := tag 0 }, x := { Stream.zero with tag := tag 1 }, n := { Stream.zero with tag := tag 2 }
        pmode := BitVec.ofNat 2 t.panel, side := n % 2 == 1
        wheelFirst := first, wheelStride := strideFor t.wheel, wheelCount := t.wheel, wheelNext := s.w
        phase := #v[t.phaseOf 0, t.phaseOf 1, t.phaseOf 2, t.phaseOf 3], same := #v[same 0, same 1, same 2, same 3]
        iter := some { task := t.seq, ord := ord, idx := t.indices ord, space := t.space, lock := t.flags % 2 == 1
                       regchk := t.flags / 16 % 2 == 1, banks2 := t.banks2 }
        restore := area }
    (upFrom 0 3).foldl (fun (w : State) i => w.useImage t.space i (t.imgs.getD i (0, 0, 0))) v
  u.setTask t.seq fun t =>
    { t with placed := if area.isSome then t.placed else t.placed ++ [ord], saved := if area.isSome then t.saved.drop 1 else t.saved }

/-- Place the next iteration of a task: its oldest saved one, else the lowest ordinal (R135, R177). -/
def State.placeNext (s : State) (t : Task) (n b : Nat) : State :=
  match t.saved with
  | (ord, area) :: _ => s.placeIn t ord n b (some area)
  | [] => s.placeIn t t.nextOrd n b none

def State.reserveCore (s : State) (n : Nat) (q : Option Nat) : State := s.onBank n 0 fun t => t.setCore fun c => { c with reserved := q }

/-- The first free bank of the first of the cores `cs` that can take a member. -/
def State.freeBank (s : State) (q : Nat) (t : Task) (cs : List Nat) : Option (Nat × Nat) :=
  (cs.flatMap fun n => [(n, 0), (n, 1)]).find? fun m => s.fitsBeside { gone := none, held := [] } q t m.1 m.2

/-- Place the members of a gang, one on each of the cores `cs`; none where a core or a wheel set is wanting (log 17, DESIGN CHOICE). -/
def State.placeMembers (s : State) (q : Nat) (t : Task) (cs : List Nat) : List Nat → Option State
  | [] => some s
  | ord :: rest =>
    match s.freeBank q t cs with
    | none => none
    | some m => State.placeMembers (s.placeIn t ord m.1 m.2 none) q t (cs.filter (· != m.1)) rest

/-- Place the gang of queue `q` at once when every member has a core, and give up the cores that it does not need (R133). -/
def State.placeGang (s : State) (q : Nat) (t : Task) : State :=
  let cs := s.reservedFor q
  if cs.length < t.nextGang.length then s
  else
    match s.placeMembers q t cs t.nextGang with
    | some u => cs.foldl (fun (v : State) n => v.reserveCore n none) u
    | none => s

/-- Give a bank to queue `q`: its next iteration, or one core more for its gang. -/
def State.serve (s : State) (q : Nat) (t : Task) (n b : Nat) : State :=
  if t.groups.isEmpty then s.placeNext t n b else (s.reserveCore n (some q)).placeGang q t

/-! ## The lottery (R175, R176) -/

/-- The queue that a pick serves, over the ready queues in ascending number. -/
def pickQueue (tickets : Nat → Nat) : Nat → List Nat → Option Nat
  | _, [] => none
  | pick, q :: t => if pick < tickets q then some q else pickQueue tickets (pick - tickets q) t

/-- Whether the gang of queue `q` holds a core for every member, and every member can be placed. -/
def State.gangComplete (s : State) (q : Nat) (t : Task) : Bool :=
  let cs := s.reservedFor q
  decide (t.nextGang.length ≤ cs.length) && (s.placeMembers q t cs t.nextGang).isSome

/-- Whether a task at the head of its queue is ready but for a bank: its edges are released, and it holds its entries of the group table (R174,
R166). -/
def Task.clear (t : Task) : Bool := t.edges.isEmpty && (t.groups.isEmpty || t.held)

/-- Whether queue `q`, whose head task is `t`, takes a freed bank without a draw: its gang holds reserved cores and is not placed, or it has
evicted the iteration (R175, R344). -/
def State.takesFreed (s : State) (n b q : Nat) (t : Task) : Bool :=
  if !t.clear then false
  else if t.groups.isEmpty then (s.bankAt n b).heir == some q && s.fits none q t n b
  else if (s.coreAt n).1.reserved = some q then s.gangComplete q t
  else ((s.bankAt n b).heir == some q || !(s.reservedFor q).isEmpty) && s.fits none q t n b

/-- The lowest queue that takes a freed bank without a draw. -/
def State.gangTaker (s : State) (n b : Nat) : Option (Nat × Task) :=
  ((upFrom 0 64).filterMap fun q => (s.headTask q).map fun t => (q, t)).find? fun x => s.takesFreed n b x.1 x.2

/-- The freed bank `b` of core `n` goes to queue `q`: to its gang, or to its next iteration. -/
def State.takeFreed (s : State) (q : Nat) (t : Task) (n b : Nat) : State :=
  let u := s.onBank n b fun v => v.setBank fun k => { k with heir := none }
  if t.groups.isEmpty then (if u.fits none q t n b then u.placeNext t n b else u)
  else if (u.coreAt n).1.reserved = some q then u.placeGang q t
  else if u.fits none q t n b then (u.reserveCore n (some q)).placeGang q t
  else u

/-- LOTTERY_DRAW for a free bank: a draw where a queue is ready for it, and the placement that it decides. -/
def execLotteryDraw (core : Nat) (second : Bool) (s : State) : Result :=
  let b := if second then 1 else 0
  if coreTotal ≤ core then .fault .noSuchUnit
  else if (s.bankAt core b).iter.isSome then .next s
  else
    match s.gangTaker core b with
    | some (q, t) => .next (s.takeFreed q t core b)
    | none =>
      let s := if (s.bankAt core b).heir.isSome then s.onBank core b fun t => t.setBank fun k => { k with heir := none } else s
      let ready := (upFrom 0 64).filter fun q => s.queueReady none q core b
      let prio := fun (q : Nat) => match s.headTask q with
        | some t => t.prio
        | none => 0
      let top := ready.foldl (fun a q => max a (prio q)) 0
      let best := ready.filter fun q => prio q == top
      let tickets := fun (q : Nat) => (s.queueAt q).tickets
      if best.isEmpty then .next s
      else
        let x := xorshift s.lotto
        let u := { s with lotto := x, draws := s.draws + 1 }
        match pickQueue tickets (x.toNat % best.foldl (fun a q => a + tickets q) 0) best with
        | some q =>
          (match u.headTask q with
            | some t => .next (u.serve q t core b)
            | none => .next u)
        | none => .next u

/-! ## Images and START (R115, R116, R118) -/

/-- Whether the images of the bank in hand are resident. -/
def State.imagesReady (s : State) : Bool :=
  bankStreams.all fun k => (State.image { s with sid := k }).isSome

/-- IMAGE_LOAD: the loader of the core in hand reads the next 64 bytes of an image that is not resident yet, or waits where a page of the host or of
a peer makes it wait (R226, R365, R366). -/
def execImageLoad (sid : StreamId) (s : State) : Result :=
  match s.core.images.find? fun i => i.sid == sid && decide (i.words.length < i.len) && !i.stopped with
  | none => .next s
  | some i =>
    let k := min 8 (i.len - i.words.length)
    let put := fun (t : State) (j : Image) => t.setCore fun c => { c with images := c.images.map fun x => if x.sid = i.sid ∧ x.tag = i.tag then j else x }
    match s.spaceRead (s.coreNo / 96) i.space (i.va + 8 * i.words.length) (8 * k) with
    | .ok (b, t) => .next (put t { i with words := i.words ++ wordsOf b k })
    | .error (c, va) =>
      if c = cWAITS then .next s
      else .next ((put s { i with stopped := true }).post
        { info := infoWord c 9 s.coreNo i.bank false i.space, va := BitVec.ofNat 64 va, word := 0, pos := BitVec.ofNat 64 (va - i.va)
          who := .loader s.coreNo sid i.tag, task := (match (s.focusBank i.bank).bank.iter with
            | some it => it.task
            | none => 0) })

/-- The registers that a stream holds at START (R178). -/
def preload (idx : List Nat) (args ord core bank : Nat) : Vector Word 32 :=
  Vector.ofFn fun i =>
    BitVec.ofNat 64
      (if 1 ≤ i.val ∧ i.val ≤ 6 then idx.getD (i.val - 1) 0
       else if i.val = 7 then args else if i.val = 8 then ord else if i.val = 9 then core else if i.val = 10 then bank else 0)

/-- The core in hand issues from the bank in hand where its other bank cannot issue. -/
def State.takeTurn (s : State) : State :=
  let o := s.core.other
  if s.core.issuing ≠ s.bankNo ∧ (!o.started || o.stopped.any (· < o.cycle) || o.evict.isSome) then s.setCore fun c => { c with issuing := s.bankNo } else s

/-- What the streams of the bank in hand hold at START. -/
def State.started (s : State) (it : Iter) : Bank :=
  let args := match s.taskAt it.task with
    | some t => t.args
    | none => 0
  let regs := preload it.idx args it.ord s.coreNo s.bankNo
  let go := fun (t : Stream) => { Stream.zero with s := regs, tag := t.tag, running := true }
  { s.bank with a := go s.bank.a, x := go s.bank.x, n := go s.bank.n, cycle := 0 }

/-- ITERATION_START: the three streams of the bank in hand start in one cycle. -/
def execIterationStart (s : State) : Result :=
  match s.bank.iter with
  | none => .next s
  | some it =>
    if s.bank.started || s.bank.restore.isSome || !s.imagesReady then .next s
    else .next (s.setBank fun _ => { s.started it with started := true }).takeTurn

/-! ## Retirement (R128, R238) -/

/-- Whether the streams of the bank in hand have exited and nothing of it is on its way (log 16, DESIGN CHOICE). -/
def State.bankDone (s : State) : Bool :=
  s.bank.started && bankStreams.all (fun k => (s.streamAt k).exited)
    && (s.core.copyQ ++ s.core.indexQ).all (fun c => c.bank != s.bankNo)
    && s.core.panel.all.all (fun n => n.bank != s.bankNo)
    && s.core.early.all (fun e => e.bank != s.bankNo)
    && s.flight.all (fun x => x.agent.sid == .L || x.agent.core != s.coreNo || x.agent.bank != s.bankNo || (x.fail.isSome && !x.returns))

/-- The bank in hand is free, and the core switches to its other bank (R117). -/
def State.freeBankInHand (s : State) : State := (s.setBank fun b => { Bank.zero with heir := b.heir }).switchBank

/-- ITERATION_RETIRE: the end-of-task write-backs begin, and when they have ended, the bank is free. -/
def execIterationRetire (s : State) : Result :=
  match s.bank.iter with
  | none => .next s
  | some it =>
    if !s.bankDone || s.bank.evict.isSome then .next s
    else
      let dirty := (List.finRange 16).filter fun e => s.bank.map[e].valid && s.bank.map[e].rw && !s.bank.map[e].written.isEmpty
      match s.bank.wb with
      | none =>
        if dirty.isEmpty then
          .next ((s.setTask it.task fun t => { t with retired := t.retired ++ [it.ord], stray := t.stray || s.bank.stray }).freeBankInHand)
        else .next (s.setBank fun b => { b with wb := some { by_ := .endTask, left := dirty, sent := 0, stopped := false } })
      | some w => if w.left.isEmpty then .next (s.setBank fun b => { b with wb := none }) else .next s

/-! ## Completion (R179, R238) -/

/-- Whether the stores of a task's iterations are acknowledged or have failed. -/
def State.taskQuiet (s : State) (seq : Nat) : Bool :=
  s.flight.all fun x => x.task != seq || !x.req.writes || x.acked || x.agent.sid == .L

/-- Forget the completed tasks that no edge names and whose stores are acknowledged. -/
def State.sweep (s : State) : State :=
  { s with tasks := s.tasks.filter fun t =>
      !(t.complete && s.taskQuiet t.seq && s.tasks.all fun u => !u.edges.contains t.seq) }

/-- Whether an iteration of a task is resident. -/
def State.taskResident (s : State) (seq : Nat) : Bool :=
  s.banks.any fun m => match (s.bankAt m.1 m.2).iter with
    | some it => it.task == seq
    | none => false

/-- TASK_COMPLETE: every iteration is placed and retired, or the task is ended and none is resident. -/
def execTaskComplete (seq : Nat) (s : State) : Result :=
  match s.taskAt seq with
  | none => .next s.sweep.settleReplies
  | some t =>
    if t.complete || t.guarded || (if t.aborted then s.taskResident seq else decide (t.retired.length < t.total)) then
      .next s.sweep.settleReplies
    else
      let u := State.setTask { s with groupFree := s.groupFree + if t.held then t.groups.length else 0 } seq fun t =>
        { t with complete := true, held := false }
      .next (u.answer { target := t.reply, graph := false, seq := seq, number := seq, stray := t.stray, status := if t.aborted then 6 else 0, space := t.space
                        core := t.core, bank := t.bank, at_ := t.at_, word := t.word }).sweep

/-- EDGE_RELEASE: the earlier task has completed and its stores are acknowledged (R179, R238). -/
def execEdgeRelease (before after : Nat) (s : State) : Result :=
  match s.taskAt before with
  | none => .next (s.setTask after fun t => { t with edges := t.edges.filter (· != before) })
  | some t =>
    if t.complete && s.taskQuiet before then .next (s.setTask after fun t => { t with edges := t.edges.filter (· != before) }).sweep
    else .next s

end Sys2Proof.Machine
end

