-- ==== Sys2Proof/Machine/Records.lean ====
section
/-! DEFINITION. Fault records and their answers (R339 to R343), and the end of a task (R340). -/

namespace Sys2Proof.Machine

/-! ## Posting (R341, R342) -/

def Record.bytes (r : Record) : List Byte :=
  leBytes r.info.toNat 8 ++ leBytes r.va.toNat 8 ++ leBytes r.word.toNat 8 ++ leBytes r.pos.toNat 8

/-- PA of the record table; of the notification ring (R387). -/
def Bureau.table (b : Bureau) : Nat := field b.fqtable.toNat 51 17 * 2 ^ 17

def Bureau.ring (b : Bureau) : Nat := field b.fqring.toNat 51 13 * 2 ^ 13

/-- The lowest slot from `n` on that is not held. -/
def freeSlot (held : Tbl Record) (n : Nat) : Nat → Nat
  | 0 => n
  | k + 1 => if (Tbl.get? held n).isSome then freeSlot held (n + 1) k else n

/-- FAULT_POST: the oldest record into the lowest free slot, its number into the ring, and the interrupt. While every slot is held,
it waits. -/
def execFaultPost (s : State) : Result :=
  match s.bureau.posts with
  | [] => .next s
  | r :: rest =>
    let b := s.bureau
    if 4096 ≤ b.held.length then .next s
    else
      let n := freeSlot b.held 0 b.held.length
      let t := (s.bureauWrite (b.table + 32 * n) r.bytes).bureauWrite (b.ring + 2 * (b.fqprod % 4096)) (leBytes n 2)
      .next (State.tell { t with bureau := { t.bureau with posts := rest, held := Tbl.put t.bureau.held n r, fqprod := (b.fqprod + 1) % 2 ^ 32 } } n)

/-- Bit 63 of INFO. -/
def Record.withdrawn (r : Record) : Bool := r.info.getLsbD 63

def Record.withdraw (r : Record) : Record := { r with info := r.info ||| 0x8000000000000000#64, who := .none }

/-- Withdraw the records that satisfy `p`, posted or not (R345 step 2). -/
def State.withdraw (s : State) (p : Record → Bool) : State :=
  let t := { s with bureau := { s.bureau with
    posts := s.bureau.posts.map fun r => if p r then r.withdraw else r
    held := s.bureau.held.map fun e => if p e.2 then (e.1, e.2.withdraw) else e } }
  (s.bureau.held.filter fun e => p e.2).foldl (fun (u : State) e => u.bureauWrite (u.bureau.table + 32 * e.1) (leBytes e.2.withdraw.info.toNat 8)) t

/-! ## The end of a task (R340) -/

/-- Make every early write of the bank in hand readable: its words have been issued. -/
def State.exposeAll (s : State) : State :=
  let r := commitEarly s.coreNo (fun e => e.bank == s.bankNo) [] s.core.early s.mem
  { s with mem := r.2, core := { s.core with early := r.1.filter fun e => e.cells != [] } }

/-- Whether an access is one of the bank in hand. -/
def State.mine (s : State) (a : Agent) : Bool := a.sid != .L && a.core == s.coreNo && a.bank == s.bankNo

/-- Take the nests of the bank in hand off the panel, with what is fed or drained of them. -/
def State.clearPanel (s : State) : State :=
  let p := s.core.panel
  let ids := (p.all.filter fun n => n.bank == s.bankNo).map ActiveNest.id
  if ids.isEmpty then s
  else
    s.setPanel fun p =>
      { p with nests := p.nests.filter fun n => n.bank != s.bankNo, pending := p.pending.filter fun n => n.bank != s.bankNo
               cur := p.cur.filter fun r => !ids.contains r.nest, fed := p.fed.filter fun r => !ids.contains r.nest
               out := p.out.filter fun r => !ids.contains r.1.nest, saving := false, feedStop := false, drainStop := false }

/-- A part of an image that was loaded for the bank in hand, which is free now, is resident for no other iteration (R116): where the one in the
other bank names the image, its load begins anew from that iteration's reference. -/
def State.reloaded (s : State) (x : Image) : Option Image :=
  s.core.other.iter.bind fun it => (s.taskAt it.task).bind fun t => (t.imgs[imageIndex x.sid]?).bind fun r =>
    if r.2.1 = x.tag then some { x with va := r.1, space := t.space, words := [], len := r.2.2, stopped := false, bank := 1 - s.bankNo } else none

/-- Images of the core in hand without the parts that were loaded for the bank in hand. -/
def State.dropPartial (s : State) : State :=
  s.setCore fun c => { c with images := c.images.filterMap fun x =>
    if x.words.length = x.len ∨ x.bank ≠ s.bankNo then some x else s.reloaded x }

/-- Remove the iteration of the bank in hand: its commands, nests, accesses that have not performed and map entries go with it. -/
def State.removeIteration (s : State) : State :=
  let t := s.exposeAll.clearPanel
  let u := t.setCore fun c => { c with copyQ := c.copyQ.filter fun k => k.bank != t.bankNo, indexQ := c.indexQ.filter fun k => k.bank != t.bankNo }
  let v := { u with flight := u.flight.filter fun x => !u.mine x.agent, retires := u.retires.filter fun r => !u.mine r.agent }
  v.freeBankInHand.dropPartial

/-- END of a task: every iteration is removed, and nothing more of it is placed. Its edges release and its reply is given when
TASK_COMPLETE finds none resident. -/
def State.endTask (s : State) (seq : Nat) : State :=
  let mine := s.banks.filter fun m => match (s.bankAt m.1 m.2).iter with
    | some it => it.task == seq
    | none => false
  let t := mine.foldl (fun (t : State) m => t.onBank m.1 m.2 State.removeIteration) s
  let q := match s.taskAt seq with
    | some k => if k.groups.isEmpty then none else some k.queue
    | none => none
  let u := match q with
    | some q => (t.reservedFor q).foldl (fun (u : State) n => u.reserveCore n none) t
    | none => t
  (u.setTask seq fun k => { k with aborted := true, saved := [] }).settleCancels

/-- END of a run of the link engine in hand. -/
def State.endRun (s : State) : State :=
  { s with flight := s.flight.filter fun x => !(x.agent == { core := s.dieNo, bank := 0, sid := .L })
           link := { s.link with active := false, queued := [], st := { s.link.st with running := false, stopped := false } } }

/-! ## Answers (R340, R343) -/

/-- The bank in hand issues again: at once where the other bank does not issue, else when that one stops or after 4,096 cycles. -/
def State.ready (s : State) : State :=
  let t := s.setBank fun b => { b with stopped := none }
  if t.core.issuing = t.bankNo then t else (t.setBank fun b => { b with resumed := some b.cycle }).takeTurn

/-- RESUME of a stream in hand: it goes on at EPC, or behind it after BRK and TRAPI (R334); its bank is ready when no stream of it
is stopped any more. The word counts its IDLE as the trap has left the bound, from the word issued before it (R10) (log 84, DEDUCED). -/
def State.resumeStream (s : State) (code : Nat) : State :=
  let t := s.setSt { s.st with stopped := false, pc := s.st.epc.toNat + (if code = 4 ∨ code = 5 then 1 else 0), wait := none }
  match s.sid with
  | .L => t
  | .A | .X | .N => if bankStreams.any (fun k => (t.streamAt k).stopped) then t else t.ready

/-- The loader of core `n` goes on with the image of stream `k` that carries `tag` (R116). -/
def State.resumeLoader (s : State) (n : Nat) (k : StreamId) (tag : Nat) : State :=
  s.onBank n 0 fun t => t.setCore fun c => { c with images := c.images.map fun x => if x.sid = k ∧ x.tag = tag then { x with stopped := false } else x }

/-- Whether bank `b` of core `n` holds an iteration of task `seq`. -/
def State.holds (s : State) (n b seq : Nat) : Bool :=
  match (s.bankAt n b).iter with
  | some it => it.task == seq
  | none => false

/-- What RESUME does to the one who waits. -/
def State.resume (s : State) (r : Record) : State :=
  match r.who with
  | .stream a =>
    if (s.streamOf a).stopped && (a.sid == .L || s.holds a.core a.bank r.task) then
      s.onAgent a fun t => t.resumeStream (r.info.toNat % 256)
    else s
  | .writeback c b =>
    if s.holds c b r.task then s.onBank c b fun t => t.setBank fun k => { k with wb := k.wb.map fun w => { w with stopped := false } }
    else s
  | .engine c e ord =>
    s.onBank c 0 fun t => (t.setFifo e ((t.core.fifo e).map fun k => if k.ord = ord then { k with stopped := false } else k)).reorder e
  | .panel c id part => s.onBank c 0 fun t => if t.core.panel.all.any (·.id == id) then t.setPanel fun p => p.halt id part false else t
  | .loader c k tag => if s.holds c 0 r.task || s.holds c 1 r.task then s.resumeLoader c k tag else s
  | .launch => { s with launches := match s.launches with
      | l :: t => { l with stopped := false } :: t
      | [] => [] }
  | .graph inst => { s with graphs := s.graphs.map fun g => if g.id = inst then { g with stopped := false } else g }
  | .ring q => s.setQueue q fun l => { l with stopped := false }
  | .none => s

/-- The status with which END refuses a launch: the Bureau declines to map the page, or the page is forbidden (R167) (log 56, DEDUCED). -/
def Record.refusalStatus (r : Record) : Nat := if r.info.toNat % 256 = 6 then 3 else 7

/-- What END does to the one who waits. -/
def State.endFor (s : State) (r : Record) : State :=
  match r.who with
  | .stream a => if a.sid = .L then s.onDie a.core State.endRun else s.endTask r.task
  | .writeback _ _ | .engine _ _ _ | .panel _ _ _ | .loader _ _ _ => s.endTask r.task
  | .launch =>
    (match s.launches with
      | l :: _ => s.dropLaunch.answer (l.reply' 0 r.refusalStatus)
      | [] => s)
  | .graph inst =>
    (match s.graphAt inst with
      | none => s
      | some g =>
        let t := match g.reading with
          | some seq => s.dropTask seq
          | none => s
        t.setGraph { g.stop r.refusalStatus with reading := none, stopped := false })
  | .ring q => s.setQueue q fun l => { l with stopped := false, cons := (l.cons + 1) % 2 ^ 32 }
  | .none => s

/-- Free a slot. -/
def State.freeRecord (s : State) (slot : Nat) : State := { s with bureau := { s.bureau with held := Tbl.del s.bureau.held slot } }

/-- Answer a slot; one that is not held is discarded, and a withdrawn or LAUNCHREF record has no other effect (R341, R342, R345). -/
def State.answerSlot (s : State) (slot : Nat) (f : State → Record → State) : State :=
  match Tbl.get? s.bureau.held slot with
  | none => s
  | some r => if r.withdrawn then s.freeRecord slot else f (s.freeRecord slot) r

/-- RESUME; of a CODEC record it is END (R343). -/
def State.resumeOrEnd (s : State) (r : Record) : State := if r.info.toNat % 256 = 0x10 then s.endFor r else s.resume r

/-- ANSWER_RESUME. -/
def execAnswerResume (slot : Nat) (s : State) : Result := .next (s.answerSlot slot State.resumeOrEnd)

/-- ANSWER_END. -/
def execAnswerEnd (slot : Nat) (s : State) : Result := .next (s.answerSlot slot State.endFor)

/-- RESUME_SWITCH_TIMEOUT: a bank of the core in hand that became ready 4,096 cycles of its cluster ago issues; the other one is switched out and
ready again at once (R340, R395). -/
def execResumeSwitchTimeout (s : State) : Result :=
  let late := fun (b : Bank) => match b.resumed with
    | some n => decide (n + 4096 ≤ b.cycle) && b.stopped.isNone && b.started
    | none => false
  let go := fun (t : State) =>
    if late t.bank && t.core.issuing != t.bankNo then
      let u := t.setBank fun b => { b with resumed := none }
      u.setCore fun c => { c with issuing := u.bankNo, other := { c.other with resumed := if c.other.stopped.isNone then some c.other.cycle else none } }
    else t
  if late s.bank && s.core.issuing != s.bankNo then .next (go s) else .next ((go s.swapBank).swapBank)

end Sys2Proof.Machine
end

