-- ==== Sys2Proof/Machine/Bureau.lean ====
section
/-! DEFINITION. The Bureau's control window (R386, R387), readiness (R393, R394), errors (R355, R396), clocks and power (R395 to R398),
and reset with its boot (R388, R389). -/

namespace Sys2Proof.Machine

def State.setBureau (s : State) (f : Bureau → Bureau) : State := { s with bureau := f s.bureau }

/-! ## Page tables and frames as the Bureau writes them (R202, R355) -/

/-- Write the 16 bytes of a table entry. -/
def State.putEntry (s : State) (pa w0 w1 : Nat) : State := s.bureauWrite pa (leBytes w0 8 ++ leBytes w1 8)

/-- The levels of the walk. -/
def walkLevels : List (Nat × Nat × Nat) := [(3, 39, 17), (2, 30, 9), (1, 21, 9), (0, 12, 9)]

/-- The place of the leaf entry of a page. -/
def State.leafAt (s : State) (va base : Nat) : List (Nat × Nat × Nat) → Option Nat
  | [] => none
  | (_, lo, bits) :: rest =>
    let at_ := base + va / 2 ^ lo % 2 ^ bits * 16
    let e := s.entryAt at_
    if e.1 % 2 = 0 then none
    else if e.1 / 8 % 2 = 1 then State.leafAt s va (field e.1 51 12 * 4096) rest
    else some at_

/-- Whether the ranges of a list share no byte. -/
def apart : List (Nat × Nat) → Bool
  | [] => true
  | x :: t => t.all (fun y => !overlaps x.1 x.2 y.1 y.2) && apart t

/-- Whether a frame lies on row group `index` of die `die`. -/
def onRow (die index p : Nat) : Bool := hbmDie p == die && Config.hbmRow (p / 4096) == index

/-- Whether a frame lies on a row group whose frames are not allocated any more. -/
def State.onBadRow (s : State) (p : Nat) : Bool := s.bureau.badRows.any fun r => onRow r.1 r.2 p

/-- The valid entries of a table of `n` entries at `base`, by place. -/
def State.validEntries (s : State) (base n : Nat) : List Nat :=
  (s.mem.filter fun c => decide (base ≤ c.1 ∧ c.1 < base + 16 * n) && (c.1 - base) % 16 == 0 && c.2.toNat % 2 == 1).map Prod.fst

/-- The tables under the one at `base`, itself among them, and the HBM pages that they map: first byte and length (R202). -/
def State.tableRanges (s : State) (base : Nat) : List (Nat × Nat × Nat) → List (Nat × Nat)
  | [] => []
  | (lv, _, bits) :: rest =>
    (base, 16 * 2 ^ bits) :: (s.validEntries base (2 ^ bits)).flatMap fun pa =>
      let e := s.entryAt pa
      let at_ := field e.1 51 12 * 4096
      if malformed lv e.1 e.2 then []
      else if e.1 / 8 % 2 = 1 then State.tableRanges s at_ rest
      else if field e.1 7 6 = 0 then [(at_, pageBytes (field e.1 5 4))]
      else []

/-- What the page tables of the address spaces take of HBM, and the pages that they map. -/
def State.tabled (s : State) : List (Nat × Nat) :=
  s.spaces.flatMap fun a => let r := a.2.root.toNat; if r % 2 = 0 then [] else s.tableRanges (field r 51 21 * 2 ^ 21) walkLevels

/-- Whether frames of 4 KiB and tables of 8 KiB are free HBM: outside the carve-out (R201), held by no load, by no table of an address space nor
mapped by one, and on no row group whose frames are not allocated any more (R355). -/
def State.framesFree (s : State) (frames tables : List Nat) : Bool :=
  let mine := frames.map (fun p => (p, 4096)) ++ tables.map fun p => (p, 8192)
  let taken := s.tabled
  mine.all (fun p => p.1 % 4096 == 0 && decide (p.1 + p.2 ≤ 0x6000000000) && !inCarve p.1 p.2
      && !s.onBadRow p.1 && !s.onBadRow (p.1 + p.2 - 4096)
      && s.bureau.loads.all (fun l => l.frames.all fun q => !overlaps p.1 p.2 q 4096)
      && s.bureau.tables.all (fun q => !overlaps p.1 p.2 q 8192) && taken.all fun q => !overlaps p.1 p.2 q.1 q.2)
    && apart mine

/-! ## Errors (R355, R396, R364) -/

/-- Resource kinds of ERRLOG (R392). -/
def resCode : Resource → Nat
  | .bank => 1
  | .row => 2
  | .digest => 3
  | .lane => 4
  | .dieLink => 5

/-- The number of a resource in the error tables. -/
def errorKey (r : Resource) (die index : Nat) : Nat := resCode r + 8 * (die + 4 * index)

/-- A write while BUSY is held. -/
def Action.push (a : Action) (v : Nat) : Action := if a.busy.isSome then { a with held := a.held ++ [v] } else { a with busy := some v }

/-- Nothing more is placed on a core. -/
def State.mapOut (s : State) (core : Nat) : State := s.onBank core 0 fun t => t.setCore fun c => { c with mappedOut := true }

/-- One of the two spares of a scratchpad bank replaces a row group; without one the core is mapped out. -/
def State.spareBank (s : State) (key core : Nat) : State :=
  let used := Tbl.get s.bureau.spares key 0
  if used < 2 then s.setBureau fun b => { b with spares := Tbl.put b.spares key (used + 1) } else s.mapOut core

/-- The Bureau recomputes the slots of a digest bank of a die. -/
def State.redoBank (s : State) (die index : Nat) : State :=
  (s.slots.filter fun d => hbmDie d.1 == die && Config.digestBank d.1 == index).foldl (fun (t : State) d => match t.blockAt d.1 with
    | some (b, e, _) => t.redo (t.blockPlace e b)
    | none => t) s

/-- The 4 KiB pages of a load. -/
def Loaded.pages (l : Loaded) : List Nat := l.sections.flatMap fun x => (upFrom 0 ((x.2 + 4095) / 4096)).map fun i => x.1 + 4096 * i

/-- The page at `va` of an address space, where its frame lies on a row group: the place of its table entry, and its words. -/
def State.pageOn (s : State) (die index space va : Nat) : Option (Nat × Nat × Nat) :=
  let root := (s.spaceAt space).root.toNat
  match (if root % 2 = 0 then none else s.leafAt va (field root 51 21 * 2 ^ 21) walkLevels) with
  | none => none
  | some pa =>
    let e := s.entryAt pa
    if onRow die index (field e.1 51 12 * 4096) then some (pa, e) else none

/-- Take a page off a row group: it is unmapped, and moves to the next of the frames that the Bureau has found. -/
def State.leavePage (die index space : Nat) (x : State × List Nat) (va : Nat) : State × List Nat :=
  match x.2, x.1.pageOn die index space va with
  | p :: more, some (pa, w0, w1) =>
    if x.1.framesFree [p] [] then
      let old := field w0 51 12 * 4096
      ((x.1.putEntry pa 0 0).setBureau fun b => { b with
          moves := b.moves ++ [{ space := space, va := va, entry := pa, w0 := w0, w1 := w1, old := old, new := p }]
          loads := b.loads.map fun l => if l.space = space then { l with frames := l.frames.map fun q => if q = old then p else q } else l }, more)
    else (x.1, more)
  | _, _ => x

/-- BUMP. -/
def State.putBump (s : State) (v : Word) : State := s.setBureau fun b => { b with bump := b.bump.push (v.toNat % 64) }

/-- A row group is lasting: its frames are not allocated any more, and the pages of the loads on it are unmapped and move, each to one of
`frames`, once the generation of its address space has been raised (log 80, DESIGN CHOICE). -/
def State.leaveRow (s : State) (die index : Nat) (frames : List Nat) : State :=
  let t := s.setBureau fun b => { b with badRows := b.badRows ++ [(die, index)] }
  let r := (t.bureau.loads.filter fun l => !l.unloading).foldl (fun x l => l.pages.foldl (State.leavePage die index l.space) x) (t, frames)
  let spaces := ((r.1.bureau.moves.drop s.bureau.moves.length).map Move.space).eraseDups
  spaces.foldl (fun (u : State) a => u.putBump (BitVec.ofNat 64 a)) r.1

/-- Move a page to its new frame: its bytes, with the keys they stand under, and its digest slots; then it is mapped again. -/
def State.movePage (s : State) (m : Move) : State :=
  let at_ := fun (pa : Nat) => pa - m.old + m.new
  let on := fun (pa : Nat) => decide (m.old ≤ pa ∧ pa < m.old + 4096)
  let mem := s.mem.writeN m.new (s.mem.readN m.old 4096)
  let tags := (upFrom 0 64).foldl (fun t i => match Tbl.get? s.tags (m.old / 64 + i) with
    | some k => Tbl.put t (m.new / 64 + i) k
    | none => Tbl.del t (m.new / 64 + i)) s.tags
  let slots := (s.slots.filter fun d => on d.1).foldl (fun t d => Tbl.put (Tbl.del t d.1) (at_ d.1) d.2) s.slots
  State.putEntry { s with mem := mem, tags := tags, slots := slots, redos := s.redos.map fun p => if on p then at_ p else p
                          forward := s.forward.filter fun f => !on f.pa }
    m.entry (m.w0 - m.old + m.new) m.w1

/-- The pages of address space `a` that wait for its generation to be raised move. -/
def State.finishMoves (s : State) (a : Nat) : State :=
  let mine := s.bureau.moves.filter fun m => m.space == a
  mine.foldl State.movePage (s.setBureau fun b => { b with moves := b.moves.filter fun m => m.space != a })

/-- GENERATION_RAISE: the same for GENBUMP and BUMP; the pages of the address space that wait for it move (R352, R355). -/
def execGenerationRaise (s : State) : Result :=
  match pluck (fun r => s.retireReady r false) s.retires with
  | some ({ agent := a, ord := n, what := .gen k, dst := d }, rest) =>
    let t := State.raiseGen { s with retires := rest } k
    .next ((t.finishMoves k).onAgent a fun u => u.deliver d n (BitVec.ofNat 64 (u.spaceAt k).gen))
  | _ =>
    match s.bureau.bump.busy with
    | some k =>
      if s.genFree k then
        let t := (s.raiseGen k).finishMoves k
        .next { t with bureau := { t.bureau with bump := t.bureau.bump.finish k (t.spaceAt k).gen } }
      else .next s
    | none => .next s

/-- A port loses a lane, and dies with its last one (R367). -/
def State.loseLane (s : State) (port : Fin 64) : State :=
  let p := s.portAt port.val
  if p.lanes ≤ 1 then s.killPort port else { s with ports := Tbl.put s.ports port.val { p with lanes := p.lanes - 1 } }

/-- The Bureau maps a function out: its bit of READY0 or of READY1 clears (R394). -/
def State.functionGone (s : State) (f : Bool × Fin 64) : State :=
  let keep : Word := ~~~(1#64 <<< f.2.val)
  s.setBureau fun b => if f.1 then { b with ready1 := b.ready1 &&& keep } else { b with ready0 := b.ready0 &&& keep }

/-- What a lasting error does; with it the Bureau can map a function out. Scratchpad banks are numbered 16 a core over the device, lanes 4 a port
(log 40, DESIGN CHOICE). -/
def State.lasting (s : State) (r : Resource) (die : Nat) (x : ErrorAt) : State :=
  let index := x.index
  let t := match r with
    | .bank => s.spareBank (errorKey r die index) (index / 16)
    | .digest => s.redoBank die index
    | .lane => s.loseLane (Fin.ofNat 64 (index / 4))
    | .row => s.leaveRow die index x.frames
    | .dieLink => s
  let u := (t.setBureau fun b => { b with errlog := b.errlog ++ [(resCode r, die, index)] }).tell (resCode r)
  match x.gone with
  | some f => u.functionGone f
  | none => u

/-- Count a corrected error; the count of a resource that is lasting in this window stands at 256. -/
def State.countError (s : State) (r : Resource) (die : Nat) (x : ErrorAt) : State :=
  let key := errorKey r die x.index
  let n := Tbl.get s.bureau.errors key 0
  let put := fun (v : Nat) => s.setBureau fun b => { b with errors := Tbl.put b.errors key v }
  if 256 ≤ n then s else if s.bureau.errthr ≤ n + 1 then (put 256).lasting r die x else put (n + 1)

/-- Whether a resource exists. -/
def resPresent (r : Resource) (index : Nat) : Bool :=
  match r with
  | .bank => decide (index / 16 < coreTotal)
  | .lane => decide (index < 256)
  | .row | .digest | .dieLink => true

/-- CORRECTED_ERROR; `index` brings the frames that the Bureau finds for the pages of an HBM row group, and the function that it maps out (log 66,
DESIGN CHOICE). -/
def execCorrectedError (r : Resource) (die : Fin 4) (index : ErrorAt) (s : State) : Result :=
  if resPresent r index.index then .next (s.countError r die.val index) else .fault .noSuchUnit

/-- ERROR_WINDOW_END: the windows are aligned to multiples of 2^32 of W. -/
def execErrorWindowEnd (s : State) : Result :=
  if s.w % 2 ^ 32 = 0 then .next (s.setBureau fun b => { b with errors := [] }) else .next s

/-- SCRUB of a word of scratchpad or digest store: its bytes stay as they are, and a correction counts. -/
def execScrub (r : Resource) (die : Fin 4) (index : Nat) (corrected : Bool) (s : State) : Result :=
  if !(resPresent r index) then .fault .noSuchUnit
  else if corrected && (r == .bank || r == .digest) then .next (s.countError r die.val { index := index }) else .next s

/-! ## Clocks and power (R395 to R398) -/

def State.clusterAt (s : State) (c : Nat) : Cluster := Tbl.get s.clusters c Cluster.zero

def State.setCluster (s : State) (c : Nat) (f : Cluster → Cluster) : State := { s with clusters := Tbl.put s.clusters c (f (s.clusterAt c)) }

/-- POWER_STEP_DOWN: 100 MHz down, to 0.9 GHz at least. -/
def execPowerStepDown (cluster : Fin 16) (s : State) : Result := .next (s.setCluster cluster.val fun c => { c with step := max 9 (c.step - 1) })

/-- CLUSTER_STEP_UP: 100 MHz up, to 1.5 GHz at most. -/
def execClusterStepUp (cluster : Fin 16) (s : State) : Result := .next (s.setCluster cluster.val fun c => { c with step := min 15 (c.step + 1) })

/-- DROOP_STRETCH: the next cycle of the cluster's clock takes one cycle of W more. -/
def execDroopStretch (cluster : Fin 16) (s : State) : Result := .next (s.setCluster cluster.val fun c => { c with stretch := true })

/-- Stop or start the clocks of every cluster. -/
def State.stopClusters (s : State) (stop : Bool) : State :=
  (upFrom 0 16).foldl (fun (t : State) c => t.setCluster c fun k => { k with stopped := stop }) s

/-- THERMAL_TRIP: every task ends with ABORTED, the Bureau is told, and the clusters stop. -/
def execThermalTrip (s : State) : Result :=
  let open_ := (s.tasks.filter fun t => !t.guarded && !t.complete && !t.aborted).map Task.seq
  .next (((open_.foldl State.endTask s).stopClusters true).tell 110)

/-- THERMAL_RESUME: below 95 °C the clusters run again. -/
def execThermalResume (s : State) : Result := .next (s.stopClusters false)

/-! ## Readiness (R393, R394, R368) -/

/-- FUNCTION_READY: once the mailbox is open (R388), a function sets its bit of READY0, or a port its bit of READY1, whose link is then up; the switch planes set
FSLOT at link-up. -/
def execFunctionReady (second : Bool) (bit : Fin 64) (slot : Word) (s : State) : Result :=
  let one : Word := 1#64 <<< bit.val
  if s.bureau.mbState.toNat % 4 ≠ 1 then .next s
  else if second then
    let p := s.portAt bit.val
    if p.live then .next (s.setBureau fun b => { b with ready1 := b.ready1 ||| one })
    else
      .next (State.setBureau { s with ports := Tbl.put s.ports bit.val { p with live := true, lanes := 4, credits := 32 }
                                      fslot := slot.toNat, fphase := 0 } fun b => { b with ready1 := b.ready1 ||| one })
  else if bit.val < 30 then .next (s.setBureau fun b => { b with ready0 := b.ready0 ||| one })
  else .next s

/-! ## Reset and boot (R388, R389) -/

/-- Whether a boot image verifies under the key whose hash is fused. -/
def bootGood (i : Signed) : Bool := i.keyId == Config.bootKey && Config.mldsaVerify i.keyId (Config.sha3_512 i.bytes) i.sig

/-- Store the hash of an image in eight MEAS registers from `k` on. -/
def State.measure (s : State) (k : Nat) (i : Signed) : State :=
  let h := Config.sha3_512 i.bytes
  s.setBureau fun b => { b with meas := Vector.ofFn fun j =>
    if k ≤ j.val ∧ j.val < k + 8 then some (BitVec.ofNat 64 (leNat ((h.drop (8 * (j.val - k))).take 8))) else b.meas[j] }

/-- The mailbox reports BOOTFAIL with the failing step (R391). -/
def State.bootFail (s : State) (step : Nat) : State :=
  s.setBureau fun b => { b with mbState := BitVec.ofNat 64 (2 + 256 * step), response := leBytes 4 2 ++ leBytes step 2 ++ List.replicate 12 0 }

/-- Steps 1 to 5 of the boot. -/
def State.boot (s : State) (f : Flash) : State :=
  if !bootGood f.stage1 && !bootGood f.copy then s.bootFail 1
  else
    let t := s.measure 0 (if bootGood f.stage1 then f.stage1 else f.copy)
    if !bootGood f.os then t.bootFail 2
    else
      let u := t.measure 8 f.os
      if !bootGood f.config then u.bootFail 3
      else (u.measure 16 f.config).setBureau fun b => { b with bootcfg := f.bootcfg.setWidth 64, mbState := 1 }

/-- Everything as reset leaves it; memory keeps its bytes, the reset count goes on, what the outside saw stays, and so do its inputs to
come (log 41, DESIGN CHOICE). -/
def State.deviceReset (s : State) : State :=
  { State.reset with
    mem := s.mem, tags := s.tags, outs := s.outs, inputs := s.inputs
    bureau := { Bureau.zero with resetcnt := s.bureau.resetcnt + 1 } }

/-- DEVICE_RESET. -/
def execDeviceReset (flash : Flash) (s : State) : Result := .next (s.deviceReset.boot flash)

/-! ## Registers of the control window (R386, R387) -/

/-- LOTSEED: a 0 is stored as 1, and DRAWS is cleared. -/
def State.putLotseed (s : State) (v : Word) : State :=
  { s with lotto := if v.setWidth 32 = 0#32 then 1 else v.setWidth 32, draws := 0 }

def execLotseedWrite (v : Word) (s : State) : Result := .next (s.putLotseed v)

/-- ERRTHR: a 0 is stored as 1. -/
def State.putErrthr (s : State) (v : Word) : State :=
  s.setBureau fun b => { b with errthr := if v.toNat % 256 = 0 then 1 else v.toNat % 256 }

def execErrthrWrite (v : Word) (s : State) : Result := .next (s.putErrthr v)

/-- KEYSET installs KEY0 to KEY3 in a slot; one that is killed for good keeps its zero key (R350). What was written under another
key of the slot then reads as ciphertext. -/
def State.putKeyset (s : State) (v : Word) : State :=
  let slot := v.toNat % 2 ^ 16
  let k := s.keyAt slot
  let new := s.bureau.keyq.toList
  if k.gen = 0xFFFFFF ∨ k.key = new then s
  else
    { s with keys := Tbl.put s.keys slot { k with key := new }
             tags := s.tags.map fun t => if t.2 = (slot, k.gen) then (t.1, (slot, 2 ^ 24 + k.gen)) else t }

def execKeyset (v : Word) (s : State) : Result := .next (s.putKeyset v)

/-- HOTCLR clears a core's hotness counters. -/
def State.putHotclr (s : State) (core : Nat) : State := s.onBank core 0 fun t => t.setCore fun c => { c with hot := [] }

def execHotclr (core : Nat) (s : State) : Result := if core < coreTotal then .next (s.putHotclr core) else .fault .noSuchUnit

/-- MEAS: a second write is discarded. -/
def State.putMeas (s : State) (k : Fin 24) (v : Word) : State :=
  if s.bureau.meas[k].isSome then s else s.setBureau fun b => { b with meas := b.meas.set k (some v) }

def execMeasWrite (k : Fin 24) (v : Word) (s : State) : Result := .next (s.putMeas k v)

/-- KILL; a KILL of slot 0 is discarded. -/
def State.putKill (s : State) (v : Word) : State :=
  if v.toNat % 2 ^ 16 = 0 then s else s.setBureau fun b => { b with kill := b.kill.push (v.toNat % 2 ^ 16) }

def execKill (v : Word) (s : State) : Result := .next (s.putKill v)

def execBump (v : Word) (s : State) : Result := .next (s.putBump v)

/-- QCTL: TICKETS, PREEMPT and JIG. -/
def State.putQctl (s : State) (q : Nat) (v : Word) : State :=
  s.setQueue q fun l => { l with tickets := v.toNat % 2 ^ 16, preempt := v.getLsbD 16, jig := field v.toNat 23 20 }

def execQctlWrite (q : Fin 64) (v : Word) (s : State) : Result := .next (s.putQctl q.val v)

/-- RINGVA and RINGCFG: while EN is 1 a write is discarded, but for one that clears EN, which changes EN alone (log 42, DEDUCED). -/
def State.putRing (s : State) (q : Nat) (cfg : Bool) (v : Word) : State :=
  s.setQueue q fun l =>
    if l.enabled then (if cfg && !v.getLsbD 63 then { l with ringCfg := l.ringCfg &&& 0x7FFFFFFFFFFFFFFF#64 } else l)
    else if cfg then { l with ringCfg := v &&& 0x8000000000003F1F#64 } else { l with ringVa := v &&& 0x00FFFFFFFFFFFFFF#64 }

def execRingConfigWrite (q : Fin 64) (cfg : Bool) (v : Word) (s : State) : Result := .next (s.putRing q.val cfg v)

/-- ROOT: V and the root table's PA. Cached translations stay. -/
def State.putRoot (s : State) (a : Nat) (v : Word) : State :=
  { s with spaces := Tbl.put s.spaces a { s.spaceAt a with root := v &&& 0x000FFFFFFFE00001#64 } }

def execRootWrite (space : Fin 64) (v : Word) (s : State) : Result := .next (s.putRoot space.val v)

/-- PRIV: KEYS and MAP. -/
def State.putPriv (s : State) (a : Nat) (v : Word) : State :=
  { s with spaces := Tbl.put s.spaces a { s.spaceAt a with priv := v &&& 3#64 } }

/-- The registers of a die from LRAS to SWPER, but for SWLOAD. -/
def State.putDie (s : State) (d r : Nat) (v : Word) : State :=
  s.onDie d fun t => t.setLink fun l =>
    if r = 1 then { l with lras := v &&& 63#64 }
    else if r = 2 then { l with lf0 := v }
    else if r = 3 then { l with ldue := v &&& 0x000FFFFFFFFE0000#64 }
    else if r = 4 then { l with ldoneva := v &&& 0x00FFFFFFFFFFFFFF#64 }
    else if r = 6 then { l with swper := v &&& 0xFFFF#64 }
    else l

/-- Registers of the Bureau that only keep what is written. -/
def State.putPlain (s : State) (off : Nat) (v : Word) : State :=
  if off = 0x1008 then s.setBureau fun b => { b with fqtable := v &&& 0x000FFFFFFFFE0000#64 }
  else if off = 0x1010 then s.setBureau fun b => { b with fqring := v &&& 0x000FFFFFFFFFE000#64 }
  else if off = 0x2000 then s.setBureau fun b => { b with apbase := v &&& 0x00FFFFF000000000#64 }
  else if off = 0x2008 then s.setBureau fun b => { b with apas := v &&& 0x800000000000003F#64 }
  else if 0x10000 ≤ off ∧ off < 0x10020 then s.setBureau fun b => { b with keyq := b.keyq.set (Fin.ofNat 4 ((off - 0x10000) / 8)) v }
  else s

/-- What an aligned 8-byte write at `off` of the window does; elsewhere it is discarded. -/
def State.windowWrite (s : State) (off : Nat) (v : Word) : State :=
  if off = 0x18 then s.putErrthr v
  else if off = 0x20 then s.putLotseed v
  else if h : 0x100 ≤ off ∧ off < 0x1C0 then s.putMeas ⟨(off - 0x100) / 8, by omega⟩ v
  else if off = 0x1000 then
    s.answerSlot (v.toNat % 4096) (if v.getLsbD 63 then State.endFor else State.resumeOrEnd)
  else if off = 0x10020 then s.putKeyset v
  else if off = 0x10028 then s.putKill v
  else if off = 0x10030 then s.putBump v
  else if 0x20000 ≤ off ∧ off < 0x20800 then
    let q := (off - 0x20000) / 32
    let r := off % 32
    if r = 0 then s.putQctl q v else if r = 8 then s.putRing q false v else if r = 16 then s.putRing q true v else s
  else if 0x30000 ≤ off ∧ off < 0x30800 then
    let a := (off - 0x30000) / 32
    let r := off % 32
    if r = 0 then s.putRoot a v else if r = 16 then s.putPriv a v else s
  else if h : 0x40000 ≤ off ∧ off < 0x40100 then
    let d : Fin 4 := ⟨(off - 0x40000) / 64, by omega⟩
    let r := off % 64 / 8
    if r = 0 then s.startLink d v else if r = 5 then s.sendTable d v else s.putDie d.val r v
  else if 0x100000 ≤ off ∧ off < 0x100C00 then s.putHotclr ((off - 0x100000) / 8)
  else s.putPlain off v

/-- CONTROL_WINDOW_WRITE. -/
def execControlWindowWrite (off : Nat) (v : Word) (s : State) : Result := .next (if off % 8 = 0 then s.windowWrite off v else s)

/-! ## Reading the window -/

/-- KILL and BUMP as read. -/
def Action.killWord (a : Action) : Word :=
  BitVec.ofNat 64 ((if a.busy.isSome then 2 ^ 63 else 0) + a.lastGen % 2 ^ 24 * 2 ^ 16 + a.last % 2 ^ 16)

def Action.bumpWord (a : Action) : Word :=
  BitVec.ofNat 64 ((if a.busy.isSome then 2 ^ 63 else 0) + a.last % 64 * 2 ^ 32 + a.lastGen % 2 ^ 32)

/-- QCTL as read; PRIO is the priority of the queue's head task (R174). -/
def State.qctl (s : State) (q : Nat) : Word :=
  let l := s.queueAt q
  BitVec.ofNat 64 ((match s.headTask q with
    | some t => t.prio
    | none => 0) * 2 ^ 32 + l.jig * 2 ^ 20 + (if l.preempt then 2 ^ 16 else 0) + l.tickets)

/-- SWLOAD as read. -/
def Link.swWord (l : Link) : Word :=
  BitVec.ofNat 64 ((if l.swBusy then 2 ^ 63 else 0) + match l.swRefused with
    | some p => 2 ^ 62 + p
    | none => 0)

/-- The register at an aligned offset of the window as the Bureau reads it; 0 elsewhere. -/
def State.windowRead (s : State) (off : Nat) : Word :=
  let b := s.bureau
  if off = 0 then b.ready0
  else if off = 8 then b.ready1
  else if off = 0x10 then b.bootcfg
  else if off = 0x18 then BitVec.ofNat 64 b.errthr
  else if off = 0x20 then s.draws ++ s.lotto
  else if 0x100 ≤ off ∧ off < 0x1C0 then (b.meas.toList.getD ((off - 0x100) / 8) none).getD 0
  else if off = 0x200 then BitVec.ofNat 64 b.resetcnt
  else if off = 0x1008 then b.fqtable
  else if off = 0x1010 then b.fqring
  else if off = 0x1018 then BitVec.ofNat 64 b.fqprod
  else if off = 0x1020 then BitVec.ofNat 64 b.held.length
  else if off = 0x2000 then b.apbase
  else if off = 0x2008 then b.apas
  else if off = 0x10028 then b.kill.killWord
  else if off = 0x10030 then b.bump.bumpWord
  else if 0x20000 ≤ off ∧ off < 0x20800 then
    let q := (off - 0x20000) / 32
    let l := s.queueAt q
    [s.qctl q, l.ringVa, l.ringCfg, BitVec.ofNat 64 l.cons].getD (off % 32 / 8) 0
  else if 0x30000 ≤ off ∧ off < 0x30800 then
    let a := s.spaceAt ((off - 0x30000) / 32)
    [a.root, BitVec.ofNat 64 a.gen, a.priv].getD (off % 32 / 8) 0
  else if 0x40000 ≤ off ∧ off < 0x40100 then
    let l := s.linkAt ((off - 0x40000) / 64)
    [if l.active then 1#64 else 0#64, l.lras, l.lf0, l.ldue, l.ldoneva, l.swWord, l.swper].getD (off % 64 / 8) 0
  else 0

end Sys2Proof.Machine
end

