-- ==== Sys2Proof/Machine/Loader.lean ====
section
/-! DEFINITION. SKO images and their loading (R79 to R83, R86, R90 to R95). -/

namespace Sys2Proof.Machine

/-! ## The file (R79 to R83, R86, R88, R91) -/

/-- A section table entry. -/
structure Sect where
  name : Nat
  type : Nat
  flags : Nat
  off : Nat
  size : Nat
  va : Nat
  align : Nat
  link : Nat
  info : Nat
  ent : Nat
  deriving DecidableEq, Repr

def readSect (f : List Byte) (at_ : Nat) : Sect :=
  let g := fun (o n : Nat) => numAt f (at_ + o) n
  { name := g 0 4, type := g 4 2, flags := g 6 2, off := g 8 8, size := g 16 8, va := g 24 8, align := g 32 4, link := g 36 4
    info := g 40 4, ent := g 44 4 }

/-- The section table. -/
def sectsOf (f : List Byte) : List Sect := (upFrom 0 (numAt f 12 4)).map fun i => readSect f (numAt f 16 8 + 48 * i)

def Sect.isCode (x : Sect) : Bool := decide (1 ≤ x.type ∧ x.type ≤ 4)

def Sect.isLoad (x : Sect) : Bool := x.flags % 2 == 1

/-- Bytes of the file that a section's contents take; BSS takes none. -/
def Sect.inFile (x : Sect) : Nat := if x.type = 7 then 0 else x.size

/-- Fixed fields of a type: FLAGS, ENTSIZE, least ALIGN and the limit on SIZE (R82). -/
def typeRow (t : Nat) : Option (Nat × Nat × Nat × Nat) :=
  [some (0, 0, 1, 0), some (1, 8, 8, 65536), some (1, 8, 8, 65536), some (1, 8, 8, 16384), some (1, 8, 8, 32768), some (3, 1, 8, 2 ^ 40),
   some (1, 1, 8, 2 ^ 40), some (3, 1, 8, 2 ^ 40), some (1, 256, 256, 2 ^ 24), some (1, 16, 16, 2 ^ 24), some (1, 16, 16, 2 ^ 24),
   some (1, 8, 8, 2 ^ 24), some (1, 32, 32, 2 ^ 21), some (1, 32, 32, 2 ^ 24), some (1, 16, 16, 2 ^ 24), some (0, 24, 8, 2 ^ 32),
   some (0, 1, 1, 2 ^ 32), some (0, 24, 8, 2 ^ 32), some (0, 1, 8, 65536)].getD t none

/-- Whether the string at offset `o` of a string section ends in a NUL within 255 characters; offset 0 is the empty name. -/
def nameOk (f : List Byte) (str : Sect) (o : Nat) : Bool :=
  o == 0 || (decide (o < str.size) &&
    (let s := ((f.drop (str.off + o)).take (min 256 (str.size - o))).takeWhile (· != 0)
     decide (0 < s.length) && decide (s.length ≤ 255) && decide (s.length < str.size - o) && s.all fun b => decide (b.toNat < 128)))

/-- Whether a section keeps the fixed fields of its type and its place in the file. -/
def Sect.ok (f : List Byte) (all : List Sect) (x : Sect) : Bool :=
  let kind := fun (i : Nat) => (all[i]?).map Sect.type
  match typeRow x.type with
  | none => false
  | some (fl, ent, al, lim) =>
    x.flags == fl && x.ent == ent && decide (al ≤ x.align) && decide (x.align ≤ 2 ^ 30) && 2 ^ Nat.log2 x.align == x.align
      && x.size % ent == 0 && (x.isCode || decide (x.size ≤ lim)) && decide (x.va < 2 ^ 56)
      && (if x.type = 15 then kind x.link == some 16 else if x.type = 17 then
            decide (x.link < all.length) && decide (0 < x.link) && kind x.info == some 15 else x.link == 0)
      && (x.type == 17 || x.isCode || x.info == 0)
      && (if x.type = 7 then x.off == 0 else x.off % min x.align 8 == 0 && decide (x.off + x.size ≤ f.length))
      && (x.type != 16 || (decide (0 < x.size) && f.getD x.off 0 == 0))

/-- A symbol table entry (R86); `name` is an offset in the string section. -/
structure SymEntry where
  name : Nat
  bind : Nat
  kind : Nat
  sect : Nat
  value : Nat
  reserved : Nat
  deriving DecidableEq, Repr

def readSym (f : List Byte) (at_ : Nat) : SymEntry :=
  let g := fun (o n : Nat) => numAt f (at_ + o) n
  { name := g 0 4, bind := g 4 1, kind := g 5 1, sect := g 8 4, value := g 16 8, reserved := g 6 2 + g 12 4 }

/-- The symbol table of a file. -/
def symsOf (f : List Byte) (all : List Sect) : List SymEntry :=
  match all.find? fun x => x.type == 15 with
  | none => []
  | some x => (upFrom 0 (x.size / 24)).map fun i => readSym f (x.off + 24 * i)

/-- A record section (R82). -/
def Sect.isRecord (x : Sect) : Bool := decide (8 ≤ x.type ∧ x.type ≤ 14)

/-- Whether a symbol entry keeps R86. An image symbol names a code section and has VALUE 0, a code symbol is defined in a code section, and a
record symbol names the first byte of a record: by its offset in an object (`linked` false), by its VA in a linked image. An extern symbol
has no section. -/
def SymEntry.ok (f : List Byte) (all : List Sect) (linked : Bool) (str : Sect) (y : SymEntry) : Bool :=
  decide (y.bind ≤ 2) && decide (y.kind ≤ 4) && y.reserved == 0 && nameOk f str y.name && (y.kind != 3 || y.value == 0)
    && (if y.kind = 0 ∨ y.bind = 2 then y.sect == 0
        else decide (0 < y.sect) && match all[y.sect]? with
          | none => false
          | some x =>
            let base := if linked then x.va else 0
            (if y.kind = 2 ∨ y.kind = 3 then x.isCode else true)
              && (y.kind != 4 || (x.isRecord && decide (base ≤ y.value ∧ y.value < base + x.size) && (y.value - base) % x.ent == 0)))

/-- Whether the symbol table keeps R86: entry 0 is all zero. -/
def symsOk (f : List Byte) (all : List Sect) (linked : Bool) : Bool :=
  (all.filter fun x => x.type == 15).all fun x =>
    match all[x.link]? with
    | none => false
    | some str => numAt f x.off (min 24 x.size) == 0 && ((symsOf f all).drop 1).all (SymEntry.ok f all linked str)

/-- Step 5: R79 to R83 and R86 hold, and every reserved byte is zero. -/
def layoutOk (f : List Byte) : Bool :=
  let all := sectsOf f
  let rest := all.drop 1
  let shoff := numAt f 16 8
  let n := numAt f 12 4
  let str := all.getD (numAt f 28 4) (readSect [] 0)
  let notes := rest.filter fun x => x.type == 18
  let syms := rest.filter fun x => x.type == 15
  numAt f 8 4 ≤ 1 && decide (2 ≤ n ∧ n ≤ 4096) && numAt f 24 4 == 48 && shoff % 8 == 0 && decide (shoff + 48 * n ≤ f.length)
    && numAt f 40 24 == 0 && numAt f shoff 48 == 0 && (upFrom 1 (n - 1)).all (fun i => numAt f (shoff + 48 * i) 48 != 0)
    && rest.all (Sect.ok f all) && str.type == 16 && rest.all (fun x => nameOk f str x.name)
    && apart ((0, 64) :: (shoff, 48 * n) :: (rest.filter fun x => x.inFile != 0).map fun x => (x.off, x.size))
    && syms.length == 1 && ((rest.filter fun x => x.type == 17).map Sect.link).Nodup
    && (notes.isEmpty || (notes.length == 1 && (all.getLast?.map Sect.type) == some 18))
    && (numAt f 8 4 == 0 || notes.all fun x => x.off + x.size == f.length)
    && symsOk f all (numAt f 6 2 == 2)
    && notes.all (fun x => let b := (f.drop x.off).take x.size; numAt b 12 4 == 0 && numAt b 4723 5 == 0)
    && (rest.filter fun x => x.type == 17).all (fun x => (upFrom 0 (x.size / 24)).all fun i => numAt f (x.off + 24 * i + 14) 2 == 0)

/-- Step 4: status 0, 4 BADSIG or 5 UNTRUSTED. A note whose SIZE, NAMESZ, DESCSZ, NTYPE or NAME is not R91's is BADSIG (log 81, DESIGN CHOICE);
its reserved bytes are step 5's. -/
def signatureStatus (f : List Byte) (unsigned : Bool) : Nat :=
  if numAt f 8 4 % 2 = 0 then (if unsigned then 0 else 4)
  else
    match (sectsOf f).find? fun x => x.type == 18 with
    | none => 4
    | some x =>
      let g := fun (o n : Nat) => (f.drop (x.off + o)).take n
      let key := BitVec.ofNat 64 (leNat (g 24 8))
      if x.size ≠ 4728 ∨ leNat (g 0 4) ≠ 8 ∨ leNat (g 4 4) ≠ 4699 ∨ leNat (g 8 4) ≠ 1
          ∨ leNat (g 16 8) ≠ 0x004E414C4F52415A then 4
      else if g 32 64 ≠ (Config.sha3_512 (f.take x.off)).take 64 then 4
      else if !Config.trusted key then 5
      else if Config.mldsaVerify key (g 32 64) (g 96 4627) then 0 else 4

/-- Step 6: code sections within their limits, with distinct tags of 1 to 4,095. -/
def codeOk (all : List Sect) : Bool :=
  let code := all.filter Sect.isCode
  code.all (fun x => decide (1 ≤ x.info ∧ x.info ≤ 4095) && match typeRow x.type with
    | some r => decide (x.size ≤ r.2.2.2)
    | none => false) && (code.map Sect.info).Nodup

/-- A relocation entry (R88), with the section that it patches. -/
structure Reloc where
  patched : Nat
  off : Nat
  sym : Nat
  kind : Nat
  addend : Word
  deriving DecidableEq, Repr

/-- The relocations of a file, in table order. -/
def relocsOf (f : List Byte) (all : List Sect) : List Reloc :=
  (all.filter fun x => x.type == 17).flatMap fun x =>
    (upFrom 0 (x.size / 24)).map fun i =>
      let g := fun (o n : Nat) => numAt f (x.off + 24 * i + o) n
      { patched := x.link, off := g 0 8, sym := g 8 4, kind := g 12 2, addend := BitVec.ofNat 64 (g 16 8) }

/-- The code section that an image symbol names. -/
def imageSection (f : List Byte) (all : List Sect) (sym : Nat) : Option Sect :=
  match (symsOf f all)[sym]? with
  | none => none
  | some y =>
    if y.kind = 3 then
      (match all[y.sect]? with
        | some c => if c.isCode then some c else none
        | none => none)
    else none

/-- Step 7: every relocation is an IMGREF inside its LOAD section. -/
def relocsOk (f : List Byte) (all : List Sect) : Bool :=
  (relocsOf f all).all fun r =>
    r.kind == 7 && (imageSection f all r.sym).isSome && (match all[r.patched]? with
      | some x => x.isLoad && decide (r.off + 16 ≤ x.size)
      | none => false)

/-! ## Mapping (R202, R203) -/

/-- Pages of a section. -/
def Sect.pages (x : Sect) : List Nat := (upFrom 0 ((x.size + 4095) / 4096)).map fun i => x.va + 4096 * i

/-- Step 8: no LOAD section clashes with another, with a mapping or with a page that is on its way to another frame (R355). A LOAD section whose VA
lies in the windows or passes the last VA gives the status of this step too (log 85, DESIGN CHOICE). -/
def State.placesOk (s : State) (space : Nat) (all : List Sect) : Bool :=
  let load := all.filter Sect.isLoad
  load.all (fun x => x.va % 4096 == 0 && x.va % x.align == 0 && decide (x.va + x.size ≤ 2 ^ 56)
      && x.pages.all fun va => winOf va == .mapped && (match s.walk space va with
        | .ok _ => false
        | .error _ => true))
    && s.bureau.moves.all (fun m => m.space != space || load.all fun x => !overlaps m.va 4096 x.va x.size)
    && apart (load.map fun x => (x.va, x.size))

/-- Put a leaf entry for the 4 KiB page at `va` into the table at `base`; a table that is wanting takes the next of `tables`. -/
def State.mapUnder (s : State) (va base w0 w1 : Nat) (tables : List Nat) : List (Nat × Nat × Nat) → Option (State × List Nat)
  | [] => none
  | [(_, lo, bits)] => some (s.putEntry (base + va / 2 ^ lo % 2 ^ bits * 16) w0 w1, tables)
  | (_, lo, bits) :: rest =>
    let at_ := base + va / 2 ^ lo % 2 ^ bits * 16
    let e := s.entryAt at_
    if e.1 % 2 = 1 then (if e.1 / 8 % 2 = 1 then State.mapUnder s va (field e.1 51 12 * 4096) w0 w1 tables rest else none)
    else
      match tables with
      | [] => none
      | t :: more => State.mapUnder ((s.bureauWrite t (List.replicate 8192 0)).putEntry at_ (9 + t) 0) va t w0 w1 more rest

/-- Map a page to a frame and write its contents under the key of the load. -/
def State.mapPage (s : State) (space va frame slot : Nat) (wr : Bool) (bytes : List Byte) (tables : List Nat) : Option (State × List Nat) :=
  let root := (s.spaceAt space).root.toNat
  let gen := (s.keyAt slot).gen
  if root % 2 = 0 then none
  else
    match s.mapUnder va (field root 51 21 * 2 ^ 21) (frame + 3 + if wr then 4 else 0) (slot + gen * 2 ^ 16) tables walkLevels with
    | none => none
    | some (t, more) => some (t.homeWrite { home := 0, pa := frame, slot := slot, gen := gen, codec := 0 } bytes true, more)

/-- Map pages: VA, whether writable, contents; each takes the next frame. -/
def State.mapPages (s : State) (space slot : Nat) (frames tables : List Nat) : List (Nat × Bool × List Byte) → Option State
  | [] => some s
  | (va, wr, b) :: rest =>
    match frames with
    | [] => none
    | p :: more =>
      match s.mapPage space va p slot wr b tables with
      | none => none
      | some (t, tables') => State.mapPages t space slot more tables' rest

/-- The bytes of a page at offset `o` of a section, with those of `b`, which stand from offset `at_` of the section, put into it. -/
def patchPage (o at_ : Nat) (b page : List Byte) : List Byte :=
  ((upFrom 0 b.length).zip b).foldl (fun (p : List Byte) e => if at_ + e.1 < o then p else p.set (at_ + e.1 - o) e.2) page

/-- Contents of the pages of the LOAD sections, with TAGs written: load number in bits 31:12, local tag below (R90). BSS and what no section
fills of a page are zeros (R93). -/
def pagesOf (f : List Byte) (all : List Sect) (number : Nat) : List (Nat × Bool × List Byte) :=
  let rel := relocsOf f all
  ((upFrom 0 all.length).zip all).flatMap fun e =>
    let x := e.2
    if !x.isLoad then []
    else
      let tags := (rel.filter fun r => r.patched == e.1).map fun r =>
        (r.off + 8, leBytes (number * 2 ^ 12 + match imageSection f all r.sym with
          | some c => c.info
          | none => 0) 4)
      (upFrom 0 x.pages.length).map fun i =>
        let b := ((f.drop (x.off + 4096 * i)).take (min 4096 (x.inFile - 4096 * i)))
        let page := b ++ List.replicate (4096 - b.length) 0
        (x.va + 4096 * i, x.flags / 2 % 2 == 1, tags.foldl (fun (p : List Byte) t => patchPage (4096 * i) t.1 t.2 p) page)

/-- Load a file into an address space: the status of R92, with the number drawn. -/
def State.loadFile (s : State) (f : List Byte) (length space slot : Nat) (frames tables : List Nat) : Nat × State :=
  let all := sectsOf f
  if numAt f 0 4 ≠ 0x004F4B53 ∨ numAt f 32 8 ≠ length then (1, s)
  else if numAt f 4 2 ≠ 1 then (2, s)
  else if numAt f 6 2 ≠ 2 then (3, s)
  else if signatureStatus f (s.bureau.bootcfg.getLsbD 0) ≠ 0 then (signatureStatus f (s.bureau.bootcfg.getLsbD 0), s)
  else if !layoutOk f then (6, s)
  else if !codeOk all then (7, s)
  else if !relocsOk f all then (8, s)
  else if !s.placesOk space all then (9, s)
  else
    let n := s.bureau.loadNumber
    match (if s.framesFree frames tables then s.mapPages space slot frames tables (pagesOf f all n) else none) with
    | none => (10, s)
    | some t =>
      if 2 ^ 20 ≤ n then (11, s)
      else
        let ranges := fun (p : Sect → Bool) => (all.filter p).map fun x => (x.va, x.size)
        (0, t.setBureau fun b => { b with loadNumber := n + 1, loads := b.loads ++
          [{ number := n, space := space, sections := ranges Sect.isLoad, records := ranges fun x => x.type == 8
             frames := frames.take (pagesOf f all n).length, unloading := false }], tables := b.tables ++ tables })

/-! ## Unloading (R95) -/

/-- Unmap a page. -/
def State.unmapPage (s : State) (space va : Nat) : State :=
  let root := (s.spaceAt space).root.toNat
  match (if root % 2 = 0 then none else s.leafAt va (field root 51 21 * 2 ^ 21) walkLevels) with
  | some pa => s.putEntry pa 0 0
  | none => s

/-- Whether a task record of an image is pending or in flight. -/
def State.imageUsed (s : State) (l : Loaded) : Bool :=
  let mine := fun (space va : Nat) => space == l.space && l.records.any fun r => decide (r.1 ≤ va ∧ va < r.1 + r.2)
  s.tasks.any (fun t => !t.guarded && !t.complete && mine t.space t.record) || s.launches.any fun r => !r.graph && mine r.space r.va

/-- Unmap the pages of an image, those on their way to another frame among them, and raise the generation of its address space through BUMP. -/
def State.beginUnload (s : State) (l : Loaded) : State :=
  let t := l.pages.foldl (fun (u : State) va => u.unmapPage l.space va) s
  State.putBump (t.setBureau fun b => { b with moves := b.moves.filter fun m => m.space != l.space || !l.pages.contains m.va, loads := b.loads.map fun k => if k.number = l.number then { k with unloading := true } else k })
    (BitVec.ofNat 64 l.space)

/-- Whether the raise that an unload asked for is over. -/
def State.unloadDone (s : State) (l : Loaded) : Bool :=
  l.unloading && s.bureau.bump.busy != some l.space && !s.bureau.bump.held.contains l.space

end Sys2Proof.Machine
end

