-- ==== Sys2Proof/Machine/Mailbox.lean ====
section
/-! DEFINITION. The host's side: BAR0 and BAR2 (R383 to R385), the mailbox and its requests (R391, R392), attestation (R390). -/

namespace Sys2Proof.Machine

/-! ## BAR0 -/

/-- Count a discarded access. -/
def State.discard (s : State) : State := s.setBureau fun b => { b with discarded := b.discarded + 1 }

/-- The host's access waits behind those that wait for a credit (R385). -/
def State.again (s : State) (i : Instr) : State := { s with hostWait := s.hostWait ++ [i] }

/-- DOORBELL_WRITE: an aligned 4-byte write of an enabled queue sets its producer index. It is handled after every BAR2 write before it. -/
def execDoorbellWrite (q : Fin 64) (size : Nat) (aligned : Bool) (v : BitVec 32) (s : State) : Result :=
  if !s.hostWait.isEmpty then .next (s.again (.doorbellWrite q size aligned v))
  else if size = 4 ∧ aligned ∧ (s.queueAt q.val).enabled then .next (s.setQueue q.val fun l => { l with prod := v.toNat })
  else .next s.discard

/-- MAILBOX_REQSEQ_WRITE: the host writes a request into the buffer, then its SEQ. While a request is in hand the buffer keeps its
bytes (log 43, DESIGN CHOICE). The SEQ is discarded and counted where RSPSEQ is not the one before, where the mailbox is not open, or where it is not
the one in the buffer. -/
def execMailboxReqseqWrite (v : Word) (request : List Byte) (s : State) : Result :=
  let b := s.bureau
  let open_ := b.mbState.toNat % 4 == 1
  let busy := open_ && b.rspseq != b.reqseq
  let t := s.setBureau fun b => { b with request := if b.inHand || request.isEmpty then b.request else request.take 28672 }
  if !open_ || busy || v != BitVec.ofNat 64 (numAt t.bureau.request 8 8) then .next (t.setBureau fun b => { b with drops := b.drops + 1 })
  else .next (t.setBureau fun b => { b with reqseq := v, inHand := true })

/-- What a BAR0 access reaches: a register of the mailbox, by its aligned access of its own size; the REQUEST or the RESPONSE buffer, by any aligned
access (its offset in the buffer); a doorbell, by 4 aligned bytes; or nothing. -/
inductive Bar0 where
  | state
  | reqseq
  | rspseq
  | drops
  | request (o : Nat)
  | response (o : Nat)
  | doorbell (q : Fin 64)
  | nothing
  deriving DecidableEq, Repr

def bar0At (off size : Nat) : Bar0 :=
  if off = 0 ∧ size = 4 then .state
  else if off = 8 ∧ size = 8 then .reqseq
  else if off = 16 ∧ size = 8 then .rspseq
  else if off = 24 ∧ size = 8 then .drops
  else if size = 0 ∨ 2 ^ Nat.log2 size ≠ size ∨ off % size ≠ 0 then .nothing
  else if 0x1000 ≤ off ∧ off + size ≤ 0x8000 then .request (off - 0x1000)
  else if 0x8000 ≤ off ∧ off + size ≤ 0x10000 then .response (off - 0x8000)
  else if 0x10000 ≤ off ∧ off < 0x50000 ∧ off % 4096 = 0 ∧ size = 4 then .doorbell (Fin.ofNat 64 ((off - 0x10000) / 4096))
  else .nothing

/-- Bytes of a buffer from an offset on; what nothing has written is 0. -/
def bufBytes (b : List Byte) (o n : Nat) : List Byte := (upFrom o n).map fun i => b.getD i 0

/-- A buffer with bytes put at an offset. -/
def putBuf (b : List Byte) (o : Nat) (x : List Byte) : List Byte := bufBytes b 0 o ++ x ++ b.drop (o + x.length)

/-- BAR0_OTHER_ACCESS: a host access of BAR0 by offset and size. A read of a field returns it and any other read 0. A write of REQUEST stands,
one of REQSEQ or a doorbell is that field's write, and any other, one of a field that is only read among them, is discarded and counted. While a
request is in hand, a write of REQUEST is discarded and counted too (log 43, DESIGN CHOICE). -/
def execBar0OtherAccess (write : Option (List Byte)) (off : BarSpan) (s : State) : Result :=
  let b := s.bureau
  match write with
  | none =>
    let bytes := match bar0At off.off off.size with
      | .state => leBytes b.mbState.toNat 4
      | .reqseq => leBytes b.reqseq.toNat 8
      | .rspseq => leBytes b.rspseq.toNat 8
      | .drops => leBytes (b.drops % 2 ^ 64) 8
      | .request o => bufBytes b.request o off.size
      | .response o => bufBytes b.response o off.size
      | .doorbell q => leBytes (s.queueAt q.val).prod 4
      | .nothing => List.replicate off.size 0
    .next { s with outs := s.outs ++ [.bar bytes] }
  | some x =>
    match bar0At off.off x.length with
    | .reqseq => execMailboxReqseqWrite (BitVec.ofNat 64 (leNat x)) [] s
    | .doorbell q => execDoorbellWrite q 4 true (BitVec.ofNat 32 (leNat x)) s
    | .request o =>
      if b.inHand then .next s.discard
      else .next (s.setBureau fun b => { b with request := putBuf b.request o x })
    | .state | .rspseq | .drops | .response _ | .nothing => .next s.discard

/-! ## BAR2 -/

/-- BAR2_READ. -/
def execBar2Read (off n : Nat) (s : State) : Result :=
  let b := s.bureau
  if !b.apas.getLsbD 63 then .next (s.out .unsupported)
  else
    match s.hostPlaces (b.apas.toNat % 64) (b.apbase.toNat + off) false n with
    | .error c => .next (s.hostFails c)
    | .ok (ps, t) =>
      match (if s.hostWait.isEmpty then t.hostCredits true ps else none) with
      | some u => .next (u.out (.bar (ps.map u.homeByte)))
      | none => .next (s.again (.bar2Read off n))

/-- BAR2_WRITE: nothing is written where a byte of it faults. -/
def execBar2Write (off : Nat) (bytes : List Byte) (s : State) : Result :=
  let b := s.bureau
  if !b.apas.getLsbD 63 then .next (s.out .unsupported)
  else
    match s.hostPlaces (b.apas.toNat % 64) (b.apbase.toNat + off) true bytes.length with
    | .error c => .next (s.hostFails c)
    | .ok (ps, t) =>
      match (if s.hostWait.isEmpty then t.hostCredits true ps else none) with
      | some u => .next (u.putPlaces ps bytes)
      | none => .next (s.again (.bar2Write off bytes))

/-! ## The mailbox (R391) -/

/-- Whether a request is in hand; its CMD, LEN and payload. -/
def State.request (s : State) : Option (Nat × Nat × List Byte) :=
  let b := s.bureau
  if b.mbState.toNat % 4 = 1 ∧ b.inHand then some (numAt b.request 0 2, numAt b.request 4 4, b.request.drop 16) else none

/-- Write the response, set RSPSEQ and signal vector 0. -/
def State.respond (s : State) (status detail : Nat) (payload : List Byte) : State :=
  State.out (s.setBureau fun b => { b with
    response := leBytes status 2 ++ leBytes detail 2 ++ leBytes payload.length 4 ++ leBytes b.reqseq.toNat 8 ++ payload
    rspseq := b.reqseq, inHand := false }) (.msix 0)

/-- Handle the request in hand where its CMD is one of `cmds`; BADCMD where its LEN or a reserved byte is wrong. -/
def State.handle (s : State) (cmds : Nat → Bool) (good : Nat → List Byte → Bool) (f : List Byte → State) : Result :=
  match s.request with
  | none => .next s
  | some (cmd, len, p) =>
    if !cmds cmd then .next s
    else if numAt s.bureau.request 2 2 ≠ 0 ∨ 28656 < len ∨ !good len p then .next (s.respond 1 0 [])
    else .next (f p)

/-- PING; it also answers BADCMD to an unknown CMD. -/
def execPing (s : State) : Result :=
  s.handle (fun c => c == 1 || c == 0 || decide (9 < c)) (fun len _ => len == 0 && numAt s.bureau.request 0 2 == 1)
    fun _ => s.respond 0 0 (leBytes s.bureau.resetcnt 8)

/-- The report of R390. -/
def State.report (s : State) (nonce : List Byte) : List Byte :=
  let b := s.bureau
  let head := nonce ++ b.meas.toList.flatMap (fun m => leBytes (m.getD 0).toNat 8) ++ leBytes b.bootcfg.toNat 8 ++ leBytes b.resetcnt 8
  let sig := (Config.mldsaSign head).take 4627
  head ++ sig ++ List.replicate (4627 - sig.length) 0 ++ [0]

/-- ATTEST. -/
def execAttest (s : State) : Result :=
  s.handle (· == 2) (fun len _ => len == 64) fun p => s.respond 0 0 (s.report (p.take 64 ++ List.replicate (64 - p.length) 0))

/-- CERT. -/
def execCert (s : State) : Result := s.handle (· == 3) (fun len _ => len == 0) fun _ => s.respond 0 0 (Config.certificate.take 32752)

/-- LOAD: the Bureau reads the file from host memory. The key slot, the frames and the tables are the runtime's choice (log 44, DESIGN CHOICE). -/
def execLoad (slot : BitVec 16) (frames tables : List Nat) (s : State) : Result :=
  s.handle (· == 4) (fun len p => len == 24 && numAt p 17 7 == 0 && decide (numAt p 16 1 < 64)) fun p =>
    let n := numAt p 8 8
    let file := s.homeRead { home := 1, pa := numAt p 0 8, slot := 0, gen := 0, codec := 0 } n
    match s.loadFile file n (numAt p 16 1) slot.toNat frames tables with
    | (0, t) => t.respond 0 0 (leBytes s.bureau.loadNumber 4 ++ leBytes 0 4)
    | (st, t) => t.respond 3 st []

/-- UNLOAD, in two steps: the pages are unmapped and the raise begins, then the frames are free. -/
def execUnload (s : State) : Result :=
  s.handle (· == 5) (fun len p => len == 8 && numAt p 4 4 == 0) fun p =>
    match s.bureau.loads.find? fun l => l.number == numAt p 0 4 with
    | none => s.respond 3 1 []
    | some l =>
      if l.unloading then
        (if s.unloadDone l then (s.setBureau fun b => { b with loads := b.loads.filter fun k => k.number != l.number }).respond 0 0 [] else s)
      else if s.imageUsed l then s
      else s.beginUnload l

/-- QUEUE: the ring that the Bureau has allocated is written under the reconfiguration rule: EN is cleared first, and the new values
follow when the old ring is consumed. A value out of range is BADCMD (log 45, DESIGN CHOICE). -/
def execQueue (ringVa : Word) (s : State) : Result :=
  s.handle (· == 6) (fun len p => len == 8 && numAt p 6 2 == 0 && decide (numAt p 0 1 < 64 ∧ 4 ≤ numAt p 1 1 ∧ numAt p 1 1 ≤ 16
      ∧ numAt p 2 1 < 64 ∧ numAt p 3 1 ≤ 1)) fun p =>
    let q := numAt p 0 1
    let l := s.queueAt q
    if l.enabled then s.putRing q true 0
    else if l.waiting then s
    else
      (s.setQueue q fun l => { l with
        ringVa := ringVa &&& 0x00FFFFFFFFFFFFFF#64, ringCfg := BitVec.ofNat 64 (2 ^ 63 + numAt p 2 1 * 2 ^ 8 + numAt p 1 1)
        tickets := numAt p 4 2, preempt := numAt p 3 1 == 1 }).respond 0 0 (leBytes (ringVa.toNat % 2 ^ 56) 8)

/-- BAR2: sets APBASE, then APAS with EN. -/
def execBar2 (s : State) : Result :=
  s.handle (· == 7) (fun len p => len == 16 && numAt p 9 7 == 0 && decide (numAt p 8 1 < 64)) fun p =>
    ((s.putPlain 0x2000 (BitVec.ofNat 64 (numAt p 0 8))).putPlain 0x2008 (BitVec.ofNat 64 (2 ^ 63 + numAt p 8 1))).respond 0 0 []

/-- ERRLOG: at most 2,047 events, oldest first. -/
def execErrlog (s : State) : Result :=
  s.handle (· == 8) (fun len _ => len == 0) fun _ =>
    let l := s.bureau.errlog
    (s.setBureau fun b => { b with errlog := l.drop 2047 }).respond 0 (if 2047 < l.length then 1 else 0)
      ((l.take 2047).flatMap fun e => [BitVec.ofNat 8 e.1, BitVec.ofNat 8 e.2.1] ++ leBytes 0 6 ++ leBytes e.2.2 8)

/-! ## DEBUG -/

/-- A place as the debugger reaches it: through the address space, or a core's window by its number. -/
def State.debugPlaces (s : State) (a va : Nat) (wr : Bool) : Nat → Except Cause (List Place × State)
  | 0 => .ok ([], s)
  | n + 1 =>
    let here : Except Cause (Place × State) :=
      if 2 ^ 56 ≤ va then .error cADDRFORM
      else
        match winOf va with
        | .mapped => s.xlate a va (!wr) wr
        | .core k off => .ok ({ home := 3, pa := scratchLoc k off, slot := 0, gen := 0, codec := 0 }, s)
        | .control k off => if wr then .error (cPERM 1) else .ok ({ home := 4, pa := k * 2 ^ 16 + off, slot := 0, gen := 0, codec := 0 }, s)
        | .self _ | .device _ | .nothing => .error (cPERM 1)
    match here with
    | .error c => .error c
    | .ok (p, t) =>
      match t.refusal 3 p 1 with
      | some why => .error (refusalCause why)
      | none =>
        match State.debugPlaces t a (va + 1) wr n with
        | .error c => .error c
        | .ok (l, u) => .ok (p :: l, u)

/-- Whether a DEBUG payload is well formed. -/
def debugGood (len : Nat) (p : List Byte) : Bool :=
  let n := numAt p 16 8
  numAt p 2 6 == 0 && decide (numAt p 1 1 < 64) && decide (1 ≤ n ∧ n ≤ 16384) && ((numAt p 0 1 == 1 && len == 24) || (numAt p 0 1 == 2 && len == 24 + n))

/-- DEBUG with op 1; it also answers BADCMD to an op that is neither. -/
def execDebugRead (s : State) : Result :=
  let p := s.bureau.request.drop 16
  s.handle (fun c => c == 9 && numAt p 0 1 != 2) debugGood fun p =>
    if !s.bureau.bootcfg.getLsbD 1 then s.respond 2 0 []
    else
      match s.debugPlaces (numAt p 1 1) (numAt p 8 8) false (numAt p 16 8) with
      | .error c => s.respond 3 c.code []
      | .ok (ps, t) => t.respond 0 0 (ps.flatMap fun x => t.placeRead x 1)

/-- DEBUG with op 2. -/
def execDebugWrite (s : State) : Result :=
  let p := s.bureau.request.drop 16
  s.handle (fun c => c == 9 && numAt p 0 1 == 2) debugGood fun p =>
    if !s.bureau.bootcfg.getLsbD 1 then s.respond 2 0 []
    else
      match s.debugPlaces (numAt p 1 1) (numAt p 8 8) true (numAt p 16 8) with
      | .error c => s.respond 3 c.code []
      | .ok (ps, t) => (t.putPlaces ps (bufBytes p 24 (numAt p 16 8))).respond 0 0 []

end Sys2Proof.Machine
end

