-- ==== Sys2Proof/Machine/Preempt.lean ====
section
/-! DEFINITION. Pre-emption (R240, R344 to R349): the choice of a victim, its quiescing, the save area, and the restore. -/

namespace Sys2Proof.Machine

/-! ## The victim (R344) -/

/-- Whether queue `q` has PREEMPT, priority 3, and is ready except for a free bank. -/
def State.wantsBank (s : State) (q : Nat) : Option Task :=
  match s.headTask q with
  | some t =>
    if (s.queueAt q).preempt && (s.queueAt q).tickets != 0 && t.prio == 3 && t.clear then some t
    else none
  | none => none

/-- Whether bank `b` of core `n` could take the next iteration, or a further member of the gang, of queue `q`. -/
def State.takes' (s : State) (gone : Option (Nat × Nat)) (q : Nat) (t : Task) (n b : Nat) : Bool :=
  s.fits gone q t n b && (t.groups.isEmpty || (s.coreAt n).1.reserved != some q)

/-- Whether an iteration that has exited is still to leave a bank to queue `q`. -/
def State.inherits (s : State) (q : Nat) : Bool := s.banks.any fun m => (s.bankAt m.1 m.2).heir == some q

/-- Whether cores are still wanting that no free bank gives. -/
def State.mustEvict (s : State) (q : Nat) (t : Task) : Bool :=
  !s.inherits q && (t.groups.isEmpty || !s.gangComplete q t)
    && (upFrom 0 coreTotal).all fun n => !s.takes' none q t n 0 && !s.takes' none q t n 1

/-- Whether an image that bank `b` of core `n` names has stopped on a fault whose record is not answered (R116). -/
def State.loaderStopped (s : State) (n b : Nat) : Bool :=
  (s.coreAt n).1.images.any fun x => x.stopped && (s.imageOf (s.bankAt n b) (imageIndex x.sid)).any fun y => y.1 == x.tag

/-- Priority of an iteration that may be evicted for queue `q`: it is not stopped on a record, be it its streams', its write-back's or its
image loader's (log 36, DEDUCED). -/
def State.victimPrio (s : State) (q : Nat) (t : Task) (m : Nat × Nat) : Option Nat :=
  let b := s.bankAt m.1 m.2
  match b.iter.bind fun it => s.taskAt it.task with
  | none => none
  | some v =>
    if decide (v.prio ≤ 2) && v.groups.isEmpty && b.stopped.isNone && b.evict.isNone && b.heir.isNone
        && (match b.wb with
          | some w => !w.stopped
          | none => true)
        && !s.loaderStopped m.1 m.2 && s.takes' (some m) q t m.1 m.2 then some v.prio
    else none

/-- The victim: the lowest priority, then the highest core, then bank 1. -/
def State.victim (s : State) (q : Nat) (t : Task) : Option (Nat × Nat) :=
  (s.banks.foldl (fun (a : Option (Nat × Nat × Nat)) m =>
    match s.victimPrio q t m, a with
    | none, _ => a
    | some p, none => some (p, m)
    | some p, some (k, l) => if p ≤ k then some (p, m) else some (k, l)) none).map Prod.snd

/-! ## Quiescing (R345) -/

/-- Fill the entries of the queues of the bank in hand that carry their value. -/
def State.fillDue (s : State) : State :=
  (List.finRange 16).foldl (fun (t : State) (q : Fin 16) =>
    (State.fillQueue { t with bank := { t.bank with q := t.bank.q.set q (t.bank.q[q].map fun e => if e.due.isSome then { e with due := some 0 } else e) } } q)) s

/-- Whether a command runs on: an accepted SCADD. -/
def Cmd.runsOn (c : Cmd) : Bool :=
  match c.instr with
  | .scadd _ _ _ _ _ _ => c.accepted
  | _ => false

/-- Put commands into the order of their pushes. -/
def pushOrder (l : List Cmd) : List Cmd :=
  l.foldl (fun (a : List Cmd) c => a.takeWhile (fun k => decide (k.ord < c.ord)) ++ c :: a.dropWhile fun k => decide (k.ord < c.ord)) []

/-- The bank in hand of an iteration that has not started holds what its START gives. -/
def State.asStarted (s : State) : State :=
  match s.bank.iter with
  | some it => if s.bank.started || s.bank.restore.isSome then s else s.setBank fun _ => s.started it
  | none => s

/-- Steps 1 to 3, for the bank in hand: the streams stop, commands go to the re-issue list with their records withdrawn, and PUT
goes back to DONE (log 57, DEDUCED). -/
def State.beginEvict (s : State) (q area : Nat) : State :=
  let out := fun (c : Cmd) => c.bank == s.bankNo && !c.runsOn
  let gone := pushOrder ((s.core.copyQ ++ s.core.indexQ).filter out)
  let n := s.coreNo
  let t := s.asStarted.withdraw fun r => match r.who with
    | .engine c e ord => c == n && gone.any fun k => k.ord == ord && engOf k.instr == e
    | _ => false
  let still := fun (x : Stream) => { x with wait := none }
  let u := t.setBank fun b =>
    { b with evict := some (q, area), reissue := gone, wb := none, fills := [], a := still b.a, x := still b.x, n := still b.n
             cb := b.cb.map fun c => { c with put := c.done } }
  (u.setCore fun c =>
    { c with copyQ := c.copyQ.filter fun k => !out k, indexQ := c.indexQ.filter fun k => !out k
             panel := { c.panel with saving := c.panel.saving || c.panel.all.any fun k => k.bank == u.bankNo } }).settleCancels

/-- Whether the words and commands of the bank in hand have ended: no access, FENCE or retirement on its way, no trap without an
answer, and its accepted SCADD commands reported. -/
def State.evictQuiet (s : State) : Bool :=
  s.bank.stopped.isNone && s.flight.all (fun x => !s.mine x.agent || (x.fail.isSome && !x.returns)) && s.retires.all (fun r => !s.mine r.agent)
    && bankStreams.all (fun k => (s.streamAt k).fences.isEmpty)
    && (s.core.copyQ ++ s.core.indexQ).all fun c => c.bank != s.bankNo

/-- Whether the scale vector of the nest that is fed is still to be read: its read goes on before the panel is saved, unless a fault has stopped
it (R321). -/
def Panel.unread (p : Panel) (stopped : Bool) : Bool := p.feeding.any fun n => n.scales.isNone && n.scaleStop == stopped

/-- Whether the panel can be saved: nothing of the bank in hand is converted, written or due, and a GANG panel is at a run boundary. -/
def State.panelStill (s : State) : Bool :=
  let p := s.core.panel
  let mine := p.all.filter fun n => n.bank == s.bankNo
  mine.isEmpty || (p.quiet && mine.all (fun n => n.next.isSome) && (s.bank.pmode != 2 || p.cur.isNone) && !p.unread false)

/-! ## The save area (R346, R347) -/

def le8 (v : Nat) : List Byte := leBytes v 8

/-- A number of `n` bytes at offset `o` of a list. -/
def at8 (b : List Byte) (o n : Nat) : Nat := leNat ((b.drop o).take n)

/-- Bytes filled up with zeros to a length. -/
def padded (n : Nat) (l : List Byte) : List Byte := l ++ List.replicate (n - l.length) 0

def Steer.bits (k : Steer) : Nat := (if k.set then 2 ^ 15 else 0) + (if k.value then 2 ^ 14 else 0) + k.target.toNat

def Loop.bits (l : Loop) : Nat := l.count.toNat * 2 ^ 32 + l.start.toNat * 2 ^ 16 + l.stop.toNat

/-- LORDER: two bits a rank, the most recent lowest. -/
def lorder (l : List (Fin 4)) : Nat := l.foldr (fun n a => n.val + 4 * a) 0

/-- A stream in 0x200 bytes. -/
def Stream.saved (t : Stream) : List Byte :=
  padded 0x200 (le8 0 ++ (t.s.toList.drop 1).flatMap (fun v => le8 v.toNat) ++ padded 32 (t.k.toList.flatMap fun k => leBytes k.bits 2)
    ++ t.l.toList.flatMap (fun l => le8 l.bits) ++ le8 (t.pc % 2 ^ 13 + (if t.exited then 2 ^ 16 else 0) + lorder t.order * 2 ^ 24)
    ++ le8 t.cause.toNat ++ le8 t.epc.toNat ++ le8 t.tval.toNat ++ le8 t.hvec.toNat)

/-- A bit for each entry of a list. -/
def bitsOf {α : Type} (p : α → Bool) (l : List α) : Nat := l.foldr (fun e a => (if p e then 1 else 0) + 2 * a) 0

/-- A queue in 0x90 bytes. -/
def savedQueue (q : Nat) (l : List QEntry) : List Byte :=
  let f := l.filter fun e => e.filled.isSome
  padded 0x90 (le8 f.length ++ le8 (bitsOf QEntry.token f)
    ++ if isOutcome q then le8 (bitsOf (fun e => !e.token && e.value != 0) f) else (f.take 16).flatMap fun e => le8 e.value.toNat)

/-- A map entry in 16 bytes. -/
def MapEntry.saved (m : MapEntry) : List Byte :=
  leBytes m.vabase 7 ++ [BitVec.ofNat 8 ((if m.valid then 1 else 0) + (if m.rw then 2 else 0) + 4 * m.cls.val)] ++ leBytes m.spbase 4
    ++ leBytes m.len 2 ++ [0, 0]

/-- A re-issue entry in 80 bytes. -/
def Cmd.saved (c : Cmd) : List Byte :=
  padded 80 (le8 c.word.toNat ++ (upFrom 0 4).flatMap (fun i => le8 (c.val i)) ++ (upFrom 0 4).flatMap (fun i => le8 (c.beside i))
    ++ [if engOf c.instr = .copy then 1#8 else 2#8])

/-- The state of lane `i`. -/
def VecState.lane (v : VecState) (i : Nat) : BitVec 16 := (Tbl.get? v.lanes i).getD (laneSeed v.srseed i)

/-- Whether the area holds a panel: the bank in hand has a nest, or has written its shadow set (log 39, DEDUCED). -/
def State.savesPanel (s : State) : Bool := s.bank.shadow != Nest.zero || s.core.panel.all.any fun n => n.bank == s.bankNo

/-- Whether the area holds a GANG panel. -/
def State.savesGang (s : State) : Bool := s.savesPanel && s.bank.pmode == 2

/-- The panel block of the bank in hand. -/
def State.evictBlock (s : State) : List Byte :=
  let p := s.core.panel
  if !s.savesPanel then List.replicate 0x29140 0
  else if p.all.any fun n => n.bank == s.bankNo then panelBlock s.savesGang p.cur p.feeding p.pending s.bank.shadow
  else panelBlock s.savesGang none none none s.bank.shadow

/-- Whether a run is inside the panel that is saved. -/
def State.midRun (s : State) : Bool :=
  (s.core.panel.all.any fun n => n.bank == s.bankNo) && (match s.core.panel.cur with
    | some r => r.k != 0
    | none => false)

/-- Where the scratchpad part stands in the area. -/
def partOffset (gang : Bool) : Nat := if gang then 0x5C580 else 0x33A40

/-- The scratchpad ranges that are saved: offset and length. -/
def savedRanges (banks2 : Bool) (cb : Vector CBuf 8) : List (Nat × Nat) :=
  if banks2 then [(0, 2 ^ 22)]
  else cb.toList.flatMap fun c => (upFrom 0 (c.between c.taken c.done)).map fun i => (c.slotAt (c.taken + i), c.slot)

/-- The header. -/
def State.saveHeader (s : State) (it : Iter) : List Byte :=
  let b := s.bank
  let gang := s.savesGang
  let record := match s.taskAt it.task with
    | some t => t.record
    | none => 0
  let size := partOffset gang + ((savedRanges it.banks2 b.cb).map Prod.snd).foldl (· + ·) 0
  [0x53#8, 0x4B#8, 0x53#8, 0x56#8] ++ leBytes 1 2
    ++ leBytes ((if it.banks2 then 1 else 0) + (if s.savesPanel then 2 else 0) + (if s.midRun then 4 else 0) + (if gang then 8 else 0) + (if b.stray then 16 else 0)) 2
    ++ le8 it.task ++ le8 it.ord ++ le8 record ++ le8 size ++ le8 s.w ++ le8 b.cycle ++ le8 0

/-- The area up to the vector registers. -/
def State.saveFront (s : State) (it : Iter) : List Byte :=
  let b := s.bank
  let v := b.vec
  s.saveHeader it ++ b.a.saved ++ b.x.saved ++ b.n.saved
    ++ ((upFrom 0 16).zip b.q.toList).flatMap (fun e => savedQueue e.1 e.2)
    ++ padded 0xC0 (le8 v.vflags.toNat ++ le8 (if v.ftz then 1 else 0) ++ le8 v.srseed.toNat ++ le8 b.slip ++ le8 (if b.pend then 1 else 0)
        ++ le8 b.ffa.toNat ++ le8 b.pstat.toNat ++ le8 v.word.toNat)
    ++ b.bfmt.toList.flatMap (fun x => le8 x.toNat)
    ++ b.cb.toList.flatMap (fun c => le8 c.cfg.toNat ++ le8 c.cnt.toNat)
    ++ ((b.abexp.toList.zip b.abarr.toList).flatMap fun x => le8 x.1.toNat ++ le8 x.2.toNat)
    ++ b.map.toList.flatMap MapEntry.saved
    ++ (upFrom 0 1024).flatMap (fun i => leBytes (v.lane i).toNat 2)
    ++ v.m.toList.flatMap (fun m => leBytes m.toNat 128)
    ++ padded 1024 (v.stack.reverse.flatMap fun m => leBytes m.toNat 128)
    ++ le8 b.reissue.length ++ le8 0 ++ padded (16 * 80) (b.reissue.flatMap Cmd.saved) ++ List.replicate 0x70 0

/-- The whole area but for the scratchpad part. -/
def State.saveArea (s : State) (it : Iter) : List Byte :=
  let block := s.evictBlock
  let rest := fun (q : Fin 16) => padded 128 (((s.bank.q[q].filter fun e => e.filled.isSome).drop 16).flatMap fun e => le8 e.value.toNat)
  s.saveFront it ++ s.bank.vec.v.toList.flatMap (fun r => leBytes r.toNat 512) ++ block.take 0x29140 ++ rest 12 ++ rest 13
    ++ block.drop 0x29140

/-- Write the scratchpad part. -/
def State.saveParts (s : State) (at_ : Nat) : List (Nat × Nat) → State
  | [] => s
  | (off, n) :: t => State.saveParts (s.bureauWrite at_ (s.scratchRead s.coreNo off n)) (at_ + n) t

/-- Bytes with those from offset `o` on replaced. -/
def putBytes (l : List Byte) (o : Nat) (b : List Byte) : List Byte := l.take o ++ b ++ l.drop (o + b.length)

/-- The save area at `src` as it is saved now: the iteration has not come back from it. -/
def State.resaved (s : State) (it : Iter) (src : Nat) : List Byte :=
  let b := s.homeRead (s.bureauPlace src) (leNat (s.homeRead (s.bureauPlace (src + 0x20)) 8))
  let passed := s.w - at8 b 0x28 8
  putBytes (putBytes (putBytes b 0x28 (le8 s.w)) 0x30 (le8 (at8 b 0x30 8 + passed))) 0xF58 (le8 (at8 b 0xF58 8 + if it.lock then passed else 0))

/-- Write the save area of the bank in hand, and note what it does not hold of the re-issue list (R346, R349). -/
def State.writeArea (s : State) (it : Iter) (area : Nat) : State :=
  match s.bank.restore with
  | some src =>
    let t := s.bureauWrite area (s.resaved it src)
    { t with beside := Tbl.put t.beside area ((Tbl.get? s.beside src).getD { cmds := [], pcs := [] }) }
  | none =>
    let t := (s.bureauWrite area (s.saveArea it)).saveParts (area + partOffset s.savesGang) (savedRanges it.banks2 s.bank.cb)
    { t with beside := Tbl.put t.beside area { cmds := s.bank.reissue.map fun c => (c.more.getD 4 0, c.epc)
                                               pcs := [s.bank.a, s.bank.x, s.bank.n].map fun t => (t.pc, t.last)
                                               unread := s.core.panel.unread true } }

/-- Step 7: write the area, put the iteration at the head of its queue, free the bank, and give it to the evicting queue. -/
def State.finishEvict (s : State) (it : Iter) (q area : Nat) : State :=
  let n := s.coreNo
  let b := s.bankNo
  let holds := s.core.panel.all.any fun k => k.bank == b
  let t := if holds then s.keepRaised else s
  let u := (t.writeArea it area).setTask it.task fun k => { k with saved := k.saved ++ [(it.ord, area)] }
  let v := (if holds then u.idlePanel else u).freeBankInHand.dropPartial
  match v.headTask q with
  | some k => if k.clear then v.takeFreed q k n b else v
  | none => v

/-- The next step of an eviction, with its bank in hand. -/
def State.evictStep (s : State) : State :=
  match s.bank.evict, s.bank.iter with
  | some (q, area), some it =>
    if !s.evictQuiet || !s.panelStill then s
    else
      let t := s.exposeAll.fillDue
      let dirty := (List.finRange 16).filter fun e => t.bank.map[e].valid && t.bank.map[e].rw && !t.bank.map[e].written.isEmpty
      (match t.bank.wb with
        | some w => if w.left.isEmpty then t.setBank fun b => { b with wb := none } else t
        | none =>
          if dirty.isEmpty then t.finishEvict it q area
          else t.setBank fun b => { b with wb := some { by_ := .evict, left := dirty, sent := 0, stopped := false } })
  | _, _ => s

/-- The bank that queue `q` is evicting. -/
def State.evicting (s : State) (q : Nat) : Option (Nat × Nat) :=
  s.banks.find? fun m => match (s.bankAt m.1 m.2).evict with
    | some (p, _) => p == q
    | none => false

/-- EVICT for queue `q` into the save area at `area`: the next step of its eviction, or the choice of a victim. A victim whose
streams have all exited is not saved: its write-back ends, it retires, and the bank then goes to the queue (R240). -/
def execEvict (q : Fin 64) (area : Nat) (s : State) : Result :=
  match s.evicting q.val with
  | some m => .next (s.onBank m.1 m.2 State.evictStep)
  | none =>
    match s.wantsBank q.val with
    | none => .next s
    | some t =>
      if s.mustEvict q.val t then
        match s.victim q.val t with
        | none => .next s
        | some m =>
          if bankStreams.all fun k => ((s.focus m.1 m.2).streamAt k).exited then
            .next (s.onBank m.1 m.2 fun u => u.setBank fun b => { b with heir := some q.val })
          else .next (s.onBank m.1 m.2 fun u => u.beginEvict q.val area)
      else .next s

/-! ## The restore (R348) -/

def readSteer (v : Nat) : Steer :=
  { set := v / 2 ^ 15 % 2 == 1, value := v / 2 ^ 14 % 2 == 1, target := BitVec.ofNat 13 v, ready := 0 }

def readLoop (v : Nat) : Loop :=
  { count := BitVec.ofNat 32 (v / 2 ^ 32), start := BitVec.ofNat 13 (v / 2 ^ 16), stop := BitVec.ofNat 13 v }

/-- The pc of stream `i` and the last word that it has issued, where the area at `area` names word `pc`: as noted at the save, or the word
before `pc` for an area that the model has not saved (log 37, DESIGN CHOICE). -/
def State.pcBeside (s : State) (area i pc : Nat) : Nat × Nat :=
  match (Tbl.get? s.beside area).bind fun l => l.pcs[i]? with
  | some x => if x.1 % 2 ^ 13 = pc then x else (pc, pc - 1)
  | none => (pc, pc - 1)

/-- Read a stream from its 0x200 bytes, with its pc and last word from `place`; it starts in counted cycle `now`. -/
def readStream (b : List Byte) (place : Nat → Nat × Nat) (tag now : Nat) : Stream :=
  let pcw := at8 b 0x140 8
  let at_ := place (pcw % 2 ^ 13)
  let h := at8 b 0x160 8
  { Stream.zero with
    s := Vector.ofFn fun i => if i = 0 then 0 else BitVec.ofNat 64 (at8 b (8 * i.val) 8)
    k := Vector.ofFn fun i => readSteer (at8 b (0x100 + 2 * i.val) 2)
    l := Vector.ofFn fun i => readLoop (at8 b (0x120 + 8 * i.val) 8)
    order := (upFrom 0 4).map fun r => Fin.ofNat 4 (pcw / 2 ^ (24 + 2 * r) % 4)
    pc := at_.1, exited := pcw / 2 ^ 16 % 2 == 1, cause := BitVec.ofNat 64 (at8 b 0x148 8)
    epc := BitVec.ofNat 64 (at8 b 0x150 8), tval := BitVec.ofNat 64 (at8 b 0x158 8)
    hvecEn := h / 2 ^ 63 % 2 == 1, active := h / 2 ^ 62 % 2 == 1, hvecTarget := BitVec.ofNat 13 h
    running := true, tag := tag, last := at_.2, bound := now }

/-- Read a queue; entries behind the sixteenth come from `more`. -/
def readQueue (q : Nat) (b more : List Byte) (now : Nat) : List QEntry :=
  (upFrom 0 (at8 b 0 8 % 128)).map fun i =>
    let token := at8 b 8 8 / 2 ^ i % 2 == 1
    let v := if isOutcome q then at8 b 16 8 / 2 ^ i % 2 else if i < 16 then at8 b (16 + 8 * i) 8 else at8 more (8 * (i - 16)) 8
    { value := if token then 0 else BitVec.ofNat 64 v, token := token, due := some 0, filled := some (now - 1), rel := 0, src := 0, ticket := 0 }

def readBuf (cfg cnt : Nat) : CBuf :=
  { base := cfg % 2 ^ 22, slot := cfg / 2 ^ 22 % 2 ^ 23, count := cfg / 2 ^ 45 % 512, put := cnt % 2 ^ 16, done := cnt / 2 ^ 16 % 2 ^ 16
    taken := cnt / 2 ^ 32 % 2 ^ 16 }

def readMapEntry (b : List Byte) : MapEntry :=
  let f := at8 b 7 1
  { valid := f % 2 == 1, vabase := at8 b 0 7, spbase := at8 b 8 4, len := at8 b 12 2, rw := f / 2 % 2 == 1, cls := Fin.ofNat 16 (f / 4)
    filled := [], written := [] }

/-- The vector state in the front of an area. -/
def readVec (b : List Byte) : VecState :=
  let w := at8 b 0xF78 8
  let depth := w / 2 ^ 16 % 16
  { v := Vector.ofFn fun i => BitVec.ofNat 4096 (at8 b (0x2800 + 512 * i.val) 512)
    vrot := BitVec.ofNat 5 w, gates := BitVec.ofNat 8 (w / 2 ^ 8)
    m := Vector.ofFn fun i => BitVec.ofNat 1024 (at8 b (0x1A80 + 128 * i.val) 128)
    stack := ((upFrom 0 depth).map fun i => BitVec.ofNat 1024 (at8 b (0x1E80 + 128 * i) 128)).reverse
    vflags := BitVec.ofNat 6 (at8 b 0xF40 8), ftz := at8 b 0xF48 8 % 2 == 1, srseed := BitVec.ofNat 16 (at8 b 0xF50 8)
    lanes := (upFrom 0 1024).map fun i => (i, BitVec.ofNat 16 (at8 b (0x1280 + 2 * i) 2)) }

/-- What the save area at `area` does not hold of entry `i` of its re-issue list: noted at the save, and free for an area that the model has
not saved (R349) (log 37, DESIGN CHOICE). -/
def State.besideArea (s : State) (area i : Nat) : Word × Nat :=
  ((Tbl.get? s.beside area).bind fun l => l.cmds[i]?).getD (Config.unsaved area i, (Config.unsaved area (16 + i)).toNat % 2 ^ 13)

/-- Entries of the re-issue list, as new pushes of the A stream in hand. -/
def State.readCmds (s : State) (area : Nat) (b : List Byte) (i : Nat) : Nat → List Cmd
  | 0 => []
  | n + 1 =>
    let e := b.drop (0x2290 + 80 * i)
    let w := BitVec.ofNat 64 (at8 e 0 8)
    let v := fun (j : Nat) => BitVec.ofNat 64 (at8 e (8 + 8 * j) 8)
    match decode .A w with
    | .ok c =>
      { s.newCmd c [v 0, v 1, v 2, v 3] [v 4, v 5, v 6, v 7, (s.besideArea area i).1] with
        ord := s.issued + i, rel := s.issued, word := w, epc := (s.besideArea area i).2, undo := [] }
        :: State.readCmds s area b (i + 1) n
    | .error _ => State.readCmds s area b (i + 1) n

/-- Replies of LAUNCH and GRAPH commands of an iteration that are still due. -/
def State.openLaunches (s : State) (task ord : Nat) : Nat :=
  let mine := fun (r : ReplyTo) => match r with
    | .bank _ _ t o => t == task && o == ord
    | .nowhere | .done _ _ _ | .graph _ => false
  (s.launches.filter fun r => mine r.reply).length + (s.tasks.filter fun t => mine t.reply && !t.complete).length
    + (s.graphs.filter fun g => mine g.reply).length + (s.replies.filter fun r => mine r.target).length

/-- Read the scratchpad part back. -/
def State.loadParts (s : State) (at_ : Nat) : List (Nat × Nat) → State
  | [] => s
  | (off, n) :: t => State.loadParts (s.engOwn off 0 none (s.homeRead (s.bureauPlace at_) n)) (at_ + n) t

/-- Step 1: the registers of the bank in hand from the area's bytes. -/
def State.loadBank (s : State) (it : Iter) (area : Nat) (b : List Byte) : State :=
  let passed := s.w - at8 b 0x28 8
  let cycle := at8 b 0x30 8 + passed
  let slip := at8 b 0xF58 8 + if it.lock then passed else 0
  let now := cycle - slip
  let str := fun (i tag : Nat) => readStream (b.drop (0x40 + 0x200 * i)) (s.pcBeside area i) tag now
  s.setBank fun k =>
    { k with
      a := str 0 k.a.tag, x := str 1 k.x.tag, n := str 2 k.n.tag, vec := readVec b
      q := Vector.ofFn fun i => readQueue i.val (b.drop (0x640 + 0x90 * i.val)) (b.drop (0x33940 + if i = 13 then 128 else 0))
        (if 12 ≤ i.val then cycle else now)
      cycle := cycle, slip := slip, pend := at8 b 0xF60 8 % 2 == 1, ffa := BitVec.ofNat 56 (at8 b 0xF68 8)
      pstat := BitVec.ofNat 8 (at8 b 0xF70 8), bfmt := Vector.ofFn fun i => BitVec.ofNat 64 (at8 b (0x1000 + 8 * i.val) 8)
      cb := Vector.ofFn fun i => readBuf (at8 b (0x1080 + 16 * i.val) 8) (at8 b (0x1088 + 16 * i.val) 8)
      abexp := Vector.ofFn fun i => BitVec.ofNat 40 (at8 b (0x1100 + 16 * i.val) 8)
      abarr := Vector.ofFn fun i => BitVec.ofNat 40 (at8 b (0x1108 + 16 * i.val) 8)
      map := Vector.ofFn fun i => readMapEntry (b.drop (0x1180 + 16 * i.val)), stray := at8 b 6 2 / 16 % 2 == 1
      nests := 0, launches := s.openLaunches it.task it.ord }

/-- The block of an area. -/
def areaBlock (gang : Bool) (b : List Byte) : List Byte :=
  (b.drop 0xA800).take 0x29140 ++ if gang then (b.drop 0x33A40).take 0x28B40 else []

/-- Step 4: push the re-issue list. -/
def State.reissueAll (s : State) (cmds : List Cmd) : State :=
  State.setCore { s with issued := s.issued + cmds.length } fun c =>
    { c with copyQ := c.copyQ ++ cmds.filter fun k => engOf k.instr = .copy, indexQ := c.indexQ ++ cmds.filter fun k => engOf k.instr = .index }

/-- Restore the iteration of the bank in hand from an area, if the images are resident, the FIFOs have room and the panel can be
loaded; else nothing yet. -/
def State.restoreFrom (s : State) (it : Iter) (area : Nat) : State :=
  let flags := leNat (s.homeRead (s.bureauPlace (area + 6)) 2)
  let gang := flags / 8 % 2 == 1
  let b := s.homeRead (s.bureauPlace area) (partOffset gang)
  let t := State.loadBank { s with sid := .A } it area b
  let cmds := t.readCmds area b 0 (min (at8 b 0x2280 8) 16)
  let count := fun (e : Eng) => (cmds.filter fun c => engOf c.instr == e).length
  let block := if flags / 2 % 2 = 1 then readBlock t.bank.bfmt (areaBlock gang b) else none
  let holds := match block with
    | some k => k.active.isSome || k.pending.isSome
    | none => false
  if !s.imagesReady || decide (8 < s.core.copyQ.length + count .copy) || decide (8 < s.core.indexQ.length + count .index)
      || (holds && s.core.panel.all != []) then s
  else
    let u := t.loadParts (area + partOffset gang) (savedRanges it.banks2 t.bank.cb)
    let v := match block with
      | some k => if holds then u.loadBlock k ((Tbl.get? s.beside area).any AreaNote.unread) else u.setShadow fun _ => k.shadow
      | none => u
    let w := (v.reissueAll cmds).setBank fun k => { k with started := true, restore := none }
    State.settleReplies { w.takeTurn with sid := s.sid }

/-- ITERATION_RESTORE. -/
def execIterationRestore (area core : Nat) (second : Bool) (s : State) : Result :=
  if coreTotal ≤ core then .fault .noSuchUnit
  else
    .next (s.onBank core (if second then 1 else 0) fun t =>
      match t.bank.iter with
      | some it => if t.bank.restore = some area then t.restoreFrom it area else t
      | none => t)

end Sys2Proof.Machine
end

