-- ==== Sys2Proof/Machine/Scalar.lean ====
section
/-! DEFINITION. The scalar ALU (R43 to R49): register and immediate forms. -/

namespace Sys2Proof.Machine

/-! ## Shapes -/

/-- A word of one source: read it, write `f` of it to `d` after `lat` cycles (R43). -/
def State.alu1 (s : State) (d a : Opnd) (lat : Nat) (f : Word → Word) : Result :=
  s.guard [a] [d] (let x := s.take a; .next ((x.2.put d (f x.1) lat).finish))

/-- A word of two sources, read in the order a, b. -/
def State.alu2 (s : State) (d a b : Opnd) (lat : Nat) (f : Word → Word → Word) : Result :=
  s.guard [a, b] [d] (let x := s.take a; let y := x.2.take b; .next ((y.2.put d (f x.1 y.1) lat).finish))

/-! ## Operations on 64-bit values -/

/-- Bits 127:64 of the signed product. -/
def mulHigh (x y : Word) : Word := BitVec.ofInt 64 (x.toInt * y.toInt / 2 ^ 64)

/-- Bits 127:64 of the unsigned product. -/
def mulHighU (x y : Word) : Word := BitVec.ofNat 64 (x.toNat * y.toNat / 2 ^ 64)

/-- DIV (R21, R46). -/
def divS (x y : Word) : Word :=
  if y = 0 then BitVec.allOnes 64
  else if x = 0x8000000000000000#64 ∧ y = BitVec.allOnes 64 then x
  else BitVec.ofInt 64 (x.toInt.tdiv y.toInt)

/-- REM (R21, R46). -/
def remS (x y : Word) : Word :=
  if y = 0 then x
  else if x = 0x8000000000000000#64 ∧ y = BitVec.allOnes 64 then 0
  else BitVec.ofInt 64 (x.toInt.tmod y.toInt)

/-- DIVU. -/
def divU (x y : Word) : Word := if y = 0 then BitVec.allOnes 64 else BitVec.ofNat 64 (x.toNat / y.toNat)

/-- REMU. -/
def remU (x y : Word) : Word := if y = 0 then x else BitVec.ofNat 64 (x.toNat % y.toNat)

/-- Zero bits above the highest one bit, among the low `n`. -/
def leadZeros (x : Word) : Nat → Nat
  | 0 => 0
  | n + 1 => if x.getLsbD n then 0 else 1 + leadZeros x n

/-- Zero bits below the lowest one bit, from bit `i` on, with `n` bits left. -/
def trailZeros (x : Word) (i : Nat) : Nat → Nat
  | 0 => 0
  | n + 1 => if x.getLsbD i then 0 else 1 + trailZeros x (i + 1) n

/-- One bits among the low `n`. -/
def onesIn (x : Word) : Nat → Nat
  | 0 => 0
  | n + 1 => (if x.getLsbD n then 1 else 0) + onesIn x n

/-- The low `w` bits kept and sign-extended (R47). -/
def keepSigned (x : Word) (w : Nat) : Word := signExt w x.toNat

/-- The low `w` bits kept and zero-extended. -/
def keepZero (x : Word) (w : Nat) : Word := BitVec.ofNat 64 (x.toNat % 2 ^ w)

/-- Width of a bit field cut at bit 63, from W and POS. -/
def fieldWidth (w pos : Fin 64) : Nat := min (w.val + 1) (64 - pos.val)

/-- The mask of a bit field. -/
def fieldMask (w pos : Fin 64) : Word := BitVec.ofNat 64 (2 ^ fieldWidth w pos - 1) <<< pos.val

/-- BFX. -/
def fieldOut (x : Word) (w pos : Fin 64) : Word := (x &&& fieldMask w pos) >>> pos.val

/-- BFI. -/
def fieldIn (x y : Word) (w pos : Fin 64) : Word := (y &&& ~~~(fieldMask w pos)) ||| (x <<< pos.val &&& fieldMask w pos)

/-! ## Register forms (R45) -/

def execAdd (d a b : Opnd) (s : State) : Result := s.alu2 d a b 1 (· + ·)
def execSub (d a b : Opnd) (s : State) : Result := s.alu2 d a b 1 (· - ·)
def execMul (d a b : Opnd) (s : State) : Result := s.alu2 d a b 3 (· * ·)
def execMulh (d a b : Opnd) (s : State) : Result := s.alu2 d a b 3 mulHigh
def execMulhu (d a b : Opnd) (s : State) : Result := s.alu2 d a b 3 mulHighU
def execDiv (d a b : Opnd) (s : State) : Result := s.alu2 d a b 20 divS
def execDivu (d a b : Opnd) (s : State) : Result := s.alu2 d a b 20 divU
def execRem (d a b : Opnd) (s : State) : Result := s.alu2 d a b 20 remS
def execRemu (d a b : Opnd) (s : State) : Result := s.alu2 d a b 20 remU
def execAnd (d a b : Opnd) (s : State) : Result := s.alu2 d a b 1 (· &&& ·)
def execOr (d a b : Opnd) (s : State) : Result := s.alu2 d a b 1 (· ||| ·)
def execXor (d a b : Opnd) (s : State) : Result := s.alu2 d a b 1 (· ^^^ ·)
def execAndn (d a b : Opnd) (s : State) : Result := s.alu2 d a b 1 fun x y => x &&& ~~~y
def execShl (d a b : Opnd) (s : State) : Result := s.alu2 d a b 1 fun x y => x <<< (y.toNat % 64)
def execShr (d a b : Opnd) (s : State) : Result := s.alu2 d a b 1 fun x y => x >>> (y.toNat % 64)
def execSar (d a b : Opnd) (s : State) : Result := s.alu2 d a b 1 fun x y => x.sshiftRight (y.toNat % 64)
def execMin (d a b : Opnd) (s : State) : Result := s.alu2 d a b 1 fun x y => if y.slt x then y else x
def execMinu (d a b : Opnd) (s : State) : Result := s.alu2 d a b 1 fun x y => if y.ult x then y else x
def execMax (d a b : Opnd) (s : State) : Result := s.alu2 d a b 1 fun x y => if x.slt y then y else x
def execMaxu (d a b : Opnd) (s : State) : Result := s.alu2 d a b 1 fun x y => if x.ult y then y else x
def execClz (d a : Opnd) (s : State) : Result := s.alu1 d a 1 fun x => BitVec.ofNat 64 (leadZeros x 64)
def execCtz (d a : Opnd) (s : State) : Result := s.alu1 d a 1 fun x => BitVec.ofNat 64 (trailZeros x 0 64)
def execPopc (d a : Opnd) (s : State) : Result := s.alu1 d a 1 fun x => BitVec.ofNat 64 (onesIn x 64)
def execSext (d a : Opnd) (w : Fin 64) (s : State) : Result := s.alu1 d a 1 fun x => keepSigned x (w.val + 1)
def execZext (d a : Opnd) (w : Fin 64) (s : State) : Result := s.alu1 d a 1 fun x => keepZero x (w.val + 1)
def execBfx (d a : Opnd) (w pos : Fin 64) (s : State) : Result := s.alu1 d a 1 fun x => fieldOut x w pos
def execBfi (d a b : Opnd) (w pos : Fin 64) (s : State) : Result := s.alu2 d a b 1 fun x y => fieldIn x y w pos

/-- CMOV reads all three sources, whichever it chooses. -/
def execCmov (d a b c : Opnd) (s : State) : Result :=
  s.guard [a, b, c] [d]
    (let x := s.take a
     let y := x.2.take b
     let z := y.2.take c
     .next ((z.2.put d (if z.1 ≠ 0 then x.1 else y.1) 1).finish))

/-! ## Immediate forms (R48, R49) -/

def execAddi (d a : Opnd) (imm : BitVec 34) (s : State) : Result := s.alu1 d a 1 fun x => x + imm.signExtend 64
def execAndi (d a : Opnd) (imm : BitVec 34) (s : State) : Result := s.alu1 d a 1 fun x => x &&& imm.signExtend 64
def execOri (d a : Opnd) (imm : BitVec 34) (s : State) : Result := s.alu1 d a 1 fun x => x ||| imm.signExtend 64
def execXori (d a : Opnd) (imm : BitVec 34) (s : State) : Result := s.alu1 d a 1 fun x => x ^^^ imm.signExtend 64
def execShli (d a : Opnd) (n : Fin 64) (s : State) : Result := s.alu1 d a 1 fun x => x <<< n.val
def execShri (d a : Opnd) (n : Fin 64) (s : State) : Result := s.alu1 d a 1 fun x => x >>> n.val
def execSari (d a : Opnd) (n : Fin 64) (s : State) : Result := s.alu1 d a 1 fun x => x.sshiftRight n.val
def execMuli (d a : Opnd) (imm : BitVec 34) (s : State) : Result := s.alu1 d a 3 fun x => x * imm.signExtend 64

/-- LDI. -/
def execLdi (d : Opnd) (imm : BitVec 40) (s : State) : Result :=
  s.guard [] [d] (.next ((s.put d (imm.signExtend 64) 1).finish))

/-- LDHI keeps bits 23:0. -/
def execLdhi (d : Fin 32) (imm : BitVec 40) (s : State) : Result :=
  .next (((s.setReg d (imm ++ (s.reg d).setWidth 24)).setBusy (.s d) 1).finish)

end Sys2Proof.Machine
end

