-- ==== Sys2Proof/Machine/VectorMem.lean ====
section
/-! DEFINITION. The vector unit's loads and stores (R156 to R158). -/

namespace Sys2Proof.Machine

/-- An element of a vector access: its index, its address, and its nibble (0: a whole element, 1 low, 2 high). -/
structure ElemRef where
  num : Nat
  va : Word
  nib : Nat
  deriving DecidableEq, Repr

/-- Bytes of an element; a 4-bit element is one nibble of a byte. -/
def elemBytes (t : Ty) : Nat := if t.bits = 4 then 1 else t.bits / 8

/-- The enabled elements below `n`, with their addresses. -/
def State.refs (s : State) (mk : Bool) (t : Ty) (addr : Nat → Word) (n : Nat) : List ElemRef :=
  ((upFrom 0 n).filter (s.enabled mk)).map fun i =>
    { num := i, va := addr i, nib := if t.bits = 4 then 1 + i % 2 else 0 }

/-- Addresses of VLD and VST: consecutive elements from base + offset. -/
def unitAddr (t : Ty) (base off : Word) (i : Nat) : Word := base + off + BitVec.ofNat 64 (i * t.bits / 8)

/-- Addresses of VLDS and VSTS: a stride in bytes. -/
def strideAddr (base stride : Word) (i : Nat) : Word := base + BitVec.ofNat 64 i * stride

/-- Addresses of VLDX and VSTX: a uint32 offset for each element. -/
def indexAddr (base : Word) (v : VecReg) (i : Nat) : Word := base + BitVec.ofNat 64 (elemAt 32 v i)

/-- Elements that an indexed access takes. -/
def indexCount (t : Ty) : Nat := min (count t) 128

/-- The first element whose form or alignment fails, before anything is accessed. -/
def firstBad (n : Nat) : List ElemRef → Option (Cause × Word)
  | [] => none
  | e :: t =>
    match formCause e.va n with
    | some c => some (c, e.va)
    | none => firstBad n t

/-- What the routes of a vector access come to. -/
inductive Routed where
  | fault (c : Cause) (va : Word)
  /-- a store waits for the fill of a granule first -/
  | fill (va : Nat) (entry : Fin 16) (granule : Nat)
  /-- elements in the core's own banks, with offset and map entry; elements elsewhere, or of a load behind a granule that is not filled; whether
  an element goes through the core-n window of the core's own banks; the translations kept -/
  | ok (own : List (ElemRef × Nat × Option (Fin 16))) (away : List (ElemRef × Place)) (across : Bool) (s : State)
  deriving DecidableEq, Repr

/-- The routes of the elements, lowest index first. -/
def State.routes (s : State) (n : Nat) (store : Bool) : List ElemRef → Routed
  | [] => .ok [] [] false s
  | e :: t =>
    match s.route e.va.toNat n store true with
    | .error c => .fault c e.va
    | .ok (r, s') =>
      match State.routes s' n store t with
      | .fault c va => .fault c va
      | .fill va x g =>
        (match r with
          | .fill x g _ => .fill e.va.toNat x g
          | .own _ _ | .across _ | .away _ => .fill va x g)
      | .ok own away far u =>
        match r with
        | .own off x => .ok ((e, off, x) :: own) away far u
        | .across off => .ok ((e, off, none) :: own) away true u
        | .away p => .ok own ((e, p) :: away) far u
        | .fill x g off => if store then .fill e.va.toNat x g else .ok own ((e, s.unfilled x g off) :: away) far u

/-- A vector access after its operands are read: `s` is the state before the pops and `t` after them. -/
def State.vectorAccess (s t : State) (n : Nat) (store : Bool) (cls : Fin 16) (refs : List ElemRef)
    (k : List (ElemRef × Nat × Option (Fin 16)) → List (ElemRef × Place) → Bool → State → Result) : Result :=
  match firstBad n refs with
  | some (c, va) => s.trap c va
  | none =>
    match t.routes n store refs with
    | .fault c va => s.trap c va
    | .fill va x g => s.waitFill va x g
    | .ok own away across u =>
      if !own.isEmpty && s.ownHeld cls store (own.map fun x => (x.2.1, n)) then .next (s.hold (.ext .access)) else k own away across u

/-- The lowest pending word that a load touches in the core's own banks, as an address (R191). -/
def State.earlyElem (s : State) (n : Nat) (own : List (ElemRef × Nat × Option (Fin 16))) : Option Nat :=
  match s.earlyWord (own.flatMap fun x => upFrom x.2.1 n) with
  | none => none
  | some w =>
    (own.find? fun x => decide (x.2.1 / 8 ≤ w ∧ w ≤ (x.2.1 + n - 1) / 8)).map fun x => x.1.va.toNat + 8 * w - x.2.1

/-- The VA of the first distant element. -/
def firstAway : List (ElemRef × Place) → Nat
  | x :: _ => x.1.va.toNat
  | [] => 0

/-- Ask for the fills of the granules that a load waits for. -/
def State.askFills (s : State) (ord : Nat) (away : List (ElemRef × Place)) : State :=
  away.foldl (fun (t : State) x => if x.2.home = 5 then t.askFill x.2.slot x.2.gen ord else t) s

/-- A vector load into `vd`, at `lat` where every element lies in the self window or behind a filled granule (R158). -/
def State.vectorLoad (s t : State) (ty : Ty) (vd : Fin 64) (cls : Fin 16) (refs : List ElemRef) (lat : Nat)
    (undo : List (Fin 16 × QEntry)) : Result :=
  let n := elemBytes ty
  s.vectorAccess t n false cls refs fun own away across u =>
    match s.earlyElem n own with
    | some va => s.trap cSCRATCHEARLY (BitVec.ofNat 64 va)
    | none =>
      let got := own.map fun x => (x.1.num, (s.scratchRead s.coreNo x.2.1 n).map (pickNib x.1.nib))
      if away.isEmpty && !across then .next (u.setVec vd (putElems ty.bits (u.vreg vd) got) lat).finish
      else
        .next (((u.askFills u.issued away).send cls.val (firstAway away) (.vload ty.bits) (.vec (u.bank.vec.phys vd))
          (away.map fun x => { num := x.1.num, va := x.1.va.toNat, place := some x.2, n := n, bytes := [], nib := x.1.nib })
          got none undo).finish)

/-- What the elements in the core's own banks leave, in ascending order: of a 4-bit element its nibble alone (R157). -/
def ownCells (ty : Ty) (vd : VecReg) (own : List (ElemRef × Nat × Option (Fin 16))) : List OwnCell :=
  own.flatMap fun x =>
    let bytes := leBytes (elemAt ty.bits vd x.1.num) (elemBytes ty)
    (cellsAt x.2.1 bytes).map fun c => { c with nib := x.1.nib }

/-- Set WRITTEN for elements stored through the map. -/
def State.markWritten (s : State) (n : Nat) (own : List (ElemRef × Nat × Option (Fin 16))) : State :=
  own.foldl (fun s x =>
    match x.2.2 with
    | some e => s.setBank fun b => { b with map := b.map.set e (b.map[e].write x.1.va.toNat n) }
    | none => s) s

/-- Elements in runs of those behind a map entry and those in a window, in order (R157). -/
def mapRuns : List (ElemRef × Nat × Option (Fin 16)) → List (Bool × List (ElemRef × Nat × Option (Fin 16)))
  | [] => []
  | x :: t =>
    match mapRuns t with
    | (m, l) :: r => if m = x.2.2.isSome then (m, x :: l) :: r else (x.2.2.isSome, [x]) :: (m, l) :: r
    | [] => [(x.2.2.isSome, [x])]

/-- A vector store of `vd`: own bytes are readable at issue + 6, the others go into the lane. -/
def State.vectorStore (s t : State) (ty : Ty) (vd : Fin 64) (cls : Fin 16) (refs : List ElemRef)
    (undo : List (Fin 16 × QEntry)) : Result :=
  let n := elemBytes ty
  s.vectorAccess t n true cls refs fun own away _ u =>
    let v := s.vreg vd
    let u := ((mapRuns own).foldl (fun (t : State) r => t.writeOwn (ownCells ty v r.2) 6 cls.val r.1) u).markWritten n own
    if away.isEmpty then .next u.finish
    else
      .next ((u.send cls.val (firstAway away) .vstore .none
        (away.map fun x => { num := x.1.num, va := x.1.va.toNat, place := some x.2, n := n
                             bytes := leBytes (elemAt ty.bits v x.1.num) n, nib := x.1.nib }) [] none undo).finish)

/-- VLD. -/
def execVld (g : Gate) (ty : Ty) (mk : Bool) (vd : Fin 64) (a b : Opnd) (cls : Fin 16) (s : State) : Result :=
  if s.gatedOff g then .next s.finish
  else
    s.guard [a, b] []
      (let x := s.take a
       let y := x.2.take b
       s.vectorLoad y.2 ty vd cls (s.refs mk ty (unitAddr ty x.1 y.1) (count ty)) 4 (s.popped [a, b]))

/-- VST. -/
def execVst (g : Gate) (ty : Ty) (mk : Bool) (vd : Fin 64) (a b : Opnd) (cls : Fin 16) (s : State) : Result :=
  if s.gatedOff g then .next s.finish
  else
    s.guard [a, b] []
      (let x := s.take a
       let y := x.2.take b
       s.vectorStore y.2 ty vd cls (s.refs mk ty (unitAddr ty x.1 y.1) (count ty)) (s.popped [a, b]))

/-- VLDS. -/
def execVlds (g : Gate) (ty : Ty) (mk : Bool) (vd : Fin 64) (a b : Opnd) (cls : Fin 16) (s : State) : Result :=
  if s.gatedOff g then .next s.finish
  else
    s.guard [a, b] []
      (let x := s.take a
       let y := x.2.take b
       s.vectorLoad y.2 ty vd cls (s.refs mk ty (strideAddr x.1 y.1) (count ty)) 8 (s.popped [a, b]))

/-- VSTS. -/
def execVsts (g : Gate) (ty : Ty) (mk : Bool) (vd : Fin 64) (a b : Opnd) (cls : Fin 16) (s : State) : Result :=
  if s.gatedOff g then .next s.finish
  else
    s.guard [a, b] []
      (let x := s.take a
       let y := x.2.take b
       s.vectorStore y.2 ty vd cls (s.refs mk ty (strideAddr x.1 y.1) (count ty)) (s.popped [a, b]))

/-- VLDX. -/
def execVldx (g : Gate) (ty : Ty) (mk : Bool) (vd : Fin 64) (a : Opnd) (vb : Fin 64) (cls : Fin 16) (s : State) : Result :=
  if s.gatedOff g then .next s.finish
  else
    s.guard [a] []
      (let x := s.take a
       s.vectorLoad x.2 ty vd cls (s.refs mk ty (indexAddr x.1 (s.vreg vb)) (indexCount ty)) 8 (s.popped [a]))

/-- VSTX. -/
def execVstx (g : Gate) (ty : Ty) (mk : Bool) (vd : Fin 64) (a : Opnd) (vb : Fin 64) (cls : Fin 16) (s : State) : Result :=
  if s.gatedOff g then .next s.finish
  else
    s.guard [a] []
      (let x := s.take a
       s.vectorStore x.2 ty vd cls (s.refs mk ty (indexAddr x.1 (s.vreg vb)) (indexCount ty)) (s.popped [a]))

end Sys2Proof.Machine
end

