-- ==== Sys2Proof/Machine/Dispatch.lean ====
section
/-! DEFINITION. What each instruction does: one arm for each constructor of `Instr`, one direct call of its meaning. -/

namespace Sys2Proof.Machine

open Sys2Proof

def exec (i : Instr) (s : State) : Host.Outcome State Fault Refusal :=
  match i with
  | .nop => Sys2Proof.Machine.execNop s
  | .prep k target => Sys2Proof.Machine.execPrep k target s
  | .prepr k a => Sys2Proof.Machine.execPrepr k a s
  | .br k sense => Sys2Proof.Machine.execBr k sense s
  | .brl k sense => Sys2Proof.Machine.execBrl k sense s
  | .cmp cc k a b => Sys2Proof.Machine.execCmp cc k a b s
  | .cmpi cc k a imm => Sys2Proof.Machine.execCmpi cc k a imm s
  | .cset cc d a b => Sys2Proof.Machine.execCset cc d a b s
  | .cseti cc d b imm => Sys2Proof.Machine.execCseti cc d b imm s
  | .scomb op k ka kb => Sys2Proof.Machine.execScomb op k ka kb s
  | .spop k q => Sys2Proof.Machine.execSpop k q s
  | .spush k q => Sys2Proof.Machine.execSpush k q s
  | .lset l a stop => Sys2Proof.Machine.execLset l a stop s
  | .lend l => Sys2Proof.Machine.execLend l s
  | .trap imm => Sys2Proof.Machine.execTrap imm s
  | .add d a b => Sys2Proof.Machine.execAdd d a b s
  | .sub d a b => Sys2Proof.Machine.execSub d a b s
  | .mul d a b => Sys2Proof.Machine.execMul d a b s
  | .mulh d a b => Sys2Proof.Machine.execMulh d a b s
  | .mulhu d a b => Sys2Proof.Machine.execMulhu d a b s
  | .div d a b => Sys2Proof.Machine.execDiv d a b s
  | .divu d a b => Sys2Proof.Machine.execDivu d a b s
  | .rem d a b => Sys2Proof.Machine.execRem d a b s
  | .remu d a b => Sys2Proof.Machine.execRemu d a b s
  | .and d a b => Sys2Proof.Machine.execAnd d a b s
  | .or d a b => Sys2Proof.Machine.execOr d a b s
  | .xor d a b => Sys2Proof.Machine.execXor d a b s
  | .andn d a b => Sys2Proof.Machine.execAndn d a b s
  | .shl d a b => Sys2Proof.Machine.execShl d a b s
  | .shr d a b => Sys2Proof.Machine.execShr d a b s
  | .sar d a b => Sys2Proof.Machine.execSar d a b s
  | .min d a b => Sys2Proof.Machine.execMin d a b s
  | .minu d a b => Sys2Proof.Machine.execMinu d a b s
  | .max d a b => Sys2Proof.Machine.execMax d a b s
  | .maxu d a b => Sys2Proof.Machine.execMaxu d a b s
  | .clz d a => Sys2Proof.Machine.execClz d a s
  | .ctz d a => Sys2Proof.Machine.execCtz d a s
  | .popc d a => Sys2Proof.Machine.execPopc d a s
  | .sext d a w => Sys2Proof.Machine.execSext d a w s
  | .zext d a w => Sys2Proof.Machine.execZext d a w s
  | .bfx d a w pos => Sys2Proof.Machine.execBfx d a w pos s
  | .bfi d a b w pos => Sys2Proof.Machine.execBfi d a b w pos s
  | .cmov d a b c => Sys2Proof.Machine.execCmov d a b c s
  | .addi d a imm => Sys2Proof.Machine.execAddi d a imm s
  | .andi d a imm => Sys2Proof.Machine.execAndi d a imm s
  | .ori d a imm => Sys2Proof.Machine.execOri d a imm s
  | .xori d a imm => Sys2Proof.Machine.execXori d a imm s
  | .shli d a n => Sys2Proof.Machine.execShli d a n s
  | .shri d a n => Sys2Proof.Machine.execShri d a n s
  | .sari d a n => Sys2Proof.Machine.execSari d a n s
  | .muli d a imm => Sys2Proof.Machine.execMuli d a imm s
  | .ldi d imm => Sys2Proof.Machine.execLdi d imm s
  | .ldhi d imm => Sys2Proof.Machine.execLdhi d imm s
  | .ld sz sgn d a off cls => Sys2Proof.Machine.execLd sz sgn d a off cls s
  | .st sz d a off cls => Sys2Proof.Machine.execSt sz d a off cls s
  | .scld sz sgn system d a off cls => Sys2Proof.Machine.execScld sz sgn system d a off cls s
  | .scst sz system d a off cls => Sys2Proof.Machine.execScst sz system d a off cls s
  | .amo op wide sc d a b cls => Sys2Proof.Machine.execAmo op wide sc d a b cls s
  | .cas wide sc d a b c cls => Sys2Proof.Machine.execCas wide sc d a b c cls s
  | .start => Sys2Proof.Machine.execStart s
  | .join => Sys2Proof.Machine.execJoin s
  | .exit => Sys2Proof.Machine.execExit s
  | .pusht q => Sys2Proof.Machine.execPusht q s
  | .qtry k q d => Sys2Proof.Machine.execQtry k q d s
  | .qflush d q => Sys2Proof.Machine.execQflush d q s
  | .qcnt d q => Sys2Proof.Machine.execQcnt d q s
  | .gbar gs => Sys2Proof.Machine.execGbar gs s
  | .launch rpl a b => Sys2Proof.Machine.execLaunch rpl a b s
  | .graph rpl a b => Sys2Proof.Machine.execGraph rpl a b s
  | .crr d creg => Sys2Proof.Machine.execCrr d creg s
  | .crw a creg => Sys2Proof.Machine.execCrw a creg s
  | .eret => Sys2Proof.Machine.execEret s
  | .brk imm => Sys2Proof.Machine.execBrk imm s
  | .waitev d a b => Sys2Proof.Machine.execWaitev d a b s
  | .keykill d a => Sys2Proof.Machine.execKeykill d a s
  | .genbump d => Sys2Proof.Machine.execGenbump d s
  | .fence scope d a => Sys2Proof.Machine.execFence scope d a s
  | .dget d a b c cls => Sys2Proof.Machine.execDget d a b c cls s
  | .dgetv g vd a b mc cls => Sys2Proof.Machine.execDgetv g vd a b mc cls s
  | .dcls g ty md a b c cls => Sys2Proof.Machine.execDcls g ty md a b c cls s
  | .dredo d a b cls => Sys2Proof.Machine.execDredo d a b cls s
  | .rmap rw a b c entry cls => Sys2Proof.Machine.execRmap rw a b c entry cls s
  | .runmap entry => Sys2Proof.Machine.execRunmap entry s
  | .rsync d entry => Sys2Proof.Machine.execRsync d entry s
  | .cbset buf a b c => Sys2Proof.Machine.execCbset buf a b c s
  | .cbwait buf d => Sys2Proof.Machine.execCbwait buf d s
  | .cbrel buf => Sys2Proof.Machine.execCbrel buf s
  | .abset bar a => Sys2Proof.Machine.execAbset bar a s
  | .abwait bar => Sys2Proof.Machine.execAbwait bar s
  | .cpy cb sf d a b c t => Sys2Proof.Machine.execCpy cb sf d a b c t s
  | .cpys cb sf d a b c t => Sys2Proof.Machine.execCpys cb sf d a b c t s
  | .cpyt esz d a b c t => Sys2Proof.Machine.execCpyt esz d a b c t s
  | .cfill pw d a b t => Sys2Proof.Machine.execCfill pw d a b t s
  | .cfetchif pred cb d a b t => Sys2Proof.Machine.execCfetchif pred cb d a b t s
  | .kvfetch cb d a b c t => Sys2Proof.Machine.execKvfetch cb d a b c t s
  | .btinv rpl a b => Sys2Proof.Machine.execBtinv rpl a b s
  | .ecancel eng d => Sys2Proof.Machine.execEcancel eng d s
  | .gath esz d a b c t => Sys2Proof.Machine.execGath esz d a b c t s
  | .scat esz d a b c t => Sys2Proof.Machine.execScat esz d a b c t s
  | .scadd ty d a b c t => Sys2Proof.Machine.execScadd ty d a b c t s
  | .compact esz d a b c t => Sys2Proof.Machine.execCompact esz d a b c t s
  | .intersect esz d a b c t => Sys2Proof.Machine.execIntersect esz d a b c t s
  | .select ty ge d a b c t => Sys2Proof.Machine.execSelect ty ge d a b c t s
  | .nlvl level a b c => Sys2Proof.Machine.execNlvl level a b c s
  | .nbase a b c => Sys2Proof.Machine.execNbase a b c s
  | .nfmt fa fb run twin dlvl => Sys2Proof.Machine.execNfmt fa fb run twin dlvl s
  | .ndrn mode ct a => Sys2Proof.Machine.execNdrn mode ct a s
  | .ngo rpl buf8 cls => Sys2Proof.Machine.execNgo rpl buf8 cls s
  | .nwait d => Sys2Proof.Machine.execNwait d s
  | .nprog d level => Sys2Proof.Machine.execNprog d level s
  | .ncsq d a => Sys2Proof.Machine.execNcsq d a s
  | .nsave a cls => Sys2Proof.Machine.execNsave a cls s
  | .nload a cls => Sys2Proof.Machine.execNload a cls s
  | .vadd g ty rnd sat mk vd va vb => Sys2Proof.Machine.execVadd g ty rnd sat mk vd va vb s
  | .vsub g ty rnd sat mk vd va vb => Sys2Proof.Machine.execVsub g ty rnd sat mk vd va vb s
  | .vmul g ty rnd sat mk vd va vb => Sys2Proof.Machine.execVmul g ty rnd sat mk vd va vb s
  | .vmulh g ty mk vd va vb => Sys2Proof.Machine.execVmulh g ty mk vd va vb s
  | .vfma g ty rnd sat mk vd va vb vc => Sys2Proof.Machine.execVfma g ty rnd sat mk vd va vb vc s
  | .vfms g ty rnd sat mk vd va vb vc => Sys2Proof.Machine.execVfms g ty rnd sat mk vd va vb vc s
  | .vmin g ty mk vd va vb => Sys2Proof.Machine.execVmin g ty mk vd va vb s
  | .vmax g ty mk vd va vb => Sys2Proof.Machine.execVmax g ty mk vd va vb s
  | .vabs g ty sat mk vd va => Sys2Proof.Machine.execVabs g ty sat mk vd va s
  | .vneg g ty sat mk vd va => Sys2Proof.Machine.execVneg g ty sat mk vd va s
  | .vand g ty mk vd va vb => Sys2Proof.Machine.execVand g ty mk vd va vb s
  | .vor g ty mk vd va vb => Sys2Proof.Machine.execVor g ty mk vd va vb s
  | .vxor g ty mk vd va vb => Sys2Proof.Machine.execVxor g ty mk vd va vb s
  | .vshl g ty mk vd va vb => Sys2Proof.Machine.execVshl g ty mk vd va vb s
  | .vshr g ty mk vd va vb => Sys2Proof.Machine.execVshr g ty mk vd va vb s
  | .vsar g ty mk vd va vb => Sys2Proof.Machine.execVsar g ty mk vd va vb s
  | .vpopc g ty mk vd va => Sys2Proof.Machine.execVpopc g ty mk vd va s
  | .vclz g ty mk vd va => Sys2Proof.Machine.execVclz g ty mk vd va s
  | .vcmp g ty cc mk md va vb => Sys2Proof.Machine.execVcmp g ty cc mk md va vb s
  | .vsel g ty mk vd va vb mc => Sys2Proof.Machine.execVsel g ty mk vd va vb mc s
  | .vmov g ty mk vd va => Sys2Proof.Machine.execVmov g ty mk vd va s
  | .vbcast g ty mk vd a => Sys2Proof.Machine.execVbcast g ty mk vd a s
  | .vget g ty d va b => Sys2Proof.Machine.execVget g ty d va b s
  | .vins g ty vd a b => Sys2Proof.Machine.execVins g ty vd a b s
  | .vcvt g ty dty rnd sat mk vd va => Sys2Proof.Machine.execVcvt g ty dty rnd sat mk vd va s
  | .vwid g ty dty mk vd va => Sys2Proof.Machine.execVwid g ty dty mk vd va s
  | .vnar g ty dty rnd sat mk vd va => Sys2Proof.Machine.execVnar g ty dty rnd sat mk vd va s
  | .vscl g ty rnd sat mk vd va vb => Sys2Proof.Machine.execVscl g ty rnd sat mk vd va vb s
  | .vexpo g ty mk vd va => Sys2Proof.Machine.execVexpo g ty mk vd va s
  | .vrcp g mk vd va => Sys2Proof.Machine.execVrcp g mk vd va s
  | .vrsq g mk vd va => Sys2Proof.Machine.execVrsq g mk vd va s
  | .vexp2 g mk vd va => Sys2Proof.Machine.execVexp2 g mk vd va s
  | .vlog2 g mk vd va => Sys2Proof.Machine.execVlog2 g mk vd va s
  | .vred g ty op rnd sat mk d va => Sys2Proof.Machine.execVred g ty op rnd sat mk d va s
  | .vpsum g ty rnd sat mk vd va => Sys2Proof.Machine.execVpsum g ty rnd sat mk vd va s
  | .vcomp g ty vd va d => Sys2Proof.Machine.execVcomp g ty vd va d s
  | .vexpd g ty vd va => Sys2Proof.Machine.execVexpd g ty vd va s
  | .vslu g ty mk vd va b => Sys2Proof.Machine.execVslu g ty mk vd va b s
  | .vsld g ty mk vd va b => Sys2Proof.Machine.execVsld g ty mk vd va b s
  | .vperm g ty mk vd va vb => Sys2Proof.Machine.execVperm g ty mk vd va vb s
  | .vld g ty mk vd a b cls => Sys2Proof.Machine.execVld g ty mk vd a b cls s
  | .vst g ty mk vd a b cls => Sys2Proof.Machine.execVst g ty mk vd a b cls s
  | .vlds g ty mk vd a b cls => Sys2Proof.Machine.execVlds g ty mk vd a b cls s
  | .vsts g ty mk vd a b cls => Sys2Proof.Machine.execVsts g ty mk vd a b cls s
  | .vldx g ty mk vd a vb cls => Sys2Proof.Machine.execVldx g ty mk vd a vb cls s
  | .vstx g ty mk vd a vb cls => Sys2Proof.Machine.execVstx g ty mk vd a vb cls s
  | .vrot g abs step => Sys2Proof.Machine.execVrot g abs step s
  | .gset gates => Sys2Proof.Machine.execGset gates s
  | .gstep a => Sys2Proof.Machine.execGstep a s
  | .mpush g ma => Sys2Proof.Machine.execMpush g ma s
  | .minv g => Sys2Proof.Machine.execMinv g s
  | .mpop g => Sys2Proof.Machine.execMpop g s
  | .mset g md mode => Sys2Proof.Machine.execMset g md mode s
  | .mcnt g ty d ma => Sys2Proof.Machine.execMcnt g ty d ma s
  | .mempt g ty k => Sys2Proof.Machine.execMempt g ty k s
  | .lslot d a imm => Sys2Proof.Machine.execLslot d a imm s
  | .lxmit c b port => Sys2Proof.Machine.execLxmit c b port s
  | .lxmitMem c a => Sys2Proof.Machine.execLxmitMem c a s
  | .lrecv c a b port => Sys2Proof.Machine.execLrecv c a b port s
  | .lrecvMem c a => Sys2Proof.Machine.execLrecvMem c a s
  | .lwid e2m1x d a b => Sys2Proof.Machine.execLwid e2m1x d a b s
  | .ladd rnd sat d a b => Sys2Proof.Machine.execLadd rnd sat d a b s
  | .lqnt e2m1x rnd sat d a b spc => Sys2Proof.Machine.execLqnt e2m1x rnd sat d a b spc s
  | .ldone => Sys2Proof.Machine.execLdone s
  | .srseedWrite v => Sys2Proof.Machine.execSrseedWrite v s
  | .bfmtWrite n v => Sys2Proof.Machine.execBfmtWrite n v s
  | .queueEntryFill q => Sys2Proof.Machine.execQueueEntryFill q s
  | .loadDataReturn k => Sys2Proof.Machine.execLoadDataReturn k s
  | .rendezvousRelease => Sys2Proof.Machine.execRendezvousRelease s
  | .gbarPhaseComplete gs => Sys2Proof.Machine.execGbarPhaseComplete gs s
  | .waitCannotEnd => Sys2Proof.Machine.execWaitCannotEnd s
  | .mapFill entry granule => Sys2Proof.Machine.execMapFill entry granule s
  | .mapWriteback entry => Sys2Proof.Machine.execMapWriteback entry s
  | .memoryAccessPerform p => Sys2Proof.Machine.execMemoryAccessPerform p s
  | .storeAck k => Sys2Proof.Machine.execStoreAck k s
  | .accessTimeout k => Sys2Proof.Machine.execAccessTimeout k s
  | .fenceStatus => Sys2Proof.Machine.execFenceStatus s
  | .scSend k => Sys2Proof.Machine.execScSend k s
  | .scPerform k => Sys2Proof.Machine.execScPerform k s
  | .imageLoad sid => Sys2Proof.Machine.execImageLoad sid s
  | .iterationStart => Sys2Proof.Machine.execIterationStart s
  | .iterationRetire => Sys2Proof.Machine.execIterationRetire s
  | .launchAccept => Sys2Proof.Machine.execLaunchAccept s
  | .groupTableAcquire q => Sys2Proof.Machine.execGroupTableAcquire q s
  | .lotteryDraw core second => Sys2Proof.Machine.execLotteryDraw core second s
  | .taskComplete seq => Sys2Proof.Machine.execTaskComplete seq s
  | .edgeRelease before after => Sys2Proof.Machine.execEdgeRelease before after s
  | .graphNodeTask inst => Sys2Proof.Machine.execGraphNodeTask inst s
  | .graphNodeCond inst => Sys2Proof.Machine.execGraphNodeCond inst s
  | .graphNodeLoop inst => Sys2Proof.Machine.execGraphNodeLoop inst s
  | .graphNodeEnd inst => Sys2Proof.Machine.execGraphNodeEnd inst s
  | .graphInstanceComplete inst => Sys2Proof.Machine.execGraphInstanceComplete inst s
  | .guardedRead inst => Sys2Proof.Machine.execGuardedRead inst s
  | .ringRecord q => Sys2Proof.Machine.execRingRecord q s
  | .cmdAccept e => Sys2Proof.Machine.execCmdAccept e s
  | .cmdReport e => Sys2Proof.Machine.execCmdReport e s
  | .engineFault e => Sys2Proof.Machine.execEngineFault e s
  | .nestActivate => Sys2Proof.Machine.execNestActivate s
  | .runDrain => Sys2Proof.Machine.execRunDrain s
  | .panelFault => Sys2Proof.Machine.execPanelFault s
  | .faultPost => Sys2Proof.Machine.execFaultPost s
  | .answerResume slot => Sys2Proof.Machine.execAnswerResume slot s
  | .answerEnd slot => Sys2Proof.Machine.execAnswerEnd slot s
  | .evict q area => Sys2Proof.Machine.execEvict q area s
  | .iterationRestore area core second => Sys2Proof.Machine.execIterationRestore area core second s
  | .keyRetire => Sys2Proof.Machine.execKeyRetire s
  | .generationRaise => Sys2Proof.Machine.execGenerationRaise s
  | .resumeSwitchTimeout => Sys2Proof.Machine.execResumeSwitchTimeout s
  | .cargoSend port => Sys2Proof.Machine.execCargoSend port s
  | .cargoReceive port arrived => Sys2Proof.Machine.execCargoReceive port arrived s
  | .portDead port => Sys2Proof.Machine.execPortDead port s
  | .fslotAdvance => Sys2Proof.Machine.execFslotAdvance s
  | .flitCreditReturn port => Sys2Proof.Machine.execFlitCreditReturn port s
  | .correctedError r die index => Sys2Proof.Machine.execCorrectedError r die index s
  | .errorWindowEnd => Sys2Proof.Machine.execErrorWindowEnd s
  | .scrub r die index corrected => Sys2Proof.Machine.execScrub r die index corrected s
  | .powerStepDown cluster => Sys2Proof.Machine.execPowerStepDown cluster s
  | .thermalTrip => Sys2Proof.Machine.execThermalTrip s
  | .thermalResume => Sys2Proof.Machine.execThermalResume s
  | .functionReady second bit slot => Sys2Proof.Machine.execFunctionReady second bit slot s
  | .deviceReset flash => Sys2Proof.Machine.execDeviceReset flash s
  | .digestRegister space va => Sys2Proof.Machine.execDigestRegister space va s
  | .digestUnregister n => Sys2Proof.Machine.execDigestUnregister n s
  | .doorbellWrite q size aligned v => Sys2Proof.Machine.execDoorbellWrite q size aligned v s
  | .bar0OtherAccess write off => Sys2Proof.Machine.execBar0OtherAccess write off s
  | .bar2Read off n => Sys2Proof.Machine.execBar2Read off n s
  | .bar2Write off bytes => Sys2Proof.Machine.execBar2Write off bytes s
  | .mailboxReqseqWrite v request => Sys2Proof.Machine.execMailboxReqseqWrite v request s
  | .ping => Sys2Proof.Machine.execPing s
  | .attest => Sys2Proof.Machine.execAttest s
  | .cert => Sys2Proof.Machine.execCert s
  | .load slot frames tables => Sys2Proof.Machine.execLoad slot frames tables s
  | .unload => Sys2Proof.Machine.execUnload s
  | .queue ringVa => Sys2Proof.Machine.execQueue ringVa s
  | .bar2 => Sys2Proof.Machine.execBar2 s
  | .errlog => Sys2Proof.Machine.execErrlog s
  | .debugRead => Sys2Proof.Machine.execDebugRead s
  | .debugWrite => Sys2Proof.Machine.execDebugWrite s
  | .lotseedWrite v => Sys2Proof.Machine.execLotseedWrite v s
  | .errthrWrite v => Sys2Proof.Machine.execErrthrWrite v s
  | .keyset v => Sys2Proof.Machine.execKeyset v s
  | .hotclr core => Sys2Proof.Machine.execHotclr core s
  | .measWrite k v => Sys2Proof.Machine.execMeasWrite k v s
  | .kill v => Sys2Proof.Machine.execKill v s
  | .bump v => Sys2Proof.Machine.execBump v s
  | .qctlWrite q v => Sys2Proof.Machine.execQctlWrite q v s
  | .ringConfigWrite q cfg v => Sys2Proof.Machine.execRingConfigWrite q cfg v s
  | .rootWrite space v => Sys2Proof.Machine.execRootWrite space v s
  | .lrun die v => Sys2Proof.Machine.execLrun die v s
  | .swload die v => Sys2Proof.Machine.execSwload die v s
  | .controlWindowWrite off v => Sys2Proof.Machine.execControlWindowWrite off v s
  | .waitevDeadline sid => Sys2Proof.Machine.execWaitevDeadline sid s
  | .switchTableAnswer die refused => Sys2Proof.Machine.execSwitchTableAnswer die refused s
  | .clusterStepUp cluster => Sys2Proof.Machine.execClusterStepUp cluster s
  | .droopStretch cluster => Sys2Proof.Machine.execDroopStretch cluster s

end Sys2Proof.Machine
end

