-- ==== Sys2Proof/Machine/Issue.lean ====
section
/-! DEFINITION. When a stream issues its next word (R10, R15, R41, R117, R124), and the word it then fetches and runs. -/

namespace Sys2Proof.Machine

/-- Whether the bank in hand issues in this cycle: its core issues from it, its cluster's clock ticks, nothing has stopped it before
this cycle, and under LOCK its counted clock does not stand. -/
def State.bankIssues (s : State) : Bool :=
  s.bank.iter.isSome && s.bank.started && s.bank.evict.isNone && s.core.issuing == s.bankNo && decide (s.core.handed ≤ s.w) && !s.bank.stand
    && (s.clusterAt (clusterOf s.coreNo)).ticked
    && match s.bank.stopped with
      | some c => c == s.bank.cycle
      | none => true

/-- Whether the stream in hand may issue a word in this cycle, but for the bounds and waits of the word. An L stream issues from
fabric slot F0 on (R371). -/
def State.mayIssue (s : State) : Bool :=
  s.st.running && !s.st.exited && !s.st.stopped &&
    match s.sid with
    | .L => s.link.active && decide (s.link.f0 ≤ s.fslot)
    | .A | .X | .N => s.bankIssues

/-- The first cycle that the bounds of R10, R336 and R338 allow for the word in hand. -/
def State.issueBound (s : State) (w : Word) : Nat := max (s.st.bound + idleOf w) s.st.least

/-- Fetch and run the word at the program counter: the decode cases first (R41), then the interlocks, then its meaning. -/
def State.runWord (s : State) (w : Word) : Result :=
  match decode s.sid w with
  | .error e => s.trap (cILLEGAL e.sub) w
  | .ok i =>
    match s.interlock i with
    | some x => .next (s.hold x)
    | none => exec i s

/-- The stream in hand issues its next word if it can. Behind the end of its image it raises subcode 7 (R15), in the first cycle that the word
issued last allows, as there is no word whose IDLE would count (log 79, DESIGN CHOICE); an A stream waits while an index command of its own reads
its indices (R299). -/
def State.attempt (s : State) : Result :=
  if !s.mayIssue then .next s
  else
    match s.code[s.st.pc]? with
    | none => if s.now < max s.st.bound s.st.least then .next s else s.trap (cILLEGAL 7) (BitVec.ofNat 64 s.code.length)
    | some w =>
      if s.now < s.issueBound w then .next s
      else if s.sid = .A ∧ s.readsIndices then .next (s.hold (.ext .engine))
      else s.runWord w

/-! ## The counted clock (R124)

Under LOCK, the clock of a bank stands while a stream of it is held by an external wait, and no stream of the bank then issues. So a wait counts
as external only while something outside the bank can go on towards its end without that clock: an access, a FENCE, a command that has been
pushed, a nest or a launch. A wait for a command that the bank has yet to push, or for an engine that waits for the bank, holds its own stream
alone (log 78, DEDUCED). -/

/-- Whether an agent is a stream of the bank in hand. -/
def State.ofBank (s : State) (a : Agent) : Bool := a.sid != .L && a.core == s.coreNo && a.bank == s.bankNo

/-- Whether an access of the bank in hand is held by the store of an agent outside it, which has been accepted or which its stream has acquired
(R226, R122, R127, R134). -/
def State.heldByOthers (s : State) (x : Access) : Bool :=
  s.flight.any fun y => !s.ofBank y.agent && y.fail.isNone && y.clashes x
    && (y.accepted || (s.streamOf x.agent).acq.any fun a => y.agent.key == a.1 && decide (y.ord < a.2))

/-- Whether some access of the bank in hand, or a key retirement or FENCE of its streams, goes on without its counted clock. -/
def State.lanesMove (s : State) : Bool :=
  let mine := s.ofBank
  s.flight.zipIdx.any (fun p => mine p.1.agent && (p.1.todo.isEmpty || p.1.fail.isSome || s.mayPerform p.2 || s.heldByOthers p.1 ||
      match p.1.sc with
      | some (_, some _) => true
      | some (scope, none) => s.scClear p.2 p.1 scope
      | none => false))
    || s.retires.any (fun r => mine r.agent)
    || bankStreams.any fun k => (s.streamAt k).fences.any fun f => State.fenceDone { s with sid := k } f

/-- Whether an engine goes on without the counted clock and the words of the bank in hand. -/
def State.engineMoves (s : State) (e : Eng) : Bool :=
  let l := s.core.fifo e
  let clear := fun (c : Cmd) => decide (c.from_ ≤ s.bank.cycle - s.bank.slip) && !s.behindConfig c
    && (match c.buffer with
      | some d => !(s.bank.cb.toList.getD d CBuf.zero).full
      | none => true)
    && (s.lanesMove || s.releasedBefore { core := s.coreNo, bank := c.bank, sid := .A } c.rel)
  l.any (fun c => c.stopped || (c.accepted && !c.done))
    || (match l with
      | c :: _ => c.done && (c.bank != s.bankNo || s.replyRoom (if e = .copy then 12 else 13))
      | [] => false)
    || (match l.find? fun c => !c.accepted with
      | some c => c.bank != s.bankNo || clear c
      | none => false)

/-- Whether a command of the bank in hand that satisfies `p` is outstanding in an engine that goes on. -/
def State.commandMoves (s : State) (p : Cmd → Bool) : Bool :=
  [Eng.copy, .index].any fun e => s.engineMoves e && (s.core.fifo e).any fun c => c.bank == s.bankNo && p c

/-- The same of the panel. -/
def State.panelMoves (s : State) : Bool :=
  match s.core.panel.nests with
  | n :: _ => n.bank != s.bankNo || (decide (n.from_ ≤ s.bank.cycle - s.bank.slip)
      && (s.lanesMove || s.releasedBefore { core := s.coreNo, bank := n.bank, sid := .N } n.rel))
  | [] => true

/-- The same of the launch unit. -/
def State.launchMoves (s : State) : Bool :=
  match s.launches with
  | r :: _ => r.core != s.coreNo || r.bank != s.bankNo || s.lanesMove || s.launchReleased r
  | [] => true

/-- Whether event `i` of a WAITEV can come from outside. -/
def State.eventMoves (s : State) (i : Nat) : Bool :=
  if i = 12 then s.commandMoves fun c => rplOf c.instr && engOf c.instr == .copy
  else if i = 13 then s.commandMoves fun c => rplOf c.instr && engOf c.instr == .index
  else if i = 14 then decide (0 < s.bank.nests) && s.panelMoves
  else if i = 15 then decide (0 < s.bank.launches) && s.launchMoves
  else if i < 16 then false
  else if i < 24 then s.commandMoves fun c => barrierOf c.instr == some (i - 16)
  else s.commandMoves fun c => c.buffer == some (i - 24)

/-- The mask and the deadline of the WAITEV that the stream in hand waits in. -/
def State.awaited (s : State) : List Nat × Word :=
  match decode s.sid (s.code.getD s.st.pc 0) with
  | .ok (.waitev _ a b) => let r := s.takes [a, b]; (eventsOf (r.1.getD 0 0), r.1.getD 1 0)
  | _ => ([], 0)

/-- Whether a wait of the stream in hand is external. -/
def State.waitsOutside (s : State) (w : Wait) : Bool :=
  match w with
  | .push _ | .result | .prepared | .start | .join => false
  | .pop q =>
    if q = 12 then !s.bank.q[q].isEmpty || s.engineMoves .copy
    else if q = 13 then !s.bank.q[q].isEmpty || s.engineMoves .index
    else if q = 14 then !s.bank.q[q].isEmpty || s.panelMoves
    else if q = 15 then !s.bank.q[q].isEmpty || s.launchMoves
    else false
  | .gbar _ _ => true
  | .ext e =>
    match e with
    | .data => s.lanesMove
    | .access => s.lanesMove || s.bank.wb.isSome || !s.bank.fills.isEmpty || s.commandMoves (·.accepted)
        || (s.panelMoves && s.core.panel.all.any fun n => n.bank == s.bankNo)
    | .engine => [Eng.copy, .index].any s.engineMoves
    | .buffer n => s.commandMoves fun c => c.buffer == some n.val
    | .config n ord => s.commandMoves fun c => c.buffer == some n.val && decide (c.ord < ord)
    | .barrier n => s.commandMoves fun c => barrierOf c.instr == some n.val
    | .phase n ord _ => s.commandMoves fun c => barrierOf c.instr == some n.val && decide (c.ord < ord)
    | .panel => s.panelMoves
    | .launch => s.launchMoves
    | .event => s.awaited.2 != 0 || s.awaited.1.any s.eventMoves
    | .fifo | .fill | .slot | .cargo | .done => true

/-- Stream `k` of the bank in hand is tried, and what it has begun stays where it is then held from outside; none where it is not. -/
def State.tryHeld (s : State) (k : StreamId) : Option State :=
  let t : State := { s with sid := k }
  if !t.mayIssue then none
  else
    match t.attempt with
    | .next u =>
      (match u.st.wait with
        | some w => if u.waitsOutside w then some { u with sid := s.sid } else none
        | none => none)
    | .fault _ | .refused _ => none

/-- Whether a stream was held from outside in the cycle before. -/
def Stream.held (t : Stream) : Bool :=
  match t.wait with
  | some (.ext _) | some (.gbar _ _) => true
  | some (.pop q) => decide (12 ≤ q.val)
  | some (.push _) | some .result | some .prepared | some .start | some .join | none => false

/-- Try streams in turn; the state that holds what those held from outside have begun, and whether there is one. -/
def State.tryAll (s : State) : List StreamId → State × Bool
  | [] => (s, false)
  | k :: t =>
    match s.tryHeld k with
    | some u => ((State.tryAll u t).1, true)
    | none => State.tryAll s t

/-- Under LOCK, the counted clock of the bank in hand stands in a cycle in which a stream is held from outside: one that still is, or one
whose next word is now. -/
def State.setStand (s : State) : State :=
  let lock := match s.bank.iter with
    | some it => it.lock
    | none => false
  if !lock then s
  else
    let old := s.tryAll (bankStreams.filter fun k => (s.streamAt k).held)
    let r := if old.2 then old else s.tryAll bankStreams
    if r.2 then r.1.setBank fun b => { b with stand := true } else s

end Sys2Proof.Machine
end

