-- ==== Sys2Proof/Machine/Rota.lean ====
section
/-! DEFINITION. The rota: whose turn it is in a cycle of W, which steps of other agents are due, and what the end of a cycle does
(R2, R117, R124, R235, R368, R395; log 2). -/

namespace Sys2Proof.Machine

/-! ## The beginning of a bank's cycle -/

/-- Writes and popped places of earlier cycles take effect. -/
def State.beginVisit (s : State) : State := s.expose.setBank fun b => { b with popped := [], cb := b.cb.map fun c => { c with freed := 0 } }

/-- Queues of the bank in hand that hold an entry which is not filled and carries its value. -/
def State.fillsDue (s : State) : List Instr :=
  ((List.finRange 16).filter fun q => s.bank.q[q].any fun e => e.filled.isNone && e.due.isSome).map Instr.queueEntryFill

/-- The start of the iteration of the bank in hand, or its return from a save area: its streams issue from this cycle on (R118). -/
def State.startDue (s : State) : List Instr :=
  if s.bank.iter.isNone || s.bank.started || !(s.clusterAt (clusterOf s.coreNo)).ticked then []
  else
    match s.bank.restore with
    | some area => [.iterationRestore area s.coreNo (s.bankNo == 1)]
    | none => [.iterationStart]

/-! ## STALL (R207) -/

/-- Whether an access goes to memory outside the core, or behind a granule that is to be filled from there. -/
def Access.distant (x : Access) : Bool :=
  x.far != 0 || x.todo.any fun p => match p.place with
    | some a => decide (a.home < 3) || a.home == 5
    | none => false

/-- The word at which a stream stands. -/
def State.nextWord (s : State) : Option Instr :=
  match decode s.sid (s.code.getD s.st.pc 0) with
  | .ok i => some i
  | .error _ => none

/-- The tags of the commands of the bank in hand that satisfy `p`. -/
def State.cmdTags (s : State) (p : Cmd → Bool) : List Nat := (s.cmds.filter p).map fun c => hotTag c.instr

/-- The tags of the nests of the bank in hand that satisfy `p`. -/
def State.nestTags (s : State) (p : ActiveNest → Bool) : List Nat :=
  (s.core.panel.all.filter fun n => n.bank == s.bankNo && p n).map fun n => n.cfg.tag

/-- What the word of the stream in hand waits for as data: the accesses that fill its registers, those before a FENCE that does, and the commands
that an ECANCEL waits for; EXIT waits for every access of its stream. -/
def State.dataTags (s : State) : List Nat :=
  let mine := s.flight.filter fun x => x.agent == s.agent
  match s.nextWord with
  | none => []
  | some i =>
    let regs := s.names i
    let fills := fun (d : Opnd) => regs.any fun r => scalars [d] == [r]
    let fenced := fun (x : Access) => s.st.fences.any fun f => fills f.dst && decide (x.ord < f.ord) && f.mask.getLsbD x.cls
    let loads := mine.filter fun x => regs.any fun r => x.dest.reg == some r || x.req.regs.contains r
    (if (loads ++ (if i = .exit then mine else mine.filter fenced)).any Access.distant then [0] else [])
      ++ (s.retires.filter fun r => r.agent == s.agent && fills r.dst).flatMap fun r => match r.what with
        | .cancel x _ => (s.named x Cmd.accepted).map fun c => hotTag c.instr
        | .key _ | .gen _ => []

/-- What it waits for as an access: those of its own and of the bank in hand, and at RMAP and RUNMAP what uses the map entry. -/
def State.accessTags (s : State) : List Nat :=
  let entry := match s.nextWord with
    | some (.rmap _ _ _ _ e _) | some (.runmap e) => some e.val
    | _ => none
  (if s.flight.any fun x => x.agent.core == s.coreNo && x.agent.bank == s.bankNo && x.agent.sid != .L && x.distant then [0] else [])
    ++ match entry with
      | some e => s.cmdTags (fun c => c.accepted && c.maps.contains e) ++ s.nestTags fun n => n.maps.contains e
      | none => []

/-- The tags of what fills reply queue `q`. -/
def State.replyTags (s : State) (q : Nat) : List Nat :=
  if q = 12 ∨ q = 13 then s.cmdTags fun c => rplOf c.instr && engOf c.instr == (if q = 12 then .copy else .index)
  else if q = 14 then s.nestTags fun n => n.cfg.rpl else []

/-- The tags of what can bring event `i` of a WAITEV. -/
def State.eventTags (s : State) (i : Nat) : List Nat :=
  if i < 16 then s.replyTags i
  else if i < 24 then s.cmdTags fun c => barrierOf c.instr == some (i - 16)
  else s.cmdTags fun c => c.buffer == some (i - 24)

/-- The tags of the distant operations that the stream in hand waits for: scalar and vector accesses carry tag 0 (log 25, DEDUCED). -/
def State.stallTags (s : State) : List Nat :=
  match s.st.wait with
  | some (.pop q) => s.replyTags q.val
  | some (.ext e) =>
    (match e with
      | .data => s.dataTags
      | .access => s.accessTags
      | .fill => [0]
      | .buffer n => s.cmdTags fun c => c.buffer == some n.val
      | .barrier n => s.cmdTags fun c => barrierOf c.instr == some n.val
      | .phase n ord _ => s.cmdTags fun c => barrierOf c.instr == some n.val && decide (c.ord < ord)
      | .config n ord => s.cmdTags fun c => c.buffer == some n.val && decide (c.ord < ord)
      | .engine => s.cmdTags fun _ => true
      | .panel => s.nestTags fun _ => true
      | .event => s.awaited.1.flatMap s.eventTags
      | .fifo | .launch | .slot | .cargo | .done => [])
  | some (.push _) | some .result | some .prepared | some .start | some .join | some (.gbar _ _) | none => []

/-- The tags of the operations that an engine of the core in hand waits for: that of the command which another one waits for, or of one whose
own access has not gone out in the cycle before. -/
def State.engineTags (s : State) (e : Eng) : List Nat :=
  (s.running e).flatMap fun c =>
    if s.cmdHeld e c then ((s.core.fifo e).filter fun k => c.after.contains k.ord && !k.done).map fun k => hotTag k.instr
    else if c.since + 1 < s.w then [hotTag c.instr] else []

/-- The tags of the nests whose feed or drain waits. -/
def State.pipeTags (s : State) : List Nat :=
  let p := s.core.panel
  if p.feedWait = 0 ∧ p.drainWait = 0 then [] else p.nests.map fun n => n.cfg.tag

/-- Count the cycle for the tags that a stream, an engine or the panel of the core in hand waits for; its last bank that holds an iteration
brings it. -/
def State.countStall (s : State) : State :=
  if (s.bankNo = 0 ∧ s.core.other.iter.isSome) ∨ (s.clusterAt (clusterOf s.coreNo)).ticked = false then s
  else
    let streams := fun (t : State) => bankStreams.flatMap fun k => State.stallTags { t with sid := k }
    let tags := streams s ++ streams s.swapBank ++ s.engineTags .copy ++ s.engineTags .index ++ s.pipeTags
    tags.eraseDups.foldl (fun (t : State) tag => t.addHot (2 * tag + 1) 1) s

/-! ## Stopped banks (R339) -/

/-- Whether every word that the bank in hand has issued has completed: its loads, FENCEs and key retirements. -/
def State.wordsDone (s : State) : Bool :=
  s.flight.all (fun x => !s.mine x.agent || !x.returns) && s.retires.all (fun r => !s.mine r.agent)
    && bankStreams.all fun k => (s.streamAt k).fences.isEmpty

/-- Fill the reserved entries of queue `i` of the bank in hand that carry their value; they are ready in the cycle in which they would have
been. Where the consumer has exited, they are discarded, and STRAY is set (R128). -/
def State.fillReserved (s : State) (i : Fin 16) : State :=
  let l := s.bank.q[i]
  let due := fun (e : QEntry) => e.filled.isNone && e.due.isSome
  if i.val < 12 ∧ (s.streamAt (qConsumer i)).exited then
    s.setBank fun b => { b with q := b.q.set i (l.filter fun e => !due e), stray := b.stray || l.any due }
  else s.setBank fun b => { b with q := b.q.set i (l.map fun e => if due e then { e with filled := e.due.map fun d => max d (s.qNow i) } else e) }

/-- Post the record of stream `k` of the bank in hand. -/
def State.postRecord (s : State) (k : StreamId) : State :=
  let t : State := { s with sid := k }
  match t.st.record with
  | some r => { (t.setSt { t.st with record := none }).post r with sid := s.sid }
  | none => s

/-- Steps 2 and 3 of R339: once what the bank in hand has issued has completed, its reserved entries are filled, and its streams that have
trapped post their records in the order A, X, N. -/
def State.settleTraps (s : State) : State :=
  if bankStreams.any (fun k => (s.streamAt k).record.isSome) && s.wordsDone then
    bankStreams.foldl State.postRecord ((List.finRange 16).foldl State.fillReserved s)
  else s

/-! ## What is due in the core in hand -/

/-- Group slots in which a stream of the bank in hand waits. -/
def State.barsDue (s : State) : List Instr :=
  ((List.finRange 4).filter fun g => bankStreams.any fun k => (s.streamAt k).atBar g).map Instr.gbarPhaseComplete

/-- Steps of the bank in hand. -/
def State.bankDue (s : State) : List Instr :=
  let b := s.bank
  match b.iter with
  | none => []
  | some _ =>
    (if s.allMeet then [.rendezvousRelease] else []) ++ s.barsDue
      ++ (b.fills.filterMap fun f => if f.fault.isNone then some (.mapFill (Fin.ofNat 16 f.entry) f.granule) else none)
      ++ (match b.wb with
          | some w => (w.left.take 1).map Instr.mapWriteback
          | none => [])
      ++ (match b.evict with
          | some (q, area) => [.evict (Fin.ofNat 64 q) area]
          | none => [])
      ++ (if s.bankDone then [.iterationRetire] else [])
      ++ (if allStreams.any fun k => !(s.streamAt k).fences.isEmpty then [.fenceStatus] else [])
      ++ [.waitCannotEnd]

/-- Steps of an engine of the core in hand. -/
def State.engineDue (s : State) (e : Eng) : List Instr :=
  let l := s.core.fifo e
  (if l.any fun c => !c.accepted then [.cmdAccept e] else [])
    ++ (if l.any fun c => c.accepted && !c.done then [.memoryAccessPerform (.engine e 1), .engineFault e] else [])
    ++ (match l with
        | c :: _ => if c.accepted && c.done then [.cmdReport e] else []
        | [] => [])

/-- Steps of the panel of the core in hand. -/
def State.panelDue (s : State) : List Instr :=
  let p := s.core.panel
  let bad := fun (r : Except (Cause × Nat) State) => match r with
    | .error x => x.1 != cWAITS
    | .ok _ => false
  if p.all.isEmpty then []
  else
    (if p.pending.isSome then [.nestActivate] else [])
      ++ (if bad (s.panelNext false) || bad (s.panelNext true) then [.panelFault] else [])
      ++ [.memoryAccessPerform (.feed 1), .runDrain, .memoryAccessPerform (.drain 1)]

/-- Whether a bank of the core in hand is ready again and waits for its turn. -/
def State.turnWaits (s : State) : Bool := s.bank.resumed.isSome || s.core.other.resumed.isSome

/-- Steps of the core in hand; its last bank that holds an iteration brings them. -/
def State.coreDue (s : State) : List Instr :=
  if s.bankNo = 0 ∧ s.core.other.iter.isSome then []
  else
    s.engineDue .copy ++ s.engineDue .index ++ s.panelDue
      ++ ((s.core.images.filter fun i => decide (i.words.length < i.len) && !i.stopped).map fun i => Instr.imageLoad i.sid)
      ++ if s.turnWaits then [.resumeSwitchTimeout] else []

/-- The engines and the panel of the core in hand of which an access has waited for 2^24 cycles. -/
def State.lateCore (s : State) : List Instr :=
  let late := fun (e : Eng) => (s.running e).any fun c => decide (c.since + patience ≤ s.w)
  let pipe := fun (x : Nat) => x != 0 && decide (x + patience ≤ s.w + 1)
  let n := s.flight.length
  (if late .copy then [.accessTimeout n] else []) ++ (if late .index then [.accessTimeout (n + 1)] else [])
    ++ if pipe s.core.panel.feedWait || pipe s.core.panel.drainWait then [.accessTimeout (n + 2)] else []

/-- Steps of the bank and the core in hand, in a cycle of its cluster. -/
def State.visitDue (s : State) : List Instr :=
  if (s.clusterAt (clusterOf s.coreNo)).ticked then s.lateCore ++ s.bankDue ++ s.coreDue else []

/-! ## What is due in the device -/

/-- The next step of the access at place `k`. -/
def laneDue (x : Access) (k : Nat) : List Instr :=
  match x.sc with
  | some (_, none) => [.scSend k]
  | some (_, some _) => if x.todo.isEmpty then [] else [.scPerform k]
  | none => if x.todo.isEmpty then [] else [.memoryAccessPerform (.lane k)]

/-- The return of the access at place `k`: data, or an acknowledgement. -/
def returnDue (x : Access) (k : Nat) : Instr := if x.returns then .loadDataReturn k else .storeAck k

/-- The accesses that have waited for 2^24 cycles (R230, R232). -/
def State.lateLanes (s : State) : List Instr :=
  (s.flight.zipIdx.filterMap fun p =>
    if p.1.fail.isNone && !p.1.performed && decide (p.1.at_ + patience ≤ s.w) then some (.accessTimeout p.2) else none)
    ++ (upFrom 0 4).filterMap fun d =>
      let l := s.linkAt d
      if l.st.wait == some (.ext .done) && decide (l.doneSince + patience ≤ s.w) then some (.accessTimeout (s.flight.length + 3 + d)) else none

/-- Steps of the lanes: performances oldest first, then returns from the youngest on, so that places stay as they are. -/
def State.lanesDue (s : State) : List Instr :=
  let l := s.flight.zipIdx
  (l.flatMap fun p => laneDue p.1 p.2) ++ l.reverse.map fun p => returnDue p.1 p.2

/-- Every free bank draws, in ascending core number, where one of them has a queue to draw for (R175). -/
def State.drawDue (s : State) : List Instr :=
  let qs := (upFrom 0 64).filter fun q => (s.headTask q).isSome
  if qs.isEmpty then []
  else
    let free := (upFrom 0 (2 * coreTotal)).filter fun m => (s.bankAt (m / 2) (m % 2)).iter.isNone && !(s.coreAt (m / 2)).1.mappedOut
    if free.any fun m => (s.bankAt (m / 2) (m % 2)).heir.isSome || (s.gangTaker (m / 2) (m % 2)).isSome || qs.any fun q => s.queueReady none q (m / 2) (m % 2) then
      free.map fun m => .lotteryDraw (m / 2) (m % 2 == 1)
    else []

/-- Steps for a graph instance. -/
def State.graphDue (s : State) (g : GraphInst) : Instr :=
  if g.ended then .graphInstanceComplete g.id
  else if g.reading.isSome then .guardedRead g.id
  else
    match s.nodeOf g with
    | .ok (n, _) =>
      if n.kind = 1 then .graphNodeTask g.id else if n.kind = 2 then .graphNodeCond g.id else if n.kind = 3 then .graphNodeLoop g.id
      else .graphNodeEnd g.id
    | .error _ => .graphNodeEnd g.id

/-- Steps of the launch unit and the jig. -/
def State.jobsDue (s : State) : List Instr :=
  let qs := (List.finRange 64)
  (s.queues.filterMap fun q => if q.2.waiting && !q.2.stopped then some (.ringRecord (Fin.ofNat 64 q.1)) else none)
    ++ (if s.launches.isEmpty then [] else [.launchAccept])
    ++ (qs.filterMap fun q => match s.headTask q.val with
        | some t => if !t.held && !t.groups.isEmpty then some (.groupTableAcquire q) else none
        | none => none)
    ++ s.drawDue
    ++ (s.tasks.filterMap fun t => if t.complete || t.guarded then none else some (.taskComplete t.seq))
    ++ (s.tasks.flatMap fun t => t.edges.map fun e => .edgeRelease e t.seq)
    ++ (if s.replies.isEmpty && !s.tasks.any (·.complete) then [] else [.taskComplete 0])
    ++ s.graphs.map s.graphDue

/-- The step that handles the request in hand; those of LOAD and QUEUE are the runtime's, with its choices. -/
def State.requestDue (s : State) : List Instr :=
  match s.request with
  | none => []
  | some (cmd, _, p) =>
    if cmd = 2 then [.attest] else if cmd = 3 then [.cert] else if cmd = 5 then [.unload] else if cmd = 7 then [.bar2]
    else if cmd = 8 then [.errlog] else if cmd = 9 then (if numAt p 0 1 = 2 then [.debugWrite] else [.debugRead])
    else if cmd = 4 ∨ cmd = 6 then [] else [.ping]

/-- Steps of the device outside the cores. -/
def State.deviceDue (s : State) : List Instr :=
  s.lateLanes ++ s.lanesDue ++ s.jobsDue
    ++ (if s.redos.isEmpty then [] else [.memoryAccessPerform .redo])
    ++ (if s.retires.isEmpty && s.bureau.kill.busy.isNone && s.bureau.bump.busy.isNone then [] else [.keyRetire, .generationRaise])
    ++ (s.ports.filterMap fun p => if p.2.credits < 32 then some (.flitCreditReturn (Fin.ofNat 64 p.1)) else none)
    ++ (if s.bureau.posts.isEmpty then [] else [.faultPost])
    ++ s.requestDue

/-! ## The end of a cycle -/

/-- Ports of the dies whose link engine runs. -/
def State.linkPorts (s : State) : List Nat := (upFrom 0 64).filter fun p => (s.linkAt (p / 16)).active

/-- Steps at the end of a fabric slot of 48 cycles (R368): where no input has brought the cargo that is due, none has arrived (log 60, DESIGN CHOICE). -/
def State.fabricDue (s : State) : List Instr :=
  if s.fphase < 48 then []
  else
    (s.linkPorts.map fun p => .cargoReceive (Fin.ofNat 64 p) none)
      ++ ((upFrom 0 64).filter fun p => (s.linkAt (p / 16)).queued.any fun c => c.port == p).map (fun p => .cargoSend (Fin.ofNat 64 p))
      ++ [.fslotAdvance]

/-- The inputs of this cycle, and those still to come. -/
def takeInputs : List (Nat × Instr) → List Instr × List (Nat × Instr)
  | [] => ([], [])
  | (0, i) :: t => let r := takeInputs t; (i :: r.1, r.2)
  | (n + 1, i) :: t => ([], (n, i) :: t)

/-- The clock of a cluster: at step n of 100 MHz it ticks in n of 15 cycles of W (R395) (log 61, DESIGN CHOICE). -/
def Cluster.tick (c : Cluster) : Cluster :=
  let acc := c.acc + c.step
  if c.stopped then { c with ticked := false }
  else if acc < 15 then { c with acc := acc, ticked := false }
  else if c.stretch then { c with acc := acc - 15, ticked := false, stretch := false }
  else { c with acc := acc - 15, ticked := true }

/-- Whether the counted clock of a bank stood in the cycle that ends. -/
def Bank.stood (b : Bank) (issues : Bool) : Bool :=
  b.stand || !issues || b.evict.isSome || match b.stopped with
    | some c => decide (c < b.cycle)
    | none => false

/-- One cycle of a bank that has started: CYCLE, and under LOCK SLIP. -/
def Bank.tick (b : Bank) (issues : Bool) : Bank :=
  match b.iter with
  | none => b
  | some it =>
    if b.started then { b with cycle := b.cycle + 1, slip := b.slip + (if it.lock && b.stood issues then 1 else 0), stand := false } else b

/-- One cycle of a core with its two banks, and the switch of R117 and R339 (log 62, DEDUCED). -/
def tickCore (n w : Nat) (ticked : Bool) (c : CoreRec) (b0 b1 : Bank) : CoreRec × Bank × Bank :=
  if !ticked then (c, b0, b1)
  else
    let x := b0.tick (c.issuing == 0 && decide (c.handed ≤ w))
    let y := b1.tick (c.issuing == 1 && decide (c.handed ≤ w))
    let cur := if c.issuing = 0 then x else y
    let oth := if c.issuing = 0 then y else x
    let can := n < coreTotal && oth.started && oth.stopped.isNone && oth.iter.isSome
    if cur.stopped.isSome && can then
      if c.issuing = 0 then ({ c with issuing := 1 }, x, { y with resumed := none }) else ({ c with issuing := 0 }, { x with resumed := none }, y)
    else (c, x, y)

/-- Whether the cluster of a core ticked in the cycle that ends. -/
def State.coreTicked (s : State) (n : Nat) : Bool := (s.clusterAt (clusterOf n)).ticked

/-- One cycle of every core. -/
def State.tickCores (s : State) : State :=
  let t := s.focusBank 0
  let r := tickCore t.coreNo t.w (t.coreTicked t.coreNo) t.core t.bank t.core.other
  { t with
    core := { r.1 with other := r.2.2 }, bank := r.2.1
    cores := t.cores.map fun c =>
      let q := tickCore c.1 t.w (t.coreTicked c.1) c.2.1 c.2.2 c.2.1.other
      (c.1, { q.1 with other := q.2.2 }, q.2.1) }

/-- One cycle of a link engine, whose run starts at fabric slot F0 (R371). -/
def Link.tick (fslot : Nat) (l : Link) : Link := if l.active && decide (l.f0 ≤ fslot) then { l with cycle := l.cycle + 1 } else l

/-- Take the first bank that holds an iteration in hand. -/
def State.firstBank (s : State) : State :=
  match s.banks with
  | m :: _ => s.focus m.1 m.2
  | [] => s

/-- The end of a cycle of W, and what is due at the beginning of the next one. -/
def State.endCycle (s : State) : State :=
  let t := s.tickCores
  let i := takeInputs t.inputs
  let u : State := { t with w := t.w + 1, fphase := t.fphase + 1, clusters := t.clusters.map fun c => (c.1, c.2.tick)
                            link := t.link.tick t.fslot, links := t.links.map fun l => (l.1, l.2.tick t.fslot), inputs := i.2, turn := 0, hostWait := [] }
  State.firstBank { u with agenda := s.hostWait ++ i.1 ++ u.fabricDue ++ if u.w % 2 ^ 32 = 0 then [.errorWindowEnd] else [] }

/-! ## The turns -/

/-- The bank that follows the one in hand. -/
def State.nextBank (s : State) : Option (Nat × Nat) :=
  s.banks.find? fun m => decide (s.coreNo < m.1) || (s.coreNo == m.1 && decide (s.bankNo < m.2))

/-- The stream whose turn it is. -/
def turnStream : Nat → Option StreamId
  | 2 => some .A
  | 3 => some .X
  | 4 => some .N
  | 7 => some .L
  | _ => none

/-- The turns without a stream: 0 and 1 begin the cycle of the bank in hand, 5 and 6 end it, 8 ends that of the die in hand, and 9 ends
the cycle. -/
def State.turnStep (s : State) : State :=
  if s.turn = 0 then let t := s.beginVisit; { t with agenda := t.fillsDue ++ t.startDue, turn := 1 }
  else if s.turn = 1 then { s.setStand with turn := 2 }
  else if s.turn = 5 then let t := s.countStall.settleTraps; { t with agenda := t.visitDue, turn := 6 }
  else if s.turn = 6 then
    match s.nextBank with
    | some m => { s.focus m.1 m.2 with turn := 0 }
    | none => { s.focusDie 0 with turn := 7 }
  else if s.turn = 8 then
    if s.dieNo < 3 then { s.focusDie (s.dieNo + 1) with turn := 7 } else { s with agenda := s.deviceDue, turn := 9 }
  else s.endCycle

/-- The next turn. -/
def State.rota (s : State) : Result :=
  match turnStream s.turn with
  | some k => State.attempt { s with sid := k, turn := s.turn + 1 }
  | none => .next s.turnStep

/-! ## Placing a word -/

/-- The stream that a word is placed for: the first of A, X, N and L that may issue it. -/
def placeFor (w : Word) : StreamId :=
  match decode .A w, decode .X w, decode .N w, decode .L w with
  | .ok _, _, _, _ => .A
  | _, .ok _, _, _ => .X
  | _, _, .ok _, _ => .N
  | _, _, _, .ok _ => .L
  | _, _, _, _ => .A

/-- Words with `w` at index `n`, filled up with NOP. -/
def setWord (l : List Word) (n : Nat) (w : Word) : List Word := (l ++ List.replicate (n + 1 - l.length) 0).set n w

/-- The stream in hand with nothing that holds its next word. -/
def State.freeStream (s : State) : State :=
  s.setSt { s.st with running := true, exited := false, stopped := false, bound := 0, least := 0, busy := [], wait := none }

/-- An iteration for a bank that holds none. -/
def Iter.zero : Iter := { task := 0, ord := 0, idx := [0, 0, 0, 0, 0, 0], space := 0, lock := false, regchk := false, banks2 := false }

/-- A word placed at the program counter of its stream, in the bank or die in hand, with the bank issuing and the stream's turn next
(log 3, DESIGN CHOICE). -/
def State.placeWord (s : State) (nbits w : Nat) : State :=
  let v : Word := BitVec.ofNat 64 (w % 2 ^ nbits)
  let k := placeFor v
  let t := State.freeStream { s with sid := k, agenda := [] }
  match k with
  | .L =>
    { t with turn := 7
             link := { t.link with active := true, f0 := min t.link.f0 t.fslot, cycle := max t.link.cycle (idleOf v)
                                   code := setWord t.link.code t.st.pc v } }
  | .A | .X | .N =>
    let i : Image := { sid := k, tag := t.st.tag, va := 0, space := 0, words := setWord t.code t.st.pc v
                       len := (setWord t.code t.st.pc v).length, use := 0, stopped := false }
    let c := clusterOf t.coreNo
    { t with turn := if k = .A then 2 else if k = .X then 3 else 4
             bank := { t.bank with iter := some (t.bank.iter.getD Iter.zero), started := true, stand := false, stopped := none, evict := none
                                   cycle := max t.bank.cycle (t.bank.slip + idleOf v) }
             core := { t.core with issuing := t.bankNo, handed := 0
                                   images := i :: t.core.images.filter fun x => !(x.sid == k && x.tag == t.st.tag) }
             clusters := if (t.clusterAt c).ticked then t.clusters else Tbl.put t.clusters c { t.clusterAt c with ticked := true } }

end Sys2Proof.Machine
end

