-- ==== Sys2Proof/Machine/Step.lean ====
section
/-! DEFINITION. The step of the machine, and the placing of a word where the next step fetches it. -/

namespace Sys2Proof.Machine

/-- One step: the next step of another agent that is due, or the next turn of the rota. -/
def step (s : State) : Host.Outcome State Fault Refusal :=
  match s.agenda with
  | i :: t => exec i { s with agenda := t }
  | [] => s.rota

/-- `s` with a word placed where the very next step fetches it: see `State.placeWord`. -/
def State.withFetchWord (s : State) (nbits w : Nat) : State := s.placeWord nbits w

end Sys2Proof.Machine
end

