-- ==== Sys2Proof/Safety.lean ====
section
/-! DEFINITION. What a safe run is, the invariant of the machine, and the terms in which the statements say what a word
reads, writes and leaves as it was. -/

namespace Sys2Proof.Machine

/-! ## Runs -/

/-- A run is safe when no step of it stops. -/
def Safe (s : State) : Prop := ∀ n, ∃ t, Host.Core.run Sys2Proof.core n s = .next t

/-- The invariant: memory has its canonical form, so that equal memories are equal data. -/
def State.Inv (s : State) : Prop := s.mem.wf = true

/-! ## What a word reads (R6, R12, R120) -/

/-- The value of a source behind the sources `seen` of the same word: a register, s0 being 0, or the oldest entry of the queue
that no source before it takes, 0 for a token. -/
def State.source (s : State) (seen : List Opnd) : Opnd → Word
  | .s n => if n = 0 then 0 else s.st.s[n]
  | .q q =>
    match s.bank.q[q].drop (seen.count (.q q)) with
    | e :: _ => if e.token then 0 else e.value
    | [] => 0

/-! ## What a word leaves as it was -/

/-- A stream with the parts erased that a word may change without being a control word: its scalar registers, its loop counts,
its place in the code, what it waits for, what it has acquired, and the popped entries that it keeps for a word that may still trap. -/
def Stream.quiet (t : Stream) : Stream :=
  { t with s := Vector.replicate 32 0, l := Vector.replicate 4 Loop.zero, pc := 0, last := 0, bound := 0, least := 0, wait := none
           busy := [], acq := [], pops := [] }

/-- The state with those parts of the stream in hand erased, and with the queues of the bank in hand. -/
def State.quiet (s : State) : State :=
  State.setSt { s with bank := { s.bank with q := Vector.replicate 16 [], popped := [] } } s.st.quiet

/-- Between `s` and `t` nothing has changed but the queues of the bank in hand and, of the stream in hand, its scalar
registers, its loop counts, its place in the code and what it waits for: no steer register, no control or trap register, no
vector or mask register, no map, buffer or panel register, no byte of memory, no access in flight, no other stream, bank or core. -/
def State.Quiet (s t : State) : Prop := t.quiet = s.quiet

/-- A loop register holds an active loop whose END is word `e`. -/
def Loop.EndsAt (l : Loop) (e : Nat) : Prop := l.count ≠ 0 ∧ l.stop.toNat = e

/-- The active loop that ends at word `e` has a further pass. -/
def Loop.RepeatsAt (l : Loop) (e : Nat) : Prop := l.EndsAt e ∧ 1 < l.count.toNat

/-- `u` is where the stream `t` goes on behind its word and its loops (R17). They are taken most recently set first: the first one that repeats
gives the next word, after those before it have ended; where none repeats, all that end here have ended and the next word follows.
Every other loop is as it was; where no loop ends at the word, all are, and the next word follows. -/
structure Stream.LoopsTaken (t u : Stream) : Prop where
  again : ∀ before n behind, t.order = before ++ n :: behind → (∀ m ∈ before, ¬ t.l[m].RepeatsAt t.pc) → t.l[n].RepeatsAt t.pc →
    u.pc = t.l[n].start.toNat ∧ u.l[n] = { t.l[n] with count := t.l[n].count - 1 } ∧
      (∀ m ∈ before, t.l[m].EndsAt t.pc → u.l[m] = { t.l[m] with count := 0 }) ∧ ∀ m, m ≠ n → ¬ (m ∈ before ∧ t.l[m].EndsAt t.pc) → u.l[m] = t.l[m]
  done : (∀ m ∈ t.order, ¬ t.l[m].RepeatsAt t.pc) →
    u.pc = t.pc + 1 ∧ (∀ m ∈ t.order, t.l[m].EndsAt t.pc → u.l[m] = { t.l[m] with count := 0 }) ∧
      ∀ m, ¬ (m ∈ t.order ∧ t.l[m].EndsAt t.pc) → u.l[m] = t.l[m]

/-- The word at the program counter has issued: it stands as the last word issued, the next one issues in the next cycle at the
earliest, the stream waits for nothing, and it goes on behind its word and the loops that end there (R17). -/
structure State.Issued (s t : State) : Prop where
  last : t.st.last = s.st.pc
  bound : t.st.bound = s.now + 1
  wait : t.st.wait = none
  next : s.st.LoopsTaken t.st

/-- A word with sources `srcs` has issued and written `v` to `dst`, readable `lat` cycles later, and changed nothing else: every
other register is as it was (s0 too, where it is the destination), each queue has lost the entries that the sources
popped, and the queue that is the destination has one entry more, which fills after `lat` cycles and not before the own writes
of the stream are readable. -/
structure State.Wrote (s t : State) (srcs : List Opnd) (dst : Option Opnd) (v : Word) (lat : Nat) : Prop where
  quiet : s.Quiet t
  issued : s.Issued t
  regs : ∀ n : Fin 32, t.reg n = if n ≠ 0 ∧ dst = some (.s n) then v else s.reg n
  late : ∀ n : Fin 32, dst = some (.s n) → 1 < lat → (RegId.s n, s.now + lat) ∈ t.st.busy
  queues : ∀ q : Fin 16, t.bank.q[q] = s.bank.q[q].drop (srcs.count (.q q)) ++
    (if dst = some (.q q) then [s.entry (qValue q v) false (some (max (s.now + lat) s.ownReady)) 0] else [])
  memory : ∀ a, t.mem.read a = s.mem.read a

/-- A word with sources `srcs` has issued and changed nothing but the queues that it popped and the stream's place in the code. -/
def State.Read (s t : State) (srcs : List Opnd) : Prop := s.Wrote t srcs none 0 0

/-- The truth of a condition code (R50). -/
def condMeans (cc : Cond) (x y : Word) : Prop :=
  match cc with
  | .eq => x = y
  | .ne => x ≠ y
  | .lt => x.toInt < y.toInt
  | .ge => y.toInt ≤ x.toInt
  | .ltu => x.toNat < y.toNat
  | .geu => y.toNat ≤ x.toNat
  | .gt => y.toInt < x.toInt
  | .le => x.toInt ≤ y.toInt
  | .gtu => y.toNat < x.toNat
  | .leu => x.toNat ≤ y.toNat
  | .tst => x &&& y ≠ 0
  | .ntst => x &&& y = 0

/-- `u` with the condition half of steer register `k` written: SET 1 and VALUE `t`, the target as it was (R13). -/
def State.withCond (u : State) (k : Fin 12) (t : Bool) : State :=
  u.setSt { u.st with k := u.st.k.set k { u.st.k[k] with set := true, value := t } }

/-! ## Taking a trap (R22, R336, R339, R342) -/

/-- The stream in hand takes a cause into its handler: HVEC is on and no handler runs, and it is no L stream. -/
def State.HasHandler (s : State) : Prop := s.sid ≠ .L ∧ s.st.hvecEn = true ∧ s.st.active = false

/-- The trap at word `epc` entered the handler: CAUSE, EPC and TVAL are written, ACTIVE is 1, the stream goes on at TARGET, 3 cycles
later at the earliest, and nothing else has changed. -/
def State.Entered (s t : State) (code sub epc : Nat) (v : Word) : Prop :=
  t = s.setSt { s.st with
    cause := BitVec.ofNat 64 (code + 256 * sub), epc := BitVec.ofNat 64 epc, tval := v, active := true
    pc := s.st.hvecTarget.toNat, last := epc, bound := s.now + 1, least := s.now + 3, wait := none }

/-- The trap at word `epc` went to the Bureau: CAUSE, EPC and TVAL are written, the stream has stopped, and with it its bank from the next
cycle on; one record is handed over, which waits in the stream until what the bank has issued has completed (R339), and is posted at once for an
L stream. After BRK and TRAPI the word has issued, and the next one counts its IDLE from this cycle (R10). Nothing else has changed. -/
def State.Stopped (s t : State) (code sub epc : Nat) (v : Word) : Prop :=
  ∃ r : Record,
    r.info.toNat % 2 ^ 16 = code + 256 * sub ∧ r.info.toNat / 2 ^ 16 % 2 ^ 4 = agentCode s.sid ∧
    r.info.toNat / 2 ^ 20 % 2 ^ 9 = s.agent.core % 2 ^ 9 ∧ r.info.toNat / 2 ^ 29 % 2 = s.agent.bank % 2 ∧
    r.info.toNat / 2 ^ 31 % 2 ^ 6 = s.space % 2 ^ 6 ∧
    r.va = v ∧ r.word = s.code.getD epc 0 ∧ r.pos = BitVec.ofNat 64 epc ∧ r.who = .stream s.agent ∧
    let u := s.setSt { s.st with
      cause := BitVec.ofNat 64 (code + 256 * sub), epc := BitVec.ofNat 64 epc, tval := v, last := epc, wait := none, stopped := true
      bound := if code = 4 ∨ code = 5 then s.now + 1 else s.st.bound
      record := if s.sid = .L then s.st.record else some r }
    t = { u with
      bank := if s.sid = .L then u.bank else { u.bank with stopped := some (s.bank.stopped.getD s.bank.cycle) }
      bureau := if s.sid = .L then { u.bureau with posts := u.bureau.posts ++ [r] } else u.bureau }

/-! ## Accesses -/

/-- The state in which the sources `l` of a word have been read, in their order (R12). -/
def State.after (s : State) : List Opnd → State
  | [] => s
  | o :: t => State.after (s.take o).2 t

/-- A word has issued and sent the access `x` into its lane: what its sources named has been popped, a destination queue has an entry
reserved under the ticket of the access, no register is written yet, no byte of memory has changed, and but for a cached
translation nothing else has changed. -/
structure State.Sent (s t : State) (srcs dsts : List Opnd) (x : Access) : Prop where
  flight : t.flight = s.flight ++ [x]
  count : t.issued = s.issued + 1
  quiet : s.Quiet { t with flight := s.flight, issued := s.issued, tlb := s.tlb }
  issued : s.Issued t
  regs : t.st.s = s.st.s
  queues : ∀ q : Fin 16, t.bank.q[q] = s.bank.q[q].drop (srcs.count (.q q)) ++
    List.replicate (dsts.count (.q q)) (s.entry 0 false none s.issued)
  memory : ∀ a, t.mem.read a = s.mem.read a
  agent : x.agent = s.agent
  ord : x.ord = s.issued
  epc : x.epc = s.st.pc
  fresh : x.fail = none

/-- A word has issued whose result comes later: the destination waits under the ticket `s.issued`, and nothing else has changed. -/
structure State.Awaits (s t : State) (srcs : List Opnd) (dst : Opnd) : Prop where
  count : t.issued = s.issued + 1
  quiet : s.Quiet { t with issued := s.issued }
  issued : s.Issued t
  regs : t.st.s = s.st.s
  queues : ∀ q : Fin 16, t.bank.q[q] = s.bank.q[q].drop (srcs.count (.q q)) ++
    (if dst = .q q then [s.entry 0 false none s.issued] else [])
  memory : ∀ a, t.mem.read a = s.mem.read a

/-- The value of `n` bytes, the first one lowest, as an LD of that size gives it (R58). -/
def loadValue (n : Nat) (sgn : Bool) (bytes : List Byte) : Word :=
  if sgn then (BitVec.ofNat (8 * n) (leNat bytes)).signExtend 64 else (BitVec.ofNat (8 * n) (leNat bytes)).setWidth 64

/-! ## Vector words -/

/-- The gate of a word in the class of gated words (R160). -/
def instrGate (i : Instr) : Gate :=
  match i with
  | .vadd g _ _ _ _ _ _ _ | .vsub g _ _ _ _ _ _ _ | .vmul g _ _ _ _ _ _ _ | .vscl g _ _ _ _ _ _ _ | .vred g _ _ _ _ _ _ _
  | .vcvt g _ _ _ _ _ _ _ | .vnar g _ _ _ _ _ _ _ => g
  | .vfma g _ _ _ _ _ _ _ _ | .vfms g _ _ _ _ _ _ _ _ => g
  | .vmulh g _ _ _ _ _ | .vmin g _ _ _ _ _ | .vmax g _ _ _ _ _ | .vabs g _ _ _ _ _ | .vneg g _ _ _ _ _ | .vand g _ _ _ _ _
  | .vor g _ _ _ _ _ | .vxor g _ _ _ _ _ | .vshl g _ _ _ _ _ | .vshr g _ _ _ _ _ | .vsar g _ _ _ _ _ | .vperm g _ _ _ _ _
  | .vslu g _ _ _ _ _ | .vsld g _ _ _ _ _ | .vwid g _ _ _ _ _ | .dgetv g _ _ _ _ _ => g
  | .vpopc g _ _ _ _ | .vclz g _ _ _ _ | .vmov g _ _ _ _ | .vbcast g _ _ _ _ | .vexpo g _ _ _ _ | .vget g _ _ _ _
  | .vins g _ _ _ _ | .vcomp g _ _ _ _ => g
  | .vcmp g _ _ _ _ _ _ | .vsel g _ _ _ _ _ _ | .vpsum g _ _ _ _ _ _ | .vld g _ _ _ _ _ _ | .vst g _ _ _ _ _ _
  | .vlds g _ _ _ _ _ _ | .vsts g _ _ _ _ _ _ | .vldx g _ _ _ _ _ _ | .vstx g _ _ _ _ _ _ | .dcls g _ _ _ _ _ _ => g
  | .vrcp g _ _ _ | .vrsq g _ _ _ | .vexp2 g _ _ _ | .vlog2 g _ _ _ | .vexpd g _ _ _ | .mcnt g _ _ _ => g
  | .vrot g _ _ | .mset g _ _ | .mempt g _ _ => g
  | .mpush g _ => g
  | .minv g | .mpop g => g
  | _ => none

/-- The state with other vector state in the bank in hand. -/
def State.withVec (s : State) (x : VecState) : State := { s with bank := { s.bank with vec := x } }

/-- The gate lets a word act. -/
def State.gateOn (s : State) (g : Gate) : Prop := ∀ j, g = some j → s.bank.vec.gates.getLsbD j.val = true

/-- Element `i` of the vector register that a word names `n`, of elements of `w` bits (R137, R138). -/
def State.elem (s : State) (w : Nat) (n : Fin 64) (i : Nat) : BitVec w := s.bank.vec.v[s.bank.vec.phys n].extractLsb' (i * w) w

/-- Element `i` takes part: the word is not masked, or the top of the mask stack has the element's bit (R142). -/
def State.partakes (s : State) (mk : Bool) (i : Nat) : Prop := mk = true → (s.bank.vec.stack.headD 0).getLsbD i = true

/-- The LFSR state of lane `i`: its seed, until it has stepped (R107). -/
def State.lane (s : State) (i : Nat) : BitVec 16 := (Tbl.get? s.bank.vec.lanes i).getD (laneSeed s.bank.vec.srseed i)

/-- Each bit of the flags `new` is that of `old`, or is raised by an element below `n` that takes part (R109). -/
def raised (old new : Flags) (n : Nat) (on : Nat → Prop) (fl : Nat → Flags) : Prop :=
  ∀ k, k < 6 → (new.getLsbD k = true ↔ old.getLsbD k = true ∨ ∃ i, i < n ∧ on i ∧ (fl i).getLsbD k = true)

/-! ## The numbers that floating elements are (R98, R103, R104, R108, R110, R112) -/

/-- 2^e. -/
def pow2 (e : Int) : Rat := if 0 ≤ e then ((2 ^ e.toNat : Nat) : Rat) else 1 / ((2 ^ (-e).toNat : Nat) : Rat)

/-- What an operation gives before it is rounded: a NaN that it creates, an infinity, or a number by its sign, which zero has too, and its
magnitude. -/
inductive Exact where
  | nan
  | inf (neg : Bool)
  | num (neg : Bool) (x : Rat)

/-- The number that an element is. -/
def FVal.exact : FVal → Exact
  | .nan _ _ _ _ => .nan
  | .inf neg => .inf neg
  | .fin neg mag ex => .num neg ((mag : Rat) * pow2 ex)

def Exact.opposite : Exact → Exact
  | .nan => .nan
  | .inf neg => .inf (!neg)
  | .num neg x => .num (!neg) x

/-- The sum: ∞ - ∞ creates a NaN, and an exact zero of opposite signs is -0 under rdn and else +0 (R103, R112). -/
def Exact.plus (r : Rnd) : Exact → Exact → Exact
  | .inf a, .inf b => if a = b then .inf a else .nan
  | .inf a, .num _ _ | .num _ _, .inf a => .inf a
  | .num a x, .num b y =>
    let z := (if a then -x else x) + (if b then -y else y)
    .num (if z = 0 then (if a = b then a else r == .rdn) else decide (z < 0)) (if z < 0 then -z else z)
  | .nan, _ | _, .nan => .nan

/-- The product: 0 × ∞ creates a NaN (R112). -/
def Exact.times : Exact → Exact → Exact
  | .inf a, .inf b => .inf (a != b)
  | .inf a, .num b x | .num a x, .inf b => if x = 0 then .nan else .inf (a != b)
  | .num a x, .num b y => .num (a != b) (x * y)
  | .nan, _ | _, .nan => .nan

/-- Times a power of two (R152). -/
def Exact.scaled (k : Int) : Exact → Exact
  | .num a x => .num a (x * pow2 k)
  | e => e

/-- One number lies below another; the two zeros are equal (R148). -/
def Exact.Below : Exact → Exact → Prop
  | .inf a, .inf b => a = true ∧ b = false
  | .inf a, .num _ _ => a = true
  | .num _ _, .inf b => b = false
  | .num a x, .num b y => (if a then -x else x) < (if b then -y else y)
  | .nan, _ | _, .nan => False

/-- `q` is the magnitude `t` of a value of sign `neg` rounded to a whole number; `v` is the stepped LFSR state of sr (R103, R108). -/
def RoundsTo (r : Rnd) (neg : Bool) (v : Nat) (t : Rat) (q : Nat) : Prop :=
  match r with
  | .rne => t - q ≤ 1 / 2 ∧ q - t ≤ 1 / 2 ∧ (t - q = 1 / 2 ∨ q - t = 1 / 2 → q % 2 = 0)
  | .rtz => (q : Rat) ≤ t ∧ t < q + 1
  | .rdn => if neg then t ≤ q ∧ (q : Rat) < t + 1 else (q : Rat) ≤ t ∧ t < q + 1
  | .sr => q = ((t * 65536).floor.toNat + v) / 65536

/-- The largest finite number of a format (R98). -/
def Fmt.largest (m : Fmt) : Rat := if m.finite then 448 else (2 - pow2 (-m.mw)) * pow2 m.bias

/-- A pattern stands for the number of sign `neg` and magnitude `x`. -/
def Fmt.Stands (m : Fmt) (p : Nat) (neg : Bool) (x : Rat) : Prop := ∃ mag ex, m.decode p = .fin neg mag ex ∧ (mag : Rat) * pow2 ex = x

/-- Pattern and flags of a number rounded once into a format (R103, R104, R110): its grid is that of its binade, or for a tiny one the
subnormal one, and the rounded number overflows, or the pattern stands for it. -/
def Fmt.Rounded (m : Fmt) (env : Env) (neg : Bool) (x : Rat) (r : Nat × Flags) : Prop :=
  let emin : Int := 1 - m.bias
  (x = 0 → r = (m.sign neg, 0)) ∧
  (0 < x → x < pow2 emin → env.ftz = true → r = (m.sign neg, fUF ||| fNX)) ∧
  (0 < x → ¬ (x < pow2 emin ∧ env.ftz = true) → ∃ (u : Int) (q : Nat),
    (if x < pow2 emin then u = emin - m.mw else pow2 (u + m.mw) ≤ x ∧ x < pow2 (u + m.mw + 1)) ∧
    RoundsTo env.rnd neg env.v (x / pow2 u) q ∧
    (m.largest < q * pow2 u →
      if env.sat then m.Stands r.1 neg m.largest ∧ r.2 = fOF ||| fNX ||| fSA
      else if m.finite then r = (m.canon neg, fOF ||| fNX ||| fNV) else m.decode r.1 = .inf neg ∧ r.2 = fOF ||| fNX) ∧
    (q * pow2 u ≤ m.largest → m.Stands r.1 neg (q * pow2 u) ∧
      r.2 = if x = q * pow2 u then 0 else if x < pow2 emin then fNX ||| fUF else fNX))

/-- Pattern and flags of what an operation gives: a NaN that it creates is canonical and raises NV, and an infinity is passed
through (R104, R112). -/
def Fmt.Gives (m : Fmt) (env : Env) (e : Exact) (r : Nat × Flags) : Prop :=
  match e with
  | .nan => r = (m.canon false, fNV)
  | .inf neg =>
    if m.finite then (if env.sat then m.Stands r.1 neg m.largest ∧ r.2 = fSA else r = (m.canon neg, fNV))
    else m.decode r.1 = .inf neg ∧ r.2 = 0
  | .num neg x => m.Rounded env neg x r

/-- A pattern is a NaN operand made quiet: its sign is kept, and its payload from the top of the fraction (R112). -/
def Fmt.Quieted (m : Fmt) (x : FVal) (p : Nat) : Prop :=
  ∃ neg q frac w, x = .nan neg q frac w ∧ m.decode p = .nan neg true
    (if m.finite then 2 ^ m.mw - 1 else (if m.mw ≤ w then frac / 2 ^ (w - m.mw) else frac * 2 ^ (m.mw - w)) ||| 2 ^ (m.mw - 1)) m.mw

/-- Pattern and flags of an operation on operands: the first NaN among them, NV where one of them signals, or what the operation gives (R112). -/
def Fmt.Computes (m : Fmt) (env : Env) (ops : List FVal) (e : Exact) (r : Nat × Flags) : Prop :=
  (∀ before n behind, ops = before ++ n :: behind → (∀ y ∈ before, y.isNan = false) → n.isNan = true →
    m.Quieted n r.1 ∧ r.2 = if ops.any FVal.isSnan then fNV else 0) ∧
  ((∀ y ∈ ops, y.isNan = false) → m.Gives env e r)

/-- Pattern and flags of a function unit's number f(x) of sign `neg`, given by the numbers that are not above (`le`) and not below (`ge`) its
magnitude: rounded rne to `p` significant bits, or to the grid of 2^-149 where that is coarser (R113). -/
def UnitRounded (p : Nat) (neg : Bool) (le ge : Rat → Prop) (r : Nat × Flags) : Prop :=
  ∃ (e u : Int) (q : Nat), le (pow2 e) ∧ ¬ le (pow2 (e + 1)) ∧ u = max (e - p + 1) (-149) ∧
    (∀ c : Rat, c = (q - 1 / 2) * pow2 u → le c ∧ (ge c → q % 2 = 0)) ∧ (∀ c : Rat, c = (q + 1 / 2) * pow2 u → ge c ∧ (le c → q % 2 = 0)) ∧
    (pow2 128 ≤ q * pow2 u → fmtFp32.decode r.1 = .inf neg ∧ r.2 = fOF ||| fNX) ∧
    (q * pow2 u < pow2 128 → fmtFp32.Stands r.1 neg (q * pow2 u) ∧
      (le (q * pow2 u) → ge (q * pow2 u) → r.2 = 0) ∧
      (¬ (le (q * pow2 u) ∧ ge (q * pow2 u)) → r.2 = if e < -126 then fNX ||| fUF else fNX))

/-- A word with sources `srcs` has issued and written the elements of a vector register that take part: each is what `f` gives, with the flags
that `f` gives raised; it has written `v` to `dst` and, under `sr`, stepped the lanes of the elements that take part. Every other element and
every other vector register is as it was, and nothing else has changed. -/
structure State.WroteVec (s t : State) (srcs : List Opnd) (dst : Option Opnd) (v : Word) (w : Nat) (sr mk : Bool) (vd : Fin 64) (lat : Nat)
    (f : Nat → BitVec w × Flags) : Prop where
  rest : s.Wrote (t.withVec s.bank.vec) srcs dst v lat
  vec : t.bank.vec = { s.bank.vec with v := t.bank.vec.v, vflags := t.bank.vec.vflags, lanes := t.bank.vec.lanes }
  regs : ∀ r, r ≠ s.bank.vec.phys vd → t.bank.vec.v[r] = s.bank.vec.v[r]
  on : ∀ i, i < 4096 / w → s.partakes mk i → t.elem w vd i = (f i).1
  off : ∀ i, i < 4096 / w → ¬ s.partakes mk i → t.elem w vd i = s.elem w vd i
  flags : raised s.bank.vec.vflags t.bank.vec.vflags (4096 / w) (s.partakes mk) fun i => (f i).2
  still : sr = false → t.bank.vec.lanes = s.bank.vec.lanes
  stepped : ∀ i, t.lane i = if sr = true ∧ i < 4096 / w ∧ (mk = true → (s.bank.vec.stack.headD 0).getLsbD i = true)
    then lfsrStep (s.lane i) else s.lane i
  late : (RegId.v (s.bank.vec.phys vd), s.now + lat) ∈ t.st.busy

end Sys2Proof.Machine
end

