-- ==== Sys2Proof/WellFormed.lean ====
section
/-! DEFINITION. Which terms of `Instr` are instructions of a stream: the ones that have a word which the stream may issue
(R40, R41) and that names only what its fields may name. The rows that are steps of other agents have no word, so none of
them is well formed. -/

namespace Sys2Proof

/-- Every scalar-or-queue operand names a queue only in a direction that the stream has (R11). -/
def opndFits (ok : Fin 16 → Bool) : Opnd → Bool
  | .s _ => true
  | .q n => ok n

/-- The streams that may issue the instruction (R40); false in all four for a row without a word. -/
def Instr.streams (i : Instr) : StreamId → Bool :=
  match i with
  | .ld _ _ _ _ _ _ | .st _ _ _ _ _ | .start | .join | .exit | .pusht _ | .qtry _ _ _ | .qflush _ _ | .qcnt _ _ | .gbar _
  | .eret | .waitev _ _ _ | .fence _ _ _ | .cbwait _ _ | .cbrel _ | .abwait _ => legalIn true true true false
  | .scld _ _ _ _ _ _ _ | .scst _ _ _ _ _ _ | .amo _ _ _ _ _ _ _ | .cas _ _ _ _ _ _ _ | .dget _ _ _ _ _ | .dredo _ _ _ _
  | .abset _ _ => legalIn true true false false
  | .launch _ _ _ | .graph _ _ _ | .keykill _ _ | .genbump _ | .rmap _ _ _ _ _ _ | .runmap _ | .rsync _ _ | .cbset _ _ _ _
  | .cpy _ _ _ _ _ _ _ | .cpys _ _ _ _ _ _ _ | .cpyt _ _ _ _ _ _ | .cfill _ _ _ _ _ | .cfetchif _ _ _ _ _ _
  | .kvfetch _ _ _ _ _ _ | .btinv _ _ _ | .ecancel _ _ | .gath _ _ _ _ _ _ | .scat _ _ _ _ _ _ | .scadd _ _ _ _ _ _
  | .compact _ _ _ _ _ _ | .intersect _ _ _ _ _ _ | .select _ _ _ _ _ _ _ => legalIn true false false false
  | .nlvl _ _ _ _ | .nbase _ _ _ | .nfmt _ _ _ _ _ | .ndrn _ _ _ | .ngo _ _ _ | .nwait _ | .nprog _ _ | .ncsq _ _
  | .nsave _ _ | .nload _ _ => legalIn false false true false
  | .dgetv _ _ _ _ _ _ | .dcls _ _ _ _ _ _ _ | .vadd _ _ _ _ _ _ _ _ | .vsub _ _ _ _ _ _ _ _ | .vmul _ _ _ _ _ _ _ _
  | .vmulh _ _ _ _ _ _ | .vfma _ _ _ _ _ _ _ _ _ | .vfms _ _ _ _ _ _ _ _ _ | .vmin _ _ _ _ _ _ | .vmax _ _ _ _ _ _
  | .vabs _ _ _ _ _ _ | .vneg _ _ _ _ _ _ | .vand _ _ _ _ _ _ | .vor _ _ _ _ _ _ | .vxor _ _ _ _ _ _ | .vshl _ _ _ _ _ _
  | .vshr _ _ _ _ _ _ | .vsar _ _ _ _ _ _ | .vpopc _ _ _ _ _ | .vclz _ _ _ _ _ | .vcmp _ _ _ _ _ _ _ | .vsel _ _ _ _ _ _ _
  | .vmov _ _ _ _ _ | .vbcast _ _ _ _ _ | .vget _ _ _ _ _ | .vins _ _ _ _ _ | .vcvt _ _ _ _ _ _ _ _ | .vwid _ _ _ _ _ _
  | .vnar _ _ _ _ _ _ _ _ | .vscl _ _ _ _ _ _ _ _ | .vexpo _ _ _ _ _ | .vrcp _ _ _ _ | .vrsq _ _ _ _ | .vexp2 _ _ _ _
  | .vlog2 _ _ _ _ | .vred _ _ _ _ _ _ _ _ | .vpsum _ _ _ _ _ _ _ | .vcomp _ _ _ _ _ | .vexpd _ _ _ _ | .vslu _ _ _ _ _ _
  | .vsld _ _ _ _ _ _ | .vperm _ _ _ _ _ _ | .vld _ _ _ _ _ _ _ | .vst _ _ _ _ _ _ _ | .vlds _ _ _ _ _ _ _
  | .vsts _ _ _ _ _ _ _ | .vldx _ _ _ _ _ _ _ | .vstx _ _ _ _ _ _ _ | .vrot _ _ _ | .gset _ | .gstep _ | .mpush _ _
  | .minv _ | .mpop _ | .mset _ _ _ | .mcnt _ _ _ _ | .mempt _ _ _ => legalIn false true false false
  | .lslot _ _ _ | .lxmit _ _ _ | .lxmitMem _ _ | .lrecv _ _ _ _ | .lrecvMem _ _ | .lwid _ _ _ _ | .ladd _ _ _ _ _
  | .lqnt _ _ _ _ _ _ _ | .ldone => legalIn false false false true
  | _ => fun _ => i.fields.isSome

/-- What an instruction's own rule adds to the rules of its fields: queues named outside the scalar-or-queue fields, the
TYPE sets of R145, the rounding modes of R38 and R145, aligned register groups (R151, R376, R378), even mask pairs (R222),
the NFMT combinations (R320), and the fields that one setting of another makes reserved (R26). -/
def Instr.fits (σ : StreamId) : Instr → Bool
  | .spop _ q | .qtry _ q _ | .qflush _ q => canPop σ q
  | .spush _ q | .pusht q => canPush σ q
  | .qcnt _ q => canPop σ q || canPush σ q
  | .dcls _ t md _ _ _ _ => t != .e2m1x && md.val % 2 == 0
  | .cpy _ sf _ _ _ c _ => sf || c == .s 0
  | .nfmt fa fb run twin _ =>
    fa.isPanel && fb.isPanel && (!twin || (fa.isTwin && fb.isTwin)) && (run.val != 7 || twin) && (!twin || run.val != 0)
  | .vadd _ t r _ _ _ _ _ | .vsub _ t r _ _ _ _ _ | .vmul _ t r _ _ _ _ _ | .vfma _ t r _ _ _ _ _ _
  | .vfms _ t r _ _ _ _ _ _ | .vred _ t _ r _ _ _ _ | .vpsum _ t r _ _ _ _ => t.isIF && r != .sr && rndFits t r
  | .vmulh _ t _ _ _ _ | .vshl _ t _ _ _ _ | .vshr _ t _ _ _ _ | .vsar _ t _ _ _ _ | .vpopc _ t _ _ _
  | .vclz _ t _ _ _ => t.isInt
  | .vmin _ t _ _ _ _ | .vmax _ t _ _ _ _ | .vcmp _ t _ _ _ _ _ => t.isIF
  | .vabs _ t s _ _ _ | .vneg _ t s _ _ _ => t.isIF && (t.isInt || !s)
  | .vcvt _ t dt r _ _ _ _ => cvtPair t dt && (!t.isInt || !dt.isInt || r == .rne) && srFits dt r
  | .vwid _ t dt _ vd _ =>
    match widFactor t dt with
    | some n => vd.val % n == 0
    | none => false
  | .vnar _ t dt r _ _ _ va =>
    match widFactor dt t with
    | some n => va.val % n == 0 && (!dt.isInt || r == .rne) && srFits dt r
    | none => false
  | .vscl _ t r _ _ _ _ _ => t.isF && r != .sr
  | .vexpo _ t _ _ _ => t.isF
  | .vperm _ t _ _ _ _ => t.isP
  | .vlds _ t _ _ _ _ _ | .vsts _ t _ _ _ _ _ | .vldx _ t _ _ _ _ _ | .vstx _ t _ _ _ _ _ => t.isW
  | .lwid x d _ b => d.val % 4 == 0 && (!x || b == 0)
  | .ladd r _ _ _ _ => r != .sr
  | .lqnt x _ _ _ a b spc => a.val % 4 == 0 && (if x then b == 0 else spc == 0)
  | _ => true

/-- `i` is an instruction of stream `σ`. -/
def Instr.wf (σ : StreamId) (i : Instr) : Bool :=
  i.streams σ && i.reads.all (opndFits (canPop σ)) && i.writes.all (opndFits (canPush σ)) && i.fits σ

end Sys2Proof
end

