-- ==== Sys2Proof/Certificates/Slice0/Obligations.lean ====
section
/-! DEFINITION. The statements for the provers. -/

open Sys2Proof Sys2Proof.Machine

/-! ## Scalar words -/

/-- R45, R46: the register forms of the scalar ALU. Each reads its sources in field order, writes the value below to `d`, and changes
nothing else. -/
def Obligations.RegisterAlu : Prop :=
  ∀ (s : State) (d a b c : Opnd) (w pos : Fin 64),
    (s.block [a, b] [d] = none →
      let x := s.source [] a
      let y := s.source [a] b
      let m : Word := (BitVec.allOnes (w.val + 1)).setWidth 64 <<< pos.val
      ∀ p ∈ ([(.add d a b, x + y, 1), (.sub d a b, x - y, 1), (.mul d a b, x * y, 3),
          (.mulh d a b, ((x.signExtend 128 * y.signExtend 128) >>> 64).setWidth 64, 3),
          (.mulhu d a b, ((x.setWidth 128 * y.setWidth 128) >>> 64).setWidth 64, 3),
          (.div d a b, if y = 0 then BitVec.allOnes 64 else x.sdiv y, 20), (.divu d a b, if y = 0 then BitVec.allOnes 64 else x / y, 20),
          (.rem d a b, if y = 0 then x else x.srem y, 20), (.remu d a b, if y = 0 then x else x % y, 20),
          (.and d a b, x &&& y, 1), (.or d a b, x ||| y, 1), (.xor d a b, x ^^^ y, 1), (.andn d a b, x &&& ~~~y, 1),
          (.shl d a b, x <<< (y &&& 63), 1), (.shr d a b, x >>> (y &&& 63), 1), (.sar d a b, x.sshiftRight' (y &&& 63), 1),
          (.min d a b, if x.slt y then x else y, 1), (.minu d a b, if x.ult y then x else y, 1),
          (.max d a b, if x.slt y then y else x, 1), (.maxu d a b, if x.ult y then y else x, 1),
          (.bfi d a b w pos, (y &&& ~~~m) ||| ((x <<< pos.val) &&& m), 1)] : List (Instr × Word × Nat)),
        ∃ t, exec p.1 s = .next t ∧ s.Wrote t [a, b] (some d) p.2.1 p.2.2) ∧
    (s.block [a] [d] = none →
      let x := s.source [] a
      ∀ p ∈ ([(.clz d a, x.clz), (.ctz d a, x.ctz), (.popc d a, x.cpop),
          (.sext d a w, (x.setWidth (w.val + 1)).signExtend 64), (.zext d a w, (x.setWidth (w.val + 1)).setWidth 64),
          (.bfx d a w pos, ((x >>> pos.val).setWidth (w.val + 1)).setWidth 64)] : List (Instr × Word)),
        ∃ t, exec p.1 s = .next t ∧ s.Wrote t [a] (some d) p.2 1) ∧
    (s.block [a, b, c] [d] = none →
      ∃ t, exec (.cmov d a b c) s = .next t ∧
        s.Wrote t [a, b, c] (some d) (if s.source [a, b] c ≠ 0 then s.source [] a else s.source [a] b) 1)

/-- R48, R49: the immediate forms of the scalar ALU, LDI and LDHI. -/
def Obligations.ImmediateAlu : Prop :=
  ∀ (s : State) (d a : Opnd) (imm : BitVec 34) (n : Fin 64) (l : BitVec 40) (r : Fin 32),
    (s.block [a] [d] = none →
      let x := s.source [] a
      let y := imm.signExtend 64
      ∀ p ∈ ([(.addi d a imm, x + y, 1), (.andi d a imm, x &&& y, 1), (.ori d a imm, x ||| y, 1), (.xori d a imm, x ^^^ y, 1),
          (.shli d a n, x <<< n.val, 1), (.shri d a n, x >>> n.val, 1), (.sari d a n, x.sshiftRight n.val, 1),
          (.muli d a imm, x * y, 3)] : List (Instr × Word × Nat)),
        ∃ t, exec p.1 s = .next t ∧ s.Wrote t [a] (some d) p.2.1 p.2.2) ∧
    (s.block [] [d] = none → ∃ t, exec (.ldi d l) s = .next t ∧ s.Wrote t [] (some d) (l.signExtend 64) 1) ∧
    ∃ t, exec (.ldhi r l) s = .next t ∧ s.Wrote t [] (some (.s r)) ((l.setWidth 64 <<< 24) ||| (s.reg r &&& 0xFFFFFF)) 1

/-! ## Conditions, branches and loops -/

/-- R50, R51, R52, R53: CMP, CMPI, SCOMB and SPOP write VALUE and SET of their steer register and leave its target; CSET and CSETI write 1 or 0
to a register or queue, SPUSH pushes the condition, and no steer register changes. -/
def Obligations.ConditionWords : Prop :=
  (∀ (s : State) (cc : Cond) (k ka kb : Fin 12) (a b : Opnd) (imm : BitVec 25) (q : Fin 16),
     (s.block [a, b] [] = none → ∃ (u : State) (t : Bool), s.Read u [a, b] ∧ (t = true ↔ condMeans cc (s.source [] a) (s.source [a] b)) ∧
       exec (.cmp cc k a b) s = .next (u.withCond k t)) ∧
     (s.block [a] [] = none → ∃ (u : State) (t : Bool), s.Read u [a] ∧ (t = true ↔ condMeans cc (s.source [] a) (imm.signExtend 64)) ∧
       exec (.cmpi cc k a imm) s = .next (u.withCond k t)) ∧
     (let x := s.st.k[ka].value
      let y := s.st.k[kb].value
      ∀ p ∈ [(Comb.and, x && y), (.or, x || y), (.xor, x != y), (.andn, x && !y), (.nand, !(x && y)), (.nor, !(x || y))],
        ∃ u, s.Read u [] ∧ exec (.scomb p.1 k ka kb) s = .next (u.withCond k p.2)) ∧
     (s.block [.q q] [] = none → ∃ u, s.Read u [.q q] ∧ exec (.spop k q) s = .next (u.withCond k (s.source [] (.q q) != 0)))) ∧
  ∀ (s : State) (cc : Cond) (k : Fin 12) (d a b : Opnd) (imm : BitVec 25) (q : Fin 16),
    (s.block [a, b] [d] = none → ∃ t v, exec (.cset cc d a b) s = .next t ∧ s.Wrote t [a, b] (some d) v 1 ∧
      (condMeans cc (s.source [] a) (s.source [a] b) → v = 1) ∧ (¬ condMeans cc (s.source [] a) (s.source [a] b) → v = 0)) ∧
    (s.block [b] [d] = none → ∃ t v, exec (.cseti cc d b imm) s = .next t ∧ s.Wrote t [b] (some d) v 1 ∧
      (condMeans cc (s.source [] b) (imm.signExtend 64) → v = 1) ∧ (¬ condMeans cc (s.source [] b) (imm.signExtend 64) → v = 0)) ∧
    (s.block [] [.q q] = none → ∃ t, exec (.spush k q) s = .next t ∧
      s.Wrote t [] (some (.q q)) (if s.st.k[k].value then 1 else 0) 1)

/-- R13, R55, R60: NOP only goes on; PREP and PREPR write TARGET, from which a BR waits 4 cycles (R14), and leave SET and VALUE;
PREPR of 8,192 or more takes the trap ILLEGAL 5 instead. -/
def Obligations.PrepareWords : Prop :=
  ∀ (s : State) (k : Fin 12) (target : BitVec 13) (a : Opnd),
    (∃ u, s.Read u [] ∧ exec .nop s = .next u) ∧
    (∃ u, s.Read u [] ∧ exec (.prep k target) s =
      .next (u.setSt { u.st with k := u.st.k.set k { u.st.k[k] with target := target, ready := s.now + 4 } })) ∧
    (s.block [a] [] = none →
      let x := s.source [] a
      (x < 8192 → ∃ u, s.Read u [a] ∧ exec (.prepr k a) s =
        .next (u.setSt { u.st with k := u.st.k.set k { u.st.k[k] with target := x.setWidth 13, ready := s.now + 4 } })) ∧
      (¬ x < 8192 → exec (.prepr k a) s = .next (s.takeTrap (cILLEGAL 5) x)))

/-- R14: BR and BRL. The checks stand in their order: subcode 6, then 8, then 5; else the condition is consumed, BRL writes s31 taken
or not, and the stream goes on at the target or at the next word. -/
def Obligations.Branches : Prop :=
  ∀ (s : State) (k : Fin 12) (sense : Bool),
    let t := s.st
    let taken := t.k[k].value = sense
    let used (r : Vector Word 32) (pc : Nat) := s.setSt { t with
      s := r, k := t.k.set k { t.k[k] with set := false }, pc := pc, last := t.pc, bound := s.now + 1, least := 0, wait := none }
    ∀ br : Bool,
      let i : Instr := if br then .br k sense else .brl k sense
      let r := if br then t.s else t.s.set 31 (BitVec.ofNat 64 (t.pc + 1))
      (t.k[k].set = false → exec i s = .next (s.takeTrap (cILLEGAL 6) (BitVec.ofNat 64 k.val))) ∧
      (∀ l, t.k[k].set = true → t.loopAt t.pc = some l → exec i s = .next (s.takeTrap (cILLEGAL 8) (BitVec.ofNat 64 l.val))) ∧
      (t.k[k].set = true → t.loopAt t.pc = none →
        (taken → s.code.length ≤ t.k[k].target.toNat → exec i s = .next (s.takeTrap (cILLEGAL 5) (t.k[k].target.setWidth 64))) ∧
        (taken → t.k[k].target.toNat < s.code.length → exec i s = .next (used r t.k[k].target.toNat)) ∧
        (¬ taken → exec i s = .next (used r (t.pc + 1))))

/-- R16, R18, R57: LSET and LEND. LSET raises subcode 8 whatever its count, once no queue makes it wait, and before subcode 11. -/
def Obligations.LoopWords : Prop :=
  ∀ (s : State) (l : Fin 4) (a : Opnd) (stop : BitVec 13),
    ((∀ w, s.block [a] [] ≠ some (.wait w)) →
      (stop.toNat < s.st.pc + 1 → exec (.lset l a stop) s = .next (s.takeTrap (cILLEGAL 8) (BitVec.ofNat 64 l.val))) ∧
      (s.st.pc + 1 ≤ stop.toNat → ∀ m, s.st.loopAt s.st.pc = some m →
        exec (.lset l a stop) s = .next (s.takeTrap (cILLEGAL 8) (BitVec.ofNat 64 m.val)))) ∧
    (s.block [a] [] = none →
      let n : BitVec 32 := (s.source [] a).setWidth 32
      (s.st.pc + 1 ≤ stop.toNat → s.st.loopAt s.st.pc = none → ∃ u, s.Read u [a] ∧
        exec (.lset l a stop) s = .next (u.setSt { u.st with
          l := s.st.l.set l (if n = 0 then { s.st.l[l] with count := 0 }
            else { count := n, start := BitVec.ofNat 13 (s.st.pc + 1), stop := stop })
          order := l :: s.st.order.filter (· != l)
          pc := if n = 0 then stop.toNat + 1 else s.st.pc + 1 }))) ∧
    ∃ t, exec (.lend l) s = .next t ∧ exec .nop (s.setSt { s.st with
      l := if s.st.l[l].count = 0 then s.st.l else s.st.l.set l { s.st.l[l] with count := 1 } }) = .next t

/-- R17 for words that issue in every state: NOP, PREP, SCOMB and LDHI. The loops that end at the word are taken most recently set first: the first
of them with COUNT above 1 repeats, after those before it have ended; where there is none, all of them end and the next word follows. Every
other loop is as it was. (`State.Issued`, which the statements about the other words have in their conclusions, holds the same clause.) -/
def Obligations.LoopEnds : Prop :=
  ∀ (s : State) (k ka kb : Fin 12) (target : BitVec 13) (cb : Comb) (r : Fin 32) (imm : BitVec 40),
    let l := s.st.l
    let ends (m : Fin 4) : Prop := l[m].count ≠ 0 ∧ l[m].stop.toNat = s.st.pc
    let again (m : Fin 4) : Prop := ends m ∧ 1 < l[m].count.toNat
    ∀ i ∈ [Instr.nop, .prep k target, .scomb cb k ka kb, .ldhi r imm],
      (∀ before n behind, s.st.order = before ++ n :: behind → (∀ m ∈ before, ¬ again m) → again n →
        ∃ t, exec i s = .next t ∧ t.st.pc = l[n].start.toNat ∧ t.st.l[n] = { l[n] with count := l[n].count - 1 } ∧
          (∀ m ∈ before, ends m → t.st.l[m] = { l[m] with count := 0 }) ∧
          ∀ m, m ≠ n → ¬ (m ∈ before ∧ ends m) → t.st.l[m] = l[m]) ∧
      ((∀ m ∈ s.st.order, ¬ again m) →
        ∃ t, exec i s = .next t ∧ t.st.pc = s.st.pc + 1 ∧ (∀ m ∈ s.st.order, ends m → t.st.l[m] = { l[m] with count := 0 }) ∧
          ∀ m, ¬ (m ∈ s.st.order ∧ ends m) → t.st.l[m] = l[m])

/-! ## Traps -/

/-- R22, R334, R336: a cause that the handler takes enters it, where the stream has one. Subcode 7 of ILLEGAL names the last word
issued (R15), every other cause the word in hand. -/
def Obligations.TrapEntersHandler : Prop :=
  ∀ (s : State) (c : Cause) (v : Word), s.HasHandler → c.sub < 256 →
    c.code ∈ [0x01, 0x02, 0x03, 0x05, 0x09, 0x0A, 0x0B, 0x0C, 0x0D, 0x0E] →
    s.Entered (s.takeTrap c v) c.code c.sub (if c.code = 1 ∧ c.sub = 7 then s.st.last else s.st.pc) v

/-- R334, R339, R342: every other cause, and every cause of a stream without a handler, goes to the Bureau: the trap registers are written in the
step of the trap, and its record is handed over, which is posted at once for an L stream and waits in an A, X or N stream until its bank has
stopped (log 18, DEDUCED). -/
def Obligations.TrapStopsForBureau : Prop :=
  ∀ (s : State) (c : Cause) (v : Word), c.code < 256 → c.sub < 256 →
    (¬ s.HasHandler ∨ c.code ∉ [0x01, 0x02, 0x03, 0x05, 0x09, 0x0A, 0x0B, 0x0C, 0x0D, 0x0E]) →
    s.Stopped (s.takeTrap c v) c.code c.sub (if c.code = 1 ∧ c.sub = 7 then s.st.last else s.st.pc) v

/-- R60, R337, R338: TRAP raises TRAPI with its immediate and BRK goes to the Bureau whatever HVEC holds, each naming its own word;
ERET leaves the handler, to EPC + 1 after TRAPI and else to EPC, and outside a handler it raises ILLEGAL 15. (That an ERET at the END of an active
loop takes the loop, whose COUNT falls, and goes on where R338 says is log 69, DEDUCED.) -/
def Obligations.TrapWords : Prop :=
  ∀ (s : State) (imm : BitVec 34),
    (∃ t, exec (.trap imm) s = .next t ∧ (s.HasHandler → s.Entered t 5 0 s.st.pc (imm.signExtend 64)) ∧
      (¬ s.HasHandler → s.Stopped t 5 0 s.st.pc (imm.signExtend 64))) ∧
    (∃ t, exec (.brk imm) s = .next t ∧ s.Stopped t 4 0 s.st.pc 0) ∧
    (s.st.active = true → ∃ (dest : Nat) (l : Vector Loop 4), s.st.LoopsTaken { s.st with pc := dest, l := l } ∧
      exec .eret s = .next (s.setSt { s.st with
        active := false, l := l, pc := s.st.epc.toNat + (if s.st.cause.toNat % 256 = 5 then 1 else 0), last := s.st.pc, bound := s.now + 1
        least := s.now + 3, wait := none })) ∧
    (s.st.active = false → ∃ t, exec .eret s = .next t ∧ (s.HasHandler → s.Entered t 1 15 s.st.pc 0) ∧
      (¬ s.HasHandler → s.Stopped t 1 15 s.st.pc 0))

/-! ## Queues, rendezvous and barriers -/

/-- R121, R128: the entries of a queue that are due fill in this cycle; where the consumer of an inter-stream queue has exited the
filled entries are discarded, and STRAY is set where there is one. -/
def Obligations.QueueFill : Prop :=
  ∀ (s : State) (q : Fin 16),
    let now := s.qNow q
    let due (e : QEntry) : Prop := e.filled = none ∧ ∃ c, e.due = some c ∧ c ≤ now
    ∃ t, exec (.queueEntryFill q) s = .next t ∧
      t = { s with bank := { s.bank with q := t.bank.q, stray := t.bank.stray } } ∧
      (∀ p : Fin 16, p ≠ q → t.bank.q[p] = s.bank.q[p]) ∧
      (q.val < 12 ∧ (s.streamAt (qConsumer q)).exited = true →
        t.bank.q[q] = s.bank.q[q].filter (fun e => e.filled.isNone && !(e.due.any fun c => decide (c ≤ now))) ∧
        (t.bank.stray = true ↔ s.bank.stray = true ∨ ∃ e ∈ s.bank.q[q], due e ∨ e.filled ≠ none)) ∧
      (¬ (q.val < 12 ∧ (s.streamAt (qConsumer q)).exited = true) →
        t.bank.stray = s.bank.stray ∧ t.bank.q[q].length = s.bank.q[q].length ∧
        ∀ (n : Nat) (e : QEntry), s.bank.q[q][n]? = some e → ∃ f, t.bank.q[q][n]? = some f ∧
          (due e → f = { e with filled := some now }) ∧ (¬ due e → f = e))

/-- R129, R130, R131, R190: PUSHT pushes a token, which is due at its issue, or when the own writes of the stream are readable, and the entries
of its queue that are due fill at once; QTRY, QCNT and QFLUSH. (That QCNT and QFLUSH count an entry that fills in the cycle of their issue is log 8,
DEDUCED.) -/
def Obligations.QueueWords : Prop :=
  ∀ (s : State) (k : Fin 12) (q : Fin 16) (r : Fin 32) (d : Opnd),
    let head : Prop := ∃ e l c, s.bank.q[q] = e :: l ∧ e.filled = some c ∧ c < s.qNow q
    let full := s.bank.q[q].filter fun e => e.filled.isSome
    let flushed : State := { s with bank := { s.bank with q := s.bank.q.set q (s.bank.q[q].filter fun e => e.filled.isNone) } }
    (head → ∃ u, s.Wrote u [.q q] (some (.s r)) (s.source [] (.q q)) 1 ∧ exec (.qtry k q r) s = .next (u.withCond k true)) ∧
    (¬ head → ∃ u, s.Read u [] ∧ exec (.qtry k q r) s = .next (u.withCond k false)) ∧
    (s.block [] [d] = none → ∃ t, exec (.qcnt d q) s = .next t ∧ s.Wrote t [] (some d) (BitVec.ofNat 64 full.length) 1) ∧
    (s.block [] [d] = none → ∃ t, exec (.qflush d q) s = .next t ∧ flushed.Wrote t [] (some d) (BitVec.ofNat 64 full.length) 1) ∧
    (s.block [] [.q q] = none →
      ∃ u t, s.Quiet u ∧ s.Issued u ∧ u.st.s = s.st.s ∧
        (∀ p : Fin 16, u.bank.q[p] = s.bank.q[p] ++ (if p = q then [s.entry 0 true (some (max s.now s.ownReady)) 0] else [])) ∧
        exec (.queueEntryFill q) u = .next t ∧ exec (.pusht q) s = .next t)

/-- R127, R128, R134: START, JOIN and GBAR wait, JOIN and GBAR once the own writes of the stream are readable (R190); GBAR of a slot
without a descriptor raises ILLEGAL 10; EXIT waits for every earlier word, then ends the stream and discards the filled entries of
the queues that it consumes. When every stream of the bank that has not exited waits at a rendezvous, all of them go on, and nothing else
changes. -/
def Obligations.StreamWords : Prop :=
  ∀ (s : State) (gs : Fin 4),
    let waits (w : Wait) := s.setSt { s.st with wait := some w }
    exec .start s = .next (waits .start) ∧
    (s.ownReady ≤ s.now → exec .join s = .next (waits .join)) ∧
    (s.now < s.ownReady → exec .join s = .next (waits .result)) ∧
    (s.bank.phase[gs] = none → exec (.gbar gs) s = .next (s.takeTrap (cILLEGAL 10) (BitVec.ofNat 64 gs.val))) ∧
    (∀ p, s.bank.phase[gs] = some p → s.ownReady ≤ s.now → exec (.gbar gs) s = .next (waits (.gbar gs p))) ∧
    (let result : Prop := ∃ p ∈ s.st.busy, s.now < p.2
    let data : Prop := s.st.fences ≠ [] ∨ (∃ x ∈ s.flight, x.agent = s.agent ∧ (x.dest ≠ .none ∨ x.req.regs ≠ [])) ∨
      ∃ r ∈ s.retires, r.agent = s.agent
    let pushes : Prop := ∃ q : Fin 16, q.val < 12 ∧ qProducer q = some s.sid ∧ ∃ e ∈ s.bank.q[q], e.filled = none
    let discards (e : QEntry) (q : Fin 16) : Prop := e.filled ≠ none ∨ ∃ c, e.due = some c ∧ c ≤ s.qNow q
    (result → exec .exit s = .next (waits .result)) ∧ (¬ result → data → exec .exit s = .next (waits (.ext .data))) ∧
    (¬ result → ¬ data → pushes → exec .exit s = .next (waits .result)) ∧
    (¬ result → ¬ data → ¬ pushes → s.st.exited = false →
      ∃ t, exec .exit s = .next t ∧ s.Issued t ∧ t.st.exited = true ∧ t.st.s = s.st.s ∧
        (t.bank.stray = true ↔ s.bank.stray = true ∨ ∃ q : Fin 16, q.val < 12 ∧ qConsumer q = s.sid ∧ ∃ e ∈ s.bank.q[q], discards e q) ∧
        State.Quiet { s with bank := { s.bank with stray := t.bank.stray } } (t.setSt { t.st with exited := false }) ∧
        ∀ q : Fin 16, if q.val < 12 ∧ qConsumer q = s.sid then
          t.bank.q[q] = s.bank.q[q].filter (fun e => e.filled.isNone && !(e.due.any fun c => decide (c ≤ s.qNow q)))
        else t.bank.q[q] = s.bank.q[q])) ∧
    (let live (k : StreamId) : Prop := (s.streamAt k).exited = false
    let meets (k : StreamId) : Prop := (s.streamAt k).wait = some .start ∨ (s.streamAt k).wait = some .join
    (∃ k ∈ [StreamId.A, .X, .N], live k) → (∀ k ∈ [StreamId.A, .X, .N], live k → meets k) →
      ∃ t, exec .rendezvousRelease s = .next t ∧
        t = { s with bank := { s.bank with a := t.bank.a, x := t.bank.x, n := t.bank.n } } ∧
        ∀ k ∈ [StreamId.A, .X, .N],
          (¬ live k → t.streamAt k = s.streamAt k) ∧
          (live k → (t.streamAt k).wait = none ∧ (t.streamAt k).last = (s.streamAt k).pc ∧ (t.streamAt k).s = (s.streamAt k).s ∧
            (t.streamAt k).bound = s.bank.cycle - s.bank.slip + 1 ∧
            (s.streamAt k).LoopsTaken (t.streamAt k)))

/-! ## Control registers -/

/-- R61, R62: CRR writes the register's value at its issue; where the stream reads no register of that number it raises ILLEGAL 9 at its
issue, with TVAL the number. -/
def Obligations.ControlRegisterReads : Prop :=
  ∀ (s : State) (d : Opnd) (n : Fin 16) (c : Fin 8),
    let b := s.bank
    let bit (x : Bool) : BitVec 1 := BitVec.ofBool x
    let nat (w x : Nat) : BitVec w := BitVec.ofNat w x
    let reads (creg : BitVec 12) (v : Word) : Prop :=
      s.block [] [d] = none → ∃ t, exec (.crr d creg) s = .next t ∧ s.Wrote t [] (some d) v 1
    reads 0x010 s.st.cause ∧ reads 0x011 s.st.epc ∧ reads 0x012 s.st.tval ∧ reads 0x070 s.bureau.ready0 ∧ reads 0x071 s.bureau.ready1 ∧
    (s.sid = .L → reads 0x000 (nat 64 s.link.cycle) ∧ reads 0x060 (s.link.lflags.setWidth 64) ∧ reads 0x061 (nat 64 s.fslot)) ∧
    (s.sid ≠ .L →
      reads 0x000 (nat 64 b.cycle) ∧ reads 0x013 (bit s.st.hvecEn ++ bit s.st.active ++ 0#49 ++ s.st.hvecTarget) ∧
      reads 0x030 (nat 64 b.slip) ∧ reads 0x031 ((bit b.pend).setWidth 64) ∧ reads 0x032 (b.ffa.setWidth 64) ∧
      reads 0x040 (s.draws ++ s.lotto) ∧ reads 0x050 (b.pstat.setWidth 64) ∧
      reads 0x041 (0#35 ++ nat 10 b.wheelCount ++ nat 10 b.wheelStride ++ nat 9 b.wheelFirst) ∧
      reads 0x051 (0#61 ++ bit b.side ++ b.pmode) ∧
      reads (nat 12 (0x100 + n.val)) b.bfmt[n] ∧
      reads (nat 12 (0x110 + 2 * c.val)) (0#10 ++ nat 9 b.cb[c].count ++ nat 23 b.cb[c].slot ++ nat 22 b.cb[c].base) ∧
      reads (nat 12 (0x111 + 2 * c.val)) (0#16 ++ nat 16 b.cb[c].taken ++ nat 16 b.cb[c].done ++ nat 16 b.cb[c].put) ∧
      reads (nat 12 (0x120 + 2 * c.val)) (b.abexp[c].setWidth 64) ∧ reads (nat 12 (0x121 + 2 * c.val)) (b.abarr[c].setWidth 64)) ∧
    (s.sid = .X →
      reads 0x020 (b.vec.vflags.setWidth 64) ∧ reads 0x021 ((bit b.vec.ftz).setWidth 64) ∧ reads 0x022 (b.vec.srseed.setWidth 64) ∧
      reads 0x023 (0#44 ++ nat 4 b.vec.stack.length ++ b.vec.gates ++ 0#3 ++ b.vec.vrot)) ∧
    ∀ creg : BitVec 12,
      let axn := [0x013, 0x030, 0x031, 0x032, 0x040, 0x041, 0x050, 0x051]
      creg.toNat ∉ [0x000, 0x010, 0x011, 0x012, 0x070, 0x071] → (s.sid = .L → creg.toNat ∉ [0x060, 0x061]) →
      (s.sid ≠ .L → creg.toNat ∉ axn ∧ ¬ (0x100 ≤ creg.toNat ∧ creg.toNat < 0x130)) →
      (s.sid = .X → creg.toNat ∉ [0x020, 0x021, 0x022, 0x023]) → s.block [] [d] = none →
      exec (.crr d creg) s = .next (s.takeTrap (cILLEGAL 9) (creg.setWidth 64))

/-- R61, R107, R109, R111, R193, R335: CRW writes the register and nothing else; where the stream writes no register of that number it
raises ILLEGAL 9, and a BFMT value that is not allowed raises ILLEGAL 13. -/
def Obligations.ControlRegisterWrites : Prop :=
  ∀ (s : State) (a : Opnd) (n : Fin 16),
    let v := s.source [] a
    let writes (creg : BitVec 12) (f : State → State) : Prop :=
      s.block [a] [] = none → ∃ u, s.Read u [a] ∧ exec (.crw a creg) s = .next (f u)
    let vec (f : VecState → VecState) (u : State) : State := { u with bank := { u.bank with vec := f u.bank.vec } }
    let bad (v : Word) : Prop := v.extractLsb 63 50 ≠ 0 ∨ 15 ≤ (v.extractLsb 4 0).toNat ∨ v.extractLsb 9 7 = 7 ∨ v.extractLsb 6 5 = 3 ∨
      (v.extractLsb 6 5 ≠ 0 ∧ v.extractLsb 4 0 ∉ [10#5, 12#5, 13#5, 14#5]) ∨
      (v.extractLsb 14 13 = 3 ∧ v.extractLsb 4 0 ∉ [12#5, 13#5, 14#5]) ∨ (v.extractLsb 12 10 ≠ 0 ∧ v.extractLsb 4 0 ≠ 14)
    let setFmt (v : Word) (u : State) : State := { u with bank := { u.bank with bfmt := u.bank.bfmt.set n v } }
    (s.sid ≠ .L → writes 0x013 (fun u => u.setSt { u.st with hvecEn := v.getLsbD 63, hvecTarget := v.setWidth 13 })) ∧
    (s.sid ≠ .L → writes 0x031 (fun u => { u with bank := { u.bank with pend := v.getLsbD 0 } })) ∧
    (s.sid = .N → writes 0x050 (fun u => { u with bank := { u.bank with pstat := v.setWidth 8 &&& 0xFD#8 } })) ∧
    (s.sid = .L → writes 0x060 (fun u => { u with link := { u.link with lflags := v.setWidth 9 } })) ∧
    (s.sid = .X → writes 0x020 (vec fun x => { x with vflags := v.setWidth 6 }) ∧ writes 0x021 (vec fun x => { x with ftz := v.getLsbD 0 }) ∧
      writes 0x022 (vec fun x => { x with srseed := v.setWidth 16, lanes := [] })) ∧
    (s.sid = .A ∨ s.sid = .X → let creg := BitVec.ofNat 12 (0x100 + n.val)
      (¬ bad v → writes creg (setFmt v)) ∧
      (bad v → s.block [a] [] = none → exec (.crw a creg) s = .next (s.takeTrap (cILLEGAL 13) (creg.setWidth 64)))) ∧
    (∀ creg : BitVec 12, (s.sid ≠ .L → creg ∉ [0x013#12, 0x031#12]) → (s.sid = .N → creg ≠ 0x050) → (s.sid = .L → creg ≠ 0x060) →
      (s.sid = .X → creg ∉ [0x020#12, 0x021#12, 0x022#12]) →
      (s.sid = .A ∨ s.sid = .X → ¬ (0x100 ≤ creg.toNat ∧ creg.toNat < 0x110)) → (∀ w, s.block [a] [] ≠ some (.wait w)) →
      exec (.crw a creg) s = .next (s.takeTrap (cILLEGAL 9) (creg.setWidth 64))) ∧
    (∀ w : Word, exec (.srseedWrite w) s = .next (vec (fun x => { x with srseed := w.setWidth 16, lanes := [] }) s)) ∧
    ∀ w : Word, (bad w → exec (.bfmtWrite n w) s = .next s) ∧ (¬ bad w → exec (.bfmtWrite n w) s = .next (setFmt w s))

/-! ## Scalar memory words -/

/-- R19, R20: an address that is not of the form traps ADDRFORM, else one that is not a multiple of the size traps ALIGN, with TVAL the
formed address and nothing popped, stored or written. -/
def Obligations.AddressTraps : Prop :=
  ∀ (s : State) (sz : Size) (sgn sys wide : Bool) (op : AmoOp) (d a b c : Opnd) (off : BitVec 20) (cls : Fin 16),
    let va := s.source [] a + off.signExtend 64
    let n := sizeBytes sz
    let m := if wide then 8 else 4
    (∀ p ∈ [(Instr.ld sz sgn d a off cls, [a], [d], va, n), (.st sz d a off cls, [a, d], [], va, n),
        (.scld sz sgn sys d a off cls, [a], [d], va, n), (.scst sz sys d a off cls, [a, d], [], va, n),
        (.amo op wide .plain d a b cls, [a, b], [d], s.source [] a, m), (.cas wide .plain d a b c cls, [a, b, c], [d], s.source [] a, m)],
      s.block p.2.1 p.2.2.1 = none →
        let x := p.2.2.2.1
        (2 ^ 56 < x.toNat + p.2.2.2.2 → exec p.1 s = .next (s.takeTrap ⟨0x03, 0⟩ x)) ∧
        (x.toNat + p.2.2.2.2 ≤ 2 ^ 56 → x.toNat % p.2.2.2.2 ≠ 0 → exec p.1 s = .next (s.takeTrap ⟨0x02, 0⟩ x)))

/-- R58, R188, R189, R191, R198: LD. From the core's own banks the value is read at the issue and readable 3 cycles later, through its core-n
window later; with PEND.EN set a pending word among its bytes traps SCRATCHEARLY, with TVAL the address of the lowest one, and words of writes that
are not readable yet are pending; a distant load is sent into its lane, and one of a granule that is not filled asks for the fill; an address
without a place traps. A load of the own banks waits for the accesses that its lane
holds, and for stores that the stream has acquired (log 19, DEDUCED). -/
def Obligations.ScalarLoads : Prop :=
  ∀ (s : State) (sz : Size) (sgn : Bool) (d a : Opnd) (off : BitVec 20) (cls : Fin 16),
    let va := s.source [] a + off.signExtend 64
    let n := sizeBytes sz
    let i : Instr := .ld sz sgn d a off cls
    let own (o : Nat) : Prop := ∃ u, (s.after [a]).route va.toNat n false false = .ok (.across o, u) ∨
      ∃ e, (s.after [a]).route va.toNat n false false = .ok (.own o e, u)
    (∀ l, s.earlyWord l = none ↔ s.bank.pend = false ∨ ∀ x ∈ l, s.pendingWord (x / 8) = false) ∧
    (∀ e ∈ s.core.early, ∀ c ∈ e.cells, s.pendingWord (c.off / 8) = true) ∧
    (s.block [a] [d] = none → va.toNat + n ≤ 2 ^ 56 → va.toNat % n = 0 →
      (∀ o, own o → s.ownHeld cls false [(o, n)] = true → exec i s = .next (s.setSt { s.st with wait := some (.ext .access) })) ∧
      (∀ o w, own o → s.ownHeld cls false [(o, n)] = false → s.earlyWord (upFrom o n) = some w →
        (∃ x ∈ upFrom o n, x / 8 = w ∧ s.pendingWord w = true) ∧ (∀ x ∈ upFrom o n, s.pendingWord (x / 8) = true → w ≤ x / 8) ∧
        exec i s = .next (s.takeTrap ⟨0x0E, 0⟩ (BitVec.ofNat 64 (va.toNat + 8 * w - o)))) ∧
      (∀ o e u, (s.after [a]).route va.toNat n false false = .ok (.own o e, u) → s.ownHeld cls false [(o, n)] = false →
        s.earlyWord (upFrom o n) = none →
        ∃ t, exec i s = .next t ∧ s.Wrote t [a] (some d) (loadValue n sgn (s.mem.readN (scratchLoc s.coreNo o) n)) 3) ∧
      (∀ o u, (s.after [a]).route va.toNat n false false = .ok (.across o, u) → s.ownHeld cls false [(o, n)] = false →
        s.earlyWord (upFrom o n) = none →
        ∃ t x, exec i s = .next t ∧ s.Sent t [a] [d] x ∧ x.cls = cls ∧ x.req = .load n sgn ∧ x.dest = .scalar d ∧ x.todo = [] ∧
          x.got = [(0, s.mem.readN (scratchLoc s.coreNo o) n)]) ∧
      (∀ e g o u, (s.after [a]).route va.toNat n false false = .ok (.fill e g o, u) →
        ∃ t x, exec i s = .next t ∧ s.Sent { t with bank := { t.bank with fills := s.bank.fills } } [a] [d] x ∧ x.cls = cls ∧
          x.req = .load n sgn ∧ x.dest = .scalar d ∧
          x.todo = [{ num := 0, va := va.toNat, place := some (s.unfilled e g o), n := n, bytes := [], nib := 0 }] ∧
          (∃ f ∈ t.bank.fills, f.entry = e.val ∧ f.granule = g)) ∧
      (∀ p u, (s.after [a]).route va.toNat n false false = .ok (.away p, u) →
        ∃ t x, exec i s = .next t ∧ s.Sent t [a] [d] x ∧ x.cls = cls ∧ x.req = .load n sgn ∧ x.dest = .scalar d ∧
          x.todo = [{ num := 0, va := va.toNat, place := some p, n := n, bytes := [], nib := 0 }]) ∧
      (∀ c, (s.after [a]).route va.toNat n false false = .error c → exec i s = .next (s.takeTrap c va)))

/-- R58, R188, R189, R198: ST. Into the core's own banks the bytes are written 3 counted cycles later, and an entry of the region map notes
them; a distant store is sent into its lane; one into a granule that is not filled waits for the fill, and takes its fault; an address without a
place traps. No register changes. A store to the own banks waits for the accesses that its lane holds, for the stream's earlier ones to the same
bytes and for stores that it has acquired (log 19, DEDUCED); that the store of a granule not filled waits at its issue is log 20 (DEDUCED). -/
def Obligations.ScalarStores : Prop :=
  ∀ (s : State) (sz : Size) (d a : Opnd) (off : BitVec 20) (cls : Fin 16),
    let va := s.source [] a + off.signExtend 64
    let n := sizeBytes sz
    let bytes := leBytes (s.source [a] d).toNat n
    let i : Instr := .st sz d a off cls
    s.block [a, d] [] = none → va.toNat + n ≤ 2 ^ 56 → va.toNat % n = 0 →
      (∀ o e u, (s.after [a, d]).route va.toNat n true false = .ok (.own o e, u) ∨
          (s.after [a, d]).route va.toNat n true false = .ok (.across o, u) → s.ownHeld cls true [(o, n)] = true →
        exec i s = .next (s.setSt { s.st with wait := some (.ext .access) })) ∧
      (∀ o e u, (s.after [a, d]).route va.toNat n true false = .ok (.own o e, u) ∨
          (e = none ∧ (s.after [a, d]).route va.toNat n true false = .ok (.across o, u)) →
          s.ownHeld cls true [(o, n)] = false →
        ∃ u, s.Read u [a, d] ∧ exec i s = .next { u with
          issued := s.issued + 1
          core := { u.core with early := u.core.early ++
            [{ bank := s.bankNo, by_ := s.sid, ord := s.issued, cls := cls.val, mapped := e.isSome, due := s.now + 3
               cells := ((upFrom o n).zip bytes).map fun c => { off := c.1, nib := 0, byte := c.2 } }] }
          bank := match e with
            | none => u.bank
            | some e => { u.bank with map := u.bank.map.set e (u.bank.map[e].write va.toNat n) }
          forward := u.forward.filter fun f => !(f.core == s.coreNo && (upFrom o n).any fun x => decide (f.off ≤ x ∧ x < f.off + 2048)) }) ∧
      (∀ e g o u, (s.after [a, d]).route va.toNat n true false = .ok (.fill e g o, u) →
        (s.fillFault e.val g = none → exec i s = .next ((s.askFill e.val g s.issued).hold (.ext .fill))) ∧
        ∀ c, s.fillFault e.val g = some c → exec i s = .next ((s.dropFill e.val g).takeTrap ⟨c.1, c.2⟩ va)) ∧
      (∀ p u, (s.after [a, d]).route va.toNat n true false = .ok (.away p, u) →
        ∃ t x, exec i s = .next t ∧ s.Sent t [a, d] [] x ∧ x.cls = cls ∧ x.req = .store ∧ x.dest = .none ∧
          x.todo = [{ num := 0, va := va.toNat, place := some p, n := n, bytes := bytes, nib := 0 }]) ∧
      (∀ c, (s.after [a, d]).route va.toNat n true false = .error c → exec i s = .next (s.takeTrap c va))

/-- R259, R260, R261, R262: AMO and CAS. On the core's own banks the operation is one step on the bytes as the earlier writes of the
stream leave them, its old value readable 6 cycles later, through the core-n window later; elsewhere it is sent into its lane, with its scope where it is an SC
operation; the first check that fails traps. That it waits behind its lane, the stream's accesses to the same bytes and stores that the stream has
acquired, then behind the stream's own writes of its class, and otherwise acts on the earlier writes, is log 19 (DEDUCED). -/
def Obligations.AtomicWords : Prop :=
  ∀ (s : State) (op : AmoOp) (wide : Bool) (sc : ScMode) (d a b c : Opnd) (cls : Fin 16) (cas : Bool),
    let m := if wide then 8 else 4
    let va := s.source [] a
    let y := (s.source [a] b).setWidth (8 * m)
    let z := (s.source [a, b] c).setWidth (8 * m)
    let srcs := if cas then [a, b, c] else [a, b]
    let i : Instr := if cas then .cas wide sc d a b c cls else .amo op wide sc d a b cls
    let req : Req := if cas then .cas m (s.source [a] b) (s.source [a, b] c) else .amo op m (s.source [a] b)
    let f : AtomicForm := { size := m, reads := true, writes := true, sc := sc != .plain, host := cas || op == .add || op == .swap }
    let old (o : Nat) : BitVec (8 * m) := BitVec.ofNat (8 * m) (leNat (s.ownBytes o m))
    let new (o : Nat) : BitVec (8 * m) := if cas then (if old o = y then z else old o) else
      match op with
      | .add => old o + y
      | .min => if y.slt (old o) then y else old o
      | .max => if (old o).slt y then y else old o
      | .minu => if y.ult (old o) then y else old o
      | .maxu => if (old o).ult y then y else old o
      | .and => old o &&& y
      | .or => old o ||| y
      | .xor => old o ^^^ y
      | .swap => y
    let value (o : Nat) : Word :=
      if wide = false ∧ (cas = true ∨ op ≠ .minu ∧ op ≠ .maxu) then (old o).signExtend 64 else (old o).setWidth 64
    let rest (t : State) : State := { t with mem := s.mem, forward := s.forward, core := { t.core with early := s.core.early } }
    let step (t : State) (o : Nat) : Prop :=
      (∀ k, k < m → (t.ownBytes (o + k) 1) = if cas = true ∧ old o ≠ y then s.ownBytes (o + k) 1 else [(new o).extractLsb' (8 * k) 8]) ∧
      ∀ x, ¬ (scratchLoc s.coreNo o ≤ x ∧ x < scratchLoc s.coreNo o + m) → t.mem.read x = s.mem.read x
    s.block srcs [d] = none →
      (∀ o e u, s.Inv → (s.after srcs).atomicCheck f va = .ok (.own o e, u) → s.stepHeld cls o m = none →
        ∃ t, exec i s = .next t ∧ (∀ n : Fin 32, t.reg n = if n ≠ 0 ∧ d = .s n then value o else s.reg n) ∧ s.Issued t ∧ s.Quiet (rest t) ∧
          step t o) ∧
      (∀ o u, s.Inv → (s.after srcs).atomicCheck f va = .ok (.across o, u) → s.stepHeld cls o m = none →
        ∃ t x, exec i s = .next t ∧ s.Sent (rest t) srcs [d] x ∧ x.cls = cls ∧ x.req = req ∧ x.dest = .scalar d ∧ x.sc = none ∧ x.todo = [] ∧
          x.got = [(0, s.ownBytes o m)] ∧ step t o) ∧
      (∀ r u o, (s.after srcs).atomicCheck f va = .ok (r, u) → ((∃ e, r = .own o e) ∨ r = .across o) →
        let early : Prop := ∃ e ∈ s.core.early, e.bank = s.bankNo ∧ e.by_ = s.sid ∧ e.cls = cls
        (s.ownHeld cls true [(o, m)] = true → exec i s = .next (s.setSt { s.st with wait := some (.ext .access) })) ∧
        (s.ownHeld cls true [(o, m)] = false → early → exec i s = .next (s.setSt { s.st with wait := some .result })) ∧
        (s.stepHeld cls o m = none ↔ s.ownHeld cls true [(o, m)] = false ∧ ¬ early)) ∧
      (∀ p u, (s.after srcs).atomicCheck f va = .ok (.away p, u) →
        ∃ t x, exec i s = .next t ∧ s.Sent t srcs [d] x ∧ x.cls = cls ∧ x.req = req ∧ x.dest = .scalar d ∧
          x.sc = (match sc with | .plain => none | .device => some (.device, none) | .system => some (.system, none)) ∧
          x.todo = [{ num := 0, va := va.toNat, place := some p, n := m, bytes := [], nib := 0 }]) ∧
      (∀ e, (s.after srcs).atomicCheck f va = .error e → exec i s = .next (s.takeTrap e va))

/-- R236, R259, R263: SCLD and SCST are sent into their lane with their scope; the first check that fails traps, NOWHEEL where the
iteration holds no position of the wheel among them. -/
def Obligations.ScWords : Prop :=
  ∀ (s : State) (sz : Size) (sgn system st : Bool) (d a : Opnd) (off : BitVec 20) (cls : Fin 16),
    let va := s.source [] a + off.signExtend 64
    let n := sizeBytes sz
    let srcs := if st then [a, d] else [a]
    let dsts := if st then [] else [d]
    let i : Instr := if st then .scst sz system d a off cls else .scld sz sgn system d a off cls
    let f : AtomicForm := { size := n, reads := true, writes := st, sc := true, host := false }
    s.block srcs dsts = none →
      (∀ p u, (s.after srcs).atomicCheck f va = .ok (.away p, u) →
        ∃ t x, exec i s = .next t ∧ s.Sent t srcs dsts x ∧ x.cls = cls ∧ x.req = (if st then .store else .load n sgn) ∧
          x.dest = (if st then .none else .scalar d) ∧ x.sc = some (if system then .system else .device, none) ∧
          x.todo = [{ num := 0, va := va.toNat, place := some p, n := n, nib := 0
                      bytes := if st then leBytes (s.source [a] d).toNat n else [] }]) ∧
      (∀ e, (s.after srcs).atomicCheck f va = .error e → exec i s = .next (s.takeTrap e va)) ∧
      (va.toNat + n ≤ 2 ^ 56 → va.toNat % n = 0 → s.bank.wheelCount = 0 → exec i s = .next (s.takeTrap ⟨0x0D, 0⟩ va))

/-! ## Fences, events and keys -/

/-- R229, R264, R297, R351, R352: FENCE with an empty mask gives 0 at once and else waits for its status; KEYKILL and GENBUMP wait for what
has captured the key or the generation, and trap without the privilege, KEYKILL also while the key unit is not ready (R394; that the refusal comes
at its issue is log 92, DEDUCED); ECANCEL removes the commands that are not accepted. That KEYKILL, GENBUMP and ECANCEL issue and give their
result later is log 23 (DEDUCED). -/
def Obligations.RetiringWords : Prop :=
  ∀ (s : State) (scope : Scope) (d a : Opnd) (eng : EngSel),
    let x := s.source [] a
    let retired (u : State) (what : Retiring) : State :=
      { u with retires := u.retires ++ [{ agent := s.agent, ord := s.issued, what := what, dst := d }] }
    let priv := (s.spaceAt s.space).priv
    let mine (c : Cmd) : Bool := c.bank == s.bankNo
    let copy := if eng = .index then [] else s.core.copyQ
    let index := if eng = .copy then [] else s.core.indexQ
    let n := ((copy ++ index).filter fun c => mine c && !c.accepted).length
    let kept (l : List Cmd) := l.filter fun c => !mine c || c.accepted
    let cut : State := { s with core := { s.core with
      copyQ := if eng = .index then s.core.copyQ else kept s.core.copyQ
      indexQ := if eng = .copy then s.core.indexQ else kept s.core.indexQ } }
    (s.block [a] [d] = none → x.setWidth 16 = 0#16 → ∃ t, exec (.fence scope d a) s = .next t ∧ s.Wrote t [a] (some d) 0 1) ∧
    (s.block [a] [d] = none → x.setWidth 16 ≠ 0#16 → ∃ u, s.Awaits u [a] d ∧ exec (.fence scope d a) s = .next (u.setSt { u.st with
      fences := u.st.fences ++ [{ mask := x.setWidth 16, scope := scope, ord := s.issued, dst := d }] })) ∧
    (s.block [a] [d] = none →
      (1 ≤ x.toNat → x.toNat ≤ 65535 → priv.getLsbD 0 = true → s.bureau.ready0.getLsbD 28 = true → ∃ u, s.Awaits u [a] d ∧
        exec (.keykill d a) s = .next (retired u (.key x.toNat))) ∧
      (1 ≤ x.toNat → x.toNat ≤ 65535 → priv.getLsbD 0 = true → s.bureau.ready0.getLsbD 28 = false →
        exec (.keykill d a) s = .next (s.takeTrap ⟨0x07, 2⟩ x)) ∧
      (x.toNat = 0 ∨ 65535 < x.toNat → exec (.keykill d a) s = .next (s.takeTrap ⟨0x01, 14⟩ x)) ∧
      (1 ≤ x.toNat → x.toNat ≤ 65535 → priv.getLsbD 0 = false → exec (.keykill d a) s = .next (s.takeTrap ⟨0x07, 3⟩ x))) ∧
    (priv.getLsbD 1 = true → s.block [] [d] = none → ∃ u, s.Awaits u [] d ∧ exec (.genbump d) s = .next (retired u (.gen s.space))) ∧
    (priv.getLsbD 1 = false → s.block [] [d] = none → exec (.genbump d) s = .next (s.takeTrap ⟨0x07, 3⟩ (BitVec.ofNat 64 s.space))) ∧
    (s.block [] [d] = none →
      (((copy ++ index).any fun c => mine c && c.accepted) = false →
        ∃ t, exec (.ecancel eng d) s = .next t ∧ cut.Wrote t [] (some d) (BitVec.ofNat 64 n) 1) ∧
      (((copy ++ index).any fun c => mine c && c.accepted) = true →
        ∃ u, cut.Awaits u [] d ∧ exec (.ecancel eng d) s = .next (retired u (.cancel eng n))))

/-- R354: WAITEV gives the events of its mask that hold, bit 63 past its deadline, and else waits; a mask of 0, one with a bit above 31, or
one that names a queue of another consumer traps. Without a deadline it traps with subcode 11 where none of its events can come to hold any more
and it is the A stream's, or the A stream has exited or waits so itself (R126, R273); that all of the mask must be so, and that TVAL is
that of its lowest event, is log 25 (DEDUCED). -/
def Obligations.EventWait : Prop :=
  ∀ (s : State) (d a b : Opnd), s.block [a, b] [d] = none →
    let m := s.source [] a
    let dl := s.source [a] b
    let bad : Prop := m = 0 ∨ 2 ^ 32 ≤ m.toNat ∨ ∃ q : Fin 16, m.getLsbD q.val = true ∧ qConsumer q ≠ s.sid
    let queue (q : Fin 16) : Prop := m.getLsbD q.val = true ∧ ∃ e ∈ s.bank.q[q], e.filled ≠ none
    let barrier (k : Fin 8) : Prop := m.getLsbD (16 + k.val) = true ∧ s.bank.abexp[k].toNat ≤ s.bank.abarr[k].toNat
    let buffer (k : Fin 8) : Prop := m.getLsbD (24 + k.val) = true ∧ s.bank.cb[k].done ≠ s.bank.cb[k].taken
    let some' : Prop := (∃ q, queue q) ∨ (∃ k, barrier k) ∨ ∃ k, buffer k
    (bad → exec (.waitev d a b) s = .next (s.takeTrap ⟨0x01, 14⟩ m)) ∧
    (¬ bad → some' → ∃ t v, exec (.waitev d a b) s = .next t ∧ s.Wrote t [a, b] (some d) v 1 ∧ v.toNat < 2 ^ 32 ∧
      (∀ q : Fin 16, v.getLsbD q.val = true ↔ queue q) ∧
      (∀ k : Fin 8, (v.getLsbD (16 + k.val) = true ↔ barrier k) ∧ (v.getLsbD (24 + k.val) = true ↔ buffer k))) ∧
    (¬ bad → ¬ some' → dl ≠ 0 → dl.toNat ≤ s.bank.cycle → ∃ t, exec (.waitev d a b) s = .next t ∧
      s.Wrote t [a, b] (some d) (BitVec.twoPow 64 63) 1) ∧
    (¬ bad → ¬ some' → dl ≠ 0 → s.bank.cycle < dl.toNat → exec (.waitev d a b) s =
      .next (s.setSt { s.st with wait := some (.ext .event) })) ∧
    (let never (i : Nat) : Prop :=
        (∀ q : Fin 16, i = q.val → ∃ c v, s.popBlock q 0 = some (.trap c v)) ∧
        (∀ k : Fin 8, i = 16 + k.val → ∀ x ∈ s.cmds, barrierOf x.instr ≠ some k.val) ∧
        ∀ k : Fin 8, i = 24 + k.val → ∀ x ∈ s.cmds, x.buffer ≠ some k.val
    ¬ bad → ¬ some' → dl = 0 →
        ((∃ i, i < 32 ∧ m.getLsbD i = true ∧ ¬ never i) ∨ (s.sid ≠ .A ∧ s.aStuck = false) →
          exec (.waitev d a b) s = .next (s.setSt { s.st with wait := some (.ext .event) })) ∧
        ∀ i, i < 32 → m.getLsbD i = true → (∀ j, j < i → m.getLsbD j = false) →
          (∀ j, j < 32 → m.getLsbD j = true → never j) → s.sid = .A ∨ s.aStuck = true →
          exec (.waitev d a b) s = .next (s.takeTrap ⟨0x01, 11⟩
            (BitVec.ofNat 64 (if i < 16 then i else if i < 24 then 0x28 + (i - 16) else 0x20 + (i - 24)))))

/-! ## Digest words -/

/-- R217 to R223: DGET, DGETV, DCLS and DREDO. A word that is gated off only goes on; a VA above 2^56 traps ADDRFORM; a word of no block and one of
a window VA give zeros at once; else the access is sent with its parts, and the first block that faults decides the trap. -/
def Obligations.DigestWords : Prop :=
  ∀ (s : State) (g : Gate) (ty : Ty) (d a b c : Opnd) (vd : Fin 64) (m : Fin 8) (cls : Fin 16),
    let va := s.source [] a
    let off : Prop := ∃ j, g = some j ∧ s.bank.vec.gates.getLsbD j.val = false
    let n := (s.source [a] b).toNat
    let parts (srcs : List Opnd) (n : Nat) (wr : Bool) (r : List Piece) : Prop := ∃ u, (s.after srcs).digestParts va.toNat n wr = .ok (r, u)
    let fails (srcs : List Opnd) (n : Nat) (wr : Bool) (c : Cause) (v : Nat) : Prop := (s.after srcs).digestParts va.toNat n wr = .error (c, v)
    let empty (n : Nat) : Prop := n = 0 ∨ va.toNat / 2 ^ 48 = 0xFF
    let trap (i : Instr) (c : Cause) (v : Word) : Prop := exec i s = .next (s.takeTrap c v)
    let pv := s.bank.vec.phys vd
    let m' : Fin 8 := m + 1
    let masks (u : State) (f : VecState → VecState) : State := { u with tlb := s.tlb, bank := { u.bank with vec := f u.bank.vec } }
    (off → ∃ u, s.Read u [] ∧ exec (.dgetv g vd a b m cls) s = .next u ∧ exec (.dcls g ty m a b c cls) s = .next u) ∧
    (va.toNat < 2 ^ 56 →
      (s.block [a] [d, b, c] = none → empty 1 → ∃ t, exec (.dget d a b c cls) s = .next t ∧
        s.Quiet { t with tlb := s.tlb } ∧ s.Issued t ∧
        ∀ r : Fin 32, t.reg r = if r ≠ 0 ∧ Opnd.s r ∈ [d, b, c] then 0 else s.reg r) ∧
      (∀ p l, s.block [a] [d, b, c] = none → parts [a] 1 false (p :: l) → ∃ t x, exec (.dget d a b c cls) s = .next t ∧
        s.Sent t [a] [d, b, c] x ∧ x.cls = cls ∧ x.req = .dget b c ∧ x.dest = .scalar d ∧ x.todo = p :: l) ∧
      (s.block [a, b] [d] = none → empty n → ∃ t, exec (.dredo d a b cls) s = .next t ∧
        s.Wrote { t with tlb := s.tlb } [a, b] (some d) 0 1) ∧
      (∀ p l, s.block [a, b] [d] = none → parts [a, b] (min n 65536) true (p :: l) → ∃ t x, exec (.dredo d a b cls) s = .next t ∧
        s.Sent t [a, b] [d] x ∧ x.cls = cls ∧ x.req = .dredo ∧ x.dest = .scalar d ∧ x.todo = p :: l) ∧
      (¬ off → s.block [a, b] [] = none → empty n → ∃ t u, exec (.dgetv g vd a b m cls) s = .next t ∧
        s.Read u [a, b] ∧ { t with tlb := s.tlb } = masks u fun v => { v with v := v.v.set pv 0, m := v.m.set m 0 }) ∧
      (∀ p l, ¬ off → s.block [a, b] [] = none → parts [a, b] (min n 32) false (p :: l) → ∃ t x, exec (.dgetv g vd a b m cls) s = .next t ∧
        s.Sent t [a, b] [] x ∧ x.cls = cls ∧ x.req = .dgetv m ∧ x.dest = .vec pv ∧ x.todo = p :: l) ∧
      (¬ off → s.block [a, b, c] [] = none → empty n → ∃ t u, exec (.dcls g ty m a b c cls) s = .next t ∧
        s.Read u [a, b, c] ∧ { t with tlb := s.tlb } = masks u fun v => { v with m := (v.m.set m 0).set m' 0 }) ∧
      (∀ p l, ¬ off → s.block [a, b, c] [] = none → parts [a, b, c] (min n 1024) false (p :: l) →
        ∃ t x, exec (.dcls g ty m a b c cls) s = .next t ∧
          s.Sent t [a, b, c] [] x ∧ x.cls = cls ∧ x.req = .dcls ty (s.source [a, b] c) m ∧ x.dest = .none ∧ x.todo = p :: l) ∧
      ∀ e v, (s.block [a] [d, b, c] = none → fails [a] 1 false e v → trap (.dget d a b c cls) e (BitVec.ofNat 64 v)) ∧
        (s.block [a, b] [d] = none → fails [a, b] (min n 65536) true e v → trap (.dredo d a b cls) e (BitVec.ofNat 64 v)) ∧
        (¬ off → s.block [a, b] [] = none → fails [a, b] (min n 32) false e v → trap (.dgetv g vd a b m cls) e (BitVec.ofNat 64 v)) ∧
        (¬ off → s.block [a, b, c] [] = none → fails [a, b, c] (min n 1024) false e v →
          trap (.dcls g ty m a b c cls) e (BitVec.ofNat 64 v))) ∧
    (2 ^ 56 ≤ va.toNat →
      (s.block [a] [d, b, c] = none → trap (.dget d a b c cls) ⟨0x03, 0⟩ va) ∧
      (s.block [a, b] [d] = none → trap (.dredo d a b cls) ⟨0x03, 0⟩ va) ∧
      (¬ off → s.block [a, b] [] = none → trap (.dgetv g vd a b m cls) ⟨0x03, 0⟩ va) ∧
      (¬ off → s.block [a, b, c] [] = none → trap (.dcls g ty m a b c cls) ⟨0x03, 0⟩ va))

/-! ## Region maps, buffers and barriers -/

/-- R197, R265, R266, R267: RMAP refuses its values in their order, and installs an empty entry once what the old one had written is home;
RUNMAP drops an entry; RSYNC gives the bytes that its write-back sent, once its stores are acknowledged or have failed. Where written
bytes are left a write-back is started and the word waits; RMAP and RUNMAP of a valid entry wait while anything still uses it, and write back
again what was written meanwhile. That the words hold their stream until the write-back has ended is log 23 (DEDUCED). -/
def Obligations.MapWords : Prop :=
  ∀ (s : State) (rw : Bool) (a b c d : Opnd) (e : Fin 16) (cls : Fin 16) (w : Option (Fin 16)),
    let x := (s.source [] a).toNat
    let y := (s.source [a] b).toNat
    let z := (s.source [a, b] c).toNat
    let old := s.bank.map[e]
    let overlap (p n q m : Nat) : Prop := p < q + m ∧ q < p + n
    let badA : Prop := x % 2048 ≠ 0 ∨ 2 ^ 56 ≤ x ∨ x / 2 ^ 48 = 0xFF ∨ 2 ^ 56 < x + 2048 * z
    let badB : Prop := y % 2048 ≠ 0 ∨ 2 ^ 22 < y + 2048 * z
    let badC : Prop := z = 0 ∨ 2048 < z
    let shared : Prop := ∃ k : Fin 16, k ≠ e ∧ s.bank.map[k].valid = true ∧
      (overlap s.bank.map[k].vabase (s.bank.map[k].len * 2048) x (z * 2048) ∨
        overlap s.bank.map[k].spbase (s.bank.map[k].len * 2048) y (z * 2048))
    let new : MapEntry := { valid := true, vabase := x, spbase := y, len := z, rw := rw, cls := cls, filled := [], written := [] }
    let withMap (u : State) (m : MapEntry) : State := { u with bank := { u.bank with
      map := u.bank.map.set e m, fills := u.bank.fills.filter fun f => f.entry != e.val } }
    let waits := s.setSt { s.st with wait := some (.ext .access) }
    let started (by' : WbBy) (l : List (Fin 16)) : State :=
      s.setSt { s.st with wait := some (.ext .access) } |>.setBank fun k =>
        { k with wb := some { by_ := by', left := l, sent := 0, stopped := false } }
    let again (by' : WbBy) (n : Nat) (st : Bool) (o : Option (List (Nat × Nat))) : State :=
      s.setSt { s.st with wait := some (.ext .access) } |>.setBank fun k =>
        { k with wb := some { by_ := by', left := [e], sent := n, stopped := st, only := o } }
    let chosen := (match w with | some k => [k] | none => List.finRange 16).filter fun k => s.bank.map[k].valid
    let noWb (u : State) : State := { u with bank := { u.bank with wb := none } }
    (s.block [a, b, c] [] = none →
      let i : Instr := .rmap rw a b c e cls
      let trap (v : Nat) : Prop := exec i s = .next (s.takeTrap ⟨0x01, 14⟩ (BitVec.ofNat 64 v))
      (badA → trap x) ∧ (¬ badA → badB → trap y) ∧ (¬ badA → ¬ badB → badC → trap z) ∧
      (¬ badA → ¬ badB → ¬ badC → shared → trap x) ∧
      (¬ badA → ¬ badB → ¬ badC → ¬ shared →
        (old.valid = false ∨ (s.mapQuiet e.val = true ∧ s.bank.wb = none ∧ old.written = []) →
          ∃ u, s.Read u [a, b, c] ∧ exec i s = .next (withMap u new)) ∧
        (old.valid = true → s.mapQuiet e.val = false → exec i s = .next waits) ∧
        (old.valid = true → s.mapQuiet e.val = true → s.bank.wb = none → old.written ≠ [] → exec i s = .next (started .rmap [e])) ∧
        (∀ n st o, old.valid = true → s.mapQuiet e.val = true → s.sentBack = true →
          s.bank.wb = some { by_ := .rmap, left := [], sent := n, stopped := st, only := o } →
            (old.written = [] → ∃ u, (noWb s).Read u [a, b, c] ∧ exec i s = .next (withMap u new)) ∧
            (old.written ≠ [] → exec i s = .next (again .rmap n st o))) ∧
        (∀ q, old.valid = true → s.mapQuiet e.val = true → s.bank.wb = some q → q.by_ ≠ .rmap ∨ q.left ≠ [] ∨ s.sentBack = false →
          exec i s = .next waits))) ∧
    (old.valid = false → ∃ u, s.Read u [] ∧ exec (.runmap e) s = .next u) ∧
    (old.valid = true → s.mapQuiet e.val = false → exec (.runmap e) s = .next waits) ∧
    (old.valid = true → s.mapQuiet e.val = true → s.bank.wb = none →
      (old.written = [] → ∃ u, s.Read u [] ∧ exec (.runmap e) s = .next (withMap u MapEntry.zero)) ∧
      (old.written ≠ [] → exec (.runmap e) s = .next (started .runmap [e]))) ∧
    (∀ n st o, old.valid = true → s.mapQuiet e.val = true → s.sentBack = true →
      s.bank.wb = some { by_ := .runmap, left := [], sent := n, stopped := st, only := o } →
        (old.written = [] → ∃ u, (noWb s).Read u [] ∧ exec (.runmap e) s = .next (withMap u MapEntry.zero)) ∧
        (old.written ≠ [] → exec (.runmap e) s = .next (again .runmap n st o))) ∧
    (∀ q, old.valid = true → s.mapQuiet e.val = true → s.bank.wb = some q → q.by_ ≠ .runmap ∨ q.left ≠ [] ∨ s.sentBack = false →
      exec (.runmap e) s = .next waits) ∧
    (s.block [] [d] = none →
      (s.bank.wb = none → (∀ k ∈ chosen, s.bank.map[k].written = []) →
        ∃ t, exec (.rsync d w) s = .next t ∧ s.Wrote t [] (some d) 0 1) ∧
      (s.bank.wb = none → (∃ k ∈ chosen, s.bank.map[k].written ≠ []) → exec (.rsync d w) s = .next (started .rsync chosen)) ∧
      (∀ n st o, s.sentBack = true → s.bank.wb = some { by_ := .rsync, left := [], sent := n, stopped := st, only := o } →
        ∃ t, exec (.rsync d w) s = .next t ∧ (noWb s).Wrote t [] (some d) (BitVec.ofNat 64 n) 1) ∧
      (∀ q, s.bank.wb = some q → q.by_ ≠ .rsync ∨ q.left ≠ [] ∨ s.sentBack = false → exec (.rsync d w) s = .next waits))

/-- R269 to R275: CBSET and ABSET refuse their values, wait while a command pushed before them names the buffer or barrier, and set it
(ABSET keeps what later commands have brought meanwhile); CBWAIT gives the slot at
TAKEN once one is done, CBREL takes it; ABWAIT goes on once the bytes have arrived. -/
def Obligations.BufferWords : Prop :=
  ∀ (s : State) (n : Fin 8) (a b c d : Opnd),
    let x := (s.source [] a).toNat
    let y := (s.source [a] b).toNat
    let z := (s.source [a, b] c).toNat
    let k := s.bank.cb[n]
    let trap (i : Instr) (sub v : Nat) : Prop := exec i s = .next (s.takeTrap ⟨0x01, sub⟩ (BitVec.ofNat 64 v))
    let waits (w : Wait) := s.setSt { s.st with wait := some w }
    let before := match s.st.wait with
      | some (.ext (.config m o)) | some (.ext (.phase m o _)) => if m = n then o else s.issued
      | _ => s.issued
    let carried := match s.st.wait with
      | some (.ext (.phase m _ o)) => if m = n then o else 0
      | _ => 0
    let named := s.cmds.any fun x => x.buffer == some n.val && decide (x.ord < before)
    let toward := s.cmds.any fun x => barrierOf x.instr == some n.val && decide (x.ord < before)
    (s.block [a, b, c] [] = none →
      let i : Instr := .cbset n a b c
      let badA : Prop := x % 64 ≠ 0 ∨ 2 ^ 22 ≤ x
      let badB : Prop := y % 64 ≠ 0 ∨ y = 0 ∨ 2 ^ 22 < y
      let badC : Prop := z = 0 ∨ 256 < z
      (badA → trap i 14 x) ∧ (¬ badA → badB → trap i 14 y) ∧ (¬ badA → ¬ badB → badC → trap i 14 z) ∧
      (¬ badA → ¬ badB → ¬ badC → 2 ^ 22 < x + y * z → trap i 14 (x + y * z)) ∧
      (¬ badA → ¬ badB → ¬ badC → x + y * z ≤ 2 ^ 22 →
        (named = true → exec i s = .next (waits (.ext (.config n before)))) ∧
        (named = false → ∃ u, s.Read u [a, b, c] ∧ exec i s = .next { u with bank := { u.bank with
          cb := u.bank.cb.set n { base := x, slot := y, count := z, taken := 0, done := 0, put := 0 } } }))) ∧
    (k.count = 0 → (s.block [] [d] = none → trap (.cbwait n d) 14 n.val) ∧ trap (.cbrel n) 14 n.val) ∧
    (k.count ≠ 0 → k.done ≠ k.taken →
      (s.block [] [d] = none → ∃ t, exec (.cbwait n d) s = .next t ∧
        s.Wrote t [] (some d) (BitVec.ofNat 64 (k.base + k.taken % k.count * k.slot)) 1) ∧
      (s.ownReady ≤ s.now → ∃ u, s.Read u [] ∧ exec (.cbrel n) s = .next { u with bank := { u.bank with
        cb := u.bank.cb.set n { k with
          taken := (k.taken + 1) % (k.count * (2 ^ 16 / k.count)), freed := k.freed + 1 } } })) ∧
    (k.count ≠ 0 → k.done = k.taken → trap (.cbrel n) 14 n.val ∧ (s.block [] [d] = none →
      (s.namesBuffer n.val = true → exec (.cbwait n d) s = .next (waits (.ext (.buffer n)))) ∧
      (s.namesBuffer n.val = false → s.sid = .A → trap (.cbwait n d) 11 (0x20 + n.val)))) ∧
    (s.block [a] [] = none →
      (2 ^ 40 ≤ x → trap (.abset n a) 14 x) ∧
      (x < 2 ^ 40 → toward = true → exec (.abset n a) s = .next (waits (.ext (.phase n before carried)))) ∧
      (x < 2 ^ 40 → toward = false → ∃ u, s.Read u [a] ∧ exec (.abset n a) s = .next { u with bank := { u.bank with
        abexp := u.bank.abexp.set n (BitVec.ofNat 40 x), abarr := u.bank.abarr.set n (BitVec.ofNat 40 (min carried (2 ^ 40 - 1))) } })) ∧
    (s.bank.abexp[n].toNat ≤ s.bank.abarr[n].toNat → ∃ u, s.Read u [] ∧ exec (.abwait n) s = .next u) ∧
    (s.bank.abarr[n].toNat < s.bank.abexp[n].toNat →
      (s.namesBarrier n.val = true → exec (.abwait n) s = .next (waits (.ext (.barrier n)))) ∧
      (s.namesBarrier n.val = false → s.sid = .A → trap (.abwait n) 11 (0x28 + n.val)))

/-! ## Engine commands -/

/-- R12, R280, R281, R284, R286, R287: a command word takes its operands, a, b, c, then d, and joins the FIFO of its engine, if no check of R287
fails and fewer than 8 commands stand there; with 8 it waits. The rows of R287 stand behind each command in their order, as condition and TVAL:
the first that fails traps ECMD. (The hull of CPYS as lowest and highest row start is log 51, DEDUCED; the source length of SF and of banks of
other formats is `srcBytes` of R289.) -/
def Obligations.EngineCommands : Prop :=
  ∀ (s : State) (cb sf ge rpl : Bool) (sz : Size) (pr : Pred) (at_ : AddTy) (st : SelTy) (d a b c : Opnd) (n m : Fin 31) (j k : Fin 30)
      (t : CTail),
    let r (n : Nat) : Word := if h : n < 32 then s.reg ⟨n, h⟩ else 0
    let rn (n : Nat) : Nat := (r n).toNat
    let ill (v n : Nat) : Prop := ¬ (n = 0 ∨ v < 2 ^ 56 ∧ v + n ≤ 2 ^ 56 ∧
      ((winOf v = .mapped ∧ winOf (v + n - 1) = .mapped) ∨ (∃ x y, winOf v = .self x ∧ winOf (v + n - 1) = .self y) ∨
        ∃ q x y, winOf v = .core q x ∧ winOf (v + n - 1) = .core q y))
    let buf (d : Nat) : CBuf := s.bank.cb.toList.getD d CBuf.zero
    let noBuf (d : Nat) : Prop × Nat := (cb = true ∧ (7 < d ∨ (buf d).count = 0), d)
    let srcLen (d a ty n : Nat) : Nat := srcBytes (convTypes s.bank.bfmt a (if cb then selfBase + (buf d).base else d)
      (if sf then Ty.ofCode (ty % 32) else none)) n
    let sfRows (d a ty : Nat) : List (Prop × Nat) := [(sf = true ∧ (14 < ty % 32 ∨ ty / 32 ≠ 0), ty), (sf = true ∧ winOf a ≠ .mapped, a),
      (sf = true ∧ cb = false ∧ ∀ x, winOf d ≠ .self x, d)]
    let signed (x : Nat) : Int := (BitVec.ofNat 32 x).toInt
    let low (n1 n2 : Nat) (s1 s2 : Int) : Int := min 0 ((Int.ofNat n1 - 1) * s1) + min 0 ((Int.ofNat n2 - 1) * s2)
    let high (n1 n2 : Nat) (s1 s2 : Int) : Int := max 0 ((Int.ofNat n1 - 1) * s1) + max 0 ((Int.ofNat n2 - 1) * s2)
    let e := sizeBytes sz
    let ea := if at_ = .int64 then 8 else 4
    ∀ p ∈ ([(.cpy cb sf d a b c t, .copy, [s.source [a, b, c] d, s.source [] a, s.source [a] b, s.source [a, b] c],
          fun d a b c => [noBuf d, (2 ^ 40 ≤ b, b), (cb = true ∧ (buf d).slot < b, b)] ++ sfRows d a c ++
            [(ill a (srcLen d a c b), a), (cb = false ∧ ill d b, d)]),
        (.cpys cb sf d a j k t, .copy, [s.source [a] d, s.source [] a, r j.val, r k.val],
          fun d a b c =>
            let n1 := rn (j.val + 1)
            let n2 := rn (j.val + 2)
            let ty := rn (k.val + 2)
            let sl := low n1 n2 (signed c) (signed (rn (k.val + 1)))
            let sh := high n1 n2 (signed c) (signed (rn (k.val + 1)))
            let dl := low n1 n2 (signed (c / 2 ^ 32)) (signed (rn (k.val + 1) / 2 ^ 32))
            let dh := high n1 n2 (signed (c / 2 ^ 32)) (signed (rn (k.val + 1) / 2 ^ 32))
            [noBuf d, (b = 0 ∨ 2 ^ 32 ≤ b, b), (n1 = 0 ∨ 65535 < n1, n1), (n2 = 0 ∨ 65535 < n2, n2)] ++ sfRows d a ty ++
              [(sf = false ∧ ty ≠ 0, ty), (ill (moved a sl) ((sh - sl).toNat + srcLen d a ty b), moved a sl),
                (if cb then dl < 0 ∨ Int.ofNat (buf d).slot < dh + Int.ofNat b else ill (moved d dl) ((dh - dl).toNat + b),
                  moved (if cb then 0 else d) dl)]),
        (.cpyt sz d a n c t, .copy, [s.source [a, c] d, s.source [] a, r n.val, s.source [a] c],
          fun d a b c =>
            let cols := rn (n.val + 1)
            [(b = 0 ∨ 65535 < b, b), (cols = 0 ∨ 65535 < cols, cols), (c % 2 ^ 32 < cols * e, c % 2 ^ 32), (c / 2 ^ 32 < b * e, c / 2 ^ 32),
              (ill a ((b - 1) * (c % 2 ^ 32) + cols * e), a), (ill d ((cols - 1) * (c / 2 ^ 32) + b * e), d)]),
        (.cfill sz d a b t, .copy, [s.source [a, b] d, s.source [] a, s.source [a] b, 0], fun d a _ _ => [(ill d a, d)]),
        (.cfetchif pr cb d a b t, .copy, [s.source [a, b] d, s.source [] a, s.source [a] b, 0],
          fun d a _ _ => [noBuf d, (ill a 1, a), (cb = false ∧ ill d 1, d)]),
        (.kvfetch cb d a b c t, .copy, [s.source [a, b, c] d, s.source [] a, s.source [a] b, s.source [a, b] c],
          fun d a _ c => [noBuf d, (ill a 1, a), (cb = false ∧ ill d 1, d), (a % 32 ≠ 0, a), (2 ^ 24 ≤ c, c)]),
        (.btinv rpl a b, .copy, [0, s.source [] a, s.source [a] b, 0],
          fun _ a b _ => [(a % 8 ≠ 0, a), (2 ^ 24 ≤ b, b), (ill a (8 * b), a)]),
        (.gath sz d a b n t, .index, [s.source [a, b] d, s.source [] a, s.source [a] b, r n.val],
          fun d a b c => let k := rn (n.val + 1)
            [(2 ^ 24 < c, c), (k = 0 ∨ 2 ^ 32 < k, k), (ill a (k * e), a), (ill b (4 * c), b), (ill d (c * e), d)]),
        (.scat sz d a b n t, .index, [s.source [a, b] d, s.source [] a, s.source [a] b, r n.val],
          fun d a b c => let k := rn (n.val + 1)
            [(2 ^ 24 < c, c), (k = 0 ∨ 2 ^ 32 < k, k), (ill d (k * e), d), (ill b (4 * c), b), (ill a (c * e), a)]),
        (.scadd at_ d a b n t, .index, [s.source [a, b] d, s.source [] a, s.source [a] b, r n.val],
          fun d a b c => let k := rn (n.val + 1)
            [(2 ^ 24 < c, c), (k = 0 ∨ 2 ^ 32 < k, k), (ill d (k * ea), d), (ill b (4 * c), b), (ill a (c * ea), a)]),
        (.compact sz d a b j t, .index, [s.source [a, b] d, s.source [] a, s.source [a] b, r j.val],
          fun _ a _ c => let k := rn (j.val + 1)
            [(c = 0 ∨ 65535 < c, c), (k = 0 ∨ 65536 < k, k), (ill a (c * k * e), a)]),
        (.intersect sz d n m c t, .index, [s.source [c] d, r n.val, r m.val, s.source [] c],
          fun _ a b c => [(c = 0 ∨ 2 ^ 24 < c, c), (ill a (8 * c), a), (ill b (8 * c), b)]),
        (.select st ge d a b n t, .index, [s.source [a, b] d, s.source [] a, s.source [a] b, r n.val],
          fun d _ _ c => let k := rn (n.val + 1)
            [(k = 0 ∨ 2 ^ 24 < k, k), (2 ^ 32 ≤ c, c), (ill d (8 * k), d)])] :
        List (Instr × Eng × List Word × (Nat → Nat → Nat → Nat → List (Prop × Nat)))),
      let i := p.1
      let fifo := s.core.fifo p.2.1
      let v (k : Nat) : Nat := (p.2.2.1.getD k 0).toNat
      let rows := p.2.2.2 (v 0) (v 1) (v 2) (v 3)
      s.block i.reads [] = none →
        (∀ before q behind, rows = before ++ q :: behind → (∀ w ∈ before, ¬ w.1) → q.1 →
          exec i s = .next (s.takeTrap ⟨0x0C, 0⟩ (BitVec.ofNat 64 q.2))) ∧
        ((∀ w ∈ rows, ¬ w.1) → 8 ≤ fifo.length → exec i s = .next (s.setSt { s.st with wait := some (.ext .engine) })) ∧
        ((∀ w ∈ rows, ¬ w.1) → fifo.length < 8 → ∃ u x, s.Read u i.reads ∧
          exec i s = .next { u with issued := s.issued + 1, core := match p.2.1 with
            | .copy => { u.core with copyQ := fifo ++ [x] }
            | .index => { u.core with indexQ := fifo ++ [x] } } ∧
          x.instr = i ∧ x.vals = p.2.2.1 ∧ x.more = (s.cmdValues i).2.1 ∧ x.bank = s.bankNo ∧ x.ord = s.issued ∧ x.epc = s.st.pc ∧
          x.space = s.space ∧ x.accepted = false ∧ x.done = false ∧ x.status = 0)

/-! ## The panel -/

/-- R316, R317, R318, R319, R320, R321: NLVL, NBASE, NFMT and NDRN write the shadow configuration and nothing else; a value that is not
allowed raises ILLEGAL 14 with TVAL the value. -/
def Obligations.PanelConfiguration : Prop :=
  ∀ (s : State) (l : Fin 7) (a b c : Opnd) (fa fb : Ty) (run : Fin 8) (twin : Bool) (dl : Fin 7) (mode : DrainMode) (ct : CTy),
    let x := s.source [] a
    let y := s.source [a] b
    let z := s.source [a, b] c
    let shadow (u : State) (f : Nest → Nest) : State := { u with bank := { u.bank with shadow := f u.bank.shadow } }
    let trap (i : Instr) (v : Word) : Prop := exec i s = .next (s.takeTrap ⟨0x01, 14⟩ v)
    let bound : Prop := if l = 6 then x = 0 else 1 ≤ x.toNat ∧ x.toNat ≤ 65535
    let short : Prop := -2 ^ 31 ≤ z.toInt ∧ z.toInt < 2 ^ 31
    (s.block [a, b, c] [] = none →
      (¬ bound → trap (.nlvl l a b c) x) ∧ (bound → ¬ short → trap (.nlvl l a b c) z) ∧
      (bound → short → ∃ u, s.Read u [a, b, c] ∧ exec (.nlvl l a b c) s = .next (shadow u fun n => { n with
        lev := n.lev.set l { bound := if l = 6 then 0 else x.setWidth 16, sa := y.extractLsb' 0 32, sb := y.extractLsb' 32 32
                             sc := z.setWidth 32 } })) ∧
      (2 ^ 56 ≤ x.toNat → trap (.nbase a b c) x) ∧ (x.toNat < 2 ^ 56 → 2 ^ 56 ≤ y.toNat → trap (.nbase a b c) y) ∧
      (x.toNat < 2 ^ 56 → y.toNat < 2 ^ 56 → 2 ^ 56 ≤ z.toNat → trap (.nbase a b c) z) ∧
      (x.toNat < 2 ^ 56 → y.toNat < 2 ^ 56 → z.toNat < 2 ^ 56 → ∃ u, s.Read u [a, b, c] ∧
        exec (.nbase a b c) s = .next (shadow u fun n => { n with abase := x, bbase := y, cbase := z }))) ∧
    (∃ u, s.Read u [] ∧ exec (.nfmt fa fb run twin dl) s = .next (shadow u fun n => { n with
      fmt := fa.code + 2 ^ 5 * fb.code + 2 ^ 10 * run.val + 2 ^ 13 * twin.toNat + 2 ^ 14 * dl.val })) ∧
    (s.block [a] [] = none →
      let bad : Prop := x ≠ 0 ∧ (ct = .int32 ∨ x.toNat % 4 ≠ 0 ∨ 2 ^ 56 ≤ x.toNat)
      (bad → trap (.ndrn mode ct a) x) ∧
      (¬ bad → ∃ u, s.Read u [a] ∧ exec (.ndrn mode ct a) s = .next (shadow u fun n => { n with
        drn := (match mode with | .store => 0 | .add => 1 | .auto => 2) + (match ct with | .fp32 => 0 | .int32 => 4), scale := x })))

/-- R316, R322 to R326: NGO hands the shadow configuration to the panel as its active nest, or as its pending one, waits while a nest is pending,
or traps ECMD; NWAIT pops a reply of q14; NPROG and NCSQ read; NSAVE stops the feed and waits for what is converted and written, then writes the
panel's block, with the configurations as they stand, into the core's own bank and leaves the panel without the bank's nests; NLOAD waits for an
idle panel, puts the nests of the block on it, and traps ECMD where the block may not be read. (That both stand among the accesses of their
class, and behind the stream's own writes, is log 52, DEDUCED; UNCORR on a flaw of the block's bytes is R355.) -/
def Obligations.PanelWords : Prop :=
  ∀ (s : State) (rpl : Bool) (buf8 : BitVec 8) (cls : Fin 16) (d a : Opnd) (l : Fin 7),
    let p := s.core.panel
    let go := rpl.toNat + 2 ^ 5 * buf8.toNat
    let cfg : Nest := { s.bank.shadow with go := go, cls := cls }
    let x := s.source [] a
    let gang := s.bank.pmode == 2
    let size := if gang then 0x51C80 else 0x29140
    let off := x.toNat % 2 ^ 22
    let at' := scratchLoc s.coreNo off
    let waits (w : Wait) := s.setSt { s.st with wait := some w }
    (∀ v, cfg.goBad = some v → exec (.ngo rpl buf8 cls) s = .next (s.takeTrap ⟨0x0C, 0⟩ (BitVec.ofNat 64 v))) ∧
    (cfg.goBad = none → (∀ n ∈ p.nests, n.bank = s.bankNo) → p.pending = none → ∃ u n, s.Read u [] ∧
      n.cfg = cfg ∧ n.bank = s.bankNo ∧ n.id = s.issued ∧ n.next = some [0, 0, 0, 0, 0, 0] ∧ n.drained = 0 ∧ n.status = 0 ∧
      exec (.ngo rpl buf8 cls) s = .next { u with
        issued := s.issued + 1, bank := { u.bank with shadow := cfg, nests := u.bank.nests + rpl.toNat }
        core := { u.core with panel := if p.nests = [] then { p with nests := [n] } else { p with pending := some n } } }) ∧
    (cfg.goBad = none → (∃ n ∈ p.all, n.bank ≠ s.bankNo) ∨ p.pending ≠ none → exec (.ngo rpl buf8 cls) s = .next (waits (.ext .panel))) ∧
    (s.block [.q 14] [d] = none → ∃ t, exec (.nwait d) s = .next t ∧ s.Wrote t [.q 14] (some d) (s.source [] (.q 14)) 1) ∧
    (s.block [] [d] = none → ∃ t, exec (.nprog d l) s = .next t ∧ s.Wrote t [] (some d) (BitVec.ofNat 64 (s.prog l.val)) 1) ∧
    (s.block [a] [d] = none →
      let cols := if gang then 512 else 256
      (128 + cols ≤ x.toNat → exec (.ncsq d a) s = .next (s.takeTrap ⟨0x01, 14⟩ x)) ∧
      (x.toNat < 128 + cols → ∃ t, exec (.ncsq d a) s = .next t ∧ s.Wrote t [a] (some d) (BitVec.ofNat 64 (s.csq x.toNat)) 4)) ∧
    (s.block [a] [] = none →
      (blockBad gang x = true → exec (.nsave a cls) s = .next (s.takeTrap ⟨0x0C, 0⟩ x) ∧
        exec (.nload a cls) s = .next (s.takeTrap ⟨0x0C, 0⟩ x)) ∧
      (blockBad gang x = false →
        let other : Prop := ∃ n ∈ p.all, n.bank ≠ s.bankNo
        let still : Prop := p.fed = [] ∧ p.out = none ∧ (gang = true → p.cur = none) ∧ ∀ n ∈ p.nests, n.scales ≠ none
        let behind (i : Instr) (store : Bool) : Prop :=
          (s.ownHeld cls store [(off, size)] = true → exec i s = .next (waits (.ext .access))) ∧
          (s.ownHeld cls store [(off, size)] = false →
            (s.now < s.ownReady → exec i s = .next (waits .result)) ∧
            (s.ownReady ≤ s.now → s.flawedOwn off size = true → exec i s = .next (s.takeTrap ⟨0x0F, 0⟩ x)))
        let free (store : Bool) : Prop := s.ownHeld cls store [(off, size)] = false ∧ s.ownReady ≤ s.now ∧ s.flawedOwn off size = false
        (other → exec (.nsave a cls) s = .next (waits (.ext .panel))) ∧
        (¬ other → ¬ still → exec (.nsave a cls) s =
          .next ({ s with core := { s.core with panel := { p with saving := true } } }.setSt { s.st with wait := some (.ext .panel) })) ∧
        (¬ other → still → behind (.nsave a cls) true) ∧
        (s.Inv → ¬ other → still → free true →
          let block := panelBlock gang p.cur (p.nests.find? fun n => n.next.isSome) p.pending s.bank.shadow
          ∃ t, exec (.nsave a cls) s = .next t ∧ s.Issued t ∧ t.st.s = s.st.s ∧ block.length = size ∧ t.mem.readN at' size = block ∧
            (∀ y, ¬ (at' ≤ y ∧ y < at' + size) → t.mem.read y = s.mem.read y) ∧
            (∀ n ∈ t.core.panel.all, ¬ (n.bank = s.bankNo ∧ n.next.isSome)) ∧ t.core.panel.cur = none ∧
            (∀ k, (∀ n ∈ p.all, 2 * n.cfg.tag ≠ k) → Tbl.get t.core.hot k 0 = Tbl.get s.core.hot k 0) ∧
            s.Quiet { t with
              mem := s.mem, forward := s.forward, core := { t.core with panel := p, hot := s.core.hot }
              bank := { t.bank with nests := s.bank.nests, pstat := s.bank.pstat } }) ∧
        (p.all ≠ [] → exec (.nload a cls) s = .next (waits (.ext .panel))) ∧
        (p.all = [] → behind (.nload a cls) false) ∧
        (p.all = [] → free false →
          (readBlock s.bank.bfmt (s.mem.readN at' size) = none → exec (.nload a cls) s = .next (s.takeTrap ⟨0x0C, 0⟩ x)) ∧
          ∀ b, readBlock s.bank.bfmt (s.mem.readN at' size) = some b →
            (b.gang ≠ gang → exec (.nload a cls) s = .next (s.takeTrap ⟨0x0C, 0⟩ x)) ∧
            (b.gang = gang → ∃ t, exec (.nload a cls) s = .next t ∧ s.Issued t ∧ t.st.s = s.st.s ∧ t.mem = s.mem ∧
              t.core.panel.nests.map ActiveNest.cfg = (b.active.toList.map fun n => n.1) ∧
              t.core.panel.nests.map ActiveNest.next = (b.active.toList.map fun n => some n.2.1) ∧
              t.core.panel.pending.map ActiveNest.cfg = b.pending ∧
              t.core.panel.cur.map Run.k = (if b.active.isSome then b.run.map Run.k else none) ∧
              t.core.panel.cur.map Run.s = (if b.active.isSome then b.run.map Run.s else none) ∧ t.bank.shadow = b.shadow ∧
              s.Quiet { t with
                issued := s.issued, core := { t.core with panel := p }
                bank := { t.bank with nests := s.bank.nests, shadow := s.bank.shadow } }))))

/-! ## Vector words -/

/-- R160: a word of the gated class whose gate is 0 only goes on: nothing is popped, written, stored or raised, whatever its operands
are. -/
def Obligations.GatedOff : Prop :=
  ∀ (s : State) (i : Instr) (j : Fin 8), instrGate i = some j → s.bank.vec.gates.getLsbD j.val = false →
    ∃ u, s.Read u [] ∧ exec i s = .next u

/-- R142, R147, R149, R155: the vector words that move or combine bits, for every TYPE. -/
def Obligations.VectorBits : Prop :=
  ∀ (s : State) (g : Gate) (ty : Ty) (mk : Bool) (vd va vb : Fin 64) (mc : Fin 8) (a b : Opnd), s.gateOn g →
    let w := ty.bits
    let n := 4096 / w
    let x (i : Nat) := s.elem w va i
    let y (i : Nat) := s.elem w vb i
    let top := s.bank.vec.stack.headD 0
    let plain (f : Nat → BitVec w) (i : Nat) : BitVec w × Flags := (f i, 0)
    (∀ p ∈ ([(.vand g ty mk vd va vb, 2, fun i => x i &&& y i), (.vor g ty mk vd va vb, 2, fun i => x i ||| y i),
        (.vxor g ty mk vd va vb, 2, fun i => x i ^^^ y i), (.vmov g ty mk vd va, 2, x),
        (.vsel g ty mk vd va vb mc, 2, fun i => if s.bank.vec.m[mc].getLsbD i then x i else y i),
        (.vperm g ty mk vd va vb, 4, fun i => x ((y i).toNat % n))] : List (Instr × Nat × (Nat → BitVec w))),
      ∃ t, exec p.1 s = .next t ∧ s.WroteVec t [] none 0 w false mk vd p.2.1 (plain p.2.2)) ∧
    (∃ t, exec (.vexpd g ty vd va) s = .next t ∧ s.WroteVec t [] none 0 w false false vd 4
      (plain fun i => if top.getLsbD i then x ((List.range i).countP fun k => top.getLsbD k) else 0)) ∧
    (s.block [a] [] = none → ∃ t, exec (.vbcast g ty mk vd a) s = .next t ∧
      s.WroteVec t [a] none 0 w false mk vd 2 (plain fun _ => (s.source [] a).setWidth w)) ∧
    (s.block [b] [] = none →
      let k := (s.source [] b).toNat
      (∃ t, exec (.vslu g ty mk vd va b) s = .next t ∧
        s.WroteVec t [b] none 0 w false mk vd 4 (plain fun i => if k ≤ i then x (i - k) else 0)) ∧
      ∃ t, exec (.vsld g ty mk vd va b) s = .next t ∧
        s.WroteVec t [b] none 0 w false mk vd 4 (plain fun i => if i + k < n then x (i + k) else 0)) ∧
    (s.block [a, b] [] = none → ∃ t, exec (.vins g ty vd a b) s = .next t ∧
      s.WroteVec t [a, b] none 0 w false false vd 2
        (plain fun i => if i = (s.source [a] b).toNat % n then (s.source [] a).setWidth w else s.elem w vd i))

/-- R97, R142, R146, R147: the vector arithmetic of the integer types: the exact result, wrapped, or under SAT clamped with SA raised. -/
def Obligations.VectorIntegers : Prop :=
  ∀ (s : State) (g : Gate) (ty : Ty) (rnd : Rnd) (sat mk : Bool) (vd va vb vc : Fin 64), s.gateOn g → ty.isInt = true →
    let w := ty.bits
    let val (x : BitVec w) : Int := if ty.isSigned then x.toInt else x.toNat
    let x (i : Nat) := s.elem w va i
    let y (i : Nat) := s.elem w vb i
    let z (i : Nat) := s.elem w vc i
    let lo : Int := if ty.isSigned then -2 ^ (w - 1) else 0
    let hi : Int := if ty.isSigned then 2 ^ (w - 1) - 1 else 2 ^ w - 1
    let result (sat : Bool) (e : Int) : BitVec w × Flags :=
      if sat = true ∧ e < lo then (BitVec.ofInt w lo, fSA) else if sat = true ∧ hi < e then (BitVec.ofInt w hi, fSA) else (BitVec.ofInt w e, 0)
    let writes (i : Instr) (lat : Nat) (f : Nat → BitVec w × Flags) : Prop :=
      ∃ t, exec i s = .next t ∧ s.WroteVec t [] none 0 w false mk vd lat f
    writes (.vadd g ty rnd sat mk vd va vb) 2 (fun i => result sat (val (x i) + val (y i))) ∧
    writes (.vsub g ty rnd sat mk vd va vb) 2 (fun i => result sat (val (x i) - val (y i))) ∧
    writes (.vmul g ty rnd sat mk vd va vb) 4 (fun i => result sat (val (x i) * val (y i))) ∧
    writes (.vfma g ty rnd sat mk vd va vb vc) 4 (fun i => result sat (val (x i) * val (y i) + val (z i))) ∧
    writes (.vfms g ty rnd sat mk vd va vb vc) 4 (fun i => result sat (val (x i) * val (y i) - val (z i))) ∧
    writes (.vabs g ty sat mk vd va) 2 (fun i => result sat (if val (x i) < 0 then -val (x i) else val (x i))) ∧
    writes (.vneg g ty sat mk vd va) 2 (fun i => result sat (-val (x i))) ∧
    writes (.vmin g ty mk vd va vb) 2 (fun i => (if val (x i) ≤ val (y i) then x i else y i, 0)) ∧
    writes (.vmax g ty mk vd va vb) 2 (fun i => (if val (x i) ≤ val (y i) then y i else x i, 0)) ∧
    writes (.vmulh g ty mk vd va vb) 4 (fun i => (BitVec.ofInt w (val (x i) * val (y i) / 2 ^ w), 0)) ∧
    writes (.vshl g ty mk vd va vb) 2 (fun i => (x i <<< ((y i).toNat % w), 0)) ∧
    writes (.vshr g ty mk vd va vb) 2 (fun i => (x i >>> ((y i).toNat % w), 0)) ∧
    writes (.vsar g ty mk vd va vb) 2 (fun i => ((x i).sshiftRight ((y i).toNat % w), 0)) ∧
    writes (.vpopc g ty mk vd va) 2 (fun i => ((x i).cpop, 0)) ∧
    writes (.vclz g ty mk vd va) 2 (fun i => (BitVec.ofNat w (x i).clz.toNat, 0))

/-- R103, R104, R110, R112, R113, R146, R152, R153: the vector arithmetic of the floating types. Each operand is read under FTZ, and the flags of
the reads and of the operation are raised. The sum, difference, product, fused sum and scaled number are the exact ones, rounded once under RND
and SAT; the smaller and the larger operand are given as they are; VRCP and VRSQ are the exact 1/x and 1/√x, rounded to 12 bits. Of VEXP2 and
VLOG2 the special operands and the exact results are stated (their other results come from the model's fixed-point series, log 13, DESIGN
CHOICE); VRSQ of an odd power of two raises NX (log 88, DEDUCED). -/
def Obligations.VectorFloats : Prop :=
  ∀ (s : State) (g : Gate) (ty : Ty) (m : Fmt) (rnd : Rnd) (sat mk : Bool) (vd va vb vc : Fin 64), s.gateOn g → fmtOf? ty = some m →
    let w := ty.bits
    let ftz := s.bank.vec.ftz
    let env : Env := { rnd := rnd, sat := sat, ftz := ftz, v := 0 }
    let pat (n : Fin 64) (i : Nat) : Nat := (s.elem w n i).toNat
    let rd (n : Fin 64) (i : Nat) := m.read ftz (pat n i)
    let out (l : List Flags) (r : Nat × Flags) : BitVec w × Flags := (BitVec.ofNat w r.1, l.foldr (· ||| ·) r.2)
    let one (f : FVal → Nat × Flags) (i : Nat) := out [(rd va i).2] (f (rd va i).1)
    let two (f : FVal → FVal → Nat × Flags) (i : Nat) := out [(rd va i).2, (rd vb i).2] (f (rd va i).1 (rd vb i).1)
    let three (neg : Bool) (i : Nat) :=
      out [(rd va i).2, (rd vb i).2, (rd vc i).2] (fFma m env neg (rd va i).1 (rd vb i).1 (rd vc i).1)
    let pick (mx : Bool) (i : Nat) := out [(rd va i).2, (rd vb i).2]
      (fMinMax m mx (rd va i).1 (rd vb i).1 (m.flush ftz (pat va i)) (m.flush ftz (pat vb i)))
    let top : BitVec w := BitVec.twoPow w (w - 1)
    let clean (i : Nat) : BitVec w := BitVec.ofNat w (m.flush ftz (pat va i))
    let writes (i : Instr) (lat : Nat) (f : Nat → BitVec w × Flags) : Prop :=
      ∃ t, exec i s = .next t ∧ s.WroteVec t [] none 0 w false mk vd lat f
    writes (.vadd g ty rnd sat mk vd va vb) 2 (two (fAdd m env)) ∧ writes (.vsub g ty rnd sat mk vd va vb) 2 (two (fSub m env)) ∧
    writes (.vmul g ty rnd sat mk vd va vb) 4 (two (fMul m env)) ∧ writes (.vfma g ty rnd sat mk vd va vb vc) 4 (three false) ∧
    writes (.vfms g ty rnd sat mk vd va vb vc) 4 (three true) ∧ writes (.vmin g ty mk vd va vb) 2 (pick false) ∧
    writes (.vmax g ty mk vd va vb) 2 (pick true) ∧
    writes (.vabs g ty sat mk vd va) 2 (fun i => (clean i &&& ~~~top, (rd va i).2)) ∧
    writes (.vneg g ty sat mk vd va) 2 (fun i => (clean i ^^^ top, (rd va i).2)) ∧
    writes (.vscl g ty rnd sat mk vd va vb) 2 (fun i =>
      let r := scaleElem ty env (pat va i) (pat vb i)
      (BitVec.ofNat w r.1, r.2)) ∧
    writes (.vexpo g ty mk vd va) 2 (fun i => match (rd va i).1 with
      | .fin _ mag ex => (if mag = 0 then top else BitVec.ofInt w (Int.ofNat (Nat.log2 mag) + ex), (rd va i).2)
      | _ => (top - 1, (rd va i).2)) ∧
    (ty = .fp32 → ∀ p ∈ [(Instr.vrcp g mk vd va, vrcpVal), (.vrsq g mk vd va, vrsqVal), (.vexp2 g mk vd va, vexp2Val),
        (.vlog2 g mk vd va, vlog2Val)],
      (ftz = false → writes p.1 8 (one p.2)) ∧
      (ftz = true → writes p.1 8 fun i =>
        let r := p.2 (rd va i).1
        if (r.1 % 2 ^ 31 ≠ 0 ∧ r.1 % 2 ^ 31 < 2 ^ 23) ∨ r.2 &&& fUF ≠ 0 then
          (BitVec.ofNat w (r.1 / 2 ^ 31 * 2 ^ 31), (rd va i).2 ||| fUF ||| fNX)
        else (BitVec.ofNat w r.1, (rd va i).2 ||| r.2))) ∧
    ∀ i,
      let x := (rd va i).1
      let y := (rd vb i).1
      let z := (rd vc i).1
      let zero (v : FVal) (neg : Bool) : Prop := ∃ e, v = .fin neg 0 e
      let under (u v : FVal) : Prop := u.exact.Below v.exact ∨ (zero u true ∧ zero v false)
      let special (f : FVal → Nat × Flags) (v : FVal) (r : Nat × Flags) : Prop := x = v → f x = r
      let quiet (f : FVal → Nat × Flags) : Prop := x.isNan = true → fmtFp32.Quieted x (f x).1 ∧ (f x).2 = if x.isSnan then fNV else 0
      m.Computes env [x, y] (x.exact.plus rnd y.exact) (fAdd m env x y) ∧
      m.Computes env [x, y] (x.exact.plus rnd y.exact.opposite) (fSub m env x y) ∧
      m.Computes env [x, y] (x.exact.times y.exact) (fMul m env x y) ∧
      m.Computes env [x, y, z] ((x.exact.times y.exact).plus rnd z.exact) (fFma m env false x y z) ∧
      m.Computes env [x, y, z] ((x.exact.times y.exact).plus rnd z.exact.opposite) (fFma m env true x y z) ∧
      (∃ r, scaleElem ty env (pat va i) (pat vb i) = (r.1, (rd va i).2 ||| r.2) ∧
        m.Computes env [x] (x.exact.scaled (s.elem w vb i).toInt) r) ∧
      (∀ (mx : Bool) (px py : Nat),
        (∀ before n behind, [x, y] = before ++ n :: behind → (∀ v ∈ before, v.isNan = false) → n.isNan = true →
          m.Quieted n (fMinMax m mx x y px py).1 ∧ (fMinMax m mx x y px py).2 = if x.isSnan || y.isSnan then fNV else 0) ∧
        (x.isNan = false → y.isNan = false →
          (under x y → fMinMax m mx x y px py = (if mx then py else px, 0)) ∧ (under y x → fMinMax m mx x y px py = (if mx then px else py, 0)) ∧
          (¬ under x y → ¬ under y x → fMinMax m mx x y px py = (px, 0)))) ∧
      (ty = .fp32 →
        quiet vrcpVal ∧ quiet vrsqVal ∧ quiet vexp2Val ∧ quiet vlog2Val ∧
        (∀ neg, special vrcpVal (.inf neg) (fmtFp32.sign neg, 0) ∧
          special vrsqVal (.inf neg) (if neg then (0x7FC00000, fNV) else (0, 0)) ∧
          special vexp2Val (.inf neg) (if neg then 0 else 0x7F800000, 0) ∧
          special vlog2Val (.inf neg) (if neg then (0x7FC00000, fNV) else (0x7F800000, 0)) ∧
          (zero x neg → vrcpVal x = (fmtFp32.infPat neg, fDZ) ∧ vrsqVal x = (fmtFp32.infPat neg, fDZ) ∧ vexp2Val x = (0x3F800000, 0) ∧
            vlog2Val x = (0xFF800000, fDZ)) ∧
          ∀ v : Rat, x.exact = .num neg v → 0 < v →
            UnitRounded 12 neg (fun c => c * v ≤ 1) (fun c => 1 ≤ c * v) (vrcpVal x) ∧
            (neg = true → vrsqVal x = (0x7FC00000, fNV) ∧ vlog2Val x = (0x7FC00000, fNV)) ∧
            (neg = false → UnitRounded 12 false (fun c => c ≤ 0 ∨ c * c * v ≤ 1) (fun c => 0 < c ∧ 1 ≤ c * c * v) (vrsqVal x)) ∧
            (∀ k : Nat, v = k → (if neg then k ≤ 149 else k ≤ 127) →
              fmtFp32.Stands (vexp2Val x).1 false (pow2 (if neg then -(k : Int) else k)) ∧ (vexp2Val x).2 = 0) ∧
            ∀ k : Int, neg = false → v = pow2 k →
              fmtFp32.Stands (vlog2Val x).1 (decide (k < 0)) (k.natAbs : Rat) ∧ (vlog2Val x).2 = 0))

/-- R148: VCMP writes, of the elements that take part, the truth of its condition into a mask register, clears the bits beyond count(TYPE), and
changes nothing else but the flags. The order of two integers, and of two floating elements as FTZ reads them, is that of their values, -0
equal to +0; with a NaN only ne is true, and NV is raised for an ordered comparison and for a signalling NaN. -/
def Obligations.VectorCompare : Prop :=
  ∀ (s : State) (g : Gate) (ty : Ty) (cc : VCond) (mk : Bool) (md : Fin 8) (va vb : Fin 64), s.gateOn g →
    let w := ty.bits
    let n := 4096 / w
    let cmp (i : Nat) := compareElem ty s.bank.vec.ftz cc (s.elem w va i).toNat (s.elem w vb i).toNat
    let val (x : BitVec w) : Int := if ty.isSigned then x.toInt else x.toNat
    let old := s.bank.vec.m[md]
    (∃ (t : State) (new : MaskReg) (fl : Flags), exec (.vcmp g ty cc mk md va vb) s = .next t ∧
      s.Read (t.withVec s.bank.vec) [] ∧ t.bank.vec = { s.bank.vec with m := s.bank.vec.m.set md new, vflags := fl } ∧
      (RegId.m md, s.now + 2) ∈ t.st.busy ∧ raised s.bank.vec.vflags fl n (s.partakes mk) (fun i => (cmp i).2) ∧
      (∀ i, i < n → s.partakes mk i → new.getLsbD i = (cmp i).1) ∧
      (∀ i, i < n → ¬ s.partakes mk i → new.getLsbD i = old.getLsbD i) ∧ ∀ i, n ≤ i → new.getLsbD i = false) ∧
    (ty.isInt = true → ∀ i, (cmp i).2 = 0 ∧
      let x := val (s.elem w va i)
      let y := val (s.elem w vb i)
      ((cmp i).1 = true ↔ match cc with
        | .eq => x = y
        | .ne => x ≠ y
        | .lt => x < y
        | .ge => y ≤ x
        | .gt => y < x
        | .le => x ≤ y)) ∧
    ∀ (m : Fmt), fmtOf? ty = some m → ∀ i,
      let rx := m.read s.bank.vec.ftz (s.elem w va i).toNat
      let ry := m.read s.bank.vec.ftz (s.elem w vb i).toNat
      let x := rx.1.exact
      let y := ry.1.exact
      (rx.1.isNan = true ∨ ry.1.isNan = true → ((cmp i).1 = true ↔ cc = .ne) ∧
        (cmp i).2 = (rx.2 ||| ry.2 |||
          if (cc = .eq ∨ cc = .ne) ∧ rx.1.isSnan = false ∧ ry.1.isSnan = false then 0 else fNV)) ∧
      (rx.1.isNan = false → ry.1.isNan = false → (cmp i).2 = rx.2 ||| ry.2 ∧
        ((cmp i).1 = true ↔ match cc with
          | .eq => ¬ x.Below y ∧ ¬ y.Below x
          | .ne => x.Below y ∨ y.Below x
          | .lt => x.Below y
          | .ge => ¬ x.Below y
          | .gt => y.Below x
          | .le => ¬ y.Below x))

/-- R105, R150, R151: VCVT, VWID and VNAR convert element by element; VWID spreads the elements of one register over n, and VNAR gathers those of
n in one. Under sr the lane of each element that takes part steps once. An integer becomes the integer itself, wrapped or clamped, or is rounded into
a floating type; a floating element, as FTZ reads it, is rounded into an integer type, and clamped there with NV, or is rounded once into the
other floating type. -/
def Obligations.VectorConversions : Prop :=
  ∀ (s : State) (g : Gate) (ty dty : Ty) (rnd : Rnd) (sat mk : Bool) (vd va : Fin 64) (n : Nat), s.gateOn g →
    let w := ty.bits
    let e := dty.bits
    let sr : Bool := rnd == .sr
    let env (i : Nat) : Env :=
      { rnd := rnd, sat := sat, ftz := s.bank.vec.ftz, v := if sr then (lfsrStep (s.lane i)).toNat else 0 }
    let conv (env : Env) (x : BitVec w) : BitVec e × Flags :=
      let r := convert ty dty env x.toNat
      (BitVec.ofNat e r.1, r.2)
    (∃ t, exec (.vcvt g ty dty rnd sat mk vd va) s = .next t ∧
      s.WroteVec t [] none 0 e sr mk vd 2 fun i => conv (env i) (s.elem w va i)) ∧
    (widFactor dty ty = some n → ∃ t, exec (.vnar g ty dty rnd sat mk vd va) s = .next t ∧
      s.WroteVec t [] none 0 e sr mk vd 2 fun i => conv (env i) (s.elem w (va + Fin.ofNat 64 (i % n)) (i / n))) ∧
    (widFactor ty dty = some n →
      let one (i : Nat) := conv { rnd := .rne, sat := false, ftz := s.bank.vec.ftz, v := 0 } (s.elem w va i)
      let to_ (k : Nat) : Fin 64 := vd + Fin.ofNat 64 k
      ∃ t, exec (.vwid g ty dty mk vd va) s = .next t ∧ s.Read (t.withVec s.bank.vec) [] ∧
        t.bank.vec = { s.bank.vec with v := t.bank.vec.v, vflags := t.bank.vec.vflags } ∧
        (∀ r, (∀ k, k < n → r ≠ s.bank.vec.phys (to_ k)) → t.bank.vec.v[r] = s.bank.vec.v[r]) ∧
        raised s.bank.vec.vflags t.bank.vec.vflags (4096 / w) (s.partakes mk) (fun i => (one i).2) ∧
        ∀ i, i < 4096 / w → t.elem e (to_ (i % n)) (i / n) =
          if s.enabled mk i then (one i).1 else s.elem e (to_ (i % n)) (i / n)) ∧
    ∀ (v : Env) (x : BitVec w),
      let int : Int := if ty.isSigned then x.toInt else x.toNat
      let lo : Int := if dty.isSigned then -2 ^ (e - 1) else 0
      let hi : Int := if dty.isSigned then 2 ^ (e - 1) - 1 else 2 ^ e - 1
      (ty.isInt = true → dty.isInt = true → conv v x =
        if v.sat = true ∧ int < lo then (BitVec.ofInt e lo, fSA) else if v.sat = true ∧ hi < int then (BitVec.ofInt e hi, fSA)
        else (BitVec.ofInt e int, 0)) ∧
      (∀ m, ty.isInt = true → fmtOf? dty = some m → m.Rounded v (decide (int < 0)) (int.natAbs : Rat) (convert ty dty v x.toNat)) ∧
      (∀ m, fmtOf? ty = some m → dty.isInt = true →
        let r := m.read v.ftz x.toNat
        (r.1.isNan = true → conv v x = (0, r.2 ||| fNV)) ∧ (∀ neg, r.1 = .inf neg → conv v x = (BitVec.ofInt e (if neg then lo else hi), r.2 ||| fNV)) ∧
        ∀ neg y, r.1.exact = .num neg y → ∃ q : Nat, RoundsTo v.rnd neg 0 y q ∧
          let z : Int := if neg then -q else q
          conv v x = if z < lo then (BitVec.ofInt e lo, r.2 ||| fNV) else if hi < z then (BitVec.ofInt e hi, r.2 ||| fNV)
            else (BitVec.ofInt e z, r.2 ||| if y = q then 0 else fNX)) ∧
      ∀ m k, fmtOf? ty = some m → fmtOf? dty = some k →
        let r := m.read v.ftz x.toNat
        ∃ o, convert ty dty v x.toNat = (o.1, r.2 ||| o.2) ∧ k.Computes v [r.1] r.1.exact o

/-- R114, R149, R154, R155, R162: the vector words that give a scalar, and the prefix sum. An integer sum is the exact one, wrapped or clamped; a
floating sum is the node on top of the tree of R114, whose nodes add by pairs and in which a disabled element is -0, and prefix i adds the
aligned nodes that cover the elements up to i, largest first, from left to right. A leaf that is a NaN is quiet, and one that FTZ flushes is a zero
(log 53, DEDUCED); that the tree decides where it creates a NaN, or adds -0 under rdn, is log 87 (DEDUCED). -/
def Obligations.VectorScalars : Prop :=
  ∀ (s : State) (g : Gate) (ty : Ty) (op : RedOp) (rnd : Rnd) (sat mk : Bool) (d b : Opnd) (vd va : Fin 64) (ma : Fin 8) (k : Fin 12),
    s.gateOn g →
    let w := ty.bits
    let n := 4096 / w
    let x (i : Nat) := s.elem w va i
    let top := s.bank.vec.stack.headD 0
    let word (x : BitVec w) : Word := if ty.isSigned then x.signExtend 64 else x.setWidth 64
    let val (x : BitVec w) : Int := if ty.isSigned then x.toInt else x.toNat
    let lo : Int := if ty.isSigned then -2 ^ (w - 1) else 0
    let hi : Int := if ty.isSigned then 2 ^ (w - 1) - 1 else 2 ^ w - 1
    let result (e : Int) : BitVec w × Flags :=
      if sat = true ∧ e < lo then (BitVec.ofInt w lo, fSA) else if sat = true ∧ hi < e then (BitVec.ofInt w hi, fSA) else (BitVec.ofInt w e, 0)
    let env : Env := { rnd := rnd, sat := sat, ftz := s.bank.vec.ftz, v := 0 }
    let all := (List.range n).map fun i => (s.enabled mk i, (x i).toNat)
    let sum (i : Nat) : Int := ((List.range i).map fun k => if s.enabled mk k then val (x k) else 0).sum
    let on := (List.range n).filter fun i => s.enabled mk i
    let flagged (u : State) (fl : Flags) : State := u.withVec { u.bank.vec with vflags := u.bank.vec.vflags ||| fl }
    (s.block [b] [d] = none → ∃ t, exec (.vget g ty d va b) s = .next t ∧
      s.Wrote t [b] (some d) (word (x ((s.source [] b).toNat % n))) 2) ∧
    (s.block [] [d] = none →
      let r := reduceElems ty op env all
      (∃ u, s.Wrote u [] (some d) (if ty.isSigned then (BitVec.ofNat w r.1).signExtend 64 else BitVec.ofNat 64 r.1) 8 ∧ exec (.vred g ty op rnd sat mk d va) s = .next (flagged u r.2)) ∧
      (ty.isInt = true → match op with
        | .sum => (BitVec.ofNat w r.1, r.2) = result (sum n)
        | .min => (BitVec.ofNat w r.1, r.2) = result (on.foldl (fun a i => min a (val (x i))) hi)
        | .max => (BitVec.ofNat w r.1, r.2) = result (on.foldl (fun a i => max a (val (x i))) lo))) ∧
    (∃ t, exec (.vpsum g ty rnd sat mk vd va) s = .next t ∧ s.WroteVec t [] none 0 w false mk vd 8 fun i =>
      let r := (prefixElems ty env all).getD i (0, 0)
      (BitVec.ofNat w r.1, r.2)) ∧
    (ty.isInt = true → ∀ i, i < n →
      let r := (prefixElems ty env all).getD i (0, 0)
      (BitVec.ofNat w r.1, r.2) = result (sum (i + 1))) ∧
    (∀ m, fmtOf? ty = some m →
      let add (a b : Nat × Flags) : Nat × Flags :=
        let r := fAdd m env (m.read env.ftz a.1).1 (m.read env.ftz b.1).1
        (r.1, a.2 ||| b.2 ||| (m.read env.ftz a.1).2 ||| (m.read env.ftz b.1).2 ||| r.2)
      let leaf (i : Nat) : Nat × Flags :=
        let p := m.read env.ftz (x i).toNat
        (if p.1.isNan then m.nanPat p.1 else m.flush env.ftz (x i).toNat, if p.1.isSnan then fNV else p.2)
      let key (a : Nat × Flags) : FVal := (m.read env.ftz a.1).1
      ∃ (node : Nat → Nat → Nat × Flags) (best : Bool → Nat → Nat → Option (Nat × Flags)),
        (∀ i, node 0 i = if s.enabled mk i then leaf i else (m.sign true, 0)) ∧
        (∀ l i, node (l + 1) i = add (node l (2 * i)) (node l (2 * i + 1))) ∧
        (∀ a b, m.Computes env [key a, key b] ((key a).exact.plus rnd (key b).exact) (fAdd m env (key a) (key b))) ∧
        reduceElems ty .sum env all = node (Nat.log2 n) 0 ∧
        (∀ i, i < n → ∃ a l, (((List.range (Nat.log2 n + 1)).reverse.filter fun j => (i + 1).testBit j).map fun j =>
          node j ((i + 1) / 2 ^ (j + 1) * 2)) = a :: l ∧ (prefixElems ty env all).getD i (0, 0) = l.foldl add a) ∧
        (∀ mx i, best mx 0 i = if s.enabled mk i then some (leaf i) else none) ∧
        (∀ mx l i, best mx (l + 1) i = match best mx l (2 * i), best mx l (2 * i + 1) with
          | some a, some b =>
            let r := fMinMax m mx (key a) (key b) a.1 b.1
            some (r.1, a.2 ||| b.2 ||| r.2)
          | none, b => b
          | a, none => a) ∧
        reduceElems ty .min env all = (best false (Nat.log2 n) 0).getD (m.infPat false, 0) ∧
        reduceElems ty .max env all = (best true (Nat.log2 n) 0).getD (m.infPat true, 0)) ∧
    (s.block [] [d] = none →
      let kept := (List.range n).filter fun i => top.getLsbD i
      ∃ t, exec (.vcomp g ty vd va d) s = .next t ∧ s.WroteVec t [] (some d) (BitVec.ofNat 64 kept.length) w false false vd 4 fun i =>
        (match kept[i]? with
          | some j => x j
          | none => 0, 0)) ∧
    (s.block [] [d] = none → ∃ t, exec (.mcnt g ty d ma) s = .next t ∧
      s.Wrote t [] (some d) (BitVec.ofNat 64 ((List.range n).countP fun i => s.bank.vec.m[ma].getLsbD i)) 1) ∧
    ∃ (u : State) (e : Bool), s.Read u [] ∧ exec (.mempt g ty k) s = .next (u.withCond k e) ∧
      (e = true ↔ ∀ i, i < n → top.getLsbD i = false)

/-- R138, R159, R160, R161, R162: VROT, GSET, GSTEP and the words on masks and the mask stack. A push on 8 entries, and an MINV or MPOP on one,
raise ILLEGAL 12 with TVAL the depth. -/
def Obligations.MaskWords : Prop :=
  ∀ (s : State) (g : Gate) (abs : Bool) (step : BitVec 5) (gates : BitVec 8) (a : Opnd) (m : Fin 8) (va : Fin 64),
    let v := s.bank.vec
    let x := s.source [] a
    let top := v.stack.headD 0
    let to_ (srcs : List Opnd) (i : Instr) (f : VecState) : Prop := ∃ u, s.Read u srcs ∧ exec i s = .next (u.withVec f)
    let deep (i : Instr) : Prop := exec i s = .next (s.takeTrap (cILLEGAL 12) (BitVec.ofNat 64 v.stack.length))
    to_ [] (.gset gates) { v with gates := gates } ∧
    (s.block [a] [] = none → to_ [a] (.gstep a) { v with gates := v.gates <<< 1 ||| (if x ≠ 0 then 1 else 0) }) ∧
    (s.gateOn g →
      to_ [] (.vrot g abs step) { v with vrot := if abs then step else v.vrot + step } ∧
      (v.stack.length < 8 → to_ [] (.mpush g m) { v with stack := (top &&& v.m[m]) :: v.stack }) ∧
      (8 ≤ v.stack.length → deep (.mpush g m)) ∧
      (∀ y z l, v.stack = y :: z :: l → to_ [] (.minv g) { v with stack := (z &&& ~~~y) :: z :: l } ∧
        to_ [] (.mpop g) { v with stack := z :: l }) ∧
      (v.stack.length < 2 → deep (.minv g) ∧ deep (.mpop g)) ∧
      (s.block [a] [] = none →
        (∃ k : MaskReg, to_ [a] (.mset g m (.prefixOf a)) { v with m := v.m.set m k } ∧
          ∀ i, i < 1024 → (k.getLsbD i = true ↔ i < x.toNat)) ∧
        ∃ k : MaskReg, to_ [a] (.mset g m (.pattern a)) { v with m := v.m.set m k } ∧ ∀ i, i < 1024 → k.getLsbD i = x.getLsbD (i % 64)) ∧
      to_ [] (.mset g m .top) { v with m := v.m.set m top } ∧
      to_ [] (.mset g m (.vec va)) { v with m := v.m.set m (v.v[v.phys va].setWidth 1024) })

/-- R156, R157, R158, R189, R190, R198: the vector loads and stores. The first element in order whose address is not of the form, or has no
place, traps with its address and nothing is done; elements in the core's own banks are read at the issue, and written 6 counted cycles later;
the others are sent as one access, and with them those of a load behind a granule that is not filled; a store waits for its fills. Elements of the
own banks wait as those of LD and ST do (log 19, DEDUCED); that the store waits at its issue for every granule that it touches is log 20
(DEDUCED). -/
def Obligations.VectorMemory : Prop :=
  ∀ (s : State) (g : Gate) (ty : Ty) (mk : Bool) (vd vb : Fin 64) (a b : Opnd) (cls : Fin 16), s.gateOn g →
    let w := ty.bits
    let n := elemBytes ty
    let x := s.source [] a
    let y := s.source [a] b
    let step (i : Nat) : Word := BitVec.ofNat 64 (i * w / 8)
    let refs (addr : Nat → Word) (k : Nat) : List ElemRef := ((List.range k).filter fun i => s.enabled mk i).map fun i =>
      { num := i, va := addr i, nib := if w = 4 then 1 + i % 2 else 0 }
    let unit := refs (fun i => x + y + step i) (4096 / w)
    let strided := refs (fun i => x + BitVec.ofNat 64 i * y) (4096 / w)
    let indexed := refs (fun i => x + (s.elem 32 vb i).setWidth 64) (min (4096 / w) 128)
    let old := s.bank.vec.v[s.bank.vec.phys vd]
    let byteOf (e : ElemRef) (l : List Byte) : List Byte := l.map (pickNib e.nib)
    let piece (wr : Bool) (p : ElemRef × Place) : Piece :=
      { num := p.1.num, va := p.1.va.toNat, place := some p.2, n := n, nib := p.1.nib
        bytes := if wr then leBytes (s.elem w vd p.1.num).toNat n else [] }
    let traps (i : Instr) (srcs : List Opnd) (store : Bool) (l : List ElemRef) : Prop :=
      (∀ c va, firstBad n l = some (c, va) → exec i s = .next (s.takeTrap c va)) ∧
      ∀ c va, firstBad n l = none → (s.after srcs).routes n store l = .fault c va → exec i s = .next (s.takeTrap c va)
    let behind (store : Bool) (own : List (ElemRef × Nat × Option (Fin 16))) : Bool := s.ownHeld cls store (own.map fun x => (x.2.1, n))
    let held (i : Instr) (store : Bool) (own : List (ElemRef × Nat × Option (Fin 16))) : Prop :=
      own ≠ [] → behind store own = true → exec i s = .next (s.setSt { s.st with wait := some (.ext .access) })
    let loads (i : Instr) (srcs : List Opnd) (l : List ElemRef) (lat : Nat) : Prop :=
      s.block srcs [] = none → traps i srcs false l ∧
        ∀ own away far u, firstBad n l = none → (s.after srcs).routes n false l = .ok own away far u → held i false own ∧
          ((own = [] ∨ behind false own = false) →
            (∀ v, s.earlyElem n own = some v → exec i s = .next (s.takeTrap ⟨0x0E, 0⟩ (BitVec.ofNat 64 v))) ∧
            (s.earlyElem n own = none →
              let got := own.map fun x => (x.1.num, byteOf x.1 (s.mem.readN (scratchLoc s.coreNo x.2.1) n))
              (away = [] → far = false → ∃ t, exec i s = .next t ∧ s.Read (State.withVec { t with tlb := s.tlb } s.bank.vec) srcs ∧
                t.bank.vec = { s.bank.vec with v := s.bank.vec.v.set (s.bank.vec.phys vd) (putElems w old got) } ∧
                (RegId.v (s.bank.vec.phys vd), s.now + lat) ∈ t.st.busy) ∧
              (away ≠ [] ∨ far = true → ∃ t x, exec i s = .next t ∧
                s.Sent { t with bank := { t.bank with fills := s.bank.fills } } srcs [] x ∧ x.cls = cls ∧ x.req = .vload w ∧
                x.dest = .vec (s.bank.vec.phys vd) ∧ x.got = got ∧ x.todo = away.map (piece false) ∧
                ∀ p ∈ away, p.2.home = 5 → ∃ f ∈ t.bank.fills, f.entry = p.2.slot ∧ f.granule = p.2.gen)))
    let stores (i : Instr) (srcs : List Opnd) (l : List ElemRef) : Prop :=
      s.block srcs [] = none → traps i srcs true l ∧
        (∀ v e k, firstBad n l = none → (s.after srcs).routes n true l = .fill v e k →
          (s.fillFault e.val k = none → exec i s = .next ((s.askFill e.val k s.issued).hold (.ext .fill))) ∧
          ∀ c, s.fillFault e.val k = some c → exec i s = .next ((s.dropFill e.val k).takeTrap ⟨c.1, c.2⟩ (BitVec.ofNat 64 v))) ∧
        ∀ own away far u, firstBad n l = none → (s.after srcs).routes n true l = .ok own away far u → held i true own ∧
          ((own = [] ∨ behind true own = false) →
            ∃ (runs : List (Bool × List (ElemRef × Nat × Option (Fin 16)))) (t : State),
              (runs.flatMap fun r => r.2) = own ∧ (∀ r ∈ runs, r.2 ≠ [] ∧ ∀ x ∈ r.2, x.2.2.isSome = r.1) ∧ exec i s = .next t ∧
              t.core = { s.core with early := s.core.early ++ runs.zipIdx.map fun r =>
                { bank := s.bankNo, by_ := s.sid, ord := s.issued + r.2, cls := cls, mapped := r.1.1, due := s.now + 6
                  cells := ownCells ty old r.1.2 } } ∧
              t.bank.map = (s.markWritten n own).bank.map ∧
              let base : State := { s with issued := s.issued + runs.length }
              let rest : State := { t with core := s.core, forward := s.forward, bank := { t.bank with map := s.bank.map } }
              (away = [] → base.Read { rest with tlb := s.tlb } srcs) ∧
              (away ≠ [] → ∃ x, base.Sent rest srcs [] x ∧ x.cls = cls ∧ x.req = .vstore ∧ x.dest = .none ∧ x.todo = away.map (piece true)))
    loads (.vld g ty mk vd a b cls) [a, b] unit 4 ∧ loads (.vlds g ty mk vd a b cls) [a, b] strided 8 ∧
    loads (.vldx g ty mk vd a vb cls) [a] indexed 8 ∧ stores (.vst g ty mk vd a b cls) [a, b] unit ∧
    stores (.vsts g ty mk vd a b cls) [a, b] strided ∧ stores (.vstx g ty mk vd a vb cls) [a] indexed

/-! ## Link words -/

/-- R374, R375: LSLOT waits for its slot and gives how many slots late it is; LXMIT queues its cargo for that slot, or discards it where the slot
has begun; LRECV takes the oldest entry of a port's receive queue, or marks it missing, and waits where there is none. A port
of another die raises ILLEGAL 14. -/
def Obligations.LinkWords : Prop :=
  ∀ (s : State) (d a b : Fin 32) (imm : BitVec 20) (c : Fin 16) (port : BitVec 6),
    let slot : Word := BitVec.ofNat 64 s.link.f0 + s.reg a + imm.setWidth 64
    let waits (w : Wait) := s.setSt { s.st with wait := some w }
    let link (u : State) (f : Link → Link) : State := { u with link := f u.link }
    let own : Prop := port.toNat / 16 = s.dieNo
    let p := s.portAt port.toNat
    let popped (rest : List (Option (List Byte × Word))) : State := { s with ports := Tbl.put s.ports port.toNat { p with rq := rest } }
    (s.fslot + 1 < slot.toNat → exec (.lslot d a imm) s = .next (waits (.ext .slot))) ∧
    (slot.toNat ≤ s.fslot + 1 → ∃ u, s.Wrote u [] (some (.s d)) (if s.st.wait = some (.ext .slot) then 0
        else BitVec.ofNat 64 (s.fslot + 1 - slot.toNat)) 1 ∧
      exec (.lslot d a imm) s = .next (link u fun l => { l with cur := slot.toNat })) ∧
    (¬ own → exec (.lxmit c b port) s = .next (s.takeTrap (cILLEGAL 14) (port.setWidth 64)) ∧
      exec (.lrecv c a b port) s = .next (s.takeTrap (cILLEGAL 14) (port.setWidth 64))) ∧
    (own → s.link.cur ≤ s.fslot → ∃ u, s.Read u [] ∧
      exec (.lxmit c b port) s = .next (link u fun l => { l with lflags := l.lflags ||| 128 })) ∧
    (own → s.fslot < s.link.cur → ∃ u, s.Read u [] ∧ exec (.lxmit c b port) s = .next (link u fun l => { l with
      queued := l.queued ++ [{ port := port.toNat, slot := s.link.cur, bytes := leBytes s.link.cr[c].toNat 4096, side := s.reg b }] })) ∧
    (own → p.rq = [] → exec (.lrecv c a b port) s = .next (waits (.ext .cargo))) ∧
    (own → ∀ e rest, p.rq = e :: rest →
      ∃ (t : State) (side : Word), exec (.lrecv c a b port) s = .next t ∧
        (popped rest).Quiet (link t fun l => { l with cr := s.link.cr, lflags := s.link.lflags }) ∧ (popped rest).Issued t ∧
        (∀ r : Fin 32, t.reg r = if r = 0 then 0 else if r = a then (if e.isNone then 1 else 0) else if r = b then side else s.reg r) ∧
        match e with
        | some (bytes, x) => side = x ∧ t.link.lflags = s.link.lflags ∧
            t.link.cr = s.link.cr.set c (BitVec.ofNat 32768 (leNat bytes))
        | none => side = 0 ∧ t.link.cr = s.link.cr ∧ t.link.lflags = s.link.lflags ||| 64)

/-- R355, R375, R379, R381: the memory forms of LXMIT and LRECV send 4 KiB at a multiple of 4 KiB outside the windows, or trap; LDONE waits until
every cargo has left and every access of the run has performed and is acknowledged, then performs its completion store, which ends the run, or takes
its fault. (The step that notes since when the store waits is log 26, the credits that a store to a peer waits for are log 58, both DESIGN CHOICE;
that one waits for ever behind an access that has failed is log 89, DEDUCED.) -/
def Obligations.LinkMemory : Prop :=
  ∀ (s : State) (c : Fin 16) (a : Fin 32),
    let va := s.reg a
    let piece (p : Place) (bytes : List Byte) : List Piece :=
      [{ num := 0, va := va.toNat, place := some p, n := 4096, bytes := bytes, nib := 0 }]
    let quiet : Prop := s.link.queued = [] ∧ s.link.lost = false ∧ ∀ x ∈ s.flight, x.agent = s.agent → x.todo = [] ∧ x.req.stores = false
    let done := s.link.doneVa
    let waits (w : Wait) := s.setSt { s.st with wait := some w }
    (∀ (store : Bool), let i : Instr := if store then .lxmitMem c a else .lrecvMem c a
      (2 ^ 56 < va.toNat + 4096 → exec i s = .next (s.takeTrap ⟨0x03, 0⟩ va)) ∧
      (va.toNat + 4096 ≤ 2 ^ 56 → va.toNat % 4096 ≠ 0 → exec i s = .next (s.takeTrap ⟨0x02, 0⟩ va)) ∧
      (va.toNat + 4096 ≤ 2 ^ 56 → va.toNat % 4096 = 0 →
        (∀ e, s.route va.toNat 4096 store true = .error e → exec i s = .next (s.takeTrap e va)) ∧
        ∀ p u, s.route va.toNat 4096 store true = .ok (.away p, u) → ∃ t x, exec i s = .next t ∧ s.Sent t [] [] x ∧ x.cls = 0 ∧
          x.req = (if store then .store else .load 4096 false) ∧ x.dest = (if store then .none else .cargo c) ∧
          x.todo = piece p (if store then leBytes s.link.cr[c].toNat 4096 else []))) ∧
    (¬ quiet → exec .ldone s = .next (waits (.ext .access))) ∧
    (quiet →
      (∀ e, s.route done.toNat 8 true false = .error e → exec .ldone s = .next (s.takeTrap e done)) ∧
      ∀ p t, s.route done.toNat 8 true false = .ok (.away p, t) →
        (s.st.wait ≠ some (.ext .done) → exec .ldone s = .next (State.hold { t with link := { t.link with doneSince := s.w } } (.ext .done))) ∧
        (s.st.wait = some (.ext .done) →
          (∀ why, t.refusal s.die p 8 = some why → exec .ldone s = .next (s.takeTrap (refusalCause why) done)) ∧
          (t.refusal s.die p 8 = none → t.goesOut p 8 = none → exec .ldone s = .next (t.hold (.ext .done))) ∧
          ∀ v, t.refusal s.die p 8 = none → t.goesOut p 8 = some v → ∃ u, exec .ldone s = .next u ∧ u.st.exited = true ∧ u.link.active = false ∧
            u.mem = (v.placeWrite p [1, 0, 0, 0, 0, 0, 0, 0] 0 false).mem))

/-- R371, R376, R377, R378: LWID widens a cargo into four registers of fp32, LADD adds two of them element by element, LQNT narrows four into a
cargo, whose bytes behind the headers of an e2m1x one are 0; each raises its flags in LFLAGS, and the other cargo registers stay. -/
def Obligations.LinkArithmetic : Prop :=
  ∀ (s : State) (e2m1x sat : Bool) (rnd : Rnd) (d a b : Fin 16) (r : Fin 32) (spc : Fin 8),
    let cr := s.link.cr
    let elem (w : Nat) (c : CargoReg) (i : Nat) : Nat := (c.extractLsb' (i * w) w).toNat
    let undone (t : State) : State := { t with link := { t.link with cr := cr, lflags := s.link.lflags, lanes := s.link.lanes } }
    let flags (t : State) (n : Nat) (fl : Nat → Flags) : Prop :=
      t.link.lflags.extractLsb' 6 3 = s.link.lflags.extractLsb' 6 3 ∧
        raised (s.link.lflags.setWidth 6) (t.link.lflags.setWidth 6) n (fun _ => True) fl
    let code := (s.reg r).toNat % 256
    let wide (i : Nat) : Nat × Flags :=
      if e2m1x then fmtFp32.ofVal envRne (e2m1xVal (elem 16 cr[a] (1024 + i / 32)) (elem 4 cr[a] i))
      else fmtFp32.ofVal envRne ((fmtE4m3.decode (elem 8 cr[a] i)).scale (Int.ofNat code - 127))
    let sum (i : Nat) : Nat × Flags := fAdd fmtFp32 { rnd := rnd, sat := sat, ftz := false, v := 0 }
      (fmtFp32.decode (elem 32 cr[a] i)) (fmtFp32.decode (elem 32 cr[b] i))
    let vals := (List.range 4096).map fun i => fmtFp32.decode (elem 32 cr[a + Fin.ofNat 16 (i / 1024)] (i % 1024))
    let lane (i : Nat) : Nat := (s.linkLanes rnd).1.getD i 0
    let ex := quantExp vals
    let narrow (i : Nat) : Nat × Flags :=
      fmtE4m3.ofVal { rnd := rnd, sat := sat, ftz := false, v := lane i } ((vals.getD i (.fin false 0 0)).scale (-ex))
    let block (k : Nat) : Nat × List Nat × Flags :=
      e2m1xBlock rnd spc.val ((vals.drop (32 * k)).take 32) (((s.linkLanes rnd).1.drop (32 * k)).take 32)
    (∃ t, exec (.lwid e2m1x d a r) s = .next t ∧ s.Read (undone t) [] ∧ t.link.lanes = s.link.lanes ∧ flags t 4096 (fun i => (wide i).2) ∧
      (∀ c, (∀ j : Fin 4, c ≠ d + j.castLE (by decide)) → t.link.cr[c] = cr[c]) ∧
      ∀ i, i < 4096 → elem 32 t.link.cr[d + Fin.ofNat 16 (i / 1024)] (i % 1024) = (wide i).1 % 2 ^ 32) ∧
    (∃ t, exec (.ladd rnd sat d a b) s = .next t ∧ s.Read (undone t) [] ∧ t.link.lanes = s.link.lanes ∧ flags t 1024 (fun i => (sum i).2) ∧
      (∀ c, c ≠ d → t.link.cr[c] = cr[c]) ∧ ∀ i, i < 1024 → elem 32 t.link.cr[d] i = (sum i).1 % 2 ^ 32) ∧
    (e2m1x = false → ∃ t, exec (.lqnt false rnd sat d a r spc) s = .next t ∧
      s.Wrote (undone t) [] (some (.s r)) (BitVec.ofNat 64 (ex + 127).toNat) 64 ∧ t.link.lanes = (s.linkLanes rnd).2 ∧
      flags t 4096 (fun i => (narrow i).2) ∧ (∀ c, c ≠ d → t.link.cr[c] = cr[c]) ∧
      ∀ i, i < 4096 → elem 8 t.link.cr[d] i = (narrow i).1 % 2 ^ 8) ∧
    (e2m1x = true → ∃ t, exec (.lqnt true rnd sat d a r spc) s = .next t ∧ s.Read (undone t) [] ∧
      t.link.lanes = (s.linkLanes rnd).2 ∧ flags t 128 (fun k => (block k).2.2) ∧ (∀ c, c ≠ d → t.link.cr[c] = cr[c]) ∧
      (∀ k, 1152 ≤ k → k < 2048 → elem 16 t.link.cr[d] k = 0) ∧
      ∀ k, k < 128 → elem 16 t.link.cr[d] (1024 + k) = (block k).1 % 2 ^ 16 ∧
        ∀ i, i < 32 → elem 4 t.link.cr[d] (32 * k + i) = (block k).2.1.getD i 0 % 2 ^ 4)

/-! ## The steps of the lanes -/

/-- R157, R198, R226 to R232, R236, R260, R355, R365: the steps of an access in its lane. A part that may perform does so at its place in one step, a
store to the host or a peer once it is accepted (log 27, DEDUCED), one to a peer where its port has the credits (log 58, DESIGN CHOICE), one
behind a granule once it is filled, an SC operation at W + 256 of the position of the wheel that it took. A refusal, an uncorrectable error or
2^24 cycles of W without an answer since the issue (log 26, DESIGN CHOICE) fail it: parts of a store are counted by FENCE, every other access, and
the store of a running stream that meets an uncorrectable error, will trap its stream, and a write-back that meets one stops. The
acknowledgement of a store takes it out of its lane. -/
def Obligations.AccessSteps : Prop :=
  ∀ (s : State) (k : Nat) (x : Access), s.flight[k]? = some x →
    let upd (f : Access → Access) : List Access := s.flight.set k (f x)
    let plain : Prop := x.req.digest = false
    let failed (t : State) (va why : Nat) : Prop := x.agent = s.agent → s.owns x = true → x.fail = none →
      t.st.failed = s.st.failed ++ [{ ord := x.ord, cls := x.cls, va := va, why := why, beyond := x.beyond }]
    let performs (i : Instr) (p : Piece) (rest : List Piece) (at_ : Place) : Prop :=
      let old := s.placeRead at_ p.n
      let new : Option (List Byte) := match x.req with
        | .store | .vstore => some (if p.nib = 0 then p.bytes else [mergeNib p.nib (old.headD 0) (p.bytes.headD 0)])
        | .writeback => some p.bytes
        | r => r.update old
      let sameKey (a : Nat) : Prop := at_.home = 0 → ∀ y, Tbl.get? s.tags (a / 64) = some y → y = (at_.slot, at_.gen)
      ∃ t, exec i s = .next t ∧
        (x.req.stores = true → t.flight = upd fun x => { x with todo := rest }) ∧
        (x.req.stores = false → t.flight = upd fun x => { x with todo := rest, got := x.got ++ [(p.num, match x.req with
          | .amo _ _ _ | .cas _ _ _ => old
          | _ => old.map (pickNib p.nib))] }) ∧
        (new = none → t.mem = s.mem) ∧
        (∀ l, new = some l → s.Inv → (∀ i, i < l.length → t.mem.read (at_.loc + i) = l.getD i 0) ∧
          ∀ a, ¬ (at_.loc ≤ a ∧ a < at_.loc + l.length) → sameKey a → t.mem.read a = s.mem.read a)
    let running : Prop := s.owns x = true ∧ (s.streamOf x.agent).exited = false
    let fails (i : Instr) (p : Piece) (rest : List Piece) (why : Nat) : Prop :=
      let counted : Prop := x.req.stores = true ∧ x.sc = none ∧ (why ≠ 35 ∨ x.req = .writeback ∨ ¬ running ∨ x.fail ≠ none)
      ¬ (x.req = .writeback ∧ why = 35 ∧ s.owns x = true) →
        (counted → ∃ t, exec i s = .next t ∧ t.flight = (upd fun x => { x with todo := rest }) ∧ t.mem = s.mem ∧ failed t p.va why) ∧
        (¬ counted → exec i s = .next { s with flight := upd fun x => { x with
          todo := [], fail := some ((refusalCause why).code, (refusalCause why).sub), va := p.va } })
    (∀ p rest at_, x.todo = p :: rest → p.place = some at_ → plain → s.mayPerform k = true →
      let i : Instr := .memoryAccessPerform (.lane k)
      let why := s.refusal x.agent.die at_ p.n
      let filled := ((s.bankAt x.agent.core x.agent.bank).map.toList.getD at_.slot MapEntry.zero).isFilled at_.gen
      (x.accepts = true → exec i s = .next { s with flight := upd fun x => { x with accepted := true } }) ∧
      (x.accepts = false → at_.home ≠ 5 →
        (why = none → s.takeCredits x.agent.die at_ p.n = none → exec i s = .next s) ∧
        (why = none → s.takeCredits x.agent.die at_ p.n ≠ none → performs i p rest at_) ∧ ∀ n, why = some n → fails i p rest n) ∧
      (x.accepts = false → at_.home = 5 → filled = true →
        (s.flawed at_.loc p.n = false → performs i p rest at_) ∧ (s.flawed at_.loc p.n = true → fails i p rest 35)) ∧
      (at_.home = 1 ∨ at_.home = 2 → fails (.memoryAccessPerform (.refused k)) p rest 33) ∧
      fails (.memoryAccessPerform (.spoiled k)) p rest 35 ∧
      (x.req = .writeback → s.owns x = true → ∃ t, exec (.memoryAccessPerform (.spoiled k)) s = .next t ∧
        t.flight = s.flight.eraseIdx k ∧ t.mem = s.mem ∧
        ∀ e w, x.agent.core = s.coreNo → x.agent.bank = s.bankNo → s.mapAt p.va = some e → s.bank.wb = some w →
          (∃ v, t.bank.wb = some v ∧ v.stopped = true ∧ e ∈ v.left) ∧ ∃ r, t.bureau.posts = s.bureau.posts ++ [r] ∧ r.va = BitVec.ofNat 64 p.va)) ∧
    (∀ scope w p rest at_, x.sc = some (scope, some w) → x.todo = p :: rest → p.place = some at_ → w + 256 ≤ s.w →
      (s.refusal x.agent.die at_ p.n = none → performs (.scPerform k) p rest at_) ∧
      ∀ why, s.refusal x.agent.die at_ p.n = some why → fails (.scPerform k) p rest why) ∧
    (∀ scope w, x.sc = some (scope, none) → x.agent = s.agent → s.sid ≠ .L → x.fail = none → s.scClear k x scope = true →
      let held (v : Nat) : Prop := s.w ≤ v ∧ s.bank.wheelNext ≤ v ∧
        ∃ i, i < s.bank.wheelCount ∧ (s.bank.wheelFirst + i * s.bank.wheelStride) % 512 = v % 512
      held w → (∀ v, held v → w ≤ v) → exec (.scSend k) s = .next { s with
        flight := upd fun x => { x with sc := some (scope, some w) }, bank := { s.bank with wheelNext := w + 1 } }) ∧
    (x.returns = false → x.todo = [] → exec (.storeAck k) s = .next { s with flight := s.flight.eraseIdx k }) ∧
    (∀ p rest, x.fail = none → x.todo = p :: rest →
      (s.w < x.at_ + 2 ^ 24 → exec (.accessTimeout k) s = .next s) ∧
      (x.at_ + 2 ^ 24 ≤ s.w →
        (x.req.stores = true → x.sc = none → ∃ t, exec (.accessTimeout k) s = .next t ∧ t.mem = s.mem ∧
          t.flight = (upd fun x => { x with fail := some (0x0F, 2) }) ∧
          (x.agent = s.agent → s.owns x = true → t.st.failed = s.st.failed ++ x.todo.map fun p =>
            { ord := x.ord, cls := x.cls, va := p.va, why := 34, beyond := x.beyond })) ∧
        (x.req.stores = false ∨ x.sc ≠ none → exec (.accessTimeout k) s = .next { s with
          flight := upd fun x => { x with todo := [], fail := some (0x0F, 2), va := p.va } })))

/-- R12, R22, R142, R229, R230, R231, R232: what an access has read goes to its destination. A failed one traps its stream at its word, with the
registers as they stood there, the popped entries back in their queues, and what later words have sent or pushed taken back (log 38, DESIGN
CHOICE). A FENCE whose accesses are done gives its status and clears what it counted. -/
def Obligations.ReturnSteps : Prop :=
  ∀ s : State,
    let marked (q : Fin 16) (n : Nat) (v : Word) (e : QEntry) : QEntry :=
      if e.due.isNone && e.ticket == n then { e with value := qValue q v, due := some (max s.now s.ownReady) } else e
    let given (t : State) (d : Opnd) (n : Nat) (v : Word) : Prop :=
      (∀ r : Fin 32, t.reg r = if r ≠ 0 ∧ d = .s r then v else s.reg r) ∧
      ∀ q : Fin 16, t.bank.q[q] = if d = .q q then s.bank.q[q].map (marked q n v) else s.bank.q[q]
    (∀ (k : Nat) (x : Access), s.flight[k]? = some x → x.agent = s.agent → x.returns = true →
      let bytes := (x.got.headD (0, [])).2
      let gone (t : State) : Prop := (t.flight.map fun y => { y with snap := none }) =
        (s.flight.filter fun y => !(y.agent == x.agent && y.ord == x.ord)).map fun y => { y with snap := none }
      (x.fail = none → x.todo = [] → x.req.digest = false → ∃ t, exec (.loadDataReturn k) s = .next t ∧ gone t ∧
        (∀ d, x.dest = .scalar d → s.Quiet { t with flight := s.flight } ∧ given t d x.ord (x.req.result bytes)) ∧
        (∀ n sgn, x.req = .load n sgn → bytes.length = n → x.req.result bytes = loadValue n sgn bytes) ∧
        (∀ p w, x.dest = .vec p → x.req = .vload w → t = { s with
          flight := t.flight
          bank := { s.bank with vec := { s.bank.vec with v := s.bank.vec.v.set p (putElems w s.bank.vec.v[p] x.got) } } }) ∧
        ∀ c, x.dest = .cargo c → x.got ≠ [] → t = { s with
          flight := t.flight, link := { s.link with cr := s.link.cr.set c (BitVec.ofNat 32768 (leNat bytes)) } }) ∧
      (∀ code sub, x.fail = some (code, sub) → code < 256 → sub < 256 → ∃ t, exec (.loadDataReturn k) s = .next t ∧
        t.flight = s.flight.filter (fun y => !(y.agent == x.agent && decide (x.ord ≤ y.ord))) ∧
        t.st.cause = BitVec.ofNat 64 (code + 256 * sub) ∧ t.st.epc = BitVec.ofNat 64 x.epc ∧
        t.st.tval = BitVec.ofNat 64 x.va ∧ t.mem = s.mem ∧
        (∀ u v, x.snap = some (u, v) → t.st.s = u.s ∧ t.st.l = u.l ∧ t.st.k = u.k ∧ (s.sid = .X → t.bank.vec = v)) ∧
        (s.sid ≠ .X → t.bank.vec = s.bank.vec) ∧
        (s.sid ≠ .L → ∀ q : Fin 16,
          let later := ((s.st.pops.filter fun p => decide (x.ord < p.1)).map fun p => p.2).filter fun u => u.1 == q
          let still := s.bank.q[q].filter fun e => !(decide (Opnd.q q ∈ x.dests) && e.due.isNone && e.ticket == x.ord)
          t.bank.q[q] = (((x.undo.filter fun u => u.1 == q) ++ later).map (fun u => u.2) ++ still).filter fun e =>
            !(e.src == s.agent.key && decide (x.ord < e.rel))))) ∧
    (∀ f rest, s.st.fences = f :: rest → s.fenceDone f = true → (∀ j, j ≠ s.sid → (s.streamAt j).fences = []) →
      let counts (x : Failed) : Bool := decide (x.ord < f.ord) && f.mask.getLsbD x.cls && (!x.beyond || f.scope == .system)
      let l := s.st.failed.filter counts
      let has (n : Nat) : Nat := if l.any fun x => x.why == n then 2 ^ n else 0
      ∃ t, exec .fenceStatus s = .next t ∧ t.st.fences = rest ∧ t.st.failed = s.st.failed.filter (fun x => !counts x) ∧
        given t f.dst f.ord (BitVec.ofNat 64 (min l.length 0xFFFFFFFF + has 32 + has 33 + has 34)) ∧ t.mem = s.mem ∧
        (s.sid ≠ .L → (l = [] → t.bank.ffa = s.bank.ffa) ∧
          ∀ x ∈ l, (∀ y ∈ l, x.ord < y.ord ∨ y = x) → t.bank.ffa = BitVec.ofNat 56 x.va))

/-- R126, R134, R200, R216, R243, R296, R351, R352, R354: the steps that end waits. A barrier phase that every member has reached lets its streams
go; a wait that nothing can end traps in the first stream; a key and a generation retire once nothing has captured them, for a stream
or for the Bureau's KILL and BUMP; a stream that waits for events goes on at its deadline. -/
def Obligations.WaitSteps : Prop :=
  ∀ s : State,
    (∀ gs : Fin 4, s.members gs = [(s.coreNo, s.bankNo)] → (∃ k ∈ [StreamId.A, .X, .N], (s.streamAt k).atBar gs = true) →
      ∃ t, exec (.gbarPhaseComplete gs) s = .next t ∧ t.mem = s.mem ∧ t.bank.phase = s.bank.phase.set gs (s.bank.phase[gs].map (· + 1)) ∧
        ∀ k ∈ [StreamId.A, .X, .N],
          ((s.streamAt k).atBar gs = false → t.streamAt k = s.streamAt k) ∧
          ((s.streamAt k).atBar gs = true → (t.streamAt k).wait = none ∧ (t.streamAt k).last = (s.streamAt k).pc ∧
            (t.streamAt k).s = (s.streamAt k).s ∧
            (s.streamAt k).LoopsTaken (t.streamAt k))) ∧
    (let live := [StreamId.A, .X, .N].filter fun k => !(s.streamAt k).exited
      ∀ k l, live = k :: l → s.bank.started = true → s.bank.stopped = none → (∀ j ∈ live, s.stuck j ≠ none) →
        s.bankBusy = false → s.allMeet = false → ∀ n, s.stuck k = some n →
        exec .waitCannotEnd s = .next { State.takeTrap { s with sid := k } (cILLEGAL 11) (BitVec.ofNat 64 n) with sid := s.sid }) ∧
    (∀ r rest k, s.retires = r :: rest → r.what = .key k → s.retireReady r true = true → r.agent = s.agent →
      let g := min ((s.keyAt k).gen + 1) 0xFFFFFF
      ∃ t, exec .keyRetire s = .next t ∧ t.retires = rest ∧ t.keyAt k = { key := [0, 0, 0, 0], gen := g } ∧
        (∀ j, j ≠ k → t.keyAt j = s.keyAt j) ∧ t.mem = s.mem ∧
        (∀ e : Fin 16, t.bank.map[e] = s.bank.map[e].dropKey k (s.keyAt k).gen) ∧
        ∀ n : Fin 32, t.reg n = if n ≠ 0 ∧ r.dst = .s n then BitVec.ofNat 64 g else s.reg n) ∧
    (∀ k, s.retires = [] → s.bureau.kill.busy = some k → s.keyFree k = true →
      let g := min ((s.keyAt k).gen + 1) 0xFFFFFF
      ∃ t, exec .keyRetire s = .next t ∧ t.keyAt k = { key := [0, 0, 0, 0], gen := g } ∧ t.mem = s.mem ∧
        t.bureau = { s.bureau with kill := { busy := s.bureau.kill.held.head?, held := s.bureau.kill.held.drop 1, last := k, lastGen := g } }) ∧
    (∀ r rest k, s.retires = r :: rest → r.what = .gen k → s.retireReady r false = true → r.agent = s.agent →
      let sp := s.spaceAt k
      ∃ t, exec .generationRaise s = .next t ∧ t.retires = rest ∧ t.spaceAt k = { sp with gen := sp.gen + 1 } ∧
        (∀ j, j ≠ k → t.spaceAt j = s.spaceAt j) ∧ t.btc = s.btc.filter (fun e => e.2.1 != k) ∧ t.mem = s.mem ∧
        ∀ n : Fin 32, t.reg n = if n ≠ 0 ∧ r.dst = .s n then BitVec.ofNat 64 (sp.gen + 1) else s.reg n) ∧
    (∀ k, s.retires = [] → s.bureau.bump.busy = some k → s.genFree k = true →
      let sp := s.spaceAt k
      ∃ t, exec .generationRaise s = .next t ∧ t.spaceAt k = { sp with gen := sp.gen + 1 } ∧ t.mem = s.mem ∧
        t.bureau = { s.bureau with bump := { busy := s.bureau.bump.held.head?, held := s.bureau.bump.held.drop 1, last := k, lastGen := sp.gen + 1 } }) ∧
    (∀ k d a b, k ≠ .L → (s.streamAt k).wait = some (.ext .event) →
      let u : State := { s with sid := k }
      decode k (u.code.getD u.st.pc 0) = .ok (.waitev d a b) →
        ∃ t, exec (.waitev d a b) u = .next t ∧ exec (.waitevDeadline k) s = .next { t with sid := s.sid })

/-! ## The region map's own steps -/

/-- R198, R199, R200, R239, R267: a fill brings the 2 KiB of its granule from home, or from the scratchpad that the forward table names, into the
scratchpad, notes them as filled and not written, and leaves every other byte; one of a granule that has been filled since is dropped; a fault,
a refusal or an uncorrectable error is kept for the word that waits. A write-back sends the next run of written bytes home, an instruction's
through its lane, or stops on a fault or an uncorrectable error, and goes on to the next entry after the last run; both wait where a
page of the host or of a peer makes them wait. (That the home is reached from the die `s.coreNo / 96` is log 76, DESIGN CHOICE; where an
uncorrectable error lies is log 86, DESIGN CHOICE; the credits are log 58, DESIGN CHOICE.) -/
def Obligations.MapSteps : Prop :=
  ∀ (s : State) (e : Fin 16) (g : Nat),
    let m := s.bank.map[e]
    let va := m.vabase + g * 2048
    let here := scratchLoc s.coreNo (m.spbase + g * 2048)
    let dropped := s.bank.fills.filter fun f => !f.of e.val g
    let setWb (w : Option Writeback) : State := { s with bank := { s.bank with wb := w } }
    let die := s.coreNo / 96
    (∀ f, s.bank.fills.find? (fun f => f.of e.val g && f.fault.isNone) = some f →
      (m.valid = false ∨ m.isFilled g = true → exec (.mapFill e g) s = .next { s with bank := { s.bank with fills := dropped } }) ∧
      (m.valid = true → m.isFilled g = false →
        let fails (c : Cause) : Prop := exec (.mapFill e g) s = .next { s with bank := { s.bank with
          fills := s.bank.fills.map fun f => if f.of e.val g then { f with fault := some (c.code, c.sub) } else f } }
        let own := s.flawedOwn (m.spbase + g * 2048) 2048
        (∀ c, s.xlate s.streamA.space va true m.rw = .error c → fails c) ∧
        ∀ p u, s.xlate s.streamA.space va true m.rw = .ok (p, u) →
          (s.fillClear f m.cls.val p = false → exec (.mapFill e g) s = .next s) ∧
          (∀ why, s.fillClear f m.cls.val p = true → u.refusal die p 2048 = some why → fails (refusalCause why)) ∧
          (s.fillClear f m.cls.val p = true → u.refusal die p 2048 = none → own = true → fails (cUNCORR 0)) ∧
          (s.fillClear f m.cls.val p = true → u.refusal die p 2048 = none → own = false → u.goesOutOf die p 2048 = none →
            exec (.mapFill e g) s = .next s) ∧
          (s.fillClear f m.cls.val p = true → u.refusal die p 2048 = none → own = false → u.goesOutOf die p 2048 ≠ none → s.Inv →
            let home (i : Nat) : Byte :=
              match s.forward.find? fun w => p.home == 0 && w.pa == p.pa && w.slot == p.slot && w.gen == p.gen with
              | some w => s.mem.read (scratchLoc w.core w.off + i)
              | none => s.homeByte (p.add i)
            ∃ t, exec (.mapFill e g) s = .next t ∧ t.bank.fills = dropped ∧
              t.bank.map = s.bank.map.set e { m with
                filled := Tbl.put m.filled g (p.slot, p.gen), written := m.written.filter fun x => x / 2048 != g } ∧
              (∀ i, i < 2048 → t.mem.read (here + i) = home i) ∧
              ∀ a, ¬ (here ≤ a ∧ a < here + 2048) → t.mem.read a = s.mem.read a))) ∧
    (∀ w l, s.bank.wb = some w → w.stopped = false → w.left = e :: l →
      let next := if w.by_ = .hand ∧ l = [] then none else some { w with left := l }
      (m.run w.only = none → exec (.mapWriteback e) s = .next (setWb next) ∧
        exec (.memoryAccessPerform .writeback) s = .next (setWb next)) ∧
      ∀ off n, m.run w.only = some (off, n) →
        let a := m.vabase + off
        let v : State := { s with sid := .A }
        let stops (c : Cause) : Prop := ∃ r : Record, r.va = BitVec.ofNat 64 a ∧ r.who = .writeback s.coreNo s.bankNo ∧
          r.info.toNat % 2 ^ 16 = (c.code + 256 * c.sub) % 2 ^ 16 ∧
          exec (.mapWriteback e) s = .next { setWb (some { w with stopped := true }) with
            bureau := { s.bureau with posts := s.bureau.posts ++ [r] } }
        (∀ c, v.xlate v.space a false true = .error c → stops c) ∧
        ∀ p u, v.xlate v.space a false true = .ok (p, u) →
          let left := min n (u.pageLeft a)
          let k := if p.home = 2 then min left 2048 else left
          let bytes := s.latestBytes (m.spbase + off) k
          let sent (t : State) : Prop := exec (.mapWriteback e) s = .next t ∧ t.bank.wb = some { w with sent := w.sent + k } ∧
            t.bank.map = s.bank.map.set e { m with written := m.written.filter fun x => !decide (off ≤ x ∧ x < off + k) }
          (s.flawedOwn (m.spbase + off) k = true → stops (cUNCORR 0)) ∧
          (s.flawedOwn (m.spbase + off) k = false →
            (w.by_.ofStream = true → ∃ t, sent t ∧ t.mem = s.mem ∧ ∃ x, t.flight = s.flight ++ [x] ∧ x.agent = v.agent ∧ x.req = .writeback ∧
              x.cls = m.cls.val ∧ x.ord = s.issued ∧ x.todo = [{ num := 0, va := a, place := some p, n := k, bytes := bytes, nib := 0 }]) ∧
            (w.by_.ofStream = false →
              (u.refusal die p k = some 35 → stops (cUNCORR 0)) ∧
              (∀ why, u.refusal die p k = some why → why ≠ 35 → ∃ t, sent t ∧ t.flight = s.flight ∧ t.mem = s.mem) ∧
              (u.refusal die p k = none → u.goesOutOf die p k = none → exec (.mapWriteback e) s = .next s) ∧
              ∀ x, u.refusal die p k = none → u.goesOutOf die p k = some x →
                ∃ t, sent t ∧ t.flight = s.flight ∧ t.mem = (x.homeWrite p bytes true).mem)))

/-! ## Launches, tasks and graphs -/

/-- R180, R181: LAUNCH and GRAPH refuse their operands with ECMD, wait while 8 launches with a reply are open, and else hand the launch to the
launch unit. -/
def Obligations.LaunchWords : Prop :=
  ∀ (s : State) (rpl graph : Bool) (a b : Opnd), s.block [a, b] [] = none →
    let x := s.source [] a
    let y := s.source [a] b
    let i : Instr := if graph then .graph rpl a b else .launch rpl a b
    let badA : Prop := x.toNat % (if graph then 32 else 256) ≠ 0 ∨ 2 ^ 56 ≤ x.toNat
    let badB : Prop := if graph then y.toNat = 0 ∨ 65536 < y.toNat else y.toNat % 8 ≠ 0 ∨ 2 ^ 56 ≤ y.toNat
    (badA → exec i s = .next (s.takeTrap ⟨0x0C, 0⟩ x)) ∧ (¬ badA → badB → exec i s = .next (s.takeTrap ⟨0x0C, 0⟩ y)) ∧
    (¬ badA → ¬ badB → rpl = true → 8 ≤ s.bank.launches → exec i s = .next (s.setSt { s.st with wait := some (.ext .launch) })) ∧
    (¬ badA → ¬ badB → (rpl = true → s.bank.launches < 8) → ∃ u r, s.Read u [a, b] ∧ exec i s = .next { u with
        launches := s.launches ++ [r], issued := s.issued + 1, bank := { u.bank with launches := s.bank.launches + rpl.toNat } } ∧
      r.graph = graph ∧ r.va = x.toNat ∧ r.arg = y ∧ r.space = s.space ∧ r.parent = s.bank.iter.map (fun i => i.task) ∧ r.core = s.coreNo ∧
      r.bank = s.bankNo ∧ r.rel = s.issued ∧ r.stopped = false ∧ (rpl = false → r.reply = .nowhere) ∧
      (∀ it, rpl = true → s.bank.iter = some it → r.reply = .bank s.coreNo s.bankNo it.task it.ord))

/-- R115, R118, R128, R133, R166, R172, R173, R175, R177, R178, R179, R355: the steps of a task. A launch is accepted with its edges once what its
parent hands over is written back, or refused with a record, or waits while its record does; the head task takes its group entries; a draw of the
lottery steps LOTSEED once and serves, among the ready queues of the highest priority, the one in whose share of the tickets the number falls: an
iteration of it is placed, or its gang takes a core more, and is placed whole with the last one that it needs (on which cores is not stated); images
load by 64 bytes, and meet faults and uncorrectable errors; the streams start with their registers; a bank whose streams have exited writes back and
becomes free; a task completes, and its edges are released. (The write-back before acceptance is log 75, DEDUCED; the fields of the record of a
refusal are log 14, DEDUCED; the cores of a gang log 17, DESIGN CHOICE; a core of 384 or more stops by log 66, DESIGN CHOICE.) -/
def Obligations.TaskSteps : Prop :=
  ∀ s : State,
    let head (r : LaunchReq) (l : List LaunchReq) : Prop :=
      s.launches = r :: l ∧ r.stopped = false ∧ s.tasks.length < 4096 ∧ s.launchReleased r = true
    (∀ r l, head r l → r.graph = true → ∃ g, exec .launchAccept s = .next { s with
        launches := l, graphId := s.graphId + 1, graphs := s.graphs ++ [g] } ∧
      g.id = s.graphId + 1 ∧ g.space = r.space ∧ g.va = r.va ∧ g.n = r.arg.toNat ∧ g.node = 0 ∧ g.stack = [] ∧ g.ended = false ∧
      g.reading = none ∧ g.value = none ∧ g.status = 0 ∧ g.reply = r.reply) ∧
    (∀ r l n, head r l → r.graph = false → s.readTask r = .error (.status n) → n ≠ 0 → r.reply = .nowhere → s.replies = [] →
      ∃ rec : Record, rec.info.toNat % 2 ^ 16 = (0x11 + 2 ^ 8 * n) % 2 ^ 16 ∧ rec.va = BitVec.ofNat 64 r.at_ ∧ rec.word = r.word ∧
        exec .launchAccept s = .next { s with launches := l, bureau := { s.bureau with posts := s.bureau.posts ++ [rec] } }) ∧
    (∀ r l, head r l → r.graph = false → s.readTask r = .error .waits → exec .launchAccept s = .next s) ∧
    (∀ r l c va, head r l → r.graph = false → s.readTask r = .error (.fault c va) → ∃ rec : Record,
      rec.info.toNat % 2 ^ 16 = (c.code + 2 ^ 8 * c.sub) % 2 ^ 16 ∧ rec.va = BitVec.ofNat 64 va ∧ rec.who = .launch ∧
      exec .launchAccept s = .next { s with
        launches := { r with stopped := true } :: l, bureau := { s.bureau with posts := s.bureau.posts ++ [rec] } }) ∧
    (∀ r l t u e back, head r l → r.graph = false → s.readTask r = .ok (t, u) → u.handBack r t = e :: back → r.core = s.coreNo →
      r.bank = s.bankNo → s.bank.wb = none → exec .launchAccept s = .next { u with bank := { u.bank with
        wb := some { by_ := .hand, left := e :: back, sent := 0, stopped := false, only := some (u.handed r t) } } }) ∧
    (∀ r l t u, head r l → r.graph = false → s.readTask r = .ok (t, u) → u.handBack r t = [] → ∃ v before, exec .launchAccept s = .next v ∧
      v.launches = u.launches.drop 1 ∧ v.seq = u.seq + 1 ∧ v.mem = u.mem ∧
      v.tasks.map (fun e => e.seq) = u.tasks.map (fun e => e.seq) ++ [u.seq + 1] ∧
      v.tasks.getLast? = some { t with seq := u.seq + 1, parent := r.parent, edges := before } ∧
      ∀ n, n ∈ before ↔ ∃ e ∈ u.tasks, e.seq = n ∧ e.space = t.space ∧ r.parent ≠ some n ∧
        ∃ x ∈ e.regions, ∃ y ∈ t.regions, (x.wr = true ∨ y.wr = true) ∧ x.base < y.base + y.ext ∧ y.base < x.base + x.ext) ∧
    (∀ (q : Fin 64) t, s.headTask q.val = some t → t.held = false → t.groups ≠ [] → t.groups.length ≤ s.groupFree →
      exec (.groupTableAcquire q) s = .next { s with
        groupFree := s.groupFree - t.groups.length
        tasks := s.tasks.map fun e => if e.seq = t.seq then { e with held := true } else e }) ∧
    (∀ (core : Nat) (second : Bool), let b := if second then 1 else 0
      (384 ≤ core → exec (.lotteryDraw core second) s = .fault .noSuchUnit) ∧
      (core < 384 → core = s.coreNo → b = s.bankNo → s.bank.iter = none → s.bank.heir = none → s.gangTaker core b = none →
        let ready := (List.range 64).filter fun q => s.queueReady none q core b
        let prio (q : Nat) : Nat := ((s.headTask q).map fun t => t.prio).getD 0
        let best := ready.filter fun q => ready.all fun r => decide (prio r ≤ prio q)
        let tickets (q : Nat) : Nat := (s.queueAt q).tickets
        let sum (l : List Nat) : Nat := (l.map tickets).sum
        let x := s.lotto ^^^ s.lotto <<< 13
        let x := x ^^^ x >>> 17
        let x := x ^^^ x <<< 5
        let pick := x.toNat % sum best
        let placed (u : State) (t : Task) (l : List Nat) : Prop := u.lotto = x ∧ u.draws = s.draws + 1 ∧ u.mem = s.mem ∧
          u.tasks = s.tasks.map fun e => if e.seq = t.seq then { e with placed := e.placed ++ l } else e
        (ready = [] → exec (.lotteryDraw core second) s = .next s) ∧
        ∀ q t before after, best = before ++ q :: after → sum before ≤ pick → pick < sum before + tickets q → s.headTask q = some t →
          (t.groups = [] → t.saved = [] → ∃ u it, exec (.lotteryDraw core second) s = .next u ∧ placed u t [t.nextOrd] ∧
            u.bank.iter = some it ∧ it.task = t.seq ∧ it.ord = t.nextOrd ∧ it.idx = t.indices t.nextOrd ∧ it.space = t.space ∧
            u.bank.started = false) ∧
          (t.groups ≠ [] → let more : State := { s with lotto := x, draws := s.draws + 1, core := { s.core with reserved := some q } }
            (more.gangComplete q t = false → exec (.lotteryDraw core second) s = .next more) ∧
            (more.gangComplete q t = true → ∃ u, exec (.lotteryDraw core second) s = .next u ∧ placed u t t.nextGang)))) ∧
    (∀ sid i, s.core.images.find? (fun i => i.sid == sid && decide (i.words.length < i.len) && !i.stopped) = some i →
      let k := min 8 (i.len - i.words.length)
      let put (j : Image) : List Image := s.core.images.map fun x => if x.sid = i.sid ∧ x.tag = i.tag then j else x
      let read := s.spaceRead (s.coreNo / 96) i.space (i.va + 8 * i.words.length) (8 * k)
      (∀ va, read = .error (cWAITS, va) → exec (.imageLoad sid) s = .next s) ∧
      (∀ b t, read = .ok (b, t) → ∃ u, exec (.imageLoad sid) s = .next u ∧
        u.core.images = put { i with words := i.words ++ wordsOf b k } ∧ u.mem = s.mem ∧ u.bank = s.bank) ∧
      ∀ c va, read = .error (c, va) → c ≠ cWAITS → ∃ u, ∃ rec : Record,
        exec (.imageLoad sid) s = .next u ∧ u.core.images = put { i with stopped := true } ∧
        u.bureau.posts = s.bureau.posts ++ [rec] ∧ rec.va = BitVec.ofNat 64 va ∧ rec.who = .loader s.coreNo sid i.tag) ∧
    (∀ it, s.bank.iter = some it → s.bank.started = false → s.bank.restore = none → s.imagesReady = true →
      let args := match s.taskAt it.task with
        | some t => t.args
        | none => 0
      let reg (n : Fin 32) : Nat := if 1 ≤ n.val ∧ n.val ≤ 6 then it.idx.getD (n.val - 1) 0 else
        if n = 7 then args else if n = 8 then it.ord else if n = 9 then s.coreNo else if n = 10 then s.bankNo else 0
      ∃ u, exec .iterationStart s = .next u ∧ u.bank.started = true ∧ u.bank.cycle = 0 ∧ u.mem = s.mem ∧
        ∀ k ∈ [StreamId.A, .X, .N], ∃ v : Vector Word 32, (∀ n : Fin 32, v[n] = BitVec.ofNat 64 (reg n)) ∧
          u.streamAt k = { Stream.zero with s := v, tag := (s.streamAt k).tag, running := true }) ∧
    (∀ it, s.bank.iter = some it → s.bankDone = true → s.bank.evict = none →
      let dirty := (List.finRange 16).filter fun e => s.bank.map[e].valid && s.bank.map[e].rw && !s.bank.map[e].written.isEmpty
      (s.bank.wb = none → dirty = [] → ∃ u, exec .iterationRetire s = .next u ∧ u.bank = { Bank.zero with heir := s.bank.heir } ∧ u.mem = s.mem ∧
        u.tasks = s.tasks.map fun t => if t.seq = it.task then
          { t with retired := t.retired ++ [it.ord], stray := t.stray || s.bank.stray } else t) ∧
      (s.bank.wb = none → dirty ≠ [] → exec .iterationRetire s = .next { s with bank := { s.bank with
        wb := some { by_ := .endTask, left := dirty, sent := 0, stopped := false } } }) ∧
      ∀ w, s.bank.wb = some w → w.left = [] → exec .iterationRetire s = .next { s with bank := { s.bank with wb := none } }) ∧
    (∀ seq t, s.taskAt seq = some t → t.complete = false → t.guarded = false → t.aborted = false → t.total ≤ t.retired.length →
      t.reply = .nowhere → s.replies = [] →
      let all := s.tasks.map fun e => if e.seq = seq then { e with complete := true, held := false } else e
      exec (.taskComplete seq) s = .next { s with
        groupFree := s.groupFree + if t.held then t.groups.length else 0
        tasks := all.filter fun e => !(e.complete && s.taskQuiet e.seq && all.all fun u => !u.edges.contains e.seq) }) ∧
    (∀ before after,
      let all := s.tasks.map fun e => if e.seq = after then { e with edges := e.edges.filter (· != before) } else e
      (s.taskAt before = none → exec (.edgeRelease before after) s = .next { s with tasks := all }) ∧
      ∀ t, s.taskAt before = some t → t.complete = true → s.taskQuiet before = true → exec (.edgeRelease before after) s = .next { s with
        tasks := all.filter fun e => !(e.complete && s.taskQuiet e.seq && all.all fun u => !u.edges.contains e.seq) })

/-- R168 to R171, R182: the walk of a graph instance: a node fault ends it with its status, a TASK node launches and moves on, a COND node reads
its word and compares, a LOOP node counts its body, END ends it; the instance completes when all it launched has. A ring hands its
next record to the launch unit. A read on a page of the host or of a peer may wait. (That a task of a graph has no parent is log 12, DESIGN CHOICE;
that the reserved bytes of a ring record are not checked is log 65, DEDUCED.) -/
def Obligations.GraphSteps : Prop :=
  ∀ s : State, (∀ (inst : Nat) (g : GraphInst), s.graphAt inst = some g →
    let put (u : State) (x : GraphInst) : State := { u with graphs := u.graphs.map fun y => if y.id = x.id then x else y }
    let next (n : Nat) : GraphInst := { g with node := n, value := none }
    let stops (n : Nat) : GraphInst := { g with
      ended := true, status := if g.status = 0 then n else g.status, badVa := if g.status = 0 then g.va + 32 * g.node else g.badVa
      badNumber := if g.status = 0 then 0 else g.badNumber, badWord := if g.status = 0 then g.word else g.badWord }
    (g.ended = false → g.stopped = false → g.reading = none →
      (∀ n, s.nodeOf g = .error (.status n) → ∀ i ∈ [Instr.graphNodeTask inst, .graphNodeCond inst, .graphNodeLoop inst, .graphNodeEnd inst],
        exec i s = .next (put s (stops n))) ∧
      (s.nodeOf g = .error .waits → ∀ i ∈ [Instr.graphNodeTask inst, .graphNodeCond inst, .graphNodeLoop inst, .graphNodeEnd inst],
        exec i s = .next s) ∧
      ∀ n u, s.nodeOf g = .ok (n, u) →
        (n.kind = 1 → ∃ r, exec (.graphNodeTask inst) s = .next (put { u with launches := u.launches ++ [r] } (next n.next)) ∧
          r.graph = false ∧ r.va = n.va ∧ r.arg = 0 ∧ r.space = g.space ∧ r.parent = none ∧ r.reply = .graph inst ∧ r.stopped = false) ∧
        (n.kind = 2 → ∀ x cc, g.value = some x → Cond.ofCode n.cc = some cc →
          (condMeans cc x n.imm → exec (.graphNodeCond inst) s = .next (put u (next n.next))) ∧
          (¬ condMeans cc x n.imm → exec (.graphNodeCond inst) s = .next (put u (next n.alt)))) ∧
        (n.kind = 2 ∨ (n.kind = 3 ∧ ∀ e ∈ g.stack, e.1 ≠ g.node) → g.value = none → u.tasks.length < 4096 →
          (∀ r ∈ u.launches, r.reply ≠ .graph g.id) →
          ∃ v t, exec (if n.kind = 2 then .graphNodeCond inst else .graphNodeLoop inst) s = .next v ∧ v.seq = u.seq + 1 ∧
            v.tasks.getLast? = some t ∧ t.seq = u.seq + 1 ∧ t.guarded = true ∧ t.record = n.va ∧
            t.regions = [{ base := n.va, ext := 8, rd := true, wr := false, cls := 0 }] ∧
            v.graphs = (put u { g with reading := some (u.seq + 1) }).graphs) ∧
        (n.kind = 3 →
          (∀ l k rest, g.stack = (l, k) :: rest → l = g.node →
            (k ≤ 1 → exec (.graphNodeLoop inst) s = .next (put u { next n.next with stack := rest })) ∧
            (1 < k → exec (.graphNodeLoop inst) s = .next (put u { next n.body with stack := (l, k - 1) :: rest }))) ∧
          (∀ e rest, g.stack = e :: rest → e.1 ≠ g.node → (∃ y ∈ rest, y.1 = g.node) →
            exec (.graphNodeLoop inst) s = .next (put u (stops 4))) ∧
          ((∀ e ∈ g.stack, e.1 ≠ g.node) → ∀ c, g.value = some c →
            (c = 0 → exec (.graphNodeLoop inst) s = .next (put u (next n.next))) ∧
            (c ≠ 0 → 8 ≤ g.stack.length → exec (.graphNodeLoop inst) s = .next (put u (stops 5))) ∧
            (c ≠ 0 → g.stack.length < 8 → exec (.graphNodeLoop inst) s =
              .next (put u { next n.body with stack := (g.node, c.toNat) :: g.stack })))) ∧
        (n.kind = 0 → exec (.graphNodeEnd inst) s = .next (put u { g with ended := true, stack := [] }))) ∧
    (∀ seq t, g.reading = some seq → g.stopped = false → s.taskAt seq = some t → t.edges = [] →
      let read := s.recordRead (g.core / 96) g.space t.record 8
      (read = .error .waits → exec (.guardedRead inst) s = .next s) ∧
      ∀ b u, read = .ok (b, u) → exec (.guardedRead inst) s = .next (put { u with
          tasks := (u.tasks.filter fun e => e.seq != seq).map fun e => { e with edges := e.edges.filter (· != seq) } }
        { g with reading := none, value := some (BitVec.ofNat 64 (leNat b)) })) ∧
    (g.ended = true → s.graphOpen inst = false → g.reply = .nowhere → g.status = 0 → s.replies = [] →
      exec (.graphInstanceComplete inst) s = .next { s with graphs := s.graphs.filter fun y => y.id != inst })) ∧
    (∀ (q : Fin 64), let l := s.queueAt q.val
      let at_ := l.ringVa.toNat % 2 ^ 56 + 32 * (l.cons % l.size)
      l.waiting = true → l.stopped = false → (s.recordRead 0 l.space at_ 32 = .error .waits → exec (.ringRecord q) s = .next s) ∧
        ∀ b u, s.recordRead 0 l.space at_ 32 = .ok (b, u) →
        let va := numAt b 8 8
        let arg := numAt b 16 8
        (numAt b 0 1 = 1 ∧ va % 256 = 0 ∧ va < 2 ^ 56 ∧ arg % 8 = 0 ∧ arg < 2 ^ 56) ∨
          (numAt b 0 1 = 2 ∧ va % 32 = 0 ∧ va < 2 ^ 56 ∧ arg ≠ 0 ∧ arg ≤ 65536) →
        ∃ r, exec (.ringRecord q) s = .next { u with
            queues := Tbl.put u.queues q.val { u.queueAt q.val with cons := ((u.queueAt q.val).cons + 1) % 2 ^ 32 }
            launches := u.launches ++ [r] } ∧
          r.graph = (numAt b 0 1 == 2) ∧ r.va = va ∧ r.arg = BitVec.ofNat 64 arg ∧ r.space = (u.queueAt q.val).space ∧ r.parent = none ∧
          r.reply = .done (numAt b 24 8) (u.queueAt q.val).space q.val)

/-! ## Engines, records and pre-emption -/

/-- R281, R282, R283, R288, R295, R298, R299, R305, R322, R327: acceptance takes the oldest entry, with its buffer slot and the conversion registers;
GATH, SCAT or SCADD that has read its indices then has all below its bound, or is removed, and VINDEX is raised at its word with the position and
the index (log 63, DEDUCED); what KVFETCH makes of its table is not stated. A report adds to the barrier, advances DONE and pushes the reply; a fault
stops its command and posts a record; the panel's steps. -/
def Obligations.EngineSteps : Prop :=
  ∀ (s : State) (e : Eng),
    let v : State := { s with sid := .A }
    let fifo (t : State) : List Cmd := match e with
      | .copy => t.core.copyQ
      | .index => t.core.indexQ
    let panel (f : Panel → Panel) : State := { s with core := { s.core with panel := f s.core.panel } }
    let p := s.core.panel
    (∀ c before behind, fifo s = before ++ c :: behind → (∀ k ∈ before, k.accepted = true) → c.accepted = false →
      (∀ k ∈ fifo s, k.stopped = false) → (∀ k ∈ before ++ behind, k.ord ≠ c.ord) → c.bank = s.bankNo → v.mayAccept c = true →
      let byIndex : Prop := match c.instr with
        | .gath _ _ _ _ _ _ | .scat _ _ _ _ _ _ | .scadd _ _ _ _ _ _ => True
        | _ => False
      let reads : Prop := byIndex ∨ match c.instr with
        | .kvfetch _ _ _ _ _ _ => True
        | _ => False
      let taken (u : State) (x : Cmd) : Prop := fifo u = before ++ x :: behind ∧
        x.accepted = true ∧ x.bfmt = s.bank.bfmt ∧ x.srseed = s.bank.vec.srseed ∧ x.space = v.space ∧ x.instr = c.instr ∧ x.vals = c.vals ∧
        (c.buffer = none → u.bank.cb = s.bank.cb ∧ x.dest = c.dest) ∧
        ∀ d : Fin 8, c.buffer = some d.val → x.slot = some s.bank.cb[d].put ∧
          x.dest = BitVec.ofNat 64 (selfBase + s.bank.cb[d].slotAt s.bank.cb[d].put) ∧
          ∀ n : Fin 8, u.bank.cb[n] = if n = d then { s.bank.cb[n] with put := s.bank.cb[n].next s.bank.cb[n].put } else s.bank.cb[n]
      (¬ reads → ∃ u x, exec (.cmdAccept e) s = .next u ∧ taken u x ∧ u.mem = s.mem) ∧
      (reads → ¬ byIndex → ∃ u x, exec (.cmdAccept e) s = .next u ∧ taken u x) ∧
      (byIndex → ∃ u, exec (.cmdAccept e) s = .next u ∧
        ((∃ x, taken u x ∧ (x.checked = true → ∀ i ∈ x.data, i < c.beside 2)) ∨
          (fifo u = before ++ behind ∧ ∃ i k, c.beside 2 ≤ k ∧ u.bank.a.tval = BitVec.ofNat 64 (i * 2 ^ 32 + k) ∧
            u.bank.a.cause = cVINDEX.word ∧ u.bank.a.epc = BitVec.ofNat 64 c.epc)))) ∧
    (∀ c rest, fifo s = c :: rest → (∀ k ∈ rest, k.ord ≠ c.ord) → c.bank = s.bankNo → c.accepted = true → c.done = true → c.stopped = false →
      s.retires = [] →
      let q : Fin 16 := match e with
        | .copy => 12
        | .index => 13
      s.bank.q[q].length + (s.bank.popped.filter (· == q)).length < 32 →
      ∃ t, exec (.cmdReport e) s = .next t ∧ fifo t = rest ∧ t.mem = s.mem ∧
        (∀ n : Fin 8, t.bank.abarr[n] = if barrierOf c.instr = some n.val then
          BitVec.ofNat 40 (min (s.bank.abarr[n].toNat + c.bytes) (2 ^ 40 - 1)) else s.bank.abarr[n]) ∧
        (∀ n : Fin 8, c.buffer = some n.val → c.slot ≠ none → t.bank.cb[n] = { s.bank.cb[n] with done := s.bank.cb[n].next s.bank.cb[n].done }) ∧
        (c.buffer = none → t.bank.cb = s.bank.cb) ∧
        ∀ k : Fin 16, t.bank.q[k] = s.bank.q[k] ++ if rplOf c.instr = true ∧ k = q then
          [{ value := c.reply, token := false, due := some s.bank.cycle, filled := some s.bank.cycle, rel := 0, src := v.agent.key, ticket := 0 }]
          else []) ∧
    (∀ c behind x va write, s.running e = c :: behind → s.cmdHeld e c = false → s.stepCmd e c = .error (x, va, write) →
      0 < x.code → x.code < 256 → x.sub < 256 → ∃ t, ∃ r : Record,
      exec (.engineFault e) s = .next t ∧ t.bureau = { s.bureau with posts := s.bureau.posts ++ [r] } ∧ t.mem = s.mem ∧ t.bank = s.bank ∧
      fifo t = (fifo s).map (fun k => if k.ord = c.ord then { c with stopped := true, hurt := 0 } else k) ∧
      r.info.toNat % 2 ^ 16 = x.code + 2 ^ 8 * x.sub ∧ r.info.toNat / 2 ^ 16 % 16 = (match e with | .copy => 4 | .index => 5) ∧
      r.va = BitVec.ofNat 64 va ∧ r.word = c.word ∧ r.pos = BitVec.ofNat 64 c.off ∧ r.who = .engine s.coreNo e c.ord) ∧
    (∀ n, p.pending = some n → p.feeding = none → p.cur = none →
      exec .nestActivate s = .next (panel fun p => { p with nests := p.nests ++ [n], pending := none })) ∧
    (∀ r rest, p.fed = r :: rest → p.out = none → ∀ n, p.nests.find? (fun n => n.id == r.nest) = some n →
      s.inWindow (s.bankAt s.coreNo n.bank) = true → exec .runDrain s = .next (panel fun p => { p with
        fed := rest, out := some (r, 0), lastRsq := r.rsq, lastCsq := r.csq, lastBank := n.bank })) ∧
    (∀ n part c va, s.panelWork false = some (n, part) → p.out = none → s.panelNext false = .error (c, va) → 0 < c.code → c.code < 256 →
      c.sub < 256 → ∃ r : Record, r.va = BitVec.ofNat 64 va ∧ r.word = n.word ∧ r.pos = p.pos ∧
      r.info.toNat % 2 ^ 16 = c.code + 2 ^ 8 * c.sub ∧ r.info.toNat / 2 ^ 16 % 16 = 6 ∧ r.who = .panel s.coreNo n.id part ∧
      exec .panelFault s = .next { panel fun p => p.halt n.id part true with bureau := { s.bureau with posts := s.bureau.posts ++ [r] } }) ∧
    ∀ n r k c va t, s.panelNext false = .ok t → s.panelNext true = .error (c, va) → p.out = some (r, k) →
      p.nests.find? (fun n => n.id == r.nest) = some n → 0 < c.code → c.code < 256 → c.sub < 256 → ∃ r : Record,
      r.va = BitVec.ofNat 64 va ∧ r.word = n.word ∧ r.pos = p.pos ∧
      r.info.toNat % 2 ^ 16 = c.code + 2 ^ 8 * c.sub ∧ r.info.toNat / 2 ^ 16 % 16 = 6 ∧ r.who = .panel s.coreNo n.id .drain ∧
      exec .panelFault s = .next { panel fun p => { p with drainStop := true } with bureau := { s.bureau with posts := s.bureau.posts ++ [r] } }

/-- R334, R339, R340, R341, R342, R343, R395: a record is posted in the lowest free slot; RESUME lets its stream go on at EPC, behind BRK and TRAPI; END
ends the task, or refuses the launch (which status a record of a launch leads to is log 56, DEDUCED); a slot that is not held, or whose record is
withdrawn, has no other effect. A bank that is ready again for 4,096 cycles of its cluster takes its turn. -/
def Obligations.FaultSteps : Prop :=
  ∀ s : State,
    let b := s.bureau
    let free (slot : Nat) : State := { s with bureau := { b with held := Tbl.del b.held slot } }
    (∀ r rest n, b.posts = r :: rest → b.held.length < 4096 → Tbl.get? b.held n = none → (∀ m, m < n → Tbl.get? b.held m ≠ none) → ∃ t,
      exec .faultPost s = .next t ∧ t.bureau = { b with posts := rest, held := Tbl.put b.held n r, fqprod := (b.fqprod + 1) % 2 ^ 32 } ∧
      t.outs = s.outs ++ [.told n] ∧ t.bank = s.bank ∧ t.core = s.core ∧
      t.mem = ((s.bureauWrite (b.table + 32 * n) (leBytes r.info.toNat 8 ++ leBytes r.va.toNat 8 ++ leBytes r.word.toNat 8 ++
        leBytes r.pos.toNat 8)).bureauWrite (b.ring + 2 * (b.fqprod % 4096)) (leBytes n 2)).mem) ∧
    (∀ slot, Tbl.get? b.held slot = none → exec (.answerResume slot) s = .next s ∧ exec (.answerEnd slot) s = .next s) ∧
    (∀ slot r, Tbl.get? b.held slot = some r → r.info.getLsbD 63 = true →
      exec (.answerResume slot) s = .next (free slot) ∧ exec (.answerEnd slot) s = .next (free slot)) ∧
    (∀ slot r, Tbl.get? b.held slot = some r → r.info.getLsbD 63 = false →
      let code := r.info.toNat % 256
      (code = 0x10 → exec (.answerResume slot) s = exec (.answerEnd slot) s) ∧
      (∀ it, r.who = .stream s.agent → s.sid ≠ .L → s.st.stopped = true → s.bank.iter = some it → it.task = r.task → code ≠ 0x10 →
        let u : State := (free slot).setSt { s.st with
          stopped := false, pc := s.st.epc.toNat + (if code = 4 ∨ code = 5 then 1 else 0), wait := none }
        ((∃ k ∈ [StreamId.A, .X, .N], k ≠ s.sid ∧ (s.streamAt k).stopped = true) → exec (.answerResume slot) s = .next u) ∧
        ((∀ k ∈ [StreamId.A, .X, .N], k ≠ s.sid → (s.streamAt k).stopped = false) →
          (s.core.issuing = s.bankNo → exec (.answerResume slot) s = .next { u with bank := { u.bank with stopped := none } }) ∧
          (s.core.issuing ≠ s.bankNo → ∃ t, exec (.answerResume slot) s = .next t ∧
            t.bank = { u.bank with stopped := none, resumed := some s.bank.cycle } ∧ t.mem = s.mem ∧ t.bureau = u.bureau))) ∧
      (∀ a, r.who = .stream a → a.sid ≠ .L → s.retires = [] → ∃ t, exec (.answerEnd slot) s = .next t ∧
        t.tasks.map (fun x => x.seq) = s.tasks.map (fun x => x.seq) ∧
        (∀ x ∈ t.tasks, x.seq = r.task → x.aborted = true ∧ x.saved = []) ∧ ∀ x ∈ s.tasks, x.seq ≠ r.task → x ∈ t.tasks) ∧
      (∀ l rest, r.who = .launch → s.launches = l :: rest → l.reply = .nowhere → s.replies = [] →
        (code ≠ 0x10 → exec (.answerResume slot) s = .next { free slot with launches := { l with stopped := false } :: rest }) ∧
        ∃ rec : Record, rec.info.toNat % 2 ^ 16 = 0x11 + 2 ^ 8 * (if code = 6 then 3 else 7) ∧ rec.va = BitVec.ofNat 64 l.at_ ∧ rec.word = l.word ∧
          exec (.answerEnd slot) s = .next { free slot with
            launches := rest, bureau := { (free slot).bureau with posts := b.posts ++ [rec] } })) ∧
    ∀ c, s.bank.resumed = some c → c + 4096 ≤ s.bank.cycle → s.bank.stopped = none → s.bank.started = true → s.core.issuing ≠ s.bankNo →
      exec .resumeSwitchTimeout s = .next { s with
        bank := { s.bank with resumed := none }
        core := { s.core with
          issuing := s.bankNo, other := { s.core.other with resumed := if s.core.other.stopped = none then some s.core.other.cycle else none } } }

/-- R344, R345, R346, R348, R349: an eviction stops its victim's streams, takes the commands that do not run on into the re-issue list, and puts PUT
back to DONE; a restore reads the registers of the save area into the bank, whose streams then go on. (What an eviction waits for is log 57,
DEDUCED; that a pc of 2^13 is noted beside the area is log 37, DESIGN CHOICE; a core of 384 or more stops by log 66, DESIGN CHOICE.) -/
def Obligations.PreemptionSteps : Prop :=
  ∀ s : State,
    (∀ (q : Fin 64) (area : Nat) t, s.evicting q.val = none → s.wantsBank q.val = some t → s.mustEvict q.val t = true →
      s.victim q.val t = some (s.coreNo, s.bankNo) → (∃ k ∈ [StreamId.A, .X, .N], (s.streamAt k).exited = false) → s.bank.started = true →
      s.retires = [] →
      let moves (c : Cmd) : Prop := c.bank = s.bankNo ∧ ¬ (c.accepted = true ∧ ∃ ty d a b n t, c.instr = .scadd ty d a b n t)
      ∃ u, exec (.evict q area) s = .next u ∧
        u.bank = { s.bank with
          evict := some (q.val, area), reissue := u.bank.reissue, wb := none, fills := [], a := { s.bank.a with wait := none }
          x := { s.bank.x with wait := none }, n := { s.bank.n with wait := none }, cb := s.bank.cb.map fun c => { c with put := c.done } } ∧
        (∀ c, c ∈ u.bank.reissue ↔ c ∈ s.core.copyQ ++ s.core.indexQ ∧ moves c) ∧
        (∀ c, c ∈ u.core.copyQ ↔ c ∈ s.core.copyQ ∧ ¬ moves c) ∧ (∀ c, c ∈ u.core.indexQ ↔ c ∈ s.core.indexQ ∧ ¬ moves c)) ∧
    (∀ (area core : Nat) (second : Bool), 384 ≤ core → exec (.iterationRestore area core second) s = .fault .noSuchUnit) ∧
    ∀ (area : Nat) it, s.coreNo < 384 → s.bankNo < 2 → s.bank.iter = some it → s.bank.restore = some area → s.imagesReady = true →
      s.core.copyQ = [] → s.core.indexQ = [] → s.replies = [] →
      leNat (s.homeRead (s.bureauPlace (area + 6)) 2) / 2 % 8 = 0 →
      let b := s.homeRead (s.bureauPlace area) 0x33A40
      at8 b 0x2280 8 ≤ 8 →
      ∃ u, exec (.iterationRestore area s.coreNo (s.bankNo == 1)) s = .next u ∧ u.bank.started = true ∧ u.bank.restore = none ∧
        u.bank.cycle = at8 b 0x30 8 + (s.w - at8 b 0x28 8) ∧
        (∀ k ∈ [(StreamId.A, 0x40), (.X, 0x240), (.N, 0x440)],
          (u.streamAt k.1).pc % 2 ^ 13 = at8 b (k.2 + 0x140) 8 % 2 ^ 13 ∧
          (Tbl.get? s.beside area = none → (u.streamAt k.1).pc < 2 ^ 13) ∧ (u.streamAt k.1).cause = BitVec.ofNat 64 (at8 b (k.2 + 0x148) 8) ∧
          (u.streamAt k.1).epc = BitVec.ofNat 64 (at8 b (k.2 + 0x150) 8) ∧ (u.streamAt k.1).tval = BitVec.ofNat 64 (at8 b (k.2 + 0x158) 8) ∧
          (u.streamAt k.1).exited = (at8 b (k.2 + 0x140) 8 / 2 ^ 16 % 2 == 1) ∧
          (∀ n : Fin 32, n ≠ 0 → (u.streamAt k.1).s[n] = BitVec.ofNat 64 (at8 b (k.2 + 8 * n.val) 8)) ∧
          ∀ n : Fin 12, (u.streamAt k.1).k[n].target = BitVec.ofNat 13 (at8 b (k.2 + 0x100 + 2 * n.val) 2)) ∧
        (∀ n : Fin 64, u.bank.vec.v[n] = BitVec.ofNat 4096 (at8 b (0x2800 + 512 * n.val) 512)) ∧
        (∀ n : Fin 8, u.bank.vec.m[n] = BitVec.ofNat 1024 (at8 b (0x1A80 + 128 * n.val) 128)) ∧
        (∀ n : Fin 8, u.bank.abexp[n] = BitVec.ofNat 40 (at8 b (0x1100 + 16 * n.val) 8) ∧
          u.bank.abarr[n] = BitVec.ofNat 40 (at8 b (0x1108 + 16 * n.val) 8)) ∧
        ∀ n : Fin 16, u.bank.bfmt[n] = BitVec.ofNat 64 (at8 b (0x1000 + 8 * n.val) 8)

/-! ## Links -/

/-- R366, R367, R368, R369, R370, R371, R372, R387: a queued cargo leaves in its slot where the table routes it, and is discarded else; at the end of a slot what
was due two slots before comes into the receive queue; a dead port fails the accesses that are on it; the fabric slot, a flit credit, a run, and
the switch tables. (That a second cargo queued for a slot is discarded is log 31, that the first one to arrive in a slot is kept log 60, that the
last of several refused ports is recorded log 83, and that a record or an image that cannot be read starts no run log 59, all DESIGN CHOICE.) -/
def Obligations.LinkSteps : Prop :=
  ∀ (s : State) (port : Fin 64),
    let p := s.portAt port.val
    let l := s.link
    let setPort (x : Port) : Tbl Port := Tbl.put s.ports port.val x
    let dead (u : State) : State := { u with ports := setPort { p with live := false, lanes := 0 }, outs := s.outs ++ [.told port.val] }
    (port.val / 16 = s.dieNo →
      let mine (c : Cargo) : Bool := c.port == port.val && c.slot == s.fslot
      let kept : State := { s with link := { l with queued := l.queued.filter fun c => !(c.port == port.val && decide (c.slot ≤ s.fslot)) } }
      let goes : Prop := (∃ row, Tbl.get? l.routes port.val = some row ∧ row ≠ [] ∧ row[s.fslot % row.length]? ≠ some 0xFFFF) ∧
        p.live = true ∧ p.lanes = 4
      (∀ c, l.queued.find? mine = some c → goes → exec (.cargoSend port) s = .next { kept with outs := s.outs ++ [.cargo c] }) ∧
      (l.queued.find? mine = none ∨ ¬ goes → exec (.cargoSend port) s = .next kept)) ∧
    let due : Prop := 2 ≤ s.fslot ∧ s.cargoDue port.val (s.fslot - 2) = true
    let receive (x : Option (List Byte × Word)) : Result := exec (.cargoReceive port x) s
    let queued (e : Option (List Byte × Word)) : State := { s with ports := setPort { p with rq := p.rq ++ [e], came := none } }
    let emptied : State := { s with ports := setPort { p with came := none } }
    (∀ x, receive (some x) = .next { s with ports := setPort { p with came := some (p.came.getD x) } }) ∧
    (s.fphase < 48 → receive none = .next s) ∧
    (48 ≤ s.fphase → ¬ due → receive none = .next emptied) ∧
    (48 ≤ s.fphase → due →
      (4 ≤ p.rq.length → port.val / 16 = s.dieNo →
        receive none = .next { emptied with link := { l with lflags := l.lflags ||| 256#9 } }) ∧
      (p.rq.length < 4 → (p.came = none ∨ p.live = false ∨ p.lanes ≠ 4) → receive none = .next (queued none)) ∧
      ∀ bytes side, p.rq.length < 4 → p.came = some (bytes, side) → bytes.length = 4096 → p.live = true → p.lanes = 4 →
        receive none = .next (queued (some (bytes, side)))) ∧
    (∃ t, exec (.portDead port) s = .next t ∧ (t.portAt port.val).live = false ∧ (t.portAt port.val).lanes = 0) ∧
    let idle : Prop := port.val / 16 = s.dieNo ∧ l.st.wait ≠ some (.ext .done) ∧ s.banks = [] ∧ (16 ≤ port.val ∨ s.hostWait = [] ∧ s.agenda = [])
    (idle → s.flight = [] → exec (.portDead port) s = .next (dead s)) ∧
    (∀ x y, idle → s.flight = [x] → x.todo = [y] → s.onPort x.agent.die port.val y = true → x.fail = none → x.req.stores = false →
        exec (.portDead port) s = .next (dead { s with flight := [{ x with
          todo := [], fail := some ((refusalCause 32).code, (refusalCause 32).sub), va := y.va }] })) ∧
    exec .fslotAdvance s = .next { s with fslot := (s.fslot + 1) % 2 ^ 64, fphase := 0 } ∧
    exec (.flitCreditReturn port) s = .next { s with ports := setPort { p with credits := min 32 (p.credits + 1) } } ∧
    ∀ (die : Fin 4) (x : Word), die.val = s.dieNo →
      (l.active = true → exec (.lrun die x) s = .next s) ∧
      (∀ e, l.active = false → s.startRead die.val (l.lras.toNat % 64) (x.toNat % 2 ^ 56) 16 = .error e → exec (.lrun die x) s = .next s) ∧
      (∀ rec t b u, l.active = false → s.startRead die.val (l.lras.toNat % 64) (x.toNat % 2 ^ 56) 16 = .ok (rec, t) →
        let va := leNat (rec.take 7)
        let n := t.lcodeLength (l.lras.toNat % 64) va
        t.startRead die.val (l.lras.toNat % 64) va (8 * n) = .ok (b, u) → ∃ v, exec (.lrun die x) s = .next v ∧ v.mem = s.mem ∧
          v.link.active = true ∧ v.link.st = { Stream.zero with running := true } ∧ v.link.code = wordsOf b n ∧ v.link.cycle = 0 ∧
          v.link.f0 = l.lf0.toNat ∧ v.link.space = l.lras.toNat % 64 ∧ v.link.doneVa = l.ldoneva ∧ v.link.queued = [] ∧ v.link.lflags = 0 ∧
          v.link.lost = false ∧ ∀ n : Fin 16, v.link.cr[n] = 0) ∧
      exec (.swload die x) s = .next { s with link := { l with
        swBusy := true, swRefused := none, swPa := BitVec.ofNat 64 (x.toNat / 2 ^ 12 % 2 ^ 40 * 4096) } } ∧
      ∀ refused : List (Fin 64),
        (l.swBusy = false → exec (.switchTableAnswer die refused) s = .next s) ∧
        (l.swBusy = true → ∃ t, exec (.switchTableAnswer die refused) s = .next t ∧ t.mem = s.mem ∧ t.bank = s.bank ∧
          t.link.swBusy = false ∧ t.link.swRefused = refused.getLast?.map (fun f => f.val) ∧
          t.outs = s.outs ++ refused.map (fun f => .told f.val) ∧
          ∀ f : Fin 64,
            (f.val / 16 ≠ die.val ∨ f ∈ refused → Tbl.get? t.link.routes f.val = Tbl.get? l.routes f.val) ∧
            (f.val / 16 = die.val → f ∉ refused → ∃ row, Tbl.get? t.link.routes f.val = some row ∧
              let n := l.swper.toNat % 2 ^ 16
              row.length = n ∧ ∀ i, i < n → row[i]? = some (leNat (s.mem.readN (l.swPa.toNat + 2 * (n * (f.val % 16) + i)) 2))))

/-! ## The device -/

/-- R355, R388, R389, R393, R394, R395, R396, R397: corrected errors count against ERRTHR in their window, and a lasting one is told and repaired, and
may leave a function mapped out, whose bit of READY clears; the clusters step down and up; a thermal trip stops them and aborts every task; a
function becomes ready, once the mailbox is open; a reset boots. (The index that names a resource is log 40, one that does not exist stops by log 66,
the frames of a row group that is lasting are allocated no more by log 80, which function is mapped out comes with the error by log 91, and a reset
leaves memory as it was by log 41, all DESIGN CHOICE.) -/
def Obligations.DeviceSteps : Prop :=
  ∀ (s : State) (r : Resource) (die : Fin 4) (index : Nat) (found : List Nat) (cl : Fin 16),
    let b := s.bureau
    let code := match r with
      | .bank => 1
      | .row => 2
      | .digest => 3
      | .lane => 4
      | .dieLink => 5
    let key := code + 8 * (die.val + 4 * index)
    let n := Tbl.get b.errors key 0
    let absent : Prop := (r = .bank ∧ 384 * 16 ≤ index) ∨ (r = .lane ∧ 256 ≤ index)
    let step (f : Cluster → Cluster) : State := { s with clusters := Tbl.put s.clusters cl.val (f (s.clusterAt cl.val)) }
    let counted : Result := exec (.correctedError r die { index := index, frames := found }) s
    let gone (f : Bool × Fin 64) : Result := exec (.correctedError r die { index := index, frames := found, gone := some f }) s
    let without (x : Word) (bit : Fin 64) : Word := x &&& ~~~(1#64 <<< bit.val)
    (absent → counted = .fault .noSuchUnit ∧ ∀ c, exec (.scrub r die index c) s = .fault .noSuchUnit) ∧
    (¬ absent →
      (256 ≤ n → counted = .next s) ∧
      (n < 256 → n + 1 < b.errthr →
        counted = .next { s with bureau := { b with errors := Tbl.put b.errors key (n + 1) } }) ∧
      (n < 256 → b.errthr ≤ n + 1 →
        let told (u : State) (f : Bureau → Bureau) : State := { u with
          bureau := { f b with errors := Tbl.put b.errors key 256, errlog := b.errlog ++ [(code, die.val, index)] }, outs := s.outs ++ [.told code] }
        (r = .dieLink → counted = .next (told s id)) ∧
        (r = .row → b.loads = [] → counted = .next (told s fun b => { b with badRows := b.badRows ++ [(die.val, index)] })) ∧
        (r = .bank → Tbl.get b.spares key 0 < 2 → counted =
          .next (told s fun b => { b with spares := Tbl.put b.spares key (Tbl.get b.spares key 0 + 1) })) ∧
        (r = .bank → 2 ≤ Tbl.get b.spares key 0 → index / 16 = s.coreNo → s.bankNo = 0 → counted =
          .next (told { s with core := { s.core with mappedOut := true } } id)) ∧
        (r = .lane → 2 ≤ (s.portAt (index / 4)).lanes → counted =
          .next (told { s with ports := Tbl.put s.ports (index / 4) { s.portAt (index / 4) with lanes := (s.portAt (index / 4)).lanes - 1 } } id))) ∧
      (256 ≤ n ∨ n + 1 < b.errthr → ∀ f, gone f = counted) ∧
      (n < 256 → b.errthr ≤ n + 1 → ∀ (bit : Fin 64) t, counted = .next t →
        gone (false, bit) = .next { t with bureau := { t.bureau with ready0 := without t.bureau.ready0 bit } } ∧
        gone (true, bit) = .next { t with bureau := { t.bureau with ready1 := without t.bureau.ready1 bit } }) ∧
      (exec (.scrub r die index false) s = .next s) ∧
      (r = .bank ∨ r = .digest → exec (.scrub r die index true) s = exec (.correctedError r die { index := index }) s)) ∧
    (s.w % 2 ^ 32 = 0 → exec .errorWindowEnd s = .next { s with bureau := { b with errors := [] } }) ∧
    (s.w % 2 ^ 32 ≠ 0 → exec .errorWindowEnd s = .next s) ∧
    exec (.powerStepDown cl) s = .next (step fun c => { c with step := max 9 (c.step - 1) }) ∧
    exec (.clusterStepUp cl) s = .next (step fun c => { c with step := min 15 (c.step + 1) }) ∧
    exec (.droopStretch cl) s = .next (step fun c => { c with stretch := true }) ∧
    (s.banks = [] → s.retires = [] → (∀ t ∈ s.tasks, t.groups = []) → ∃ t, exec .thermalTrip s = .next t ∧ t.mem = s.mem ∧
      t.outs = s.outs ++ [.told 110] ∧ (t.clusterAt cl.val).stopped = true ∧ (t.clusterAt cl.val).step = (s.clusterAt cl.val).step ∧
      ∀ x ∈ t.tasks, x.guarded = true ∨ x.complete = true ∨ x.aborted = true) ∧
    (∃ t, exec .thermalResume s = .next t ∧ t.mem = s.mem ∧ t.tasks = s.tasks ∧ t.clusterAt cl.val = { s.clusterAt cl.val with stopped := false }) ∧
    (∀ (bit : Fin 64) (slot : Word),
      let one : Word := 1#64 <<< bit.val
      let port := s.portAt bit.val
      let up : Prop := b.mbState.toNat % 4 = 1
      (∀ second, ¬ up → exec (.functionReady second bit slot) s = .next s) ∧
      (up → bit.val < 30 → exec (.functionReady false bit slot) s = .next { s with bureau := { b with ready0 := b.ready0 ||| one } }) ∧
      (up → 30 ≤ bit.val → exec (.functionReady false bit slot) s = .next s) ∧
      (up → port.live = true → exec (.functionReady true bit slot) s = .next { s with bureau := { b with ready1 := b.ready1 ||| one } }) ∧
      (up → port.live = false → exec (.functionReady true bit slot) s = .next { s with
        ports := Tbl.put s.ports bit.val { port with live := true, lanes := 4, credits := 32 }, fslot := slot.toNat, fphase := 0
        bureau := { b with ready1 := b.ready1 ||| one } })) ∧
    ∀ flash : Flash,
      let step1 := bootGood flash.stage1 || bootGood flash.copy
      let step2 := step1 && bootGood flash.os
      let step3 := step2 && bootGood flash.config
      let image : Nat → Option Signed
        | 0 => if step1 then some (if bootGood flash.stage1 then flash.stage1 else flash.copy) else none
        | 1 => if step2 then some flash.os else none
        | _ => if step3 then some flash.config else none
      ∃ t, exec (.deviceReset flash) s = .next t ∧
        t = { State.reset with mem := s.mem, tags := s.tags, outs := s.outs, inputs := s.inputs, bureau := t.bureau } ∧
        t.bureau.resetcnt = b.resetcnt + 1 ∧ t.bureau.errthr = 8 ∧ t.bureau.held = [] ∧
        t.bureau.mbState = (if ¬ step1 then 0x102 else if ¬ step2 then 0x202 else if ¬ step3 then 0x302 else 1) ∧
        t.bureau.bootcfg = (if step3 then flash.bootcfg.setWidth 64 else 0) ∧
        ∀ j : Fin 24, t.bureau.meas[j] = (image (j.val / 8)).map fun i =>
          BitVec.ofNat 64 (leNat (((Config.sha3_512 i.bytes).drop (8 * (j.val % 8))).take 8))

/-- R175, R182, R202, R341, R350, R386, R387, R396: the registers that the Bureau writes, and where they stand in its control window. (HOTCLR of a
core of 384 or more stops by log 66, DESIGN CHOICE.) -/
def Obligations.BureauRegisters : Prop :=
  ∀ (s : State) (v : Word) (q space : Fin 64) (k : Fin 24) (die : Fin 4) (cfg : Bool),
    let b := s.bureau
    let l := s.queueAt q.val
    let sp := s.spaceAt space.val
    let slot := v.toNat % 2 ^ 16
    let key := s.keyAt slot
    let put (off : Nat) (x : Word) : Host.Outcome State Fault Refusal := exec (.controlWindowWrite off x) s
    let setB (f : Bureau → Bureau) : State := { s with bureau := f b }
    let setQ (f : LQueue → LQueue) : State := { s with queues := Tbl.put s.queues q.val (f l) }
    let push (a : Action) (n : Nat) : Action := if a.busy.isSome then { a with held := a.held ++ [n] } else { a with busy := some n }
    exec (.lotseedWrite v) s = .next { s with lotto := if v.setWidth 32 = 0#32 then 1 else v.setWidth 32, draws := 0 } ∧
    exec (.errthrWrite v) s = .next (setB fun b => { b with errthr := if v.toNat % 256 = 0 then 1 else v.toNat % 256 }) ∧
    (b.meas[k] = none → exec (.measWrite k v) s = .next (setB fun b => { b with meas := b.meas.set k (some v) })) ∧
    (b.meas[k] ≠ none → exec (.measWrite k v) s = .next s) ∧
    (v.toNat % 2 ^ 16 = 0 → exec (.kill v) s = .next s) ∧
    (v.toNat % 2 ^ 16 ≠ 0 → exec (.kill v) s = .next (setB fun b => { b with kill := push b.kill (v.toNat % 2 ^ 16) })) ∧
    exec (.bump v) s = .next (setB fun b => { b with bump := push b.bump (v.toNat % 64) }) ∧
    exec (.qctlWrite q v) s = .next (setQ fun l => { l with
      tickets := v.toNat % 2 ^ 16, preempt := v.getLsbD 16, jig := v.toNat / 2 ^ 20 % 16 }) ∧
    (l.ringCfg.getLsbD 63 = false →
      exec (.ringConfigWrite q false v) s = .next (setQ fun l => { l with ringVa := v &&& 0x00FFFFFFFFFFFFFF#64 }) ∧
      exec (.ringConfigWrite q true v) s = .next (setQ fun l => { l with ringCfg := v &&& 0x8000000000003F1F#64 })) ∧
    (l.ringCfg.getLsbD 63 = true → cfg = false ∨ v.getLsbD 63 = true → exec (.ringConfigWrite q cfg v) s = .next (setQ id)) ∧
    exec (.rootWrite space v) s = .next { s with spaces := Tbl.put s.spaces space.val { sp with root := v &&& 0x000FFFFFFFE00001#64 } } ∧
    ((key.gen = 0xFFFFFF → exec (.keyset v) s = .next s) ∧
      (key.gen ≠ 0xFFFFFF → key.key ≠ b.keyq.toList → ∃ t, exec (.keyset v) s = .next t ∧ t.mem = s.mem ∧
        t.keyAt slot = { key with key := b.keyq.toList } ∧ ∀ j, j ≠ slot → t.keyAt j = s.keyAt j)) ∧
    (∀ core, (384 ≤ core → exec (.hotclr core) s = .fault .noSuchUnit) ∧
      (core < 384 → core = s.coreNo → s.bankNo = 0 → exec (.hotclr core) s = .next { s with core := { s.core with hot := [] } })) ∧
    (put 0x18 v = exec (.errthrWrite v) s ∧ put 0x20 v = exec (.lotseedWrite v) s ∧ put (0x100 + 8 * k.val) v = exec (.measWrite k v) s ∧
      put 0x1000 v = exec (if v.getLsbD 63 then .answerEnd (v.toNat % 4096) else .answerResume (v.toNat % 4096)) s ∧
      put 0x1008 v = .next (setB fun b => { b with fqtable := v &&& 0x000FFFFFFFFE0000#64 }) ∧
      put 0x1010 v = .next (setB fun b => { b with fqring := v &&& 0x000FFFFFFFFFE000#64 }) ∧
      put 0x2000 v = .next (setB fun b => { b with apbase := v &&& 0x00FFFFF000000000#64 }) ∧
      put 0x2008 v = .next (setB fun b => { b with apas := v &&& 0x800000000000003F#64 }) ∧
      (∀ j : Fin 4, put (0x10000 + 8 * j.val) v = .next (setB fun b => { b with keyq := b.keyq.set j v })) ∧
      put 0x10020 v = exec (.keyset v) s ∧ put 0x10028 v = exec (.kill v) s ∧ put 0x10030 v = exec (.bump v) s ∧
      put (0x20000 + 32 * q.val) v = exec (.qctlWrite q v) s ∧ put (0x20008 + 32 * q.val) v = exec (.ringConfigWrite q false v) s ∧
      put (0x20010 + 32 * q.val) v = exec (.ringConfigWrite q true v) s ∧ put (0x30000 + 32 * space.val) v = exec (.rootWrite space v) s ∧
      put (0x30010 + 32 * space.val) v = .next { s with spaces := Tbl.put s.spaces space.val { sp with priv := v &&& 3#64 } } ∧
      put (0x40000 + 64 * die.val) v = exec (.lrun die v) s ∧ put (0x40028 + 64 * die.val) v = exec (.swload die v) s ∧
      (∀ core, core < 384 → put (0x100000 + 8 * core) v = exec (.hotclr core) s) ∧
      ∀ off, off % 8 ≠ 0 ∨ 0x100C00 ≤ off → put off v = .next s)

/-! ## The host -/

/-- R182, R210, R383, R384, R385: registration of a digest region tells the Bureau why it is refused, or installs its entry with a new HANDLE, and a region
that no digest instruction reads is removed with its slots; a doorbell sets the producer index of an enabled queue; a field of BAR0 is read
by its aligned access, and any other access reads 0, or is discarded and counted; BAR2 reaches memory through the aperture's address space, a
faulting access changes nothing, and accesses of the host wait in their order behind one that a port has no credit for. (The spans of BAR0 accesses,
what a doorbell reads as, its write by BAR0_OTHER_ACCESS, and that REQUEST keeps its bytes while a request is in hand are log 43, DESIGN CHOICE; what a
host access pays in credits is log 58, DESIGN CHOICE; the status of a region whose digests are not ready is log 94, DESIGN CHOICE.) -/
def Obligations.HostAccesses : Prop :=
  (∀ s : State,
     (∀ (space : Fin 64) (va : Word),
       (∀ c, s.walk space.val va.toNat = .error c → exec (.digestRegister space va) s = .next { s with outs := s.outs ++ [.told 2] }) ∧
       ∀ e, s.walk space.val va.toNat = .ok e →
         let at_ := e.place va.toNat
         let d := readDescriptor (s.homeRead at_ 32)
         let r := s.registers space.val d
         (r.1 ≠ 0 → exec (.digestRegister space va) s = .next { s with outs := s.outs ++ [.told r.1] }) ∧
         ∀ x, d = some x → r.1 = 0 → ∃ t, exec (.digestRegister space va) s = .next t ∧ t.handles = s.handles + 1 ∧ t.bank = s.bank ∧
           ∃ y, t.dir = s.dir ++ [y] ∧ y.handle = s.handles + 1 ∧ y.space = space.val ∧ y.va = x.base ∧ y.ext = x.ext ∧ y.grain = x.grain ∧
             y.kind = x.kind ∧ y.ty = x.ty ∧ y.seed = x.seed ∧ y.dim = x.dim) ∧
     (s.redos = [] → exec (.memoryAccessPerform .redo) s = .next s) ∧
     (∀ pa rest b e d, s.redos = pa :: rest → State.blockAt { s with redos := rest } pa = some (b, e, d) → e.gen ≠ (s.keyAt e.slot).gen →
       exec (.memoryAccessPerform .redo) s = .next { s with redos := rest }) ∧
     ∀ h, (s.digestUsed h = true → exec (.digestUnregister h) s = .next s) ∧
       (s.digestUsed h = false → exec (.digestUnregister h) s = .next { s with
         dir := s.dir.filter fun e => e.handle != h, slots := s.slots.filter fun d => d.2.handle != h })) ∧
  ∀ (s : State) (off n : Nat),
    let b := s.bureau
    let discarded : State := { s with bureau := { b with discarded := b.discarded + 1 } }
    let told (l : List Out) : State := { s with outs := s.outs ++ l }
    let waits (i : Instr) : State := { s with hostWait := s.hostWait ++ [i] }
    let span (sz : Nat) : Prop := (∃ k, sz = 2 ^ k) ∧ off % sz = 0
    let register (sz : Nat) : Prop := (off = 0 ∧ sz = 4) ∨ (sz = 8 ∧ (off = 8 ∨ off = 16 ∨ off = 24))
    let request (sz : Nat) : Prop := span sz ∧ 0x1000 ≤ off ∧ off + sz ≤ 0x8000
    let response (sz : Nat) : Prop := span sz ∧ 0x8000 ≤ off ∧ off + sz ≤ 0x10000
    let bell (q : Fin 64) (sz : Nat) : Prop := sz = 4 ∧ off = 0x10000 + 4096 * q.val
    let field (sz : Nat) : Prop := register sz ∨ request sz ∨ response sz ∨ ∃ q, bell q sz
    let read : Result := exec (.bar0OtherAccess none { off := off, size := n }) s
    let write (x : List Byte) : Result := exec (.bar0OtherAccess (some x) { off := off, size := n }) s
    let space := b.apas.toNat % 64
    let va := b.apbase.toNat + off
    (∀ (q : Fin 64) (aligned : Bool) (v : BitVec 32), let on : Prop := n = 4 ∧ aligned = true ∧ (s.queueAt q.val).ringCfg.getLsbD 63 = true
      (s.hostWait ≠ [] → exec (.doorbellWrite q n aligned v) s = .next (waits (.doorbellWrite q n aligned v))) ∧
      (s.hostWait = [] → on → exec (.doorbellWrite q n aligned v) s =
        .next { s with queues := Tbl.put s.queues q.val { s.queueAt q.val with prod := v.toNat } }) ∧
      (s.hostWait = [] → ¬ on → exec (.doorbellWrite q n aligned v) s = .next discarded)) ∧
    (∃ l, read = .next (told [.bar l]) ∧ l.length = n ∧
      (¬ field n → l = List.replicate n 0) ∧
      (off = 0 → n = 4 → leNat l = b.mbState.toNat % 2 ^ 32) ∧ (off = 8 → n = 8 → leNat l = b.reqseq.toNat) ∧
      (off = 16 → n = 8 → leNat l = b.rspseq.toNat) ∧ (off = 24 → n = 8 → leNat l = b.drops % 2 ^ 64) ∧
      (request n → ∀ i, i < n → l[i]? = some (b.request.getD (off - 0x1000 + i) 0)) ∧
      (response n → ∀ i, i < n → l[i]? = some (b.response.getD (off - 0x8000 + i) 0)) ∧
      ∀ q, bell q n → leNat l = (s.queueAt q.val).prod % 2 ^ 32) ∧
    (∀ x : List Byte, let sz := x.length
      let taken : Prop := b.inHand = true
      (¬ field sz ∨ response sz ∨ (register sz ∧ off ≠ 8) ∨ (request sz ∧ taken) → write x = .next discarded) ∧
      (off = 8 → sz = 8 → write x = exec (.mailboxReqseqWrite (BitVec.ofNat 64 (leNat x)) []) s) ∧
      (∀ q, bell q sz → write x = exec (.doorbellWrite q 4 true (BitVec.ofNat 32 (leNat x))) s) ∧
      (request sz → ¬ taken → ∃ l, write x = .next { s with bureau := { b with request := l } } ∧ ∀ i,
        let o := off - 0x1000
        l.getD i 0 = if o ≤ i ∧ i < o + sz then x.getD (i - o) 0 else b.request.getD i 0)) ∧
    (b.apas.getLsbD 63 = false → exec (.bar2Read off n) s = .next (told [.unsupported]) ∧
      ∀ bytes, exec (.bar2Write off bytes) s = .next (told [.unsupported])) ∧
    (b.apas.getLsbD 63 = true →
      (∀ c, s.hostPlaces space va false n = .error c → exec (.bar2Read off n) s = .next (told [.aborted, .told c.code])) ∧
      (∀ ps t, s.hostPlaces space va false n = .ok (ps, t) →
        (s.hostWait ≠ [] ∨ t.hostCredits true ps = none → exec (.bar2Read off n) s = .next (waits (.bar2Read off n))) ∧
        (s.hostWait = [] → (∀ p ∈ ps, p.home ≠ 2) → ∃ u, exec (.bar2Read off n) s = .next u ∧ u.mem = s.mem ∧
          u.outs = s.outs ++ [.bar (ps.map s.homeByte)])) ∧
      ∀ bytes,
        (∀ c, s.hostPlaces space va true bytes.length = .error c →
          exec (.bar2Write off bytes) s = .next (told [.aborted, .told c.code])) ∧
        (∀ ps t, s.hostPlaces space va true bytes.length = .ok (ps, t) → s.hostWait ≠ [] ∨ t.hostCredits true ps = none →
          exec (.bar2Write off bytes) s = .next (waits (.bar2Write off bytes))) ∧
        ∀ x p t, bytes = [x] → s.hostPlaces space va true 1 = .ok ([p], t) → s.hostWait = [] → p.home ≠ 2 →
          exec (.bar2Write off bytes) s = .next (t.placeWrite p [x] 0 false))

/-- R390, R391, R392: a request is taken while the mailbox is open and idle and is discarded and counted else; each CMD has its response, with
SEQ, at which RSPSEQ is set and vector 0 is signalled. (That MAILBOX_REQSEQ_WRITE brings the host's request with its SEQ, and drops those bytes
while a request is in hand, is log 43, DESIGN CHOICE.) -/
def Obligations.MailboxRequests : Prop :=
  ∀ s : State,
    let b := s.bureau
    let answer (t : State) (status detail : Nat) (payload : List Byte) : State := { t with
      bureau := { t.bureau with
        response := leBytes status 2 ++ leBytes detail 2 ++ leBytes payload.length 4 ++ leBytes t.bureau.reqseq.toNat 8 ++ payload
        rspseq := t.bureau.reqseq, inHand := false }
      outs := t.outs ++ [.msix 0] }
    let asks (cmd len : Nat) (p : List Byte) : Prop := b.mbState.toNat % 4 = 1 ∧ b.inHand = true ∧ cmd < 2 ^ 16 ∧ len < 2 ^ 32 ∧
      ∃ seq, seq.length = 8 ∧ b.request = leBytes cmd 2 ++ [0, 0] ++ leBytes len 4 ++ seq ++ p
    let setB (f : Bureau → Bureau) : State := { s with bureau := f b }
    (∀ (v : Word) (l : List Byte), l.length ≤ 28672 → let r := if l = [] ∨ b.inHand = true then b.request else l
      (b.mbState.toNat % 4 = 1 → b.rspseq = b.reqseq → v = BitVec.ofNat 64 (numAt r 8 8) →
        exec (.mailboxReqseqWrite v l) s = .next (setB fun b => { b with request := r, reqseq := v, inHand := true })) ∧
      (b.mbState.toNat % 4 ≠ 1 ∨ (b.rspseq = b.reqseq ∧ v ≠ BitVec.ofNat 64 (numAt r 8 8)) →
        exec (.mailboxReqseqWrite v l) s = .next (setB fun b => { b with request := r, drops := b.drops + 1 })) ∧
      (b.mbState.toNat % 4 = 1 → b.rspseq ≠ b.reqseq →
        exec (.mailboxReqseqWrite v l) s = .next (setB fun b => { b with request := r, drops := b.drops + 1 }))) ∧
    (∀ cmd p, asks cmd 0 p →
      (cmd = 1 → exec .ping s = .next (answer s 0 0 (leBytes b.resetcnt 8))) ∧
      (cmd = 0 ∨ 9 < cmd → exec .ping s = .next (answer s 1 0 [])) ∧
      (cmd = 3 → exec .cert s = .next (answer s 0 0 (Config.certificate.take 32752))) ∧
      (cmd = 8 → exec .errlog s = .next (answer (setB fun b => { b with errlog := b.errlog.drop 2047 }) 0
        (if 2047 < b.errlog.length then 1 else 0) ((b.errlog.take 2047).flatMap fun e =>
          [BitVec.ofNat 8 e.1, BitVec.ofNat 8 e.2.1, 0, 0, 0, 0, 0, 0] ++ leBytes e.2.2 8)))) ∧
    (∀ p, asks 2 64 p → p.length = 64 → ∃ sig, sig.length = 4628 ∧ exec .attest s = .next (answer s 0 0
      (p ++ b.meas.toList.flatMap (fun m => leBytes (m.getD 0).toNat 8) ++ leBytes b.bootcfg.toNat 8 ++ leBytes b.resetcnt 8 ++ sig))) ∧
    (∀ p (slot : BitVec 16) frames tables, asks 4 24 p → numAt p 17 7 = 0 → numAt p 16 1 < 64 →
      let file := s.homeRead { home := 1, pa := numAt p 0 8, slot := 0, gen := 0, codec := 0 } (numAt p 8 8)
      let x := s.loadFile file (numAt p 8 8) (numAt p 16 1) slot.toNat frames tables
      (x.1 = 0 → exec (.load slot frames tables) s = .next (answer x.2 0 0 (leBytes b.loadNumber 4 ++ [0, 0, 0, 0]))) ∧
      (x.1 ≠ 0 → exec (.load slot frames tables) s = .next (answer x.2 3 x.1 []))) ∧
    (∀ p, asks 5 8 p → numAt p 4 4 = 0 →
      ((∀ l ∈ b.loads, l.number ≠ numAt p 0 4) → exec .unload s = .next (answer s 3 1 [])) ∧
      ∀ l, b.loads.find? (fun l => l.number == numAt p 0 4) = some l →
        (l.unloading = true → s.unloadDone l = true → exec .unload s =
          .next (answer (setB fun b => { b with loads := b.loads.filter fun k => k.number != l.number }) 0 0 [])) ∧
        (l.unloading = true → s.unloadDone l = false → exec .unload s = .next s) ∧
        (l.unloading = false → s.imageUsed l = true → exec .unload s = .next s) ∧
        (l.unloading = false → s.imageUsed l = false → ∃ t, exec .unload s = .next t ∧ t.bureau.rspseq = b.rspseq ∧
          t.bureau.loads = b.loads.map (fun k => if k.number = l.number then { k with unloading := true } else k) ∧
          (b.bump.busy = none → t.bureau.bump.busy = some (l.space % 64)))) ∧
    (∀ p (ringVa : Word), asks 6 8 p → numAt p 6 2 = 0 → ∀ q : Fin 64, numAt p 0 1 = q.val → 4 ≤ numAt p 1 1 → numAt p 1 1 ≤ 16 →
      numAt p 2 1 < 64 → numAt p 3 1 ≤ 1 →
      let l := s.queueAt q.val
      let put (x : LQueue) : State := { s with queues := Tbl.put s.queues q.val x }
      (l.ringCfg.getLsbD 63 = true → exec (.queue ringVa) s = .next (put { l with ringCfg := l.ringCfg &&& 0x7FFFFFFFFFFFFFFF#64 })) ∧
      (l.ringCfg.getLsbD 63 = false → l.waiting = true → exec (.queue ringVa) s = .next s) ∧
      (l.ringCfg.getLsbD 63 = false → l.waiting = false → exec (.queue ringVa) s = .next (answer (put { l with
        ringVa := ringVa &&& 0x00FFFFFFFFFFFFFF#64, ringCfg := BitVec.ofNat 64 (2 ^ 63 + numAt p 2 1 * 2 ^ 8 + numAt p 1 1)
        tickets := numAt p 4 2, preempt := numAt p 3 1 == 1 }) 0 0 (leBytes (ringVa.toNat % 2 ^ 56) 8)))) ∧
    (∀ p, asks 7 16 p → numAt p 9 7 = 0 → numAt p 8 1 < 64 → exec .bar2 s = .next (answer (setB fun b => { b with
      apbase := BitVec.ofNat 64 (numAt p 0 8) &&& 0x00FFFFF000000000#64
      apas := BitVec.ofNat 64 (2 ^ 63 + numAt p 8 1) }) 0 0 [])) ∧
    ∀ p n (wr : Bool), asks 9 (24 + if wr then n else 0) p → numAt p 0 1 = (if wr then 2 else 1) → numAt p 1 1 < 64 → numAt p 2 6 = 0 →
      numAt p 16 8 = n → 1 ≤ n → n ≤ 16384 →
      let i : Instr := if wr then .debugWrite else .debugRead
      (b.bootcfg.getLsbD 1 = false → exec i s = .next (answer s 2 0 [])) ∧
      (b.bootcfg.getLsbD 1 = true →
        (∀ c, s.debugPlaces (numAt p 1 1) (numAt p 8 8) wr n = .error c → exec i s = .next (answer s 3 c.code [])) ∧
        ∀ ps t, s.debugPlaces (numAt p 1 1) (numAt p 8 8) wr n = .ok (ps, t) →
          (wr = false → exec i s = .next (answer t 0 0 (ps.flatMap fun x => t.placeRead x 1))) ∧
          ∀ x y, wr = true → ps = [x] → (p.drop 24).take n = [y] → exec i s = .next (answer (t.placeWrite x [y] 0 false) 0 0 []))

/-! ## The machine -/

/-- R10, R15, R41, R43: a step whose turn is a stream's fetches the word at its program counter and runs what it decodes to: `exec` of the instruction, in the
state that has that stream in hand. Before the bound nothing happens; a word that is no instruction traps with its decode case and
itself as TVAL; an interlock holds the word; behind the image subcode 7 is raised, in the first cycle that the bound after the last word allows (log
79, DESIGN CHOICE). A step that is due runs as its row. -/
def Obligations.StepRunsDecoded : Prop :=
  ∀ (s : State) (k : StreamId),
    let u : State := { s with sid := k, turn := s.turn + 1 }
    (∀ i rest, s.agenda = i :: rest → step s = exec i { s with agenda := rest }) ∧
    (s.agenda = [] → turnStream s.turn = some k →
      (u.mayIssue = false → step s = .next u) ∧
      (u.mayIssue = true → ¬ u.st.pc < u.code.length → max u.st.bound u.st.least ≤ u.now →
        step s = .next (u.takeTrap ⟨0x01, 7⟩ (BitVec.ofNat 64 u.code.length))) ∧
      ∀ w, u.mayIssue = true → u.code[u.st.pc]? = some w →
        let first := max (u.st.bound + w.toNat / 2 ^ 54) u.st.least
        (u.now < first → step s = .next u) ∧
        (first ≤ u.now → ¬ (k = .A ∧ u.readsIndices = true) →
          (∀ e, decode k w = .error e → step s = .next (u.takeTrap ⟨0x01, e.sub⟩ w)) ∧
          (∀ i x, decode k w = .ok i → u.interlock i = some x → step s = .next (u.setSt { u.st with wait := some x })) ∧
          ∀ i, decode k w = .ok i → u.interlock i = none → step s = exec i u))

/-- R27 to R32, R39, R40, R41: the words that the chapter on formats encodes and decodes by hand, and those that it gives as illegal. -/
def Obligations.DecodeWords : Prop :=
  (∀ p ∈ ([(0x000B820000000000, .ldi (.s 2) 0), (0x000B840000000001, .ldi (.s 4) 1), (0x000B830000000004, .ldi (.s 3) 4),
      (0x0003000180000005, .lset 0 (.s 3) 5), (0x0004020840000000, .add (.s 2) (.s 2) (.s 4)), (0x0009841000000001, .addi (.s 4) (.s 4) 1),
      (0x000044000000000A, .prep 1 10), (0x000184010000000A, .cmpi .eq 1 (.s 2) 10), (0x0000C60000000000, .br 1 true),
      (0x0003800000000007, .trap 7), (0x0090800000000000, .exit), (0x004C050FFFFE0A80, .ld .w true (.s 5) (.s 3) (-8) 2)] : List (Word × Instr)),
    decode .X p.1 = .ok p.2) ∧
  decode .X 0x0029040420D62000 = .ok (.vfma none .fp32 .rne false true 4 1 2 3) ∧
  idleOf 0x0090800000000000 = 2 ∧ idleOf 0x004C050FFFFE0A80 = 1 ∧
  (∀ k, decode k 0x003C000000000000 = .error .unassigned ∧ decode k 0x000184010200000A = .error .reserved ∧
    decode k 0x000184180000000A = .error .operand ∧ decode k 0x0000F60000000000 = .error .operand) ∧
  decode .A 0x0029040420D62000 = .error .stream ∧ decode .X 0x0029040420DE2000 = .error .type ∧
  decode .X 0x004C050FFFFE0AF8 = .error .reserved

/-- R9, R26 to R42: every well-formed instruction of a stream has a word for every IDLE, and that word decodes to it. -/
def Obligations.EncodeDecode : Prop :=
  ∀ (σ : StreamId) (idle : Fin 1024) (i : Instr), i.wf σ = true →
    ∃ w, encode idle i = some w ∧ decode σ w = .ok i ∧ idleOf w = idle.val

/-- The model's choice (log 1, DESIGN CHOICE): a step keeps the canonical form of memory, in which addresses rise and no listed byte is 0, so that equal
memories are equal data. -/
def Obligations.MemoryCanonical : Prop :=
  ∀ s t : State, s.Inv → step s = .next t → t.Inv

/-- R118, R174, R175, R350, R368, R386, R387, R389, R395: reset. No bank holds an iteration, no link engine runs, no port is live; the Bureau's registers
have their reset values; memory has its canonical form. -/
def Obligations.ResetState : Prop :=
  let r := State.reset
  r.Inv ∧ r.bureau.errthr = 8 ∧ r.bureau.resetcnt = 1 ∧ r.bureau.ready0 = 0 ∧ r.bureau.held = [] ∧ (∀ k : Fin 24, r.bureau.meas[k] = none) ∧
  (∀ core bank, (r.bankAt core bank).iter = none) ∧
  (∀ q, (r.queueAt q).jig = q % 16 ∧ (r.queueAt q).tickets = 0 ∧ (r.queueAt q).ringCfg = 0) ∧
  (∀ a, (r.spaceAt a).root = 0 ∧ (r.spaceAt a).gen = 0 ∧ (r.spaceAt a).priv = 0) ∧
  (∀ k, (r.keyAt k).gen = 0 ∧ (r.keyAt k).key = [0, 0, 0, 0]) ∧
  (∀ d, (r.linkAt d).active = false ∧ (r.linkAt d).lras = 0 ∧ (r.linkAt d).lf0 = 0 ∧ (r.linkAt d).swper = 0) ∧
  (∀ p, (r.portAt p).live = false) ∧ ∀ c, (r.clusterAt c).step = 15 ∧ (r.clusterAt c).stopped = false
end

