-- ==== Sys2Proof/Laws/State.lean ====
section
/-! SUPPORT. What the updates of the state leave as it was: one lemma for each field and each update. -/

namespace Sys2Proof.Machine

/-! ## Replacing the stream in hand -/

@[simp] theorem State.setSt_sid (s : State) (t : Stream) : (s.setSt t).sid = s.sid := by
  unfold State.setSt; split <;> rfl
@[simp] theorem State.setSt_bankNo (s : State) (t : Stream) : (s.setSt t).bankNo = s.bankNo := by
  unfold State.setSt; split <;> rfl
@[simp] theorem State.setSt_coreNo (s : State) (t : Stream) : (s.setSt t).coreNo = s.coreNo := by
  unfold State.setSt; split <;> rfl
@[simp] theorem State.setSt_core (s : State) (t : Stream) : (s.setSt t).core = s.core := by
  unfold State.setSt; split <;> rfl
@[simp] theorem State.setSt_cores (s : State) (t : Stream) : (s.setSt t).cores = s.cores := by
  unfold State.setSt; split <;> rfl
@[simp] theorem State.setSt_dieNo (s : State) (t : Stream) : (s.setSt t).dieNo = s.dieNo := by
  unfold State.setSt; split <;> rfl
@[simp] theorem State.setSt_links (s : State) (t : Stream) : (s.setSt t).links = s.links := by
  unfold State.setSt; split <;> rfl
@[simp] theorem State.setSt_mem (s : State) (t : Stream) : (s.setSt t).mem = s.mem := by
  unfold State.setSt; split <;> rfl
@[simp] theorem State.setSt_tags (s : State) (t : Stream) : (s.setSt t).tags = s.tags := by
  unfold State.setSt; split <;> rfl
@[simp] theorem State.setSt_tlb (s : State) (t : Stream) : (s.setSt t).tlb = s.tlb := by
  unfold State.setSt; split <;> rfl
@[simp] theorem State.setSt_flight (s : State) (t : Stream) : (s.setSt t).flight = s.flight := by
  unfold State.setSt; split <;> rfl
@[simp] theorem State.setSt_issued (s : State) (t : Stream) : (s.setSt t).issued = s.issued := by
  unfold State.setSt; split <;> rfl
@[simp] theorem State.setSt_retires (s : State) (t : Stream) : (s.setSt t).retires = s.retires := by
  unfold State.setSt; split <;> rfl
@[simp] theorem State.setSt_dir (s : State) (t : Stream) : (s.setSt t).dir = s.dir := by
  unfold State.setSt; split <;> rfl
@[simp] theorem State.setSt_slots (s : State) (t : Stream) : (s.setSt t).slots = s.slots := by
  unfold State.setSt; split <;> rfl
@[simp] theorem State.setSt_handles (s : State) (t : Stream) : (s.setSt t).handles = s.handles := by
  unfold State.setSt; split <;> rfl
@[simp] theorem State.setSt_redos (s : State) (t : Stream) : (s.setSt t).redos = s.redos := by
  unfold State.setSt; split <;> rfl
@[simp] theorem State.setSt_btc (s : State) (t : Stream) : (s.setSt t).btc = s.btc := by
  unfold State.setSt; split <;> rfl
@[simp] theorem State.setSt_forward (s : State) (t : Stream) : (s.setSt t).forward = s.forward := by
  unfold State.setSt; split <;> rfl
@[simp] theorem State.setSt_lotto (s : State) (t : Stream) : (s.setSt t).lotto = s.lotto := by
  unfold State.setSt; split <;> rfl
@[simp] theorem State.setSt_draws (s : State) (t : Stream) : (s.setSt t).draws = s.draws := by
  unfold State.setSt; split <;> rfl
@[simp] theorem State.setSt_seq (s : State) (t : Stream) : (s.setSt t).seq = s.seq := by
  unfold State.setSt; split <;> rfl
@[simp] theorem State.setSt_tasks (s : State) (t : Stream) : (s.setSt t).tasks = s.tasks := by
  unfold State.setSt; split <;> rfl
@[simp] theorem State.setSt_launches (s : State) (t : Stream) : (s.setSt t).launches = s.launches := by
  unfold State.setSt; split <;> rfl
@[simp] theorem State.setSt_replies (s : State) (t : Stream) : (s.setSt t).replies = s.replies := by
  unfold State.setSt; split <;> rfl
@[simp] theorem State.setSt_graphs (s : State) (t : Stream) : (s.setSt t).graphs = s.graphs := by
  unfold State.setSt; split <;> rfl
@[simp] theorem State.setSt_graphId (s : State) (t : Stream) : (s.setSt t).graphId = s.graphId := by
  unfold State.setSt; split <;> rfl
@[simp] theorem State.setSt_flaws (s : State) (t : Stream) : (s.setSt t).flaws = s.flaws := by
  unfold State.setSt; split <;> rfl
@[simp] theorem State.setSt_queues (s : State) (t : Stream) : (s.setSt t).queues = s.queues := by
  unfold State.setSt; split <;> rfl
@[simp] theorem State.setSt_groupFree (s : State) (t : Stream) : (s.setSt t).groupFree = s.groupFree := by
  unfold State.setSt; split <;> rfl
@[simp] theorem State.setSt_spaces (s : State) (t : Stream) : (s.setSt t).spaces = s.spaces := by
  unfold State.setSt; split <;> rfl
@[simp] theorem State.setSt_keys (s : State) (t : Stream) : (s.setSt t).keys = s.keys := by
  unfold State.setSt; split <;> rfl
@[simp] theorem State.setSt_bureau (s : State) (t : Stream) : (s.setSt t).bureau = s.bureau := by
  unfold State.setSt; split <;> rfl
@[simp] theorem State.setSt_ports (s : State) (t : Stream) : (s.setSt t).ports = s.ports := by
  unfold State.setSt; split <;> rfl
@[simp] theorem State.setSt_fslot (s : State) (t : Stream) : (s.setSt t).fslot = s.fslot := by
  unfold State.setSt; split <;> rfl
@[simp] theorem State.setSt_fphase (s : State) (t : Stream) : (s.setSt t).fphase = s.fphase := by
  unfold State.setSt; split <;> rfl
@[simp] theorem State.setSt_w (s : State) (t : Stream) : (s.setSt t).w = s.w := by
  unfold State.setSt; split <;> rfl
@[simp] theorem State.setSt_clusters (s : State) (t : Stream) : (s.setSt t).clusters = s.clusters := by
  unfold State.setSt; split <;> rfl
@[simp] theorem State.setSt_uses (s : State) (t : Stream) : (s.setSt t).uses = s.uses := by
  unfold State.setSt; split <;> rfl
@[simp] theorem State.setSt_outs (s : State) (t : Stream) : (s.setSt t).outs = s.outs := by
  unfold State.setSt; split <;> rfl
@[simp] theorem State.setSt_beside (s : State) (t : Stream) : (s.setSt t).beside = s.beside := by
  unfold State.setSt; split <;> rfl
@[simp] theorem State.setSt_inputs (s : State) (t : Stream) : (s.setSt t).inputs = s.inputs := by
  unfold State.setSt; split <;> rfl
@[simp] theorem State.setSt_hostWait (s : State) (t : Stream) : (s.setSt t).hostWait = s.hostWait := by
  unfold State.setSt; split <;> rfl
@[simp] theorem State.setSt_agenda (s : State) (t : Stream) : (s.setSt t).agenda = s.agenda := by
  unfold State.setSt; split <;> rfl
@[simp] theorem State.setSt_turn (s : State) (t : Stream) : (s.setSt t).turn = s.turn := by
  unfold State.setSt; split <;> rfl
@[simp] theorem State.setSt_st (s : State) (t : Stream) : (s.setSt t).st = t := by
  cases h : s.sid <;> simp [State.setSt, State.st, h]
@[simp] theorem State.setSt_setSt (s : State) (t u : Stream) : (s.setSt t).setSt u = s.setSt u := by
  cases h : s.sid <;> simp [State.setSt, h]
@[simp] theorem State.setSt_self (s : State) : s.setSt s.st = s := by
  rcases s with ⟨k⟩; cases k <;> rfl
@[simp] theorem State.setSt_bank_vec (s : State) (t : Stream) : (s.setSt t).bank.vec = s.bank.vec := by
  unfold State.setSt; split <;> rfl
@[simp] theorem State.setSt_bank_q (s : State) (t : Stream) : (s.setSt t).bank.q = s.bank.q := by
  unfold State.setSt; split <;> rfl
@[simp] theorem State.setSt_bank_cycle (s : State) (t : Stream) : (s.setSt t).bank.cycle = s.bank.cycle := by
  unfold State.setSt; split <;> rfl
@[simp] theorem State.setSt_bank_slip (s : State) (t : Stream) : (s.setSt t).bank.slip = s.bank.slip := by
  unfold State.setSt; split <;> rfl
@[simp] theorem State.setSt_bank_pend (s : State) (t : Stream) : (s.setSt t).bank.pend = s.bank.pend := by
  unfold State.setSt; split <;> rfl
@[simp] theorem State.setSt_bank_bfmt (s : State) (t : Stream) : (s.setSt t).bank.bfmt = s.bank.bfmt := by
  unfold State.setSt; split <;> rfl
@[simp] theorem State.setSt_bank_cb (s : State) (t : Stream) : (s.setSt t).bank.cb = s.bank.cb := by
  unfold State.setSt; split <;> rfl
@[simp] theorem State.setSt_bank_map (s : State) (t : Stream) : (s.setSt t).bank.map = s.bank.map := by
  unfold State.setSt; split <;> rfl
@[simp] theorem State.setSt_bank_abexp (s : State) (t : Stream) : (s.setSt t).bank.abexp = s.bank.abexp := by
  unfold State.setSt; split <;> rfl
@[simp] theorem State.setSt_bank_abarr (s : State) (t : Stream) : (s.setSt t).bank.abarr = s.bank.abarr := by
  unfold State.setSt; split <;> rfl
@[simp] theorem State.setSt_bank_ffa (s : State) (t : Stream) : (s.setSt t).bank.ffa = s.bank.ffa := by
  unfold State.setSt; split <;> rfl
@[simp] theorem State.setSt_bank_pstat (s : State) (t : Stream) : (s.setSt t).bank.pstat = s.bank.pstat := by
  unfold State.setSt; split <;> rfl
@[simp] theorem State.setSt_bank_pmode (s : State) (t : Stream) : (s.setSt t).bank.pmode = s.bank.pmode := by
  unfold State.setSt; split <;> rfl
@[simp] theorem State.setSt_bank_side (s : State) (t : Stream) : (s.setSt t).bank.side = s.bank.side := by
  unfold State.setSt; split <;> rfl
@[simp] theorem State.setSt_bank_shadow (s : State) (t : Stream) : (s.setSt t).bank.shadow = s.bank.shadow := by
  unfold State.setSt; split <;> rfl
@[simp] theorem State.setSt_bank_wheelFirst (s : State) (t : Stream) : (s.setSt t).bank.wheelFirst = s.bank.wheelFirst := by
  unfold State.setSt; split <;> rfl
@[simp] theorem State.setSt_bank_wheelStride (s : State) (t : Stream) : (s.setSt t).bank.wheelStride = s.bank.wheelStride := by
  unfold State.setSt; split <;> rfl
@[simp] theorem State.setSt_bank_wheelCount (s : State) (t : Stream) : (s.setSt t).bank.wheelCount = s.bank.wheelCount := by
  unfold State.setSt; split <;> rfl
@[simp] theorem State.setSt_bank_wheelNext (s : State) (t : Stream) : (s.setSt t).bank.wheelNext = s.bank.wheelNext := by
  unfold State.setSt; split <;> rfl
@[simp] theorem State.setSt_bank_phase (s : State) (t : Stream) : (s.setSt t).bank.phase = s.bank.phase := by
  unfold State.setSt; split <;> rfl
@[simp] theorem State.setSt_bank_same (s : State) (t : Stream) : (s.setSt t).bank.same = s.bank.same := by
  unfold State.setSt; split <;> rfl
@[simp] theorem State.setSt_bank_iter (s : State) (t : Stream) : (s.setSt t).bank.iter = s.bank.iter := by
  unfold State.setSt; split <;> rfl
@[simp] theorem State.setSt_bank_started (s : State) (t : Stream) : (s.setSt t).bank.started = s.bank.started := by
  unfold State.setSt; split <;> rfl
@[simp] theorem State.setSt_bank_stray (s : State) (t : Stream) : (s.setSt t).bank.stray = s.bank.stray := by
  unfold State.setSt; split <;> rfl
@[simp] theorem State.setSt_bank_launches (s : State) (t : Stream) : (s.setSt t).bank.launches = s.bank.launches := by
  unfold State.setSt; split <;> rfl
@[simp] theorem State.setSt_bank_nests (s : State) (t : Stream) : (s.setSt t).bank.nests = s.bank.nests := by
  unfold State.setSt; split <;> rfl
@[simp] theorem State.setSt_bank_stopped (s : State) (t : Stream) : (s.setSt t).bank.stopped = s.bank.stopped := by
  unfold State.setSt; split <;> rfl
@[simp] theorem State.setSt_bank_resumed (s : State) (t : Stream) : (s.setSt t).bank.resumed = s.bank.resumed := by
  unfold State.setSt; split <;> rfl
@[simp] theorem State.setSt_bank_fills (s : State) (t : Stream) : (s.setSt t).bank.fills = s.bank.fills := by
  unfold State.setSt; split <;> rfl
@[simp] theorem State.setSt_bank_wb (s : State) (t : Stream) : (s.setSt t).bank.wb = s.bank.wb := by
  unfold State.setSt; split <;> rfl
@[simp] theorem State.setSt_bank_stand (s : State) (t : Stream) : (s.setSt t).bank.stand = s.bank.stand := by
  unfold State.setSt; split <;> rfl
@[simp] theorem State.setSt_bank_popped (s : State) (t : Stream) : (s.setSt t).bank.popped = s.bank.popped := by
  unfold State.setSt; split <;> rfl
@[simp] theorem State.setSt_bank_restore (s : State) (t : Stream) : (s.setSt t).bank.restore = s.bank.restore := by
  unfold State.setSt; split <;> rfl
@[simp] theorem State.setSt_bank_evict (s : State) (t : Stream) : (s.setSt t).bank.evict = s.bank.evict := by
  unfold State.setSt; split <;> rfl
@[simp] theorem State.setSt_bank_reissue (s : State) (t : Stream) : (s.setSt t).bank.reissue = s.bank.reissue := by
  unfold State.setSt; split <;> rfl
@[simp] theorem State.setSt_bank_heir (s : State) (t : Stream) : (s.setSt t).bank.heir = s.bank.heir := by
  unfold State.setSt; split <;> rfl
@[simp] theorem State.setSt_link_cycle (s : State) (t : Stream) : (s.setSt t).link.cycle = s.link.cycle := by
  unfold State.setSt; split <;> rfl
@[simp] theorem State.setSt_link_active (s : State) (t : Stream) : (s.setSt t).link.active = s.link.active := by
  unfold State.setSt; split <;> rfl
@[simp] theorem State.setSt_link_code (s : State) (t : Stream) : (s.setSt t).link.code = s.link.code := by
  unfold State.setSt; split <;> rfl
@[simp] theorem State.setSt_link_period (s : State) (t : Stream) : (s.setSt t).link.period = s.link.period := by
  unfold State.setSt; split <;> rfl
@[simp] theorem State.setSt_link_cr (s : State) (t : Stream) : (s.setSt t).link.cr = s.link.cr := by
  unfold State.setSt; split <;> rfl
@[simp] theorem State.setSt_link_lflags (s : State) (t : Stream) : (s.setSt t).link.lflags = s.link.lflags := by
  unfold State.setSt; split <;> rfl
@[simp] theorem State.setSt_link_cur (s : State) (t : Stream) : (s.setSt t).link.cur = s.link.cur := by
  unfold State.setSt; split <;> rfl
@[simp] theorem State.setSt_link_f0 (s : State) (t : Stream) : (s.setSt t).link.f0 = s.link.f0 := by
  unfold State.setSt; split <;> rfl
@[simp] theorem State.setSt_link_space (s : State) (t : Stream) : (s.setSt t).link.space = s.link.space := by
  unfold State.setSt; split <;> rfl
@[simp] theorem State.setSt_link_due (s : State) (t : Stream) : (s.setSt t).link.due = s.link.due := by
  unfold State.setSt; split <;> rfl
@[simp] theorem State.setSt_link_doneVa (s : State) (t : Stream) : (s.setSt t).link.doneVa = s.link.doneVa := by
  unfold State.setSt; split <;> rfl
@[simp] theorem State.setSt_link_doneSince (s : State) (t : Stream) : (s.setSt t).link.doneSince = s.link.doneSince := by
  unfold State.setSt; split <;> rfl
@[simp] theorem State.setSt_link_queued (s : State) (t : Stream) : (s.setSt t).link.queued = s.link.queued := by
  unfold State.setSt; split <;> rfl
@[simp] theorem State.setSt_link_lanes (s : State) (t : Stream) : (s.setSt t).link.lanes = s.link.lanes := by
  unfold State.setSt; split <;> rfl
@[simp] theorem State.setSt_link_lras (s : State) (t : Stream) : (s.setSt t).link.lras = s.link.lras := by
  unfold State.setSt; split <;> rfl
@[simp] theorem State.setSt_link_lf0 (s : State) (t : Stream) : (s.setSt t).link.lf0 = s.link.lf0 := by
  unfold State.setSt; split <;> rfl
@[simp] theorem State.setSt_link_ldue (s : State) (t : Stream) : (s.setSt t).link.ldue = s.link.ldue := by
  unfold State.setSt; split <;> rfl
@[simp] theorem State.setSt_link_ldoneva (s : State) (t : Stream) : (s.setSt t).link.ldoneva = s.link.ldoneva := by
  unfold State.setSt; split <;> rfl
@[simp] theorem State.setSt_link_swBusy (s : State) (t : Stream) : (s.setSt t).link.swBusy = s.link.swBusy := by
  unfold State.setSt; split <;> rfl
@[simp] theorem State.setSt_link_swRefused (s : State) (t : Stream) : (s.setSt t).link.swRefused = s.link.swRefused := by
  unfold State.setSt; split <;> rfl
@[simp] theorem State.setSt_link_swPa (s : State) (t : Stream) : (s.setSt t).link.swPa = s.link.swPa := by
  unfold State.setSt; split <;> rfl
@[simp] theorem State.setSt_link_swper (s : State) (t : Stream) : (s.setSt t).link.swper = s.link.swper := by
  unfold State.setSt; split <;> rfl
@[simp] theorem State.setSt_link_routes (s : State) (t : Stream) : (s.setSt t).link.routes = s.link.routes := by
  unfold State.setSt; split <;> rfl

/-! ## setBank -/

@[simp] theorem State.setBank_sid (s : State) (f : Bank → Bank) : (s.setBank f).sid = s.sid := rfl
@[simp] theorem State.setBank_bankNo (s : State) (f : Bank → Bank) : (s.setBank f).bankNo = s.bankNo := rfl
@[simp] theorem State.setBank_bank (s : State) (f : Bank → Bank) : (s.setBank f).bank = f s.bank := rfl
@[simp] theorem State.setBank_coreNo (s : State) (f : Bank → Bank) : (s.setBank f).coreNo = s.coreNo := rfl
@[simp] theorem State.setBank_core (s : State) (f : Bank → Bank) : (s.setBank f).core = s.core := rfl
@[simp] theorem State.setBank_cores (s : State) (f : Bank → Bank) : (s.setBank f).cores = s.cores := rfl
@[simp] theorem State.setBank_dieNo (s : State) (f : Bank → Bank) : (s.setBank f).dieNo = s.dieNo := rfl
@[simp] theorem State.setBank_link (s : State) (f : Bank → Bank) : (s.setBank f).link = s.link := rfl
@[simp] theorem State.setBank_links (s : State) (f : Bank → Bank) : (s.setBank f).links = s.links := rfl
@[simp] theorem State.setBank_mem (s : State) (f : Bank → Bank) : (s.setBank f).mem = s.mem := rfl
@[simp] theorem State.setBank_tags (s : State) (f : Bank → Bank) : (s.setBank f).tags = s.tags := rfl
@[simp] theorem State.setBank_tlb (s : State) (f : Bank → Bank) : (s.setBank f).tlb = s.tlb := rfl
@[simp] theorem State.setBank_flight (s : State) (f : Bank → Bank) : (s.setBank f).flight = s.flight := rfl
@[simp] theorem State.setBank_issued (s : State) (f : Bank → Bank) : (s.setBank f).issued = s.issued := rfl
@[simp] theorem State.setBank_retires (s : State) (f : Bank → Bank) : (s.setBank f).retires = s.retires := rfl
@[simp] theorem State.setBank_dir (s : State) (f : Bank → Bank) : (s.setBank f).dir = s.dir := rfl
@[simp] theorem State.setBank_slots (s : State) (f : Bank → Bank) : (s.setBank f).slots = s.slots := rfl
@[simp] theorem State.setBank_handles (s : State) (f : Bank → Bank) : (s.setBank f).handles = s.handles := rfl
@[simp] theorem State.setBank_redos (s : State) (f : Bank → Bank) : (s.setBank f).redos = s.redos := rfl
@[simp] theorem State.setBank_btc (s : State) (f : Bank → Bank) : (s.setBank f).btc = s.btc := rfl
@[simp] theorem State.setBank_forward (s : State) (f : Bank → Bank) : (s.setBank f).forward = s.forward := rfl
@[simp] theorem State.setBank_lotto (s : State) (f : Bank → Bank) : (s.setBank f).lotto = s.lotto := rfl
@[simp] theorem State.setBank_draws (s : State) (f : Bank → Bank) : (s.setBank f).draws = s.draws := rfl
@[simp] theorem State.setBank_seq (s : State) (f : Bank → Bank) : (s.setBank f).seq = s.seq := rfl
@[simp] theorem State.setBank_tasks (s : State) (f : Bank → Bank) : (s.setBank f).tasks = s.tasks := rfl
@[simp] theorem State.setBank_launches (s : State) (f : Bank → Bank) : (s.setBank f).launches = s.launches := rfl
@[simp] theorem State.setBank_replies (s : State) (f : Bank → Bank) : (s.setBank f).replies = s.replies := rfl
@[simp] theorem State.setBank_graphs (s : State) (f : Bank → Bank) : (s.setBank f).graphs = s.graphs := rfl
@[simp] theorem State.setBank_graphId (s : State) (f : Bank → Bank) : (s.setBank f).graphId = s.graphId := rfl
@[simp] theorem State.setBank_flaws (s : State) (f : Bank → Bank) : (s.setBank f).flaws = s.flaws := rfl
@[simp] theorem State.setBank_queues (s : State) (f : Bank → Bank) : (s.setBank f).queues = s.queues := rfl
@[simp] theorem State.setBank_groupFree (s : State) (f : Bank → Bank) : (s.setBank f).groupFree = s.groupFree := rfl
@[simp] theorem State.setBank_spaces (s : State) (f : Bank → Bank) : (s.setBank f).spaces = s.spaces := rfl
@[simp] theorem State.setBank_keys (s : State) (f : Bank → Bank) : (s.setBank f).keys = s.keys := rfl
@[simp] theorem State.setBank_bureau (s : State) (f : Bank → Bank) : (s.setBank f).bureau = s.bureau := rfl
@[simp] theorem State.setBank_ports (s : State) (f : Bank → Bank) : (s.setBank f).ports = s.ports := rfl
@[simp] theorem State.setBank_fslot (s : State) (f : Bank → Bank) : (s.setBank f).fslot = s.fslot := rfl
@[simp] theorem State.setBank_fphase (s : State) (f : Bank → Bank) : (s.setBank f).fphase = s.fphase := rfl
@[simp] theorem State.setBank_w (s : State) (f : Bank → Bank) : (s.setBank f).w = s.w := rfl
@[simp] theorem State.setBank_clusters (s : State) (f : Bank → Bank) : (s.setBank f).clusters = s.clusters := rfl
@[simp] theorem State.setBank_uses (s : State) (f : Bank → Bank) : (s.setBank f).uses = s.uses := rfl
@[simp] theorem State.setBank_outs (s : State) (f : Bank → Bank) : (s.setBank f).outs = s.outs := rfl
@[simp] theorem State.setBank_beside (s : State) (f : Bank → Bank) : (s.setBank f).beside = s.beside := rfl
@[simp] theorem State.setBank_inputs (s : State) (f : Bank → Bank) : (s.setBank f).inputs = s.inputs := rfl
@[simp] theorem State.setBank_hostWait (s : State) (f : Bank → Bank) : (s.setBank f).hostWait = s.hostWait := rfl
@[simp] theorem State.setBank_agenda (s : State) (f : Bank → Bank) : (s.setBank f).agenda = s.agenda := rfl
@[simp] theorem State.setBank_turn (s : State) (f : Bank → Bank) : (s.setBank f).turn = s.turn := rfl

/-! ## setCore -/

@[simp] theorem State.setCore_sid (s : State) (f : CoreRec → CoreRec) : (s.setCore f).sid = s.sid := rfl
@[simp] theorem State.setCore_bankNo (s : State) (f : CoreRec → CoreRec) : (s.setCore f).bankNo = s.bankNo := rfl
@[simp] theorem State.setCore_bank (s : State) (f : CoreRec → CoreRec) : (s.setCore f).bank = s.bank := rfl
@[simp] theorem State.setCore_coreNo (s : State) (f : CoreRec → CoreRec) : (s.setCore f).coreNo = s.coreNo := rfl
@[simp] theorem State.setCore_core (s : State) (f : CoreRec → CoreRec) : (s.setCore f).core = f s.core := rfl
@[simp] theorem State.setCore_cores (s : State) (f : CoreRec → CoreRec) : (s.setCore f).cores = s.cores := rfl
@[simp] theorem State.setCore_dieNo (s : State) (f : CoreRec → CoreRec) : (s.setCore f).dieNo = s.dieNo := rfl
@[simp] theorem State.setCore_link (s : State) (f : CoreRec → CoreRec) : (s.setCore f).link = s.link := rfl
@[simp] theorem State.setCore_links (s : State) (f : CoreRec → CoreRec) : (s.setCore f).links = s.links := rfl
@[simp] theorem State.setCore_mem (s : State) (f : CoreRec → CoreRec) : (s.setCore f).mem = s.mem := rfl
@[simp] theorem State.setCore_tags (s : State) (f : CoreRec → CoreRec) : (s.setCore f).tags = s.tags := rfl
@[simp] theorem State.setCore_tlb (s : State) (f : CoreRec → CoreRec) : (s.setCore f).tlb = s.tlb := rfl
@[simp] theorem State.setCore_flight (s : State) (f : CoreRec → CoreRec) : (s.setCore f).flight = s.flight := rfl
@[simp] theorem State.setCore_issued (s : State) (f : CoreRec → CoreRec) : (s.setCore f).issued = s.issued := rfl
@[simp] theorem State.setCore_retires (s : State) (f : CoreRec → CoreRec) : (s.setCore f).retires = s.retires := rfl
@[simp] theorem State.setCore_dir (s : State) (f : CoreRec → CoreRec) : (s.setCore f).dir = s.dir := rfl
@[simp] theorem State.setCore_slots (s : State) (f : CoreRec → CoreRec) : (s.setCore f).slots = s.slots := rfl
@[simp] theorem State.setCore_handles (s : State) (f : CoreRec → CoreRec) : (s.setCore f).handles = s.handles := rfl
@[simp] theorem State.setCore_redos (s : State) (f : CoreRec → CoreRec) : (s.setCore f).redos = s.redos := rfl
@[simp] theorem State.setCore_btc (s : State) (f : CoreRec → CoreRec) : (s.setCore f).btc = s.btc := rfl
@[simp] theorem State.setCore_forward (s : State) (f : CoreRec → CoreRec) : (s.setCore f).forward = s.forward := rfl
@[simp] theorem State.setCore_lotto (s : State) (f : CoreRec → CoreRec) : (s.setCore f).lotto = s.lotto := rfl
@[simp] theorem State.setCore_draws (s : State) (f : CoreRec → CoreRec) : (s.setCore f).draws = s.draws := rfl
@[simp] theorem State.setCore_seq (s : State) (f : CoreRec → CoreRec) : (s.setCore f).seq = s.seq := rfl
@[simp] theorem State.setCore_tasks (s : State) (f : CoreRec → CoreRec) : (s.setCore f).tasks = s.tasks := rfl
@[simp] theorem State.setCore_launches (s : State) (f : CoreRec → CoreRec) : (s.setCore f).launches = s.launches := rfl
@[simp] theorem State.setCore_replies (s : State) (f : CoreRec → CoreRec) : (s.setCore f).replies = s.replies := rfl
@[simp] theorem State.setCore_graphs (s : State) (f : CoreRec → CoreRec) : (s.setCore f).graphs = s.graphs := rfl
@[simp] theorem State.setCore_graphId (s : State) (f : CoreRec → CoreRec) : (s.setCore f).graphId = s.graphId := rfl
@[simp] theorem State.setCore_flaws (s : State) (f : CoreRec → CoreRec) : (s.setCore f).flaws = s.flaws := rfl
@[simp] theorem State.setCore_queues (s : State) (f : CoreRec → CoreRec) : (s.setCore f).queues = s.queues := rfl
@[simp] theorem State.setCore_groupFree (s : State) (f : CoreRec → CoreRec) : (s.setCore f).groupFree = s.groupFree := rfl
@[simp] theorem State.setCore_spaces (s : State) (f : CoreRec → CoreRec) : (s.setCore f).spaces = s.spaces := rfl
@[simp] theorem State.setCore_keys (s : State) (f : CoreRec → CoreRec) : (s.setCore f).keys = s.keys := rfl
@[simp] theorem State.setCore_bureau (s : State) (f : CoreRec → CoreRec) : (s.setCore f).bureau = s.bureau := rfl
@[simp] theorem State.setCore_ports (s : State) (f : CoreRec → CoreRec) : (s.setCore f).ports = s.ports := rfl
@[simp] theorem State.setCore_fslot (s : State) (f : CoreRec → CoreRec) : (s.setCore f).fslot = s.fslot := rfl
@[simp] theorem State.setCore_fphase (s : State) (f : CoreRec → CoreRec) : (s.setCore f).fphase = s.fphase := rfl
@[simp] theorem State.setCore_w (s : State) (f : CoreRec → CoreRec) : (s.setCore f).w = s.w := rfl
@[simp] theorem State.setCore_clusters (s : State) (f : CoreRec → CoreRec) : (s.setCore f).clusters = s.clusters := rfl
@[simp] theorem State.setCore_uses (s : State) (f : CoreRec → CoreRec) : (s.setCore f).uses = s.uses := rfl
@[simp] theorem State.setCore_outs (s : State) (f : CoreRec → CoreRec) : (s.setCore f).outs = s.outs := rfl
@[simp] theorem State.setCore_beside (s : State) (f : CoreRec → CoreRec) : (s.setCore f).beside = s.beside := rfl
@[simp] theorem State.setCore_inputs (s : State) (f : CoreRec → CoreRec) : (s.setCore f).inputs = s.inputs := rfl
@[simp] theorem State.setCore_hostWait (s : State) (f : CoreRec → CoreRec) : (s.setCore f).hostWait = s.hostWait := rfl
@[simp] theorem State.setCore_agenda (s : State) (f : CoreRec → CoreRec) : (s.setCore f).agenda = s.agenda := rfl
@[simp] theorem State.setCore_turn (s : State) (f : CoreRec → CoreRec) : (s.setCore f).turn = s.turn := rfl

end Sys2Proof.Machine
end

