-- ==== Sys2Proof/Laws/Words.lean ====
section
/-! SUPPORT. What the operations do that every word is made of: reading sources, writing a result, and going on. A proof about
a word cites these and unfolds none of them. -/

namespace Sys2Proof.Machine

/-! ## The stream in hand -/

@[simp] theorem State.setSt_now (s : State) (t : Stream) : (s.setSt t).now = s.now := by
  cases h : s.sid <;> simp [State.now, h]

@[simp] theorem State.setSt_agent (s : State) (t : Stream) : (s.setSt t).agent = s.agent := by
  cases h : s.sid <;> simp [State.agent, h]

@[simp] theorem State.setSt_qNow (s : State) (t : Stream) (q : Nat) : (s.setSt t).qNow q = s.qNow q := by
  simp [State.qNow]

@[simp] theorem State.setSt_ownReady (s : State) (t : Stream) : (s.setSt t).ownReady = s.ownReady := by
  simp [State.ownReady]

theorem State.reg_eq (s : State) (n : Fin 32) : s.reg n = if n = 0 then 0 else s.st.s[n] := rfl

/-! ## The quiet parts -/

theorem State.Quiet.refl (s : State) : s.Quiet s := Eq.refl s.quiet

theorem State.Quiet.trans {s t u : State} (h : s.Quiet t) (k : t.Quiet u) : s.Quiet u := Eq.trans k h

theorem State.quiet_setSt {s : State} {t : Stream} (h : t.quiet = s.st.quiet) : s.Quiet (s.setSt t) := by
  unfold State.Quiet State.quiet
  rw [State.setSt_st, h]
  cases h : s.sid <;> simp [State.setSt, State.st, h]

theorem State.quiet_queues (s : State) (q : Vector (List QEntry) 16) (p : List (Fin 16)) :
    s.Quiet { s with bank := { s.bank with q := q, popped := p } } := by
  rcases s with ⟨k⟩
  cases k <;> rfl

theorem State.Quiet.sid {s t : State} (h : s.Quiet t) : t.sid = s.sid := by
  simpa [State.quiet] using congrArg State.sid h

theorem State.Quiet.mem {s t : State} (h : s.Quiet t) : t.mem = s.mem := by
  simpa [State.quiet] using congrArg State.mem h

theorem State.Quiet.k {s t : State} (h : s.Quiet t) : t.st.k = s.st.k := by
  simpa [State.quiet, Stream.quiet] using congrArg (fun x => x.st.k) h

theorem State.Quiet.order {s t : State} (h : s.Quiet t) : t.st.order = s.st.order := by
  simpa [State.quiet, Stream.quiet] using congrArg (fun x => x.st.order) h

theorem State.Quiet.now {s t : State} (h : s.Quiet t) : t.now = s.now := by
  have hs := h.sid
  have hb : t.bank.cycle = s.bank.cycle := by simpa [State.quiet] using congrArg (fun x => x.bank.cycle) h
  have hp : t.bank.slip = s.bank.slip := by simpa [State.quiet] using congrArg (fun x => x.bank.slip) h
  have hl : t.link.cycle = s.link.cycle := by simpa [State.quiet] using congrArg (fun x => x.link.cycle) h
  simp [State.now, hs, hb, hp, hl]

theorem State.Quiet.agent {s t : State} (h : s.Quiet t) : t.agent = s.agent := by
  have hs := h.sid
  have h1 : t.dieNo = s.dieNo := by simpa [State.quiet] using congrArg State.dieNo h
  have h2 : t.coreNo = s.coreNo := by simpa [State.quiet] using congrArg State.coreNo h
  have h3 : t.bankNo = s.bankNo := by simpa [State.quiet] using congrArg State.bankNo h
  simp [State.agent, hs, h1, h2, h3]

theorem State.Quiet.issued {s t : State} (h : s.Quiet t) : t.issued = s.issued := by
  simpa [State.quiet] using congrArg State.issued h

theorem State.Quiet.ownReady {s t : State} (h : s.Quiet t) : t.ownReady = s.ownReady := by
  have hs := h.sid
  have h2 : t.core = s.core := by simpa [State.quiet] using congrArg State.core h
  have h3 : t.bankNo = s.bankNo := by simpa [State.quiet] using congrArg State.bankNo h
  simp [State.ownReady, hs, h2, h3]

theorem State.Quiet.entry {s t : State} (h : s.Quiet t) (v : Word) (k : Bool) (d : Option Nat) (n : Nat) :
    t.entry v k d n = s.entry v k d n := by
  simp [State.entry, h.issued, h.agent]

/-! ## Reading sources -/

theorem State.acquire_quiet (s : State) (a n : Nat) : s.Quiet (s.acquire a n) := State.quiet_setSt rfl

@[simp] theorem State.acquire_q (s : State) (a n : Nat) : (s.acquire a n).bank.q = s.bank.q := by simp [State.acquire]

@[simp] theorem State.acquire_s (s : State) (a n : Nat) : (s.acquire a n).st.s = s.st.s := by simp [State.acquire]

@[simp] theorem State.acquire_l (s : State) (a n : Nat) : (s.acquire a n).st.l = s.st.l := by simp [State.acquire]

@[simp] theorem State.acquire_pc (s : State) (a n : Nat) : (s.acquire a n).st.pc = s.st.pc := by simp [State.acquire]

@[simp] theorem State.acquire_busy (s : State) (a n : Nat) : (s.acquire a n).st.busy = s.st.busy := by simp [State.acquire]

theorem State.notePop_quiet (s : State) (q : Fin 16) (e : QEntry) : s.Quiet (s.notePop q e) := State.quiet_setSt rfl

@[simp] theorem State.notePop_q (s : State) (q : Fin 16) (e : QEntry) : (s.notePop q e).bank.q = s.bank.q := by simp [State.notePop]

@[simp] theorem State.notePop_s (s : State) (q : Fin 16) (e : QEntry) : (s.notePop q e).st.s = s.st.s := by simp [State.notePop]

@[simp] theorem State.notePop_l (s : State) (q : Fin 16) (e : QEntry) : (s.notePop q e).st.l = s.st.l := by simp [State.notePop]

@[simp] theorem State.notePop_pc (s : State) (q : Fin 16) (e : QEntry) : (s.notePop q e).st.pc = s.st.pc := by simp [State.notePop]

@[simp] theorem State.notePop_busy (s : State) (q : Fin 16) (e : QEntry) : (s.notePop q e).st.busy = s.st.busy := by simp [State.notePop]

@[simp] theorem State.after_nil (s : State) : s.after [] = s := rfl

theorem State.after_cons (s : State) (o : Opnd) (t : List Opnd) : s.after (o :: t) = (s.take o).2.after t := rfl

theorem State.after_append (s : State) (l : List Opnd) (o : Opnd) : s.after (l ++ [o]) = ((s.after l).take o).2 := by
  induction l generalizing s with
  | nil => rfl
  | cons x t ih => exact ih _

theorem State.take_s (s : State) (n : Fin 32) : s.take (.s n) = (s.reg n, s) := rfl

theorem State.take_empty {s : State} {q : Fin 16} (h : s.bank.q[q] = []) : s.take (.q q) = (0, s) := by
  simp [State.take, State.pop, h]

theorem State.take_entry {s : State} {q : Fin 16} {e : QEntry} {t : List QEntry} (h : s.bank.q[q] = e :: t) :
    s.take (.q q) = (e.read, (State.acquire { s with bank := { s.bank with q := s.bank.q.set q t, popped := q :: s.bank.popped } }
      e.src e.rel).notePop q e) := by
  simp [State.take, State.pop, h]

@[simp] theorem State.queues_st (s : State) (q : Vector (List QEntry) 16) (p : List (Fin 16)) :
    State.st { s with bank := { s.bank with q := q, popped := p } } = s.st := by
  rcases s with ⟨k⟩; cases k <;> rfl

/-- What reading one source changes: it pops the queue that it names, and the stream acquires what the push released. -/
theorem State.take_spec (s : State) (o : Opnd) :
    s.Quiet (s.take o).2 ∧ (s.take o).2.st.s = s.st.s ∧ (s.take o).2.st.l = s.st.l ∧ (s.take o).2.st.pc = s.st.pc
      ∧ (s.take o).2.st.busy = s.st.busy ∧ (s.take o).1 = s.source [] o
      ∧ ∀ q : Fin 16, (s.take o).2.bank.q[q] = if o = .q q then s.bank.q[q].drop 1 else s.bank.q[q] := by
  cases o with
  | s n =>
    rw [State.take_s]
    exact ⟨.refl s, rfl, rfl, rfl, rfl, rfl, fun q => by simp⟩
  | q n =>
    cases hq : s.bank.q[n] with
    | nil =>
      rw [State.take_empty hq]
      refine ⟨.refl s, rfl, rfl, rfl, rfl, by simp [State.source, hq], fun q => ?_⟩
      by_cases h : n = q
      · subst h; simp [hq]
      · simp [h]
    | cons e t =>
      rw [State.take_entry hq]
      refine ⟨((State.quiet_queues s _ _).trans (State.acquire_quiet _ _ _)).trans (State.notePop_quiet _ _ _), by simp, by simp, by simp, by simp,
        by simp [State.source, hq, QEntry.read], fun q => ?_⟩
      by_cases h : n = q
      · subst h; simp [hq]
      · simp [h, Fin.val_ne_of_ne h]

/-- What reading sources changes. -/
theorem State.after_spec (s : State) (l : List Opnd) :
    s.Quiet (s.after l) ∧ (s.after l).st.s = s.st.s ∧ (s.after l).st.l = s.st.l ∧ (s.after l).st.pc = s.st.pc
      ∧ (s.after l).st.busy = s.st.busy ∧ ∀ q : Fin 16, (s.after l).bank.q[q] = s.bank.q[q].drop (l.count (.q q)) := by
  induction l generalizing s with
  | nil => exact ⟨.refl s, rfl, rfl, rfl, rfl, fun q => by simp⟩
  | cons o t ih =>
    obtain ⟨h1, h2, h3, h4, h5, -, h6⟩ := s.take_spec o
    obtain ⟨k1, k2, k3, k4, k5, k6⟩ := ih (s.take o).2
    refine ⟨h1.trans k1, k2.trans h2, k3.trans h3, k4.trans h4, k5.trans h5, fun q => ?_⟩
    rw [State.after_cons, k6, h6]
    by_cases h : o = .q q
    · simp [h]
    · simp [h]

/-- The value of a source read behind the sources `l`. -/
theorem State.after_take (s : State) (l : List Opnd) (o : Opnd) : ((s.after l).take o).1 = s.source l o := by
  obtain ⟨-, h2, -, -, -, h6⟩ := s.after_spec l
  rw [((s.after l).take_spec o).2.2.2.2.2.1]
  cases o with
  | s n => simp [State.source, h2]
  | q q => simp [State.source, h6]

theorem State.take_fst (s : State) (a : Opnd) : (s.take a).1 = s.source [] a := s.after_take [] a

theorem State.take_fst2 (s : State) (a b : Opnd) : ((s.take a).2.take b).1 = s.source [a] b := s.after_take [a] b

theorem State.take_fst3 (s : State) (a b c : Opnd) : (((s.take a).2.take b).2.take c).1 = s.source [a, b] c := s.after_take [a, b] c

/-! ## Holding a word -/

theorem State.guard_none {s : State} {srcs dsts : List Opnd} (h : s.block srcs dsts = none) (k : Result) : s.guard srcs dsts k = k := by
  simp [State.guard, h]

theorem State.guard_some {s : State} {srcs dsts : List Opnd} {b : Block} (h : s.block srcs dsts = some b) (k : Result) :
    s.guard srcs dsts k = .next (s.blocked b) := by
  simp [State.guard, h]

/-! ## Writing a result -/

theorem State.setReg_quiet (s : State) (n : Fin 32) (v : Word) : s.Quiet (s.setReg n v) := by
  unfold State.setReg
  split
  · exact .refl s
  · exact State.quiet_setSt rfl

theorem State.setBusy_quiet (s : State) (r : RegId) (lat : Nat) : s.Quiet (s.setBusy r lat) := by
  unfold State.setBusy
  split
  · exact .refl s
  · exact State.quiet_setSt rfl

theorem State.reserve_quiet (s : State) (q : Fin 16) (e : QEntry) : s.Quiet (s.reserve q e) := State.quiet_queues s _ _

@[simp] theorem State.setReg_q (s : State) (n : Fin 32) (v : Word) : (s.setReg n v).bank.q = s.bank.q := by
  unfold State.setReg; split <;> simp

@[simp] theorem State.setReg_l (s : State) (n : Fin 32) (v : Word) : (s.setReg n v).st.l = s.st.l := by
  unfold State.setReg; split <;> simp

@[simp] theorem State.setReg_pc (s : State) (n : Fin 32) (v : Word) : (s.setReg n v).st.pc = s.st.pc := by
  unfold State.setReg; split <;> simp

@[simp] theorem State.setBusy_q (s : State) (r : RegId) (n : Nat) : (s.setBusy r n).bank.q = s.bank.q := by
  unfold State.setBusy; split <;> simp

@[simp] theorem State.setBusy_l (s : State) (r : RegId) (n : Nat) : (s.setBusy r n).st.l = s.st.l := by
  unfold State.setBusy; split <;> simp

@[simp] theorem State.setBusy_pc (s : State) (r : RegId) (n : Nat) : (s.setBusy r n).st.pc = s.st.pc := by
  unfold State.setBusy; split <;> simp

@[simp] theorem State.setBusy_s (s : State) (r : RegId) (n : Nat) : (s.setBusy r n).st.s = s.st.s := by
  unfold State.setBusy; split <;> simp

@[simp] theorem State.reserve_st (s : State) (q : Fin 16) (e : QEntry) : (s.reserve q e).st = s.st := by
  rcases s with ⟨k⟩; cases k <;> rfl

theorem State.setReg_reg (s : State) (n m : Fin 32) (v : Word) :
    (s.setReg n v).reg m = if m ≠ 0 ∧ n = m then v else s.reg m := by
  unfold State.setReg State.reg
  by_cases hm : m = 0
  · simp [hm]
  · by_cases hn : n = m
    · subst hn; simp [hm]
    · by_cases h0 : n = 0
      · simp [h0, hm]; intro h; exact absurd h (by omega)
      · simp [hm, hn, h0, Fin.val_ne_of_ne hn]

/-- What a result of fixed latency changes: its register or its queue. -/
theorem State.put_spec (s : State) (o : Opnd) (v : Word) (lat : Nat) :
    s.Quiet (s.put o v lat) ∧ (s.put o v lat).st.l = s.st.l ∧ (s.put o v lat).st.pc = s.st.pc
      ∧ (∀ n : Fin 32, (s.put o v lat).reg n = if n ≠ 0 ∧ o = .s n then v else s.reg n)
      ∧ (∀ n : Fin 32, o = .s n → 1 < lat → (RegId.s n, s.now + lat) ∈ (s.put o v lat).st.busy)
      ∧ ∀ q : Fin 16, (s.put o v lat).bank.q[q] = s.bank.q[q] ++
          (if o = .q q then [s.entry (qValue q v) false (some (max (s.now + lat) s.ownReady)) 0] else []) := by
  cases o with
  | s n =>
    unfold State.put
    refine ⟨(s.setReg_quiet n v).trans (State.setBusy_quiet _ _ _), by simp, by simp, fun m => ?_, fun m h hl => ?_, fun q => by simp⟩
    · rw [State.reg_eq, State.setBusy_s, ← State.reg_eq, State.setReg_reg]; simp
    · injection h with h; subst h
      have hl' : ¬ lat ≤ 1 := by omega
      simp [State.setBusy, hl', (s.setReg_quiet n v).now]
  | q n =>
    unfold State.put
    refine ⟨State.reserve_quiet _ _ _, by simp, by simp, fun m => by simp [State.reg], fun m h => by simp at h, fun q => ?_⟩
    by_cases h : n = q
    · subst h; simp [State.reserve]
    · simp [State.reserve, h, Fin.val_ne_of_ne h]

/-! ## Going on -/

theorem State.goto_quiet (s : State) (n : Nat) : s.Quiet (s.goto n) := State.quiet_setSt rfl

/-- What taking the loops that end at a word gives: the first that repeats, after those before it have ended. -/
theorem endLoops_spec (e : Nat) (order : List (Fin 4)) (ls : Vector Loop 4) :
    (∀ before n behind, order = before ++ n :: behind → (∀ m ∈ before, ¬ ls[m].RepeatsAt e) → ls[n].RepeatsAt e →
      (endLoops e order ls).1 = some ls[n].start.toNat ∧ (endLoops e order ls).2[n] = { ls[n] with count := ls[n].count - 1 } ∧
        (∀ m ∈ before, ls[m].EndsAt e → (endLoops e order ls).2[m] = { ls[m] with count := 0 }) ∧
        ∀ m, m ≠ n → ¬ (m ∈ before ∧ ls[m].EndsAt e) → (endLoops e order ls).2[m] = ls[m]) ∧
    ((∀ m ∈ order, ¬ ls[m].RepeatsAt e) → (endLoops e order ls).1 = none ∧
      (∀ m ∈ order, ls[m].EndsAt e → (endLoops e order ls).2[m] = { ls[m] with count := 0 }) ∧
      ∀ m, ¬ (m ∈ order ∧ ls[m].EndsAt e) → (endLoops e order ls).2[m] = ls[m]) := by
  induction order generalizing ls with
  | nil => exact ⟨fun b n l e => by simp at e, fun _ => ⟨rfl, by simp, fun _ _ => rfl⟩⟩
  | cons k t ih =>
    by_cases hk : ls[k].EndsAt e
    · by_cases h1 : 1 < ls[k].count.toNat
      · have he : endLoops e (k :: t) ls = (some ls[k].start.toNat, ls.set k { ls[k] with count := ls[k].count - 1 }) := by
          simp only [endLoops]; exact (if_pos hk).trans (if_pos h1)
        rw [he]
        refine ⟨fun b n l hb hn hr => ?_, fun h => absurd ⟨hk, h1⟩ (h k (by simp))⟩
        cases b with
        | nil =>
          simp only [List.nil_append, List.cons.injEq] at hb
          obtain ⟨rfl, -⟩ := hb
          refine ⟨rfl, by simp, by simp, fun m hm _ => ?_⟩
          have : k.val ≠ m.val := fun h => hm (Fin.ext h.symm)
          simp [this]
        | cons x b =>
          simp only [List.cons_append, List.cons.injEq] at hb
          exact absurd ⟨hk, h1⟩ (hn k (by simp [hb.1]))
      · have hnr : ¬ ls[k].RepeatsAt e := fun h => h1 h.2
        have he : endLoops e (k :: t) ls = endLoops e t (ls.set k { ls[k] with count := 0 }) := by
          simp only [endLoops]; exact (if_pos hk).trans (if_neg h1)
        have same : ∀ m : Fin 4, m ≠ k → (ls.set k { ls[k] with count := 0 })[m] = ls[m] := fun m hm => by
          have : k.val ≠ m.val := fun h => hm (Fin.ext h.symm)
          simp [this]
        have at_ : (ls.set k { ls[k] with count := 0 })[k] = { ls[k] with count := 0 } := by simp
        have ek : ¬ (ls.set k { ls[k] with count := 0 })[k].EndsAt e := by rw [at_]; exact fun h => h.1 rfl
        rw [he]
        generalize ls.set k { ls[k] with count := 0 } = lt at same at_ ek
        obtain ⟨ia, id⟩ := ih lt
        have ag : ∀ m : Fin 4, ¬ ls[m].RepeatsAt e → ¬ lt[m].RepeatsAt e := fun m h x => by
          by_cases hm : m = k
          · subst hm; exact ek x.1
          · rw [same m hm] at x; exact h x
        refine ⟨fun b n l hb hn hr => ?_, fun h => ?_⟩
        · have hnk : n ≠ k := fun h => by subst h; exact hnr hr
          cases b with
          | nil => simp only [List.nil_append, List.cons.injEq] at hb; exact absurd hb.1.symm hnk
          | cons x b =>
            simp only [List.cons_append, List.cons.injEq] at hb
            obtain ⟨rfl, hb⟩ := hb
            obtain ⟨r1, r2, r3, r4⟩ := ia b n l hb (fun m hm => ag m (hn m (by simp [hm]))) (by rw [same n hnk]; exact hr)
            rw [same n hnk] at r1 r2
            refine ⟨r1, r2, fun m hm he => ?_, fun m hm hno => ?_⟩
            · by_cases hmk : m = k
              · subst hmk
                rw [r4 m (Ne.symm hnk) (fun x => ek x.2), at_]
              · rw [r3 m (by simpa [hmk] using hm) (by rw [same m hmk]; exact he), same m hmk]
            · have hmk : m ≠ k := fun h => by subst h; exact hno ⟨by simp, hk⟩
              rw [r4 m hm (fun x => hno ⟨by simp [x.1], by have := x.2; rwa [same m hmk] at this⟩), same m hmk]
        · obtain ⟨r1, r3, r4⟩ := id (fun m hm => ag m (h m (by simp [hm])))
          refine ⟨r1, fun m hm he => ?_, fun m hno => ?_⟩
          · by_cases hmk : m = k
            · subst hmk
              rw [r4 m (fun x => ek x.2), at_]
            · rw [r3 m (by simpa [hmk] using hm) (by rw [same m hmk]; exact he), same m hmk]
          · have hmk : m ≠ k := fun h => by subst h; exact hno ⟨by simp, hk⟩
            rw [r4 m (fun x => hno ⟨by simp [x.1], by have := x.2; rwa [same m hmk] at this⟩), same m hmk]
    · have he : endLoops e (k :: t) ls = endLoops e t ls := by
        simp only [endLoops]; exact if_neg hk
      rw [he]
      obtain ⟨ia, id⟩ := ih ls
      refine ⟨fun b n l hb hn hr => ?_, fun h => ?_⟩
      · cases b with
        | nil => simp only [List.nil_append, List.cons.injEq] at hb; exact absurd (hb.1 ▸ hr.1) hk
        | cons x b =>
          simp only [List.cons_append, List.cons.injEq] at hb
          obtain ⟨rfl, hb⟩ := hb
          obtain ⟨r1, r2, r3, r4⟩ := ia b n l hb (fun m hm => hn m (by simp [hm])) hr
          refine ⟨r1, r2, fun m hm he => r3 m ?_ he, fun m hm hno => r4 m hm fun x => hno ⟨by simp [x.1], x.2⟩⟩
          have : m ≠ k := fun h => hk (h ▸ he)
          simpa [this] using hm
      · obtain ⟨r1, r3, r4⟩ := id fun m hm => h m (by simp [hm])
        refine ⟨r1, fun m hm he => r3 m ?_ he, fun m hno => r4 m fun x => hno ⟨by simp [x.1], x.2⟩⟩
        have : m ≠ k := fun h => hk (h ▸ he)
        simpa [this] using hm

/-- Going on takes the loops that end at the word (R17). -/
theorem Stream.goneOn_taken (t : Stream) (u : Stream) (h1 : u.pc = (endLoops t.pc t.order t.l).1.getD (t.pc + 1))
    (h2 : u.l = (endLoops t.pc t.order t.l).2) : t.LoopsTaken u := by
  obtain ⟨a, d⟩ := endLoops_spec t.pc t.order t.l
  refine ⟨fun b n l e h k => ?_, fun h => ?_⟩
  · obtain ⟨x1, x2⟩ := a b n l e h k
    rw [h1, h2, x1]; exact ⟨rfl, x2⟩
  · obtain ⟨x1, x2⟩ := d h
    rw [h1, h2, x1]; exact ⟨rfl, x2⟩

/-- Taking the loops looks at their registers, their order and the word alone. -/
theorem Stream.LoopsTaken.congr {t t' u : Stream} (h : t.LoopsTaken u) (h1 : t.l = t'.l) (h2 : t.order = t'.order) (h3 : t.pc = t'.pc) :
    t'.LoopsTaken u := by
  cases t; cases t'
  simp only at h1 h2 h3
  subst h1 h2 h3
  exact ⟨h.again, h.done⟩

/-- What going on to the next word changes. -/
theorem State.finish_spec (s : State) :
    s.Quiet s.finish ∧ s.finish.st.s = s.st.s ∧ s.finish.st.busy = s.st.busy ∧ s.finish.bank.q = s.bank.q ∧ s.Issued s.finish := by
  refine ⟨(State.quiet_setSt (by rfl)).trans (State.goto_quiet _ _), by simp [State.finish, State.goto], by simp [State.finish, State.goto],
    by simp [State.finish, State.goto], ⟨by simp [State.finish, State.goto], by simp [State.finish, State.goto],
      by simp [State.finish, State.goto], s.st.goneOn_taken _ (by simp [State.finish, State.goto]) (by simp [State.finish, State.goto])⟩⟩

/-- The stream as going on to the next word leaves it. -/
def Stream.goneOn (t : Stream) (now : Nat) : Stream :=
  let r := endLoops t.pc t.order t.l
  { t with l := r.2, pc := r.1.getD (t.pc + 1), last := t.pc, bound := now + 1, least := 0, wait := none }

theorem State.finish_eq (s : State) : s.finish = s.setSt (s.st.goneOn s.now) := by
  simp [State.finish, State.goto, Stream.goneOn]

/-- An update that does not touch the stream in hand and going on may change places. -/
theorem State.finish_comm (F : State → State) (s : State) (h1 : (F s).st = s.st) (h2 : (F s).now = s.now)
    (h3 : ∀ t, F (s.setSt t) = (F s).setSt t) : (F s).finish = F s.finish := by
  rw [State.finish_eq, State.finish_eq, h1, h2, h3]

/-- A word that reads `srcs`, writes `v` to `dst` and goes on. -/
theorem State.wrote_finish (s : State) (srcs : List Opnd) (dst : Opnd) (v : Word) (lat : Nat) :
    s.Wrote ((s.after srcs).put dst v lat).finish srcs (some dst) v lat := by
  obtain ⟨a1, a2, a3, a4, a5, a6⟩ := s.after_spec srcs
  obtain ⟨p1, p2, p3, p4, p5, p6⟩ := (s.after srcs).put_spec dst v lat
  obtain ⟨f1, f2, f3, f4, f5⟩ := ((s.after srcs).put dst v lat).finish_spec
  have q := a1.trans (p1.trans f1)
  refine ⟨q, ⟨?_, ?_, f5.wait, f5.next.congr (by rw [p2, a3]) (a1.trans p1).order (by rw [p3, a4])⟩, fun n => ?_, fun n h hl => ?_, fun n => ?_,
    fun a => by rw [q.mem]⟩
  · rw [f5.last, p3, a4]
  · rw [f5.bound, (a1.trans p1).now]
  · rw [State.reg_eq, f2, ← State.reg_eq, p4]
    simp [State.reg, a2]
  · rw [f3, ← a1.now]; exact p5 n (by simpa using h) hl
  · rw [f4, p6, a6, a1.entry, a1.now, a1.ownReady]; simp

/-- A word that reads `srcs`, writes no register, and goes on. -/
theorem State.wrote_none (s : State) (srcs : List Opnd) (v : Word) (lat : Nat) :
    s.Wrote (s.after srcs).finish srcs none v lat := by
  obtain ⟨a1, a2, a3, a4, a5, a6⟩ := s.after_spec srcs
  obtain ⟨f1, f2, f3, f4, f5⟩ := (s.after srcs).finish_spec
  have q := a1.trans f1
  refine ⟨q, ⟨?_, ?_, f5.wait, f5.next.congr a3 a1.order a4⟩, fun n => ?_, fun n h => by simp at h, fun n => ?_, fun a => by rw [q.mem]⟩
  · rw [f5.last, a4]
  · rw [f5.bound, a1.now]
  · simp [State.reg, f2, a2]
  · rw [f4, a6]; simp

theorem State.alu1_wrote {s : State} {d a : Opnd} (h : s.block [a] [d] = none) (lat : Nat) (f : Word → Word) {v : Word}
    (hv : f (s.source [] a) = v) : ∃ t, s.alu1 d a lat f = .next t ∧ s.Wrote t [a] (some d) v lat := by
  refine ⟨_, ?_, State.wrote_finish s [a] d v lat⟩
  rw [← hv, ← State.take_fst, State.alu1, State.guard_none h]
  rfl

theorem State.alu2_wrote {s : State} {d a b : Opnd} (h : s.block [a, b] [d] = none) (lat : Nat) (f : Word → Word → Word) {v : Word}
    (hv : f (s.source [] a) (s.source [a] b) = v) :
    ∃ t, s.alu2 d a b lat f = .next t ∧ s.Wrote t [a, b] (some d) v lat := by
  refine ⟨_, ?_, State.wrote_finish s [a, b] d v lat⟩
  rw [← hv, ← State.take_fst2, ← State.take_fst, State.alu2, State.guard_none h]
  rfl

/-- Writing a condition and going on may change places. -/
theorem State.finish_setCond (s : State) (k : Fin 12) (v : Bool) : (s.setCond k v).finish = s.finish.withCond k v := by
  simp [State.finish, State.goto, State.setCond, State.withCond]

end Sys2Proof.Machine
end

