-- ==== Sys2Proof/Laws/Access.lean ====
section
/-! SUPPORT. What translating and routing an access changes: at most the cached translations. -/

namespace Sys2Proof.Machine

theorem State.xlate_ok {s t : State} {a va : Nat} {rd wr : Bool} {p : Place} (h : s.xlate a va rd wr = .ok (p, t)) :
    ∃ l, t = { s with tlb := l } := by
  unfold State.xlate at h
  cases hc : s.cached a va with
  | none =>
    simp only [hc] at h
    cases hw : s.walk a va with
    | error c => simp [hw] at h
    | ok e =>
      simp only [hw] at h
      by_cases hp : e.allows rd wr
      · simp only [hp, if_true] at h
        split at h
        · simp at h; exact ⟨_, h.2.symm⟩
        · simp at h
      · simp [hp] at h
  | some e =>
    simp only [hc] at h
    by_cases hp : e.allows rd wr
    · simp only [hp, if_true] at h
      split at h
      · simp at h; exact ⟨s.tlb, h.2 ▸ rfl⟩
      · simp at h
    · simp only [hp] at h
      cases hw : s.walk a va with
      | error c => simp [hw] at h
      | ok e' =>
        simp only [hw] at h
        by_cases hq : e'.allows rd wr
        · simp only [hq, if_true] at h
          simp at h
          split at h
          · simp at h; exact ⟨_, h.2.symm⟩
          · simp at h
        · simp [hq] at h

/-- Where no uncorrectable error stands in the bytes of a route, it is the route. -/
theorem State.sound_ok {s : State} {off n : Nat} {r q : Route} (h : s.sound off n r = .ok q) : q = r ∧ s.flawedOwn off n = false := by
  unfold State.sound at h
  split at h
  · cases h
  · rename_i hf; exact ⟨(Except.ok.inj h).symm, by simpa using hf⟩

theorem State.window_own {s : State} {w : Win} {n : Nat} {st ve : Bool} {r : Route} (h : s.window w n st ve = .ok r) :
    (∃ o, r = .own o none) ∨ (∃ o, r = .across o) ∨ ∃ p, r = .away p := by
  unfold State.window at h
  split at h
  · split at h
    · simp at h
    · exact .inl ⟨_, (State.sound_ok h).1⟩
  · split at h
    · exact .inr (.inl ⟨_, (State.sound_ok h).1⟩)
    · injection h with h; exact .inr (.inr ⟨_, h.symm⟩)
  · split at h
    · simp at h
    · injection h with h; exact .inr (.inr ⟨_, h.symm⟩)
  all_goals simp at h

/-- Routing an access changes the cached translations at most, and nothing where it ends in the core's own banks. -/
theorem State.route_ok {s t : State} {va n : Nat} {st ve : Bool} {r : Route} (h : s.route va n st ve = .ok (r, t)) :
    (∃ l, t = { s with tlb := l }) ∧ ∀ o e, r = .own o e → t = s := by
  unfold State.route at h
  split at h
  · split at h
    · dsimp only at h
      split at h
      · simp at h
      · split at h
        · simp at h
        · split at h
          · split at h
            · simp at h
            · injection h with h; injection h with h1 h2
              exact ⟨⟨s.tlb, h2 ▸ rfl⟩, fun _ _ _ => h2.symm⟩
          · split at h
            · simp at h
            · rename_i hx
              injection h with h; injection h with h1 h2
              exact ⟨h2 ▸ State.xlate_ok hx, fun o e hr => by rw [← h1] at hr; simp at hr⟩
    · split at h
      · simp at h
      · rename_i hx
        split at h
        · simp at h
        · injection h with h; injection h with h1 h2
          exact ⟨h2 ▸ State.xlate_ok hx, fun o e hr => by rw [← h1] at hr; simp at hr⟩
  · split at h
    · simp at h
    · injection h with h; injection h with h1 h2
      exact ⟨⟨s.tlb, h2 ▸ rfl⟩, fun _ _ _ => h2.symm⟩

/-- The checks of an atomic access change the cached translations at most. -/
theorem State.atomicCheck_ok {s t : State} {f : AtomicForm} {va : Word} {r : Route} (h : s.atomicCheck f va = .ok (r, t)) :
    (∃ l, t = { s with tlb := l }) ∧ ∀ o e, r = .own o e → t = s := by
  unfold State.atomicCheck at h
  split at h
  · simp at h
  · split at h
    · simp at h
    · unfold State.atomicRoute at h
      generalize (if s.sid = .L then none else s.mapAt va.toNat) = m at h
      split at h
      · split at h
        · simp at h
        · split at h
          · simp at h
          · rename_i hx
            split at h
            · simp at h
            · split at h
              · simp at h
              · injection h with h; injection h with h1 h2
                exact ⟨h2 ▸ State.xlate_ok hx, fun o e hr => by rw [← h1] at hr; simp at hr⟩
      · simp at h
      · split at h
        · split at h <;> simp at h
        · split at h
          · simp at h
          · injection h with h; injection h with h1 h2
            exact ⟨⟨s.tlb, h2 ▸ rfl⟩, fun _ _ _ => h2.symm⟩

end Sys2Proof.Machine
end

