-- ==== Sys2Proof/Laws/Memory.lean ====
section
/-! SUPPORT. The laws of memory: reading after writing, the canonical form, which every operation on memory keeps, and that in it
equal reads are equal data (log 1, DESIGN CHOICE). -/

namespace Sys2Proof.Machine

/-! ## The canonical form -/

/-- The canonical form, entry by entry. -/
theorem Memory.wf_cons (a : Nat) (b : Byte) (m : Memory) :
    Memory.wf ((a, b) :: m) = true ↔ b ≠ 0 ∧ m.wf = true ∧ ∀ p ∈ m, a < p.1 := by
  induction m generalizing a b with
  | nil => simp [Memory.wf]
  | cons p t ih =>
    obtain ⟨c, d⟩ := p
    have hc := (ih c d)
    simp only [Memory.wf, Bool.and_eq_true, decide_eq_true_eq, bne_iff_ne]
    constructor
    · rintro ⟨⟨h, hb⟩, hw⟩
      refine ⟨hb, hw, ?_⟩
      intro q hq
      rcases List.mem_cons.mp hq with rfl | hq
      · exact h
      · exact Nat.lt_trans h ((hc.mp hw).2.2 q hq)
    · rintro ⟨hb, hw, hl⟩
      exact ⟨⟨hl _ List.mem_cons_self, hb⟩, hw⟩

theorem Tbl.get?_below {α : Type} (t : Tbl α) (k : Nat) (h : ∀ p ∈ t, k < p.1) : Tbl.get? t k = none := by
  cases t with
  | nil => rfl
  | cons p t =>
    have := h p List.mem_cons_self
    obtain ⟨a, x⟩ := p
    simp only [Tbl.get?] at *
    rw [if_neg (by omega), if_pos this]

theorem Tbl.mem_put {α : Type} (t : Tbl α) (k : Nat) (y : α) (p : Nat × α) (h : p ∈ Tbl.put t k y) : p = (k, y) ∨ p ∈ t := by
  induction t with
  | nil => simp [Tbl.put] at h; exact .inl h
  | cons q t ih =>
    obtain ⟨a, x⟩ := q
    simp only [Tbl.put] at h
    split at h
    · rcases List.mem_cons.mp h with h | h
      · exact .inl h
      · exact .inr (List.mem_cons_of_mem _ h)
    · split at h
      · rcases List.mem_cons.mp h with h | h
        · exact .inl h
        · exact .inr h
      · rcases List.mem_cons.mp h with h | h
        · exact .inr (h ▸ List.mem_cons_self)
        · rcases ih h with h | h
          · exact .inl h
          · exact .inr (List.mem_cons_of_mem _ h)

theorem Tbl.mem_del {α : Type} (t : Tbl α) (k : Nat) (p : Nat × α) (h : p ∈ Tbl.del t k) : p ∈ t := by
  induction t with
  | nil => simp [Tbl.del] at h
  | cons q t ih =>
    obtain ⟨a, x⟩ := q
    simp only [Tbl.del] at h
    split at h
    · exact List.mem_cons_of_mem _ h
    · split at h
      · exact h
      · rcases List.mem_cons.mp h with h | h
        · exact h ▸ List.mem_cons_self
        · exact List.mem_cons_of_mem _ (ih h)

theorem Memory.wf_put {m : Memory} (h : m.wf = true) (a : Nat) {b : Byte} (hb : b ≠ 0) : Memory.wf (Tbl.put m a b) = true := by
  induction m with
  | nil => simpa [Tbl.put, Memory.wf] using hb
  | cons p t ih =>
    obtain ⟨c, d⟩ := p
    obtain ⟨hd, ht, hl⟩ := (Memory.wf_cons c d t).mp h
    simp only [Tbl.put]
    split
    · next heq => exact (Memory.wf_cons ..).mpr ⟨hb, ht, fun q hq => heq ▸ hl q hq⟩
    · split
      · next hne hlt =>
        refine (Memory.wf_cons ..).mpr ⟨hb, h, fun q hq => ?_⟩
        rcases List.mem_cons.mp hq with rfl | hq
        · exact hlt
        · exact Nat.lt_trans hlt (hl q hq)
      · next hne hlt =>
        refine (Memory.wf_cons ..).mpr ⟨hd, ih ht, fun q hq => ?_⟩
        rcases Tbl.mem_put t a b q hq with rfl | hq
        · show c < a; omega
        · exact hl q hq

theorem Memory.wf_del {m : Memory} (h : m.wf = true) (a : Nat) : Memory.wf (Tbl.del m a) = true := by
  induction m with
  | nil => rfl
  | cons p t ih =>
    obtain ⟨c, d⟩ := p
    obtain ⟨hd, ht, hl⟩ := (Memory.wf_cons c d t).mp h
    simp only [Tbl.del]
    split
    · exact ht
    · split
      · exact h
      · exact (Memory.wf_cons ..).mpr ⟨hd, ih ht, fun q hq => hl q (Tbl.mem_del t a q hq)⟩

/-- A write keeps the canonical form. -/
theorem Memory.wf_write {m : Memory} (h : m.wf = true) (a : Nat) (b : Byte) : (m.write a b).wf = true := by
  unfold Memory.write
  split
  · exact Memory.wf_del h a
  · next hb => exact Memory.wf_put h a hb

theorem Memory.wf_writeN {m : Memory} (h : m.wf = true) (a : Nat) (l : List Byte) : (m.writeN a l).wf = true := by
  induction l generalizing m a with
  | nil => exact h
  | cons b t ih => exact ih (Memory.wf_write h a b) (a + 1)

/-! ## Reading after writing -/

theorem Tbl.get?_put {α : Type} (t : Tbl α) (k : Nat) (y : α) (c : Nat) :
    Tbl.get? (Tbl.put t k y) c = if c = k then some y else Tbl.get? t c := by
  induction t with
  | nil =>
    simp only [Tbl.put, Tbl.get?]
    by_cases h : k = c
    · simp [h]
    · simp [h, Ne.symm h]
  | cons p t ih =>
    obtain ⟨a, x⟩ := p
    simp only [Tbl.put]
    split
    · next heq =>
      subst heq
      simp only [Tbl.get?]
      by_cases h : a = c
      · simp [h]
      · simp [h, Ne.symm h]
    · split
      · next hne hlt =>
        simp only [Tbl.get?]
        by_cases h : k = c
        · subst h; simp
        · by_cases hc : c < k
          · simp only [if_neg h, if_pos hc, if_neg (Ne.symm h)]
            rw [if_neg (by omega), if_pos (by omega)]
          · simp only [if_neg h, if_neg hc, if_neg (Ne.symm h)]
      · next hne hlt =>
        simp only [Tbl.get?, ih]
        by_cases h : a = c
        · subst h; simp [hne]
        · by_cases hc : c < a
          · simp only [if_neg h, if_pos hc]
            rw [if_neg (by omega)]
          · simp only [if_neg h, if_neg hc]

theorem Memory.get?_del {m : Memory} (h : m.wf = true) (k c : Nat) : Tbl.get? (Tbl.del m k) c = if c = k then none else Tbl.get? m c := by
  induction m with
  | nil => simp [Tbl.del, Tbl.get?]
  | cons p t ih =>
    obtain ⟨a, x⟩ := p
    obtain ⟨hx, ht, hl⟩ := (Memory.wf_cons a x t).mp h
    simp only [Tbl.del]
    split
    · next heq =>
      subst heq
      by_cases hc : c = a
      · subst hc; simp [Tbl.get?_below t c hl]
      · simp only [if_neg hc, Tbl.get?, if_neg (Ne.symm hc)]
        split
        · next hlt => exact Tbl.get?_below t c fun q hq => Nat.lt_trans hlt (hl q hq)
        · rfl
    · split
      · next hne hlt =>
        by_cases hc : c = k
        · subst hc; simp [Tbl.get?, hne, hlt]
        · simp [hc]
      · next hne hlt =>
        simp only [Tbl.get?, ih ht]
        by_cases h : a = c
        · subst h; simp [hne]
        · by_cases hc : c < a
          · simp [h, hc]
          · simp only [if_neg h, if_neg hc]

/-- Reading after a write of one byte. -/
theorem Memory.read_write {m : Memory} (h : m.wf = true) (a : Nat) (b : Byte) (c : Nat) :
    (m.write a b).read c = if c = a then b else m.read c := by
  unfold Memory.write Memory.read Tbl.get
  split
  · next hb => rw [Memory.get?_del h, hb]; split <;> rfl
  · rw [Tbl.get?_put]; split <;> rfl

/-- Reading after a write of several bytes. -/
theorem Memory.read_writeN {m : Memory} (h : m.wf = true) (a : Nat) (l : List Byte) (c : Nat) :
    (m.writeN a l).read c = if a ≤ c ∧ c < a + l.length then l.getD (c - a) 0 else m.read c := by
  induction l generalizing m a with
  | nil => rw [if_neg (by simp only [List.length_nil]; omega)]; rfl
  | cons b t ih =>
    simp only [Memory.writeN]
    rw [ih (Memory.wf_write h a b), Memory.read_write h]
    simp only [List.length_cons]
    by_cases h1 : c = a
    · subst h1
      rw [if_neg (by omega), if_pos rfl, if_pos (by omega)]
      simp
    · rw [if_neg h1]
      by_cases h2 : a + 1 ≤ c ∧ c < a + 1 + t.length
      · rw [if_pos h2, if_pos (by omega)]
        obtain ⟨n, rfl⟩ := Nat.exists_eq_add_of_le h2.1
        have e1 : a + 1 + n - (a + 1) = n := by omega
        have e2 : a + 1 + n - a = n + 1 := by omega
        simp [e1, e2]
      · rw [if_neg h2, if_neg (by omega)]

theorem Memory.readN_length (m : Memory) (a n : Nat) : (m.readN a n).length = n := by
  induction n generalizing a with
  | zero => rfl
  | succ n ih => simp [Memory.readN, ih]

/-- The bytes read, one by one. -/
theorem Memory.readN_get (m : Memory) (a n i : Nat) (h : i < n) : (m.readN a n)[i]? = some (m.read (a + i)) := by
  induction n generalizing a i with
  | zero => omega
  | succ n ih =>
    cases i with
    | zero => rfl
    | succ i =>
      simp only [Memory.readN, List.getElem?_cons_succ]
      rw [ih (a + 1) i (by omega)]
      congr 2
      omega

/-- A part of the bytes read. -/
theorem Memory.readN_drop_take (m : Memory) (a n o k : Nat) (h : o + k ≤ n) : ((m.readN a n).drop o).take k = m.readN (a + o) k := by
  apply List.ext_getElem?
  intro i
  by_cases hi : i < k
  · rw [List.getElem?_take_of_lt hi, List.getElem?_drop, Memory.readN_get m a n _ (by omega), Memory.readN_get m _ k i hi, Nat.add_assoc]
  · rw [List.getElem?_eq_none (by simp [Memory.readN_length]; omega), List.getElem?_eq_none (by simp [Memory.readN_length]; omega)]

theorem State.homeRead_length (s : State) (p : Place) (n : Nat) : (s.homeRead p n).length = n := by
  induction n generalizing p with
  | zero => rfl
  | succ n ih => simp [State.homeRead, ih]

theorem Place.add_add (p : Place) (m n : Nat) : (p.add m).add n = p.add (m + n) := by simp [Place.add, Nat.add_assoc]

/-- The bytes read at home, one by one. -/
theorem State.homeRead_get (s : State) (p : Place) (n i : Nat) (h : i < n) : (s.homeRead p n)[i]? = some (s.homeByte (p.add i)) := by
  induction n generalizing p i with
  | zero => omega
  | succ n ih =>
    cases i with
    | zero => rfl
    | succ i =>
      simp only [State.homeRead, List.getElem?_cons_succ]
      rw [ih (p.add 1) i (by omega), Place.add_add, Nat.add_comm 1 i]

/-- A part of the bytes read at home. -/
theorem State.homeRead_drop_take (s : State) (p : Place) (n o k : Nat) (h : o + k ≤ n) :
    ((s.homeRead p n).drop o).take k = s.homeRead (p.add o) k := by
  apply List.ext_getElem?
  intro i
  by_cases hi : i < k
  · rw [List.getElem?_take_of_lt hi, List.getElem?_drop, State.homeRead_get s p n _ (by omega), State.homeRead_get s _ k i hi, Place.add_add]
  · rw [List.getElem?_eq_none (by simp [State.homeRead_length]; omega), List.getElem?_eq_none (by simp [State.homeRead_length]; omega)]

/-- In the canonical form, memories that read alike are equal. -/
theorem Memory.ext {m k : Memory} (hm : m.wf = true) (hk : k.wf = true) (h : ∀ a, m.read a = k.read a) : m = k := by
  induction m generalizing k with
  | nil =>
    cases k with
    | nil => rfl
    | cons q u =>
      obtain ⟨c, d⟩ := q
      have := h c
      simp [Memory.read, Tbl.get, Tbl.get?] at this
      exact absurd this.symm ((Memory.wf_cons c d u).mp hk).1
  | cons p t ih =>
    obtain ⟨a, b⟩ := p
    obtain ⟨hb, ht, hl⟩ := (Memory.wf_cons a b t).mp hm
    cases k with
    | nil =>
      have := h a
      simp [Memory.read, Tbl.get, Tbl.get?] at this
      exact absurd this hb
    | cons q u =>
      obtain ⟨c, d⟩ := q
      obtain ⟨hd, hu, hlu⟩ := (Memory.wf_cons c d u).mp hk
      have hac : a = c := by
        rcases Nat.lt_trichotomy a c with hlt | heq | hlt
        · have := h a
          simp [Memory.read, Tbl.get, Tbl.get?, Nat.ne_of_gt hlt, hlt] at this
          exact absurd this hb
        · exact heq
        · have := h c
          simp [Memory.read, Tbl.get, Tbl.get?, Nat.ne_of_gt hlt, hlt] at this
          exact absurd this.symm hd
      subst hac
      have hbd : b = d := by
        have := h a
        simpa [Memory.read, Tbl.get, Tbl.get?] using this
      subst hbd
      have : t = u := ih ht hu fun x => by
        by_cases hx : a < x
        · have := h x
          simpa [Memory.read, Tbl.get, Tbl.get?, Nat.ne_of_lt hx, Nat.not_lt_of_gt hx] using this
        · have e1 : Tbl.get? t x = none := Tbl.get?_below t x fun q hq => Nat.lt_of_le_of_lt (Nat.le_of_not_lt hx) (hl q hq)
          have e2 : Tbl.get? u x = none := Tbl.get?_below u x fun q hq => Nat.lt_of_le_of_lt (Nat.le_of_not_lt hx) (hlu q hq)
          simp [Memory.read, Tbl.get, e1, e2]
      rw [this]

/-! ## The operations on memory keep the form -/

theorem Memory.wf_writeCells {m : Memory} (h : m.wf = true) (core : Nat) (l : List OwnCell) : (m.writeCells core l).wf = true := by
  induction l generalizing m with
  | nil => exact h
  | cons p t ih => exact ih (Memory.wf_write h _ _)

theorem commitEarly_wf (core : Nat) (due : Early → Bool) (kept l : List Early) {m : Memory} (h : m.wf = true) :
    (commitEarly core due kept l m).2.wf = true := by
  induction l generalizing kept m with
  | nil => exact h
  | cons e t ih =>
    unfold commitEarly
    split
    · exact ih _ (Memory.wf_writeCells h core _)
    · exact ih _ h

theorem Memory.wf_foldl_write {m : Memory} (h : m.wf = true) (l : List Nat) (f : Memory → Nat → Byte) :
    (l.foldl (fun m a => m.write a (f m a)) m).wf = true := by
  induction l generalizing m with
  | nil => exact h
  | cons a t ih => exact ih (Memory.wf_write h _ _)

/-- Bytes that a run of writes does not name stay. -/
theorem Memory.read_foldl_write {m : Memory} (h : m.wf = true) (l : List Nat) (f : Memory → Nat → Byte) (c : Nat) (hc : c ∉ l) :
    (l.foldl (fun m a => m.write a (f m a)) m).read c = m.read c := by
  induction l generalizing m with
  | nil => rfl
  | cons a t ih =>
    rw [List.foldl_cons, ih (Memory.wf_write h _ _) fun x => hc (List.mem_cons_of_mem _ x), Memory.read_write h,
      if_neg fun x => hc (by rw [x]; exact List.mem_cons_self ..)]

theorem mem_upFrom (a n c : Nat) : c ∈ upFrom a n ↔ a ≤ c ∧ c < a + n := by
  induction n generalizing a with
  | zero => simp [upFrom]
  | succ n ih => simp only [upFrom, List.mem_cons, ih]; omega

theorem State.rekey_wf {s : State} (h : s.mem.wf = true) (p : Place) : (s.rekey p).mem.wf = true := by
  unfold State.rekey
  split
  · exact h
  · dsimp only
    split
    · split
      · exact h
      · exact Memory.wf_foldl_write h _ _
    · exact h

/-- Encrypting a unit again changes no byte outside it, and none at a home but HBM. -/
theorem State.rekey_read {s : State} (h : s.mem.wf = true) (p : Place) (a : Nat) (ha : p.home = 0 → a / 64 ≠ p.pa / 64) :
    (s.rekey p).mem.read a = s.mem.read a := by
  unfold State.rekey
  split
  · rfl
  · rename_i hp
    have hu := ha (by simpa using hp)
    dsimp only
    split
    · split
      · rfl
      · exact Memory.read_foldl_write h _ _ _ fun x => hu (by have := (mem_upFrom _ _ _).mp x; omega)
    · rfl

theorem State.homePut_wf {s : State} (h : s.mem.wf = true) (p : Place) (l : List Byte) : (s.homePut p l).mem.wf = true := by
  induction l generalizing s p with
  | nil => exact h
  | cons b t ih => exact ih (s := { s.rekey p with mem := (s.rekey p).mem.write p.loc b }) (Memory.wf_write (State.rekey_wf h p) _ _) (p.add 1)

theorem State.partialUpdate_mem (s : State) (b : Nat) (e : DirEntry) (d : DSlot) (bytes : List Byte) (k n : Nat) :
    (s.partialUpdate b e d bytes k n).mem = s.mem := by
  unfold State.partialUpdate; split <;> rfl

/-- Updating digest slots changes no byte. -/
theorem State.digestWrite_mem (s : State) (p : Place) (n nib : Nat) (whole : Bool) : (s.digestWrite p n nib whole).mem = s.mem := by
  unfold State.digestWrite
  dsimp only
  generalize List.eraseDups (α := Nat) _ = l
  induction l generalizing s with
  | nil => rfl
  | cons b t ih =>
    rw [List.foldl_cons, ih]
    split
    · split
      · rfl
      · split <;> exact State.partialUpdate_mem ..
    · rfl

theorem State.homeStore_mem (s : State) (p : Place) (l : List Byte) (nib : Nat) (whole : Bool) :
    (s.homeStore p l nib whole).mem = (s.homePut p l).mem := by
  unfold State.homeStore
  dsimp only
  split
  · exact State.digestWrite_mem ..
  · rfl

theorem State.homeWrite_mem (s : State) (p : Place) (l : List Byte) (whole : Bool) : (s.homeWrite p l whole).mem = (s.homePut p l).mem :=
  State.homeStore_mem ..

/-- The bytes of a place follow one another. -/
theorem Place.loc_add (p : Place) (n : Nat) : (p.add n).loc = p.loc + n := by
  unfold Place.loc Place.add
  dsimp only
  split
  · omega
  · split
    · omega
    · split <;> omega

theorem Place.loc_home (p : Place) (h : p.home = 0) : p.loc = p.pa := by simp [Place.loc, h]

/-- A store at a home that is not HBM, byte by byte. -/
theorem State.homePut_read {s : State} (h : s.mem.wf = true) (p : Place) (l : List Byte) (a : Nat) (hp : p.home ≠ 0) :
    (s.homePut p l).mem.read a = if p.loc ≤ a ∧ a < p.loc + l.length then l.getD (a - p.loc) 0 else s.mem.read a := by
  have : (s.homePut p l).mem = s.mem.writeN p.loc l := by
    clear h
    induction l generalizing s p with
    | nil => rfl
    | cons b t ih =>
      have e : s.rekey p = s := by simp [State.rekey, hp]
      have := ih (s := { s with mem := s.mem.write p.loc b }) (p.add 1) hp
      rw [Place.loc_add] at this
      unfold State.homePut
      rw [e]
      exact this
  rw [this, Memory.read_writeN h]

/-- A store in HBM leaves every byte as it was whose 64-byte unit it does not touch. -/
theorem State.homePut_far {s : State} (h : s.mem.wf = true) (p : Place) (l : List Byte) (a : Nat) (hp : p.home = 0)
    (ha : ∀ i, i < l.length → a / 64 ≠ (p.pa + i) / 64) : (s.homePut p l).mem.read a = s.mem.read a := by
  induction l generalizing s p with
  | nil => rfl
  | cons b t ih =>
    have h0 := ha 0 (by simp)
    have := ih (s := { s.rekey p with mem := (s.rekey p).mem.write p.loc b }) (Memory.wf_write (State.rekey_wf h p) _ _) (p.add 1) hp
      fun i hi => by simpa [Place.add, Nat.add_assoc, Nat.add_comm 1 i] using ha (i + 1) (by simpa using hi)
    rw [State.homePut]
    dsimp only at this ⊢
    rw [this, Memory.read_write (State.rekey_wf h p), Place.loc_home p hp, if_neg (by intro e; subst e; exact h0 rfl),
      State.rekey_read h p a fun _ => by simpa using h0]

/-- The byte that a store has put at a place is read there. -/
theorem State.homePut_byte {s : State} (h : s.mem.wf = true) (p : Place) (b : Byte) : (s.homePut p [b]).homeByte p = b := by
  have hw := Memory.read_write (State.rekey_wf h p) p.loc b p.loc
  by_cases hp : p.home = 0
  · have ht : Tbl.get? (s.rekey p).tags (p.pa / 64) = some (p.slot, p.gen) := by
      unfold State.rekey
      rw [if_neg (by simp [hp])]
      dsimp only
      split
      · rename_i t ht
        split
        · rename_i e; rw [← e]; exact ht
        · simp [Tbl.get?_put]
      · simp [Tbl.get?_put]
    rw [Place.loc_home p hp] at hw
    simp [State.homePut, State.homeByte, hp, ht, Place.loc_home p hp, hw]
  · simp [State.homePut, State.homeByte, hp, hw]

theorem State.homeWrite_wf {s : State} (h : s.mem.wf = true) (p : Place) (l : List Byte) (whole : Bool) :
    (s.homeWrite p l whole).mem.wf = true := by
  rw [State.homeWrite_mem]; exact State.homePut_wf h p l

theorem State.expose_wf {s : State} (h : s.mem.wf = true) : s.expose.mem.wf = true := commitEarly_wf _ _ _ _ h

theorem State.exposeAll_wf {s : State} (h : s.mem.wf = true) : s.exposeAll.mem.wf = true := commitEarly_wf _ _ _ _ h

theorem State.loadParts_wf {s : State} (h : s.mem.wf = true) (at_ : Nat) (l : List (Nat × Nat)) : (s.loadParts at_ l).mem.wf = true := by
  induction l generalizing s at_ with
  | nil => exact h
  | cons p t ih => obtain ⟨off, n⟩ := p; exact ih (Memory.wf_writeN h _ _) _

/-- Memory at reset has the form. -/
theorem State.reset_wf : State.reset.mem.wf = true := rfl

end Sys2Proof.Machine
end

