-- ==== Sys2Proof/Laws/Sending.lean ====
section
/-! SUPPORT. What sending an access into its lane does: one law for every word that sends one. -/

namespace Sys2Proof.Machine

/-- What a destination that waits changes: nothing, or its queue has one entry more under the ticket. -/
theorem State.await_spec (s : State) (o : Opnd) (n : Nat) :
    s.Quiet (s.await o n) ∧ (s.await o n).st = s.st ∧ ∀ q : Fin 16, (s.await o n).bank.q[q] = s.bank.q[q] ++
      (if o = .q q then [s.entry 0 false none n] else []) := by
  cases o with
  | s k => exact ⟨.refl s, rfl, fun q => by simp [State.await]⟩
  | q k =>
    unfold State.await
    refine ⟨State.reserve_quiet _ _ _, by cases h : s.sid <;> simp [State.st, State.reserve, h], fun q => ?_⟩
    by_cases h : k = q
    · subst h; simp [State.reserve]
    · simp [State.reserve, h, Fin.val_ne_of_ne h]

/-- The destinations `l` wait under ticket `n`. -/
def State.awaits (s : State) (l : List Opnd) (n : Nat) : State := l.foldl (fun u d => u.await d n) s

theorem State.awaits_spec (s : State) (l : List Opnd) (n : Nat) :
    s.Quiet (s.awaits l n) ∧ (s.awaits l n).st = s.st ∧
      ∀ q : Fin 16, (s.awaits l n).bank.q[q] = s.bank.q[q] ++ List.replicate (l.count (.q q)) (s.entry 0 false none n) := by
  induction l generalizing s with
  | nil => exact ⟨.refl s, rfl, fun q => by simp [State.awaits]⟩
  | cons o t ih =>
    obtain ⟨h1, h2, h3⟩ := s.await_spec o n
    obtain ⟨k1, k2, k3⟩ := ih (s.await o n)
    refine ⟨h1.trans k1, k2.trans h2, fun q => ?_⟩
    have e : s.awaits (o :: t) n = (s.await o n).awaits t n := rfl
    rw [e, k3, h3, h1.entry]
    by_cases h : o = .q q
    · simp [h, List.replicate_succ]
    · simp [h]

/-- The state with other translations kept, accesses in flight and their count. -/
def State.withLanes (s : State) (l : List TlbEntry) (f : List Access) (n : Nat) : State := { s with tlb := l, flight := f, issued := n }

theorem State.withLanes_st (s : State) (l : List TlbEntry) (f : List Access) (n : Nat) : (s.withLanes l f n).st = s.st := by
  cases h : s.sid <;> simp [State.st, State.withLanes, h]

theorem State.withLanes_finish (s : State) (l : List TlbEntry) (f : List Access) (n : Nat) :
    (s.withLanes l f n).finish = s.finish.withLanes l f n :=
  State.finish_comm (fun s => s.withLanes l f n) s (s.withLanes_st l f n) (by cases h : s.sid <;> simp [State.now, State.withLanes, h])
    fun t => by cases h : s.sid <;> simp [State.setSt, State.withLanes, h]

theorem State.Issued.withLanes {s t : State} (h : s.Issued t) (l : List TlbEntry) (f : List Access) (n : Nat) : s.Issued (t.withLanes l f n) := by
  have e := t.withLanes_st l f n
  exact ⟨by rw [e]; exact h.last, by rw [e]; exact h.bound, by rw [e]; exact h.wait, by rw [e]; exact h.next⟩

/-- A word that has read `srcs`, makes `dsts` wait, sends an access into its lane and goes on. -/
theorem State.send_sent (s : State) (srcs dsts : List Opnd) (x : Access) (l : List TlbEntry) (h1 : x.agent = s.agent)
    (h2 : x.ord = s.issued) (h3 : x.epc = s.st.pc) (h4 : x.fail = none) :
    s.Sent (((s.after srcs).awaits dsts s.issued).withLanes l (s.flight ++ [x]) (s.issued + 1)).finish srcs dsts x := by
  obtain ⟨a1, a2, a3, a4, a5, a6⟩ := s.after_spec srcs
  obtain ⟨w1, w2, w3⟩ := (s.after srcs).awaits_spec dsts s.issued
  obtain ⟨f1, f2, f3, f4, f5⟩ := ((s.after srcs).awaits dsts s.issued).finish_spec
  have q := a1.trans (w1.trans f1)
  rw [State.withLanes_finish]
  refine ⟨rfl, rfl, ?_, State.Issued.withLanes ⟨?_, ?_, f5.wait,
    f5.next.congr (by rw [w2, a3]) (a1.trans w1).order (by rw [w2, a4])⟩ .., ?_, fun n => ?_, fun a => ?_, h1, h2, h3, h4⟩
  · have e : ∀ u : State, s.Quiet u → { u.withLanes l (s.flight ++ [x]) (s.issued + 1) with flight := s.flight, issued := s.issued, tlb := s.tlb } = u := by
      intro u hu
      have e1 : u.flight = s.flight := by simpa [State.quiet] using congrArg State.flight hu
      have e2 : u.tlb = s.tlb := by simpa [State.quiet] using congrArg State.tlb hu
      rw [← e1, ← e2, ← hu.issued]; rfl
    rw [e _ q]; exact q
  · rw [f5.last, w2, a4]
  · rw [f5.bound, (a1.trans w1).now]
  · rw [State.withLanes_st, f2, w2, a2]
  · show ((s.after srcs).awaits dsts s.issued).finish.bank.q[n] = _
    rw [f4, w3, a6, a1.entry]
  · show ((s.after srcs).awaits dsts s.issued).finish.mem.read a = _
    rw [q.mem]

/-- `State.send` is such an update. -/
theorem State.send_eq (s : State) (cls va : Nat) (req : Req) (dest : Dest) (todo : List Piece) (got : List (Nat × List Byte))
    (sc : Option (Scope × Option Nat)) (undo : List (Fin 16 × QEntry)) :
    ∃ x, s.send cls va req dest todo got sc undo = s.withLanes s.tlb (s.flight ++ [x]) (s.issued + 1) ∧ x.agent = s.agent ∧ x.ord = s.issued ∧
      x.epc = s.st.pc ∧ x.fail = none ∧ x.cls = cls ∧ x.req = req ∧ x.dest = dest ∧ x.todo = todo ∧ x.got = got ∧ x.sc = sc :=
  ⟨_, rfl, rfl, rfl, rfl, rfl, rfl, rfl, rfl, rfl, rfl, rfl⟩

end Sys2Proof.Machine
end

