-- ==== Sys2Proof/Laws/Vector.lean ====
section
/-! SUPPORT. What the shared operation of the vector words does, and the laws of packed elements. -/

namespace Sys2Proof.Machine

/-! ## Packed elements -/

/-- Element `i` of `n` packed elements is what `f` gives for it. -/
theorem packElems_elem (w : Nat) (f : Nat → Nat × Flags) (n k i : Nat) (h : i < n) :
    (packElems w f n k).1 / 2 ^ (i * w) % 2 ^ w = (f (k + i)).1 % 2 ^ w := by
  induction n generalizing k i with
  | zero => omega
  | succ n ih =>
    unfold packElems
    cases i with
    | zero => simp [Nat.add_mul_mod_self_left]
    | succ i =>
      have e : (i + 1) * w = w + i * w := by rw [Nat.succ_mul, Nat.add_comm]
      have hm : (f k).1 % 2 ^ w / 2 ^ w = 0 := Nat.div_eq_of_lt (Nat.mod_lt _ (Nat.two_pow_pos w))
      have hd : ((f k).1 % 2 ^ w + 2 ^ w * (packElems w f n (k + 1)).1) / 2 ^ w = (packElems w f n (k + 1)).1 := by
        rw [Nat.add_mul_div_left _ _ (Nat.two_pow_pos w), hm, Nat.zero_add]
      simp only []
      rw [e, Nat.pow_add, ← Nat.div_div_eq_div_mul, hd, ih (k + 1) i (by omega)]
      congr 3; omega

/-- The flags of packed elements are those of every element. -/
theorem packElems_flags (w : Nat) (f : Nat → Nat × Flags) (n k b : Nat) :
    (packElems w f n k).2.getLsbD b = true ↔ ∃ i, k ≤ i ∧ i < k + n ∧ (f i).2.getLsbD b = true := by
  induction n generalizing k with
  | zero => simp [packElems]; omega
  | succ n ih =>
    unfold packElems
    simp only [BitVec.getLsbD_or, Bool.or_eq_true, ih]
    constructor
    · rintro (h | ⟨i, h1, h2, h3⟩)
      · exact ⟨k, by omega, by omega, h⟩
      · exact ⟨i, by omega, by omega, h3⟩
    · rintro ⟨i, h1, h2, h3⟩
      by_cases e : i = k
      · subst e; exact .inl h3
      · exact .inr ⟨i, by omega, by omega, h3⟩

/-- An element as the words see it and as the statements name it. -/
theorem State.elem_toNat (s : State) (w : Nat) (n : Fin 64) (i : Nat) : (s.elem w n i).toNat = elemAt w (s.vreg n) i := by
  simp [State.elem, elemAt, State.vreg, BitVec.extractLsb', Nat.shiftRight_eq_div_pow]

theorem State.el_eq (s : State) (t : Ty) (n : Fin 64) (i : Nat) : s.el t n i = (s.elem t.bits n i).toNat := (s.elem_toNat ..).symm

theorem Ty.bits_pos (t : Ty) : 0 < t.bits := by cases t <;> decide

theorem State.enabled_iff (s : State) (mk : Bool) (i : Nat) : s.enabled mk i = true ↔ s.partakes mk i := by
  cases mk <;> simp [State.enabled, State.partakes, State.topMask]

/-- An element of a register packed anew. -/
theorem elemAt_packed (w n : Nat) (f : Nat → Nat × Flags) (i : Nat) (h : i < n) (hn : n * w ≤ 4096) :
    elemAt w (BitVec.ofNat 4096 (packElems w f n 0).1) i = (f i).1 % 2 ^ w := by
  have hb : i * w + w ≤ 4096 := by
    have := Nat.mul_le_mul_right w h
    rw [Nat.succ_mul] at this; omega
  have e := packElems_elem w f n 0 i h
  rw [Nat.zero_add] at e
  rw [← e, elemAt, BitVec.toNat_ofNat]
  have p : (2 : Nat) ^ 4096 = 2 ^ (i * w) * 2 ^ (4096 - i * w) := by rw [← Nat.pow_add]; congr 1; omega
  rw [p, Nat.mod_mul_right_div_self, Nat.mod_mod_of_dvd _ (Nat.pow_dvd_pow 2 (by omega))]

/-! ## Other vector state -/

@[simp] theorem State.withVec_st (s : State) (x : VecState) : (s.withVec x).st = s.st := by
  rcases s with ⟨k⟩; cases k <;> rfl

@[simp] theorem State.withVec_vec (s : State) (x : VecState) : (s.withVec x).bank.vec = x := rfl

@[simp] theorem State.withVec_withVec (s : State) (x y : VecState) : (s.withVec x).withVec y = s.withVec y := rfl

@[simp] theorem State.withVec_self (s : State) : s.withVec s.bank.vec = s := rfl

/-- Other vector state and going on may change places. -/
theorem State.withVec_finish (s : State) (x : VecState) : (s.withVec x).finish = s.finish.withVec x := by
  refine State.finish_comm (State.withVec · x) s (by simp) ?_ fun t => ?_
  · rcases s with ⟨k⟩; cases k <;> rfl
  · rcases s with ⟨k⟩; cases k <;> rfl

theorem State.Quiet.vec {s t : State} (h : s.Quiet t) : t.bank.vec = s.bank.vec := by
  have := congrArg (fun x => x.bank.vec) h
  simpa [State.quiet] using this

/-! ## Elementwise words -/

/-- A word that reads `srcs`, writes no scalar register, has one register on its way, and goes on. -/
theorem State.wrote_busy (s : State) (srcs : List Opnd) (r : RegId) (n : Nat) (v : Word) (lat : Nat) :
    s.Wrote (((s.after srcs).setBusy r n).finish) srcs none v lat := by
  obtain ⟨a1, a2, a3, a4, a5, a6⟩ := s.after_spec srcs
  have b1 := (s.after srcs).setBusy_quiet r n
  obtain ⟨f1, f2, f3, f4, f5⟩ := ((s.after srcs).setBusy r n).finish_spec
  have q := a1.trans (b1.trans f1)
  refine ⟨q, ⟨?_, ?_, f5.wait, f5.next.congr (by rw [State.setBusy_l, a3]) (a1.trans b1).order (by rw [State.setBusy_pc, a4])⟩, fun m => ?_, fun m h => by simp at h, fun m => ?_, fun a => by rw [q.mem]⟩
  · rw [f5.last, State.setBusy_pc, a4]
  · rw [f5.bound, (a1.trans b1).now]
  · simp [State.reg, f2, a2]
  · rw [f4, State.setBusy_q, a6]; simp

/-- Writing a vector register and raising flags is other vector state, with the register on its way. -/
theorem State.setVec_raise {s : State} {x : VecState} (h : s.bank.vec = x) (vd : Fin 64) (v : VecReg) (lat : Nat) (fl : Flags) :
    (s.setVec vd v lat).raiseFlags fl = (s.setBusy (.v (x.phys vd)) lat).withVec
      { x with v := x.v.set (x.phys vd) v, vflags := x.vflags ||| fl } := by
  subst h
  unfold State.setVec State.setBusy
  split <;> (rcases s with ⟨k⟩; cases k <;> rfl)

/-- What a word does that computes a vector register element by element from state in which its sources are read. -/
theorem State.vector_wrote (s : State) (srcs : List Opnd) (t : Ty) (mk : Bool) (vd : Fin 64) (lat : Nat) (f : Nat → Nat × Flags)
    (hl : 1 < lat) :
    s.WroteVec ((((s.after srcs).setVec vd (s.mapped t mk vd f).1 lat).raiseFlags (s.mapped t mk vd f).2).finish) srcs none 0 t.bits
      false mk vd lat fun i => (BitVec.ofNat t.bits (f i).1, (f i).2) := by
  have hv := (s.after_spec srcs).1.vec
  have hnow := (s.after_spec srcs).1.now
  generalize hr : s.mapped t mk vd f = r
  have hw := Ty.bits_pos t
  have hel : ∀ i, i < 4096 / t.bits → elemAt t.bits r.1 i =
      (if s.enabled mk i then (f i).1 else elemAt t.bits (s.vreg vd) i) % 2 ^ t.bits := by
    intro i hi
    rw [← hr]
    refine (elemAt_packed t.bits (count t) _ i hi (Nat.div_mul_le_self ..)).trans ?_
    split <;> rfl
  rw [State.setVec_raise hv, State.withVec_finish]
  have wr := State.wrote_busy s srcs (.v (s.bank.vec.phys vd)) lat 0 lat
  refine ⟨?_, rfl, ?_, ?_, ?_, ?_, fun _ => rfl, fun i => by simp [State.lane], ?_⟩
  · rw [State.withVec_withVec]
    have e := State.withVec_self ((s.after srcs).setBusy (.v (s.bank.vec.phys vd)) lat).finish
    rw [wr.quiet.vec] at e
    rw [e]; exact wr
  · intro x hx
    simp [Fin.val_ne_of_ne (Ne.symm hx)]
  · intro i hi ho
    apply BitVec.eq_of_toNat_eq
    rw [State.elem_toNat]
    have e := hel i hi
    rw [if_pos ((s.enabled_iff mk i).2 ho)] at e
    simp only [State.vreg, VecState.phys] at e ⊢
    simpa using e
  · intro i hi ho
    apply BitVec.eq_of_toNat_eq
    rw [State.elem_toNat, State.elem_toNat]
    have e := hel i hi
    rw [if_neg fun h => ho ((s.enabled_iff mk i).1 h)] at e
    have hold : elemAt t.bits (s.vreg vd) i % 2 ^ t.bits = elemAt t.bits (s.vreg vd) i := Nat.mod_mod _ _
    rw [hold] at e
    rw [← e]
    simp [State.vreg, VecState.phys]
  · intro k _
    simp only [State.withVec_vec, BitVec.getLsbD_or, Bool.or_eq_true]
    apply or_congr_right
    rw [← hr]
    simp only [State.mapped, packElems_flags, Nat.zero_add, Nat.zero_le, true_and]
    constructor
    · rintro ⟨i, h1, h2⟩
      by_cases h : s.enabled mk i = true
      · exact ⟨i, h1, (s.enabled_iff mk i).1 h, by simpa [h] using h2⟩
      · simp [h] at h2
    · rintro ⟨i, h1, h2, h3⟩
      exact ⟨i, h1, by simpa [(s.enabled_iff mk i).2 h2] using h3⟩
  · have hlat : ¬ lat ≤ 1 := by omega
    rw [State.withVec_st, (State.finish_spec _).2.2.1]
    simp [State.setBusy, hlat, hnow]

end Sys2Proof.Machine
end

