-- ==== Sys2Proof/Machine/Tools.lean ====
section
/-! DEFINITION. What the tools skas and skld write into a file, from directives that are already read: constant expressions (R64),
data (R73, R74), declarations and records (R75 to R78), relocations (R88 to R90). Linker.lean joins objects. The reading of
source text is no part of the machine. Instruction words are built by `encode` in Decode.lean (R66). -/

namespace Sys2Proof.Machine

/-! ## Constant expressions (R64) -/

/-- A constant expression. A symbol is given by its place among the definitions of the file. -/
inductive ConstExpr where
  | num (v : Word)
  | sym (i : Nat)
  | neg (x : ConstExpr)
  | compl (x : ConstExpr)
  | mul (x y : ConstExpr)
  | div (x y : ConstExpr)
  | rem (x y : ConstExpr)
  | add (x y : ConstExpr)
  | sub (x y : ConstExpr)
  | shl (x y : ConstExpr)
  | shr (x y : ConstExpr)
  | and (x y : ConstExpr)
  | xor (x y : ConstExpr)
  | or (x y : ConstExpr)
  | lo24 (x : ConstExpr)
  | hi40 (x : ConstExpr)
  deriving DecidableEq, Repr

/-- Two values, where both are there. -/
def bothOf (x y : Option Word) (f : Word → Word → Option Word) : Option Word :=
  match x, y with
  | some a, some b => f a b
  | _, _ => none

/-- The value of an expression in 64-bit two's complement; none where it is refused: a division by zero, a shift count outside 0 to 63, or a symbol
that `env`, the symbols defined earlier in the file, does not hold as an absolute one (R64, R72). -/
def ConstExpr.value (env : List (Option Word) := []) : ConstExpr → Option Word
  | .num v => some v
  | .sym i => (env[i]?).join
  | .neg x => (x.value env).map fun a => -a
  | .compl x => (x.value env).map fun a => ~~~a
  | .mul x y => bothOf (x.value env) (y.value env) fun a b => some (a * b)
  | .div x y => bothOf (x.value env) (y.value env) fun a b => if b = 0 then none else some (a.sdiv b)
  | .rem x y => bothOf (x.value env) (y.value env) fun a b => if b = 0 then none else some (a.srem b)
  | .add x y => bothOf (x.value env) (y.value env) fun a b => some (a + b)
  | .sub x y => bothOf (x.value env) (y.value env) fun a b => some (a - b)
  | .shl x y => bothOf (x.value env) (y.value env) fun a b => if b.toNat < 64 then some (a <<< b.toNat) else none
  | .shr x y => bothOf (x.value env) (y.value env) fun a b => if b.toNat < 64 then some (a.sshiftRight b.toNat) else none
  | .and x y => bothOf (x.value env) (y.value env) fun a b => some (a &&& b)
  | .xor x y => bothOf (x.value env) (y.value env) fun a b => some (a ^^^ b)
  | .or x y => bothOf (x.value env) (y.value env) fun a b => some (a ||| b)
  | .lo24 x => (x.value env).map fun a => a &&& 0xFFFFFF#64
  | .hi40 x => (x.value env).map fun a => a.ushiftRight 24

/-- A symbol that a file defines: a relocatable one (a label, an image or a record), the absolute one of a declaration, or `.equ`. -/
inductive SymDef where
  | relocatable
  | fixed (v : Word)
  | equ (e : ConstExpr)
  deriving DecidableEq, Repr

/-- The absolute symbols of a file's definitions, in order, behind those of `env`; none where a `.equ` is refused: its expression may use only
absolute symbols that are defined earlier (R72). -/
def symDefs (env : List (Option Word)) : List SymDef → Option (List (Option Word))
  | [] => some env
  | .relocatable :: t => symDefs (env ++ [none]) t
  | .fixed v :: t => symDefs (env ++ [some v]) t
  | .equ e :: t =>
    match e.value env with
    | some v => symDefs (env ++ [some v]) t
    | none => none

/-! ## Data (R73, R74) -/

/-- A literal of a number format: the decimal `(-1)^neg × mag × 10^exp`, `nan`, `inf` or `-inf`, or a hexadecimal bit pattern. -/
inductive Literal where
  | dec (neg : Bool) (mag : Nat) (exp : Int)
  | nan
  | inf (neg : Bool)
  | hex (n : Nat)
  deriving DecidableEq, Repr

/-- An operand of a data directive. -/
inductive Datum where
  | int (bytes : Nat) (v : Int)
  | float (ty : Ty) (x : Literal)
  | space (n : Nat) (fill : Byte)
  | align (n : Nat)
  deriving DecidableEq, Repr

/-- A decimal literal rounded to nearest even; a sticky bit stands for what a negative power of ten leaves. -/
def decimalPat (f : Fmt) (neg : Bool) (mag : Nat) (exp : Int) : Nat × Flags :=
  let env : Env := { rnd := .rne, sat := false, ftz := false, v := 0 }
  if 0 ≤ exp then f.round env neg (mag * 10 ^ exp.toNat) 0
  else
    let d := 10 ^ (-exp).toNat
    let k := 65 + Nat.log2 d
    let q := mag * 2 ^ k / d
    f.round env neg (2 * q + if mag * 2 ^ k % d = 0 then 0 else 1) (-(Int.ofNat k) - 1)

/-- Whether a decimal magnitude is above `n`. -/
def decimalAbove (mag : Nat) (exp : Int) (n : Nat) : Bool :=
  if 0 ≤ exp then decide (n < mag * 10 ^ exp.toNat) else decide (n * 10 ^ (-exp).toNat < mag)

/-- The pattern of a literal; none where skas refuses it. The NaN is the canonical one (R99); e4m3 has no infinity, so `inf` is refused there
(log 67, DESIGN CHOICE). -/
def Literal.pattern (ty : Ty) (f : Fmt) : Literal → Option Nat
  | .dec neg mag exp =>
    let limit := match ty with
      | .e4m3 => some 448
      | .e5m2 => some 57344
      | _ => none
    let r := decimalPat f neg mag exp
    (match limit with
      | some n => if decimalAbove mag exp n then none else some r.1
      | none => if r.2 &&& fOF != 0 then none else some r.1)
  | .nan => some (f.canon false)
  | .inf neg => if f.finite then none else some (f.infPat neg)
  | .hex n => if n < 2 ^ ty.bits then some n else none

/-- The bytes of an operand that stands at offset `pos` of its section; none where skas refuses it. `.align` pads with bytes of 0 in a data
section (log 67, DESIGN CHOICE). -/
def Datum.bytes (pos : Nat) : Datum → Option (List Byte)
  | .int n v =>
    if (n = 1 ∨ n = 2 ∨ n = 4 ∨ n = 8) ∧ -Int.ofNat (2 ^ (8 * n - 1)) ≤ v ∧ v < Int.ofNat (2 ^ (8 * n)) then
      some (leBytes (BitVec.ofInt 64 v).toNat n)
    else none
  | .float ty x =>
    (match fmtOf? ty with
      | some f => (x.pattern ty f).map fun p => leBytes p (ty.bits / 8)
      | none => none)
  | .space n fill => if n < 2 ^ 40 then some (List.replicate n fill) else none
  | .align n => if n ≤ 2 ^ 30 ∧ 2 ^ Nat.log2 n = n then some (List.replicate ((n - pos % n) % n) 0) else none

/-- `.align` in a code image: zero words, NOPs, up to a multiple of `n` words. -/
def alignWords (pos n : Nat) : Option (List Word) :=
  if n ≤ 2 ^ 30 ∧ 2 ^ Nat.log2 n = n then some (List.replicate ((n - pos % n) % n) 0) else none

/-- The bytes of operands in order, from offset `pos` on. -/
def dataBytes (pos : Nat) : List Datum → Option (List Byte)
  | [] => some []
  | x :: t =>
    match x.bytes pos with
    | none => none
    | some b => (dataBytes (pos + b.length) t).map (b ++ ·)

/-- Offsets of the members of an argument block, from size and alignment of each, and its size; none where a given alignment is no
power of two. The default alignment is min(size, 8); a member of size 0, for which that is 0, stands where it is (log 67, DESIGN CHOICE). -/
def argLayout (pos : Nat) : List (Nat × Option Nat) → Option (List Nat × Nat)
  | [] => some ([], (pos + 7) / 8 * 8)
  | (size, align) :: t =>
    if align.any fun a => 2 ^ Nat.log2 a != a then none
    else
      let m := max 1 (align.getD (min size 8))
      let o := (pos + m - 1) / m * m
      (argLayout (o + size) t).map fun r => (o :: r.1, r.2)

/-! ## Declarations and records (R75 to R78) -/

/-- The word of a `.bank` (R75, R192); none where skas refuses it. -/
def bankWord (ty : Ty) (plane run epb hpb spc : Nat) (rnd : Rnd) (sat : Bool) : Option Word :=
  let r := match rnd with
    | .rne => 0
    | .rtz => 1
    | .rdn => 2
    | .sr => 3
  let v := hpb / 2 * 2 ^ 33 + epb / 2 * 2 ^ 16 + (if sat then 2 ^ 15 else 0) + r * 2 ^ 13 + spc * 2 ^ 10 + (Nat.log2 run - 5) * 2 ^ 7 + plane * 2 ^ 5 + ty.code
  if 32 ≤ run ∧ run ≤ 2048 ∧ 2 ^ Nat.log2 run = run ∧ plane < 3 ∧ spc < 8 ∧ (spc = 0 ∨ ty = .e2m1x) ∧ (rnd = .sr → ty = .e4m3 ∨ ty = .e5m2 ∨ ty = .e2m1x)
      ∧ epb < 2 ^ 18 ∧ hpb < 2 ^ 18 ∧ epb % 2 = 0 ∧ hpb % 2 = 0 then some (BitVec.ofNat 64 v)
  else none

/-- Whether a `.cbuf` keeps its limits. -/
def cbufOk (base slot count : Nat) : Bool :=
  decide (base + slot * count ≤ 2 ^ 22) && slot != 0 && slot % 64 == 0 && decide (1 ≤ count ∧ count ≤ 256)

/-- A declaration of a machine resource: a circular buffer (number, base, slot size, slots), an async barrier (number, expected bytes) and a
buffer tag; and the ends of the task blocks that enclose them. -/
inductive Declared where
  | task
  | endtask
  | cbuf (n base slot count : Nat)
  | abar (n expected : Nat)
  | buftag (n : Nat)
  deriving DecidableEq, Repr

/-- Whether the declarations of a file are accepted. `block` holds the circular buffers of the open task block: no two of them overlap or name
one buffer. A `.cbuf` or `.abar` outside a block is refused, and so is a block that the end of the file leaves open (log 67, DESIGN CHOICE). -/
def resourcesOk (block : Option (List (Nat × Nat × Nat))) : List Declared → Bool
  | [] => block.isNone
  | .task :: t => block.isNone && resourcesOk (some []) t
  | .endtask :: t =>
    (match block with
      | none => false
      | some l => apart (l.map fun x => x.2) && decide (l.map Prod.fst).Nodup && resourcesOk none t)
  | .cbuf n base slot count :: t =>
    (match block with
      | none => false
      | some l => decide (n < 8) && cbufOk base slot count && resourcesOk (some ((n, base, slot * count) :: l)) t)
  | .abar n e :: t => block.isSome && decide (n < 8) && decide (e < 2 ^ 40) && resourcesOk block t
  | .buftag n :: t => decide (n < 256) && resourcesOk block t

/-- A task block: what its directives say. The fields of the record that hold VAs and image references are left to relocations. -/
structure TaskDecl where
  /-- the images that a=, x= and n= name, none where one is missing: the TYPE of an image of this file, none for an extern symbol -/
  imgs : List (Option (Option Nat)) := [some (some 1), some (some 2), some (some 3)]
  /-- the offset of the args= label in its section, or its value, where skas can see it -/
  args : Option Nat := none
  queue : Nat
  prio : Nat
  lock : Bool
  regchk : Bool
  gang : Bool
  panel : Nat
  banks2 : Bool
  bounds : List Nat
  /-- the declared levels, outermost first, where order= gives them -/
  order : Option (List Nat)
  /-- base, extent, mode, class -/
  regions : List (Nat × Nat × Nat × Nat)
  /-- group slot and SAME mask -/
  groups : List (Nat × Nat)
  wheel : Nat
  deriving DecidableEq, Repr

/-- The order of the levels: without order= level 0 is outermost. -/
def TaskDecl.levels (t : TaskDecl) : List Nat := t.order.getD (upFrom 0 t.bounds.length)

/-- Whether an image reference is there and, where skas can see it, of the stream kind `type`. -/
def imageFits (type : Nat) (i : Option (Option Nat)) : Bool :=
  match i with
  | some (some k) => k == type
  | some none => true
  | none => false

/-- Whether a task block keeps the limits of R76, and its args= label those of R74. -/
def TaskDecl.ok (t : TaskDecl) : Bool :=
  (upFrom 0 3).all (fun i => imageFits (i + 1) (t.imgs.getD i none)) && t.args.all (fun a => a % 8 == 0)
    && decide (t.queue < 64) && decide (t.prio < 4) && decide (t.panel < 3) && decide (1 ≤ t.bounds.length ∧ t.bounds.length ≤ 6)
    && t.bounds.all (fun b => decide (1 ≤ b ∧ b ≤ 65535)) && t.levels.length == t.bounds.length
    && (upFrom 0 t.bounds.length).all (fun l => t.levels.contains l) && decide (t.regions.length ≤ 16)
    && t.regions.all (fun r => decide (1 ≤ r.2.1 ∧ r.2.1 < 2 ^ 40 ∧ r.1 + r.2.1 ≤ 2 ^ 56 ∧ 1 ≤ r.2.2.1 ∧ r.2.2.1 ≤ 3 ∧ r.2.2.2 < 16))
    && decide (t.groups.length ≤ 4) && t.groups.all (fun g => decide (g.1 < 4 ∧ g.2 < 64)) && decide (t.groups.map Prod.fst).Nodup
    && decide (t.wheel ≤ 512)

/-- FLAGS of the task record; `.group` sets GANG. -/
def TaskDecl.flags (t : TaskDecl) : Nat :=
  (if t.lock then 1 else 0) + t.panel * 2 + (if t.gang || !t.groups.isEmpty then 8 else 0) + (if t.regchk then 16 else 0) + if t.banks2 then 32 else 0

/-- The 256 bytes of the task record (R163). -/
def TaskDecl.record (t : TaskDecl) : List Byte :=
  List.replicate 80 0 ++ [BitVec.ofNat 8 t.regions.length, BitVec.ofNat 8 t.groups.length, BitVec.ofNat 8 t.queue, BitVec.ofNat 8 t.prio]
    ++ leBytes t.flags 2 ++ leBytes t.wheel 2 ++ List.replicate 168 0

/-- The 16 bytes of the nest record (R164): levels that are not declared have bound 1 and stand innermost, in ascending order. -/
def TaskDecl.nestRecord (t : TaskDecl) : List Byte :=
  let order := t.levels ++ upFrom t.bounds.length (6 - t.bounds.length)
  (t.bounds ++ List.replicate (6 - t.bounds.length) 1).flatMap (fun b => leBytes b 2) ++ leBytes (order.foldr (fun l a => l + 8 * a) 0) 4

/-- The region records (R165), in order. -/
def TaskDecl.regionRecords (t : TaskDecl) : List Byte :=
  t.regions.flatMap fun r => leBytes r.1 7 ++ [BitVec.ofNat 8 (r.2.2.1 + 4 * r.2.2.2)] ++ leBytes r.2.1 5 ++ [0, 0, 0]

/-- The group descriptors (R166). -/
def TaskDecl.groupRecords (t : TaskDecl) : List Byte := t.groups.flatMap fun g => leBytes (g.2 + 64 * g.1) 8

/-- A node of a graph (R77). Successors are node numbers. -/
inductive NodeDecl where
  | task (record next : Nat)
  | cond (va cc : Nat) (imm : Word) (yes no : Nat)
  | loop (va body exit : Nat)
  | stop
  deriving DecidableEq, Repr

/-- The 32 bytes of a node (R168). -/
def NodeDecl.bytes : NodeDecl → List Byte
  | .task r n => [1, 0, 0, 0] ++ leBytes n 2 ++ [0, 0] ++ leBytes r 8 ++ List.replicate 16 0
  | .cond va cc imm yes no => [2, BitVec.ofNat 8 cc, 0, 0] ++ leBytes yes 2 ++ leBytes no 2 ++ leBytes va 8 ++ leBytes imm.toNat 8 ++ List.replicate 8 0
  | .loop va body exit => [3, 0, 0, 0] ++ leBytes exit 2 ++ [0, 0] ++ leBytes va 8 ++ List.replicate 8 0 ++ leBytes body 2 ++ List.replicate 6 0
  | .stop => List.replicate 32 0

/-- Whether a node of a graph of `n` nodes is accepted. -/
def NodeDecl.ok (n : Nat) : NodeDecl → Bool
  | .task r next => decide (r < 2 ^ 56 ∧ next < n)
  | .cond va cc _ yes no => decide (va < 2 ^ 56 ∧ va % 8 = 0 ∧ cc < 12 ∧ yes < n ∧ no < n)
  | .loop va body exit => decide (va < 2 ^ 56 ∧ va % 8 = 0 ∧ body < n ∧ exit < n)
  | .stop => true

/-- The bytes of a graph; none where skas refuses it. -/
def graphBytes (l : List NodeDecl) : Option (List Byte) :=
  if l.length ≤ 65536 ∧ l.contains .stop ∧ l.all (NodeDecl.ok l.length) then some (l.flatMap NodeDecl.bytes) else none

/-- The 32 bytes of a `.digest` (R78, R208); none where the descriptor would be BADDESC. -/
def digestRecord (d : Descriptor) : Option (List Byte) :=
  let b := leBytes d.base 7 ++ [BitVec.ofNat 8 d.kind] ++ leBytes d.ext 5
    ++ [BitVec.ofNat 8 d.ty.code, BitVec.ofNat 8 ((Nat.log2 d.grain - 6) / 2), 0] ++ leBytes d.seed 4 ++ leBytes d.dim 2 ++ List.replicate 10 0
  if readDescriptor b = some d then some b else none

/-- The DIM of a sketch that names none: the smaller of 64 and the elements per block. -/
def defaultDim (ty : Ty) (grain : Nat) : Nat := min 64 (grain * 8 / ty.bits)

/-- The 16 bytes of a `.sched` (R78, R370). -/
def schedRecord (image slots : Nat) : Option (List Byte) :=
  if image < 2 ^ 56 ∧ 1 ≤ slots ∧ slots ≤ 65535 then some (leBytes image 7 ++ [0] ++ leBytes slots 2 ++ List.replicate 6 0) else none

/-! ## Relocations (R88, R89) -/

/-- The 24 bytes of a relocation entry (R88). -/
def Reloc.bytes (r : Reloc) : List Byte := leBytes r.off 8 ++ leBytes r.sym 4 ++ leBytes r.kind 2 ++ [0, 0] ++ leBytes r.addend.toNat 8

/-- A field that skas leaves to a relocation (R71, R72). -/
inductive RelField where
  /-- `.word` and `.dword` of a data section -/
  | word
  | dword
  /-- a record field that takes a VA, and an image reference -/
  | va
  | image
  /-- the IMAGE field of a `.sched` -/
  | sched
  /-- IMM40 of LDI and LDHI -/
  | ldi
  | ldhi
  /-- the word index of PREP and LSET -/
  | index
  /-- IMM34 of ADDI, ANDI, ORI, XORI and MULI, and IMM25 of CMPI and CSETI -/
  | imm34
  | imm25
  deriving DecidableEq, Repr

/-- What stands around the symbol: nothing, lo24 or hi40. -/
inductive RelPart where
  | whole
  | lo24
  | hi40
  deriving DecidableEq, Repr

/-- The KIND that skas emits for a symbol of a kind (1 data, 2 code, 3 image, 4 record) in a field; none where it refuses the line. An extern
symbol stands in no word-index field. -/
def relocKind (field : RelField) (part : RelPart) (kind : Nat) (ext : Bool) : Option Nat :=
  let data := kind == 1 || kind == 4
  let code := kind == 2 && !ext
  match field, part with
  | .word, .whole => if code then some 11 else none
  | .dword, .whole => if code then some 10 else if data then some 1 else none
  | .va, .whole => if data then some 2 else none
  | .image, .whole => if kind = 3 then some 7 else none
  | .sched, .whole => if kind = 3 then some 2 else none
  | .ldi, .whole => if code then some 6 else none
  | .ldi, .lo24 => if data then some 3 else none
  | .ldhi, .hi40 => if data then some 4 else none
  | .index, .whole => if code then some 5 else none
  | .imm34, .whole => if code then some 8 else none
  | .imm25, .whole => if code then some 9 else none
  | _, _ => none

/-- The relocation that skas emits for `sym + const`: the label in SYMBOL, the constant in ADDEND (R89). -/
def emitReloc (patched off : Nat) (field : RelField) (part : RelPart) (sym : Nat) (y : SymEntry) (const : Word) : Option Reloc :=
  (relocKind field part y.kind (y.bind == 2)).map fun k => { patched := patched, off := off, sym := sym, kind := k, addend := const }

/-- The 16 bytes of an image reference (R90). -/
def imageRef (va tag words : Nat) : List Byte := leBytes va 8 ++ leBytes tag 4 ++ leBytes words 2 ++ [0, 0]

/-- What a relocation's symbol stands for, and the place that it patches. -/
structure RelocAt where
  /-- S: the symbol's VA, or its word index in the joined image -/
  value : Word
  /-- the image that a code symbol belongs to -/
  code : Option (Nat × Nat)
  /-- TYPE and length in words of the image that an image symbol names -/
  image : Option (Nat × Nat)
  addend : Word
  /-- the image that holds the word, and its length; or none in a data or record section -/
  holder : Option ((Nat × Nat) × Nat)
  /-- the TYPE of the image that the patched slot takes: 1 to 3 in a task record, 4 in the IMAGE field of a schedule record; else 0 -/
  slotType : Nat
  deriving DecidableEq, Repr

/-- An instruction word with its low bits replaced. -/
def patchLow (w : Nat) (bits : Nat) (v : Word) : Nat := w / 2 ^ bits * 2 ^ bits + v.toNat % 2 ^ bits

/-- A relocation of a kind over the 16 bytes at its OFFSET (fewer at the end of a section); none where it is refused. VA56 compares S + A without
a sign, so a negative S + A is refused (log 67, DESIGN CHOICE); it takes no image symbol (R87) but in the IMAGE field of a schedule record (log
82, DEDUCED). -/
def relocate (kind : Nat) (r : RelocAt) (b : List Byte) : Option (List Byte) :=
  let v := r.value + r.addend
  let w := leNat (b.take 8)
  let opc := field w 53 46
  let code := r.code.isSome
  let mine : Bool := match r.code, r.holder with
    | some x, some h => x == h.1
    | _, _ => false
  let long : Nat := match r.holder with
    | some h => h.2
    | none => 0
  let word := fun (bits : Nat) (x : Word) => some (leBytes (patchLow w bits x) 8 ++ b.drop 8)
  let imageVa : Bool := match r.image with
    | some i => r.slotType == 4 && i.1 == 4
    | none => true
  if kind = 1 then (if code then none else some (leBytes v.toNat 8 ++ b.drop 8))
  else if kind = 2 then (if code ∨ 2 ^ 56 ≤ v.toNat ∨ imageVa = false then none else some (leBytes v.toNat 7 ++ b.drop 7))
  else if kind = 3 then (if opc ≠ 0x2E then none else word 40 (v &&& 0xFFFFFF#64))
  else if kind = 4 then (if opc ≠ 0x2F then none else word 40 (v >>> 24))
  else if kind = 5 then
    (if (opc = 0x01 ∨ opc = 0x0C) ∧ mine = true ∧ v.toNat < long then word 13 v else none)
  else if kind = 6 then (if opc = 0x2E ∧ mine = true then word 40 v else none)
  else if kind = 7 then
    (match r.image with
      | some i => if i.1 = r.slotType ∧ r.slotType < 4 then some (imageRef (r.value.toNat % 2 ^ 56) 0 i.2 ++ b.drop 16) else none
      | none => none)
  else if kind = 8 then (if ((0x26 ≤ opc ∧ opc ≤ 0x29) ∨ opc = 0x2D) ∧ mine = true then word 34 v else none)
  else if kind = 9 then (if (opc = 0x06 ∨ opc = 0x08) ∧ v.toInt < 2 ^ 24 ∧ mine = true then word 25 v else none)
  else if kind = 10 then (if code ∧ 0 ≤ v.toInt then some (leBytes v.toNat 8 ++ b.drop 8) else none)
  else if kind = 11 then (if code ∧ 0 ≤ v.toInt ∧ v.toNat < 2 ^ 32 then some (leBytes v.toNat 4 ++ b.drop 4) else none)
  else none

/-- The bytes that a relocation of a kind patches (R88: no two of a file share one): those that hold a bit of the field. -/
def relocSize (kind : Nat) : Nat := [0, 8, 7, 5, 5, 2, 5, 16, 5, 4, 8, 4].getD kind 0

/-- Apply relocations in table order, each at its offset; none where one is refused or two patch one byte. The bytes of a field that lies past the
end of the contents are added to them (log 67, DESIGN CHOICE). -/
def relocateAll (b : List Byte) (l : List (Nat × Nat × RelocAt)) : Option (List Byte) :=
  if apart (l.map fun r => (r.1, relocSize r.2.1)) then
    l.foldl (fun (a : Option (List Byte)) r =>
      match a with
      | none => none
      | some x => (relocate r.2.1 r.2.2 (x.drop r.1)).map fun y => x.take r.1 ++ y) (some b)
  else none

end Sys2Proof.Machine
end

