-- ==== Sys2Proof/Machine/Linker.lean ====
section
/-! DEFINITION. What skld makes of SKO objects: joined images and local tags (R84, R85), resolved symbols (R86, R87), and relocations applied or
kept (R88 to R90). The place of each section in memory is skld's choice and is an argument here. -/

namespace Sys2Proof.Machine

/-- The string at an offset of a string section. -/
def strAt (f : List Byte) (str : Sect) (o : Nat) : List Byte := ((f.drop (str.off + o)).take (min 256 (str.size - o))).takeWhile (· != 0)

/-- A relocatable object as skld reads it. -/
structure Obj where
  sects : List Sect
  names : List (List Byte)
  bytes : List (List Byte)
  syms : List SymEntry
  symNames : List (List Byte)
  relocs : List Reloc
  deriving DecidableEq, Repr

/-- Read an object; none where skld refuses the file: not KIND 1 of VERSION 1, or R79 to R83 or R86 broken. INFO of a code section and FILESIZE are
not looked at (log 67, DESIGN CHOICE). -/
def readObj (f : List Byte) : Option Obj :=
  let all := sectsOf f
  let str := all.getD (numAt f 28 4) (readSect [] 0)
  let symStr := match all.find? fun x => x.type == 15 with
    | some x => all.getD x.link str
    | none => str
  if numAt f 0 4 = 0x004F4B53 ∧ numAt f 4 2 = 1 ∧ numAt f 6 2 = 1 ∧ numAt f 8 4 = 0 ∧ layoutOk f = true ∧ all.all (fun x => x.va == 0) = true then
    some { sects := all, names := all.map fun x => strAt f str x.name, bytes := all.map fun x => (f.drop x.off).take x.inFile
           syms := symsOf f all, symNames := (symsOf f all).map fun y => strAt f symStr y.name, relocs := relocsOf f all }
  else none

/-! ## Joined images (R84, R85) -/

/-- Join the pieces of an image: its words, and the base of each piece; none where it is longer than `limit` words. -/
def joinPieces (limit : Nat) (pieces : List (List Word)) : Option (List Word × List Nat) :=
  let bases := (pieces.foldl (fun (a : List Nat × Nat) p => (a.1 ++ [a.2], a.2 + p.length)) ([], 0)).1
  if limit < pieces.flatten.length then none else some (pieces.flatten, bases)

/-- The words of a code section. -/
def codeWords (b : List Byte) : List Word := (upFrom 0 (b.length / 8)).map fun i => BitVec.ofNat 64 (numAt b (8 * i) 8)

/-- Every section of the objects, in order: object and index. -/
def allSects (objs : List Obj) : List (Nat × Nat) :=
  ((upFrom 0 objs.length).zip objs).flatMap fun o => (upFrom 0 o.2.sects.length).map fun i => (o.1, i)

def sectAt (objs : List Obj) (m : Nat × Nat) : Option Sect :=
  match objs[m.1]? with
  | some o => o.sects[m.2]?
  | none => none

def sectName (objs : List Obj) (m : Nat × Nat) : List Byte :=
  match objs[m.1]? with
  | some o => o.names.getD m.2 []
  | none => []

def sectBytes (objs : List Obj) (m : Nat × Nat) : List Byte :=
  match objs[m.1]? with
  | some o => o.bytes.getD m.2 []
  | none => []

def isCodeAt (objs : List Obj) (m : Nat × Nat) : Bool := ((sectAt objs m).map Sect.isCode).getD false

/-- The pieces of the image of a name, in the order in which the objects are given. -/
def piecesOf (objs : List Obj) (name : List Byte) : List (Nat × Nat) := (allSects objs).filter fun m => isCodeAt objs m && sectName objs m == name

/-- The first piece of the image that a code section belongs to: it stands for the image. -/
def imageHead (objs : List Obj) (m : Nat × Nat) : Nat × Nat := ((piecesOf objs (sectName objs m)).head?).getD m

/-- An image: its TYPE, its words and its pieces with their bases; none where two pieces of the name differ in TYPE, or it is too long. -/
def imageAt (objs : List Obj) (m : Nat × Nat) : Option (Nat × List Word × List ((Nat × Nat) × Nat)) :=
  let p := piecesOf objs (sectName objs m)
  let types := p.map fun k => ((sectAt objs k).map Sect.type).getD 0
  match types with
  | [] => none
  | ty :: rest =>
    if rest.all (· == ty) then
      (joinPieces ((((typeRow ty).map fun r => r.2.2.2).getD 0) / 8) (p.map fun k => codeWords (sectBytes objs k))).map fun r => (ty, r.1, p.zip r.2)
    else none

/-- The word index at which a piece starts in its image. -/
def pieceBase (objs : List Obj) (m : Nat × Nat) : Nat :=
  match imageAt objs m with
  | some x => ((x.2.2.find? fun k => k.1 == m).map Prod.snd).getD 0
  | none => 0

/-- The LOAD sections of the linked image, in section-table order: those of the objects, a joined image at its first piece (log 67, DESIGN
CHOICE). -/
def linkedSects (objs : List Obj) : List (Nat × Nat) :=
  (allSects objs).filter fun m => ((sectAt objs m).map Sect.isLoad).getD false && (!isCodeAt objs m || imageHead objs m == m)

/-- Local tags of the images: 1 on, in section-table order. -/
def localTags (objs : List Obj) : List ((Nat × Nat) × Nat) :=
  let code := (linkedSects objs).filter (isCodeAt objs)
  code.zip (upFrom 1 code.length)

/-! ## Symbols (R86, R87) -/

def symAt (objs : List Obj) (m : Nat × Nat) : Option SymEntry :=
  match objs[m.1]? with
  | some o => o.syms[m.2]?
  | none => none

def symName (objs : List Obj) (m : Nat × Nat) : List Byte :=
  match objs[m.1]? with
  | some o => o.symNames.getD m.2 []
  | none => []

/-- Every symbol of the objects with a binding: object and index. -/
def symsBound (objs : List Obj) (bind : Nat) : List (Nat × Nat) :=
  (((upFrom 0 objs.length).zip objs).flatMap fun o => (upFrom 1 (o.2.syms.length - 1)).map fun i => (o.1, i)).filter fun m =>
    ((symAt objs m).map SymEntry.bind) == some bind

/-- Whether the KIND of an extern fits that of a global: the same, or both an address (log 67, DESIGN CHOICE). -/
def kindFits (x y : Nat) : Bool := x == y || ((x == 1 || x == 4) && (y == 1 || y == 4))

/-- The defined symbol that a symbol stands for: an extern stands for the one global of its name, of a compatible KIND; none where there is no
such global, or more than one. -/
def resolve (objs : List Obj) (m : Nat × Nat) : Option (Nat × Nat) :=
  match symAt objs m with
  | none => none
  | some y =>
    if y.bind ≠ 2 then some m
    else
      match (symsBound objs 1).filter fun g => symName objs g == symName objs m with
      | [g] => if kindFits y.kind (((symAt objs g).map SymEntry.kind).getD 0) then some g else none
      | _ => none

/-- Whether skld takes the symbols: every extern resolves, and no global name is defined twice. -/
def symsResolve (objs : List Obj) : Bool :=
  (symsBound objs 2).all (fun m => (resolve objs m).isSome) && decide ((symsBound objs 1).map (symName objs)).Nodup

/-- S of a defined symbol (R89): the value of an absolute symbol, the VA of data, a record or an image, the word index in the joined image of
code. `place` gives the VA of each linked section. -/
def symValue (objs : List Obj) (place : List ((Nat × Nat) × Nat)) (m : Nat × Nat) : Option Word :=
  match symAt objs m with
  | none => none
  | some y =>
    let sect := (m.1, y.sect)
    let va := fun (k : Nat × Nat) => (place.find? fun p => p.1 == k).map Prod.snd
    if y.kind = 0 then some (BitVec.ofNat 64 y.value)
    else if y.kind = 2 then some (BitVec.ofNat 64 (pieceBase objs sect + y.value))
    else if y.kind = 3 then (va (imageHead objs sect)).map fun a => BitVec.ofNat 64 a
    else (va sect).map fun a => BitVec.ofNat 64 (a + y.value)

/-! ## Relocations (R88 to R90) -/

/-- The stream TYPE of the image reference at an offset of a section: A, X and N in a task record, L in the IMAGE field of a schedule record. -/
def slotTypeAt (type off : Nat) : Nat :=
  if type = 8 then (if off % 256 = 0 then 1 else if off % 256 = 16 then 2 else if off % 256 = 32 then 3 else 0)
  else if type = 14 ∧ off % 16 = 0 then 4
  else 0

/-- A relocation of object `o` with all that its check needs; none where its symbol does not resolve. -/
def relocAt (objs : List Obj) (place : List ((Nat × Nat) × Nat)) (o : Nat) (r : Reloc) : Option RelocAt :=
  let patched := (o, r.patched)
  match resolve objs (o, r.sym) with
  | none => none
  | some g =>
    match symAt objs g, symValue objs place g with
    | some y, some v =>
      let head := imageHead objs (g.1, y.sect)
      some { value := v, code := if y.kind = 2 then some head else none
             image := if y.kind = 3 then (imageAt objs head).map fun x => (x.1, x.2.1.length) else none
             addend := r.addend
             holder := if isCodeAt objs patched then (imageAt objs patched).map fun x => (imageHead objs patched, x.2.1.length) else none
             slotType := slotTypeAt (((sectAt objs patched).map Sect.type).getD 0) r.off }
    | _, _ => none

/-- The relocations that patch a linked section: object, offset in the linked section, entry. A piece's base is added. -/
def relocsInto (objs : List Obj) (m : Nat × Nat) : List (Nat × Nat × Reloc) :=
  let pieces := if isCodeAt objs m then piecesOf objs (sectName objs m) else [m]
  pieces.flatMap fun k =>
    match objs[k.1]? with
    | none => []
    | some o => (o.relocs.filter fun r => r.patched == k.2).map fun r => (k.1, (if isCodeAt objs m then 8 * pieceBase objs k else 0) + r.off, r)

/-- The contents of a linked section: relocations applied in order; an IMGREF gets its VA and LENGTH. None where one is refused. -/
def linkBytes (objs : List Obj) (place : List ((Nat × Nat) × Nat)) (m : Nat × Nat) : Option (List Byte) :=
  let raw := if isCodeAt objs m then (imageAt objs m).map fun x => x.2.1.flatMap fun w => leBytes w.toNat 8 else some (sectBytes objs m)
  let rel := (relocsInto objs m).map fun r => (relocAt objs place r.1 r.2.2).map fun a => (r.2.1, r.2.2.kind, a)
  match raw with
  | none => none
  | some b => if rel.all Option.isSome then relocateAll b (rel.filterMap id) else none

/-- The symbols that the linked image keeps: the null entry, the globals, and the images that an IMGREF names. -/
def linkedSyms (objs : List Obj) : List (Nat × Nat) :=
  let named := (linkedSects objs).flatMap fun m => (relocsInto objs m).filterMap fun r => if r.2.2.kind = 7 then resolve objs (r.1, r.2.2.sym) else none
  symsBound objs 1 ++ (named.filter fun g => !(symsBound objs 1).contains g).eraseDups

/-- A section of a linked image: name, TYPE, VA, local tag, ALIGN, SIZE, and its contents, of which BSS has none. -/
structure LinkedSect where
  name : List Byte
  type : Nat
  va : Nat
  tag : Nat
  align : Nat
  size : Nat
  bytes : List Byte
  deriving DecidableEq, Repr

/-- What skld makes: the LOAD sections; symbols with name and resolved entry, section numbers being those of the linked table; and the IMGREFs, kept
with their offsets in the linked sections. -/
structure Linked where
  sects : List LinkedSect
  syms : List (List Byte × SymEntry)
  relocs : List Reloc
  deriving DecidableEq, Repr

/-- Link objects; none where skld refuses them. The sections' numbers start at 1, after the null entry. -/
def link (objs : List Obj) (place : List ((Nat × Nat) × Nat)) : Option Linked :=
  let heads := linkedSects objs
  let number := fun (m : Nat × Nat) => 1 + heads.findIdx (· == m)
  let bodies := heads.map (linkBytes objs place)
  let syms := linkedSyms objs
  let va := fun (m : Nat × Nat) => ((place.find? fun p => p.1 == m).map Prod.snd).getD 0
  if symsResolve objs && bodies.all Option.isSome && decide ((localTags objs).length ≤ 4095) then
    some {
      sects := (heads.zip (bodies.filterMap id)).map fun h =>
        let x := (sectAt objs h.1).getD (readSect [] 0)
        { name := sectName objs h.1, type := x.type, va := va h.1, tag := (((localTags objs).find? fun t => t.1 == h.1).map Prod.snd).getD 0
          align := x.align, size := if x.type = 7 then x.size else h.2.length, bytes := h.2 }
      syms := syms.filterMap fun g =>
        (symAt objs g).map fun y =>
          let value := ((symValue objs place g).map BitVec.toNat).getD 0
          let sect := if isCodeAt objs (g.1, y.sect) then imageHead objs (g.1, y.sect) else (g.1, y.sect)
          (symName objs g, { y with sect := if y.kind = 0 then 0 else number sect, value := if y.kind = 3 then 0 else value })
      relocs := heads.flatMap fun m => (relocsInto objs m).filterMap fun r =>
        if r.2.2.kind = 7 then
          (resolve objs (r.1, r.2.2.sym)).map fun g =>
            { patched := number m, off := r.2.1, sym := 1 + syms.findIdx (· == g), kind := 7, addend := r.2.2.addend }
        else none }
  else none

/-! ## The file that skld writes (R79 to R83, R90, R91) -/

/-- A section as it stands in a file: its table fields and its contents. -/
structure OutSect where
  name : List Byte
  type : Nat
  size : Nat
  va : Nat
  align : Nat
  link : Nat
  info : Nat
  body : List Byte
  deriving DecidableEq, Repr

/-- A string section of names: a zero byte, then each name with its NUL. -/
def strBytes (names : List (List Byte)) : List Byte := 0 :: names.flatMap (· ++ [0])

/-- The offset of name `i` in that section. -/
def strOff (names : List (List Byte)) (i : Nat) : Nat :=
  if names.getD i [] = [] then 0 else ((names.take i).map fun n => n.length + 1).foldl (· + ·) 1

/-- The 24 bytes of a symbol entry whose name stands at `name` (R86). -/
def SymEntry.bytes (y : SymEntry) (name : Nat) : List Byte :=
  leBytes name 4 ++ leBytes y.bind 1 ++ leBytes y.kind 1 ++ [0, 0] ++ leBytes y.sect 4 ++ [0, 0, 0, 0] ++ leBytes y.value 8

/-- ASCII. -/
def nameBytes (s : String) : List Byte := s.toList.map fun c => BitVec.ofNat 8 c.toNat

/-- The sections of a linked image behind the null entry, in order: LOAD sections, symbol table, string section, one RELOC section for each section
that an IMGREF patches and, signed, the note (log 67, DESIGN CHOICE). -/
def Linked.out (l : Linked) (signed : Bool) : List OutSect :=
  let n := l.sects.length
  let patched := (l.relocs.map Reloc.patched).eraseDups
  let names := l.sects.map LinkedSect.name ++ [nameBytes ".symtab", nameBytes ".strtab", nameBytes ".rel", nameBytes ".note"]
    ++ l.syms.map Prod.fst
  let sym := List.replicate 24 0 ++ ((upFrom 0 l.syms.length).zip l.syms).flatMap fun y => y.2.2.bytes (strOff names (n + 4 + y.1))
  let plain := fun (i type link info : Nat) (b : List Byte) =>
    { name := names.getD i [], type := type, size := b.length, va := 0, align := 8, link := link, info := info, body := b : OutSect }
  (l.sects.map fun x => { name := x.name, type := x.type, size := x.size, va := x.va, align := x.align, link := 0, info := x.tag, body := x.bytes })
    ++ [plain n 15 (n + 2) 0 sym, plain (n + 1) 16 0 0 (strBytes names)]
    ++ (patched.map fun p => plain (n + 2) 17 p (n + 1) ((l.relocs.filter fun r => r.patched == p).flatMap Reloc.bytes))
    ++ if signed then [plain (n + 3) 18 0 0 (List.replicate 4728 0)] else []

/-- The offsets of the contents, from `pos` on, each at the next multiple of 8, and the length of the file; BSS has offset 0 and no contents. -/
def outOffsets (pos : Nat) : List OutSect → List Nat × Nat
  | [] => ([], pos)
  | x :: t =>
    if x.type = 7 then let r := outOffsets pos t; (0 :: r.1, r.2)
    else
      let o := alignUp pos 8
      let r := outOffsets (o + x.body.length) t
      (o :: r.1, r.2)

/-- The 48 bytes of a section table entry (R81). -/
def OutSect.entry (x : OutSect) (name off : Nat) : List Byte :=
  let row := (typeRow x.type).getD (0, 0, 1, 0)
  leBytes name 4 ++ leBytes x.type 2 ++ leBytes row.1 2 ++ leBytes off 8 ++ leBytes x.size 8 ++ leBytes x.va 8 ++ leBytes x.align 4 ++ leBytes x.link 4
    ++ leBytes x.info 4 ++ leBytes row.2.1 4

/-- The note over the bytes before it, signed under key `key` (R91). -/
def signatureNote (key : Nat) (before : List Byte) : List Byte :=
  let fit := fun (n : Nat) (b : List Byte) => b.take n ++ List.replicate (n - b.length) 0
  let hash := fit 64 (Config.sha3_512 before)
  leBytes 8 4 ++ leBytes 4699 4 ++ leBytes 1 4 ++ [0, 0, 0, 0] ++ leBytes 0x004E414C4F52415A 8 ++ leBytes (Config.signerId key).toNat 8 ++ hash
    ++ fit 4627 (Config.signerSign key hash) ++ [0, 0, 0, 0, 0]

/-- The bytes of a linked image: header, section table and contents, every byte between them zero (R79), and signed where skld is given a key. -/
def Linked.file (l : Linked) (key : Option Nat) : List Byte :=
  let out := l.out key.isSome
  let n := out.length + 1
  let at_ := outOffsets (64 + 48 * n) out
  let str := l.sects.length + 2
  let strBody := ((out[str - 1]?).map OutSect.body).getD []
  -- a section's name stands in the string section at the first place that spells it
  let nameAt := fun (x : OutSect) =>
    ((upFrom 1 strBody.length).find? fun o => strBody.getD (o - 1) 1 == 0 && (strBody.drop o).take (x.name.length + 1) == x.name ++ [0]).getD 0
  let head := [0x53, 0x4B, 0x4F, 0] ++ leBytes 1 2 ++ leBytes 2 2 ++ leBytes (if key.isSome then 1 else 0) 4 ++ leBytes n 4 ++ leBytes 64 8
    ++ leBytes 48 4 ++ leBytes str 4 ++ leBytes at_.2 8 ++ List.replicate 24 0
  let table := List.replicate 48 0 ++ (out.zip at_.1).flatMap fun x => x.1.entry (nameAt x.1) x.2
  let body := fun (b : List Byte) (x : OutSect × Nat) => if x.1.type = 7 then b else b ++ List.replicate (x.2 - b.length) 0 ++ x.1.body
  match key with
  | none => (out.zip at_.1).foldl body (head ++ table)
  | some k =>
    let before := ((out.zip at_.1).take (out.length - 1)).foldl body (head ++ table)
    let pad := before ++ List.replicate (at_.2 - 4728 - before.length) 0
    pad ++ signatureNote k pad

end Sys2Proof.Machine
end

