-- ==== Sys2Proof/Tests/Slice0.lean ====
section
/-! SUPPORT. The model's own tests: terms that well-formedness refuses, words of the spec that decode, single steps whose results the
spec states, and for each statement with hypotheses a state that meets them. -/

namespace Sys2Proof.Tests

open Sys2Proof Sys2Proof.Machine

set_option maxRecDepth 20000

/-! ## Well-formedness: for each check a term that it refuses -/

theorem test_wf_accepts : (Instr.add (.s 1) (.q 4) (.q 4)).wf .A = true ∧ (Instr.vadd none .fp32 .rtz true true 1 2 3).wf .X = true ∧
    (Instr.nwait (.s 9)).wf .N = true ∧ Instr.ldone.wf .L = true := by decide

/-- R40: the N stream issues no vector word, and a row without a word is no instruction of any stream. -/
theorem test_wf_streams : (Instr.vadd none .fp32 .rne false false 1 2 3).wf .N = false ∧ (Instr.ld .d false (.s 1) (.s 2) 0 0).wf .L = false ∧
    Instr.ping.wf .A = false := by decide

/-- R11, R119: the A stream does not pop q0 and does not push q4; the L stream has no queues. -/
theorem test_wf_queues : (Instr.add (.s 1) (.q 0) (.s 2)).wf .A = false ∧ (Instr.add (.q 4) (.s 1) (.s 2)).wf .A = false ∧
    (Instr.add (.s 1) (.q 0) (.s 2)).wf .L = false := by decide

theorem test_wf_queue_fields : (Instr.spop 0 0).wf .A = false ∧ (Instr.qtry 0 0 1).wf .A = false ∧ (Instr.qflush (.s 1) 0).wf .A = false ∧
    (Instr.spush 0 4).wf .A = false ∧ (Instr.pusht 4).wf .A = false ∧ (Instr.qcnt (.s 1) 8).wf .A = false := by decide

/-- R222: e2m1x has no class, and the mask is even. -/
theorem test_wf_dcls : (Instr.dcls none .e2m1x 2 (.s 1) (.s 2) (.s 3) 0).wf .X = false ∧
    (Instr.dcls none .int16 3 (.s 1) (.s 2) (.s 3) 0).wf .X = false := by decide

/-- R284: without SF, field c of CPY is reserved. -/
theorem test_wf_cpy : (Instr.cpy false false (.s 1) (.s 2) (.s 3) (.s 4) ⟨0, 0, false, 0⟩).wf .A = false := by decide

/-- R320: int32 is no panel format, TWIN takes its formats, run 7 is TWIN's, and run 0 is not. -/
theorem test_wf_nfmt : (Instr.nfmt .int32 .e4m3 0 false 0).wf .N = false ∧ (Instr.nfmt .bf16 .bf16 1 true 0).wf .N = false ∧
    (Instr.nfmt .e4m3 .e4m3 7 false 0).wf .N = false ∧ (Instr.nfmt .e2m1x .e2m1x 0 true 0).wf .N = false := by decide

/-- R145, R38: the TYPE sets and the rounding modes of the element arithmetic. -/
theorem test_wf_arithmetic : (Instr.vadd none .e4m3 .rne false false 1 2 3).wf .X = false ∧ (Instr.vadd none .fp32 .sr false false 1 2 3).wf .X = false ∧
    (Instr.vadd none .int32 .rtz false false 1 2 3).wf .X = false ∧ (Instr.vmulh none .fp32 false 1 2 3).wf .X = false ∧
    (Instr.vmin none .e4m3 false 1 2 3).wf .X = false ∧ (Instr.vabs none .fp32 true false 1 2).wf .X = false ∧
    (Instr.vscl none .int32 .rne false false 1 2 3).wf .X = false ∧ (Instr.vexpo none .int32 false 1 2).wf .X = false ∧
    (Instr.vperm none .int8 false 1 2 3).wf .X = false ∧ (Instr.vlds none .int4 false 1 (.s 1) (.s 2) 0).wf .X = false := by decide

/-- R150, R151: the conversion pairs, RND and SR, and the alignment of the register groups. -/
theorem test_wf_conversions : (Instr.vcvt none .int8 .int64 .rtz false false 1 2).wf .X = false ∧
    (Instr.vcvt none .fp32 .int32 .sr false false 1 2).wf .X = false ∧ (Instr.vwid none .e4m3 .fp32 false 5 1).wf .X = false ∧
    (Instr.vnar none .fp32 .e4m3 .rne false false 1 5).wf .X = false ∧ (Instr.vnar none .int32 .int8 .rtz false false 1 4).wf .X = false := by decide

/-- R374 to R378: groups of four registers, no sr in LADD, and the fields that e2m1x and e4m3 reserve. -/
theorem test_wf_link : (Instr.lwid false 5 1 2).wf .L = false ∧ (Instr.lwid true 4 1 2).wf .L = false ∧ (Instr.ladd .sr false 1 2 3).wf .L = false ∧
    (Instr.lqnt false .rne false 1 4 2 1).wf .L = false ∧ (Instr.lqnt true .rne false 1 4 2 1).wf .L = false ∧
    (Instr.lqnt true .rne false 1 5 0 1).wf .L = false := by decide

/-! ## Decoding, by the words that the spec writes out, and by words built field by field from its rulers (R27 to R34) -/

/-- Stream `σ` reads `w` as `i`. -/
def reads (σ : StreamId) (w : Word) (i : Instr) : Bool :=
  match decode σ w with
  | .ok j => decide (j = i)
  | .error _ => false

/-- Every word of a list reads as its instruction in stream `σ`. -/
def allRead (σ : StreamId) (l : List (Word × Instr)) : Bool := l.all fun p => reads σ p.1 p.2

def wordR (opc d a b c cls fn : Nat) : Word :=
  BitVec.ofNat 64 (opc * 2 ^ 46 + d * 2 ^ 40 + a * 2 ^ 34 + b * 2 ^ 28 + c * 2 ^ 22 + cls * 2 ^ 18 + fn)

def wordI (opc d a imm : Nat) : Word := BitVec.ofNat 64 (opc * 2 ^ 46 + d * 2 ^ 40 + a * 2 ^ 34 + imm)

def wordM (opc d a off cls sz sgn sc scope : Nat) : Word :=
  BitVec.ofNat 64 (opc * 2 ^ 46 + d * 2 ^ 40 + a * 2 ^ 34 + off * 2 ^ 14 + cls * 2 ^ 10 + sz * 2 ^ 8 + sgn * 2 ^ 7 + sc * 2 ^ 6 + scope * 2 ^ 3)

def wordV (opc vd va vb vc ty rnd sat mk fn : Nat) : Word :=
  BitVec.ofNat 64 (opc * 2 ^ 46 + vd * 2 ^ 40 + va * 2 ^ 34 + vb * 2 ^ 28 + vc * 2 ^ 22 + ty * 2 ^ 17 + rnd * 2 ^ 15 + sat * 2 ^ 14 + mk * 2 ^ 13 + fn)

def wordS (opc k sense cc a b imm : Nat) : Word :=
  BitVec.ofNat 64 (opc * 2 ^ 46 + k * 2 ^ 42 + sense * 2 ^ 41 + cc * 2 ^ 37 + a * 2 ^ 31 + b * 2 ^ 25 + imm)

def wordC (opc d a b c cls bar rpl buf fn : Nat) : Word :=
  BitVec.ofNat 64 (opc * 2 ^ 46 + d * 2 ^ 40 + a * 2 ^ 34 + b * 2 ^ 28 + c * 2 ^ 22 + cls * 2 ^ 18 + bar * 2 ^ 15 + rpl * 2 ^ 14 + buf * 2 ^ 5 + fn)

def wordK (opc d a b ty rnd sat imm : Nat) : Word :=
  BitVec.ofNat 64 (opc * 2 ^ 46 + d * 2 ^ 40 + a * 2 ^ 34 + b * 2 ^ 28 + ty * 2 ^ 23 + rnd * 2 ^ 21 + sat * 2 ^ 20 + imm)

/-- R128, R129, R131, R134, R55, R60, R50, R52 and others: words the spec gives in full for control, conditions and streams. -/
theorem test_decode_control_words : allRead .A [(0, .nop), (0x000044000000000A, .prep 1 10), (0x0000840F80000000, .prepr 1 (.s 31)),
    (0x0000C60000000000, .br 1 true), (0x00014C828C000000, .cmp .ltu 3 (.s 5) (.s 6)), (0x000184010000000A, .cmpi .eq 1 (.s 2) 10),
    (0x0001D34C50000006, .cset .gt (.s 19) (.s 19) (.s 5)), (0x0002486000020000, .scomb .andn 2 0 1), (0x0003000180000005, .lset 0 (.s 3) 5),
    (0x0003800000000007, .trap 7), (0x0010000000000000, .start), (0x0010400000000000, .join), (0x0090800000000000, .exit),
    (0x0011C00000000001, .gbar 1), (0x0014040000000000, .crr (.s 4) 0), (0x0014060000000121, .crr (.s 6) 0x121), (0x0014800000000000, .eret),
    (0x0014C00000000005, .brk 5), (0x0015031050000000, .waitev (.s 3) (.s 4) (.s 5)), (0x0015450800000000, .keykill (.s 5) (.s 2)),
    (0x0015850000000000, .genbump (.s 5)), (0x0012000C40004000, .launch true (.s 3) (.s 4)),
    (0x0012401460000000, .graph false (.s 5) (.s 6))] = true := by decide

theorem test_decode_queue_words : allRead .X [(0x0010E80000000000, .pusht 8), (0x001108100A000000, .qtry 2 0 5),
    (0x001183A400000000, .qcnt (.s 3) 9), (0x0011448000000000, .qflush (.s 4) 0)] = true := by decide

theorem test_decode_scalar_words : allRead .N [(0x0004020840000000, .add (.s 2) (.s 2) (.s 4)), (0x0004830410000000, .mul (.s 3) (.s 1) (.s 1)),
    (0x0005051870020000, .divu (.s 5) (.s 6) (.s 7)), (0x0008461800000000, .popc (.s 6) (.s 6)), (0x0008C310000002C8, .bfx (.s 3) (.s 4) 11 8),
    (0x00090A1C30000410, .bfi (.s 10) (.s 7) (.s 3) 16 16), (0x0009841000000001, .addi (.s 4) (.s 4) 1), (0x000A840400000003, .shli (.s 4) (.s 1) 3),
    (0x000B850000ABCDEF, .ldi (.s 5) 0xABCDEF), (0x000BC50123456789, .ldhi 5 0x123456789)] = true := by decide

theorem test_decode_memory_words : allRead .A [(0x004C050FFFFE0A80, .ld .w true (.s 5) (.s 3) (-8) 2), (0x000C021C00000300, .ld .d false (.s 2) (.s 7) 0 0),
    (0x000C430800000300, .st .d (.s 3) (.s 2) 0 0), (0x000D090C50080010, .amo .add true .plain (.s 9) (.s 3) (.s 5) 2),
    (0x000D004C20080000, .amo .add false .plain (.s 0) (.s 19) (.s 2) 2), (0x000D4C0CA2C80010, .cas true .plain (.s 12) (.s 3) (.s 10) (.s 11) 2),
    (0x00180E3400000004, .fence .device (.s 14) (.s 13)), (0x0018440851840000, .dget (.s 4) (.s 2) (.s 5) (.s 6) 1),
    (0x0019400841440010, .rmap true (.s 2) (.s 4) (.s 5) 0 1), (0x0019800000000000, .runmap 0), (0x0019C80000000000, .rsync (.s 8) (some 0)),
    (0x001A000841400000, .cbset 0 (.s 2) (.s 4) (.s 5)), (0x001AC00800000000, .abset 0 (.s 2)), (0x001B000000000000, .abwait 0)] = true := by
  decide

theorem test_decode_engine_words : allRead .A [(0x001C0C28D0084000, .cpy false false (.s 12) (.s 10) (.s 13) (.s 0) ⟨2, 0, true, 0⟩),
    (0x001C4554E4400001, .cpys true false (.s 5) (.s 21) 14 17 ⟨0, 0, false, 0⟩), (0x001D0C3850004000, .cfetchif .nbelow false (.s 12) (.s 14) (.s 5) ⟨0, 0, true, 0⟩),
    (0x001D552C03400000, .kvfetch false (.s 21) (.s 11) (.s 0) (.s 13) ⟨0, 0, false, 0⟩),
    (0x00211410E200C062, .intersect .w (.s 20) 4 14 (.s 8) ⟨0, 1, true, 3⟩)] = true := by decide

theorem test_decode_panel_words : allRead .N [(0x0024000831000001, .nlvl 1 (.s 2) (.s 3) (.s 4)), (0x0024400831000000, .nbase (.s 2) (.s 3) (.s 4)),
    (0x0024800000004D8C, .nfmt .e4m3 .e4m3 3 false 1), (0x0024800000000D8A, .nfmt .bf16 .e4m3 3 false 0), (0x0024C01400000002, .ndrn .auto .fp32 (.s 5)),
    (0x0025000000040001, .ngo true 0 1), (0x0025490000000000, .nwait (.s 9)), (0x0025860000000006, .nprog (.s 6) 6), (0x0025C41400000000, .ncsq (.s 4) (.s 5)),
    (0x0026000800000000, .nsave (.s 2) 0), (0x0026400800000000, .nload (.s 2) 0)] = true := by decide

theorem test_decode_vector_words : allRead .X [(0x0029040420D62000, .vfma none .fp32 .rne false true 4 1 2 3),
    (0x002928842A167600, .vfma (some 3) .fp32 .rne true true 40 33 2 40), (0x0032010800060000, .vld none .int32 false 1 (.s 2) (.s 0) 0),
    (0x002D420000060000, .vbcast none .int32 false 2 (.s 0)), (0x002C800420060002, .vcmp none .int32 .lt false 0 1 2),
    (0x0034400000000000, .mpush none 0), (0x0035800000060000, .mempt none .int32 0), (0x002A410400062000, .vneg none .int32 false true 1 1),
    (0x0034C00000000000, .mpop none), (0x0030450400060000, .vred none .int32 .sum .rne false false (.s 5) 1),
    (0x0032410800060000, .vst none .int32 false 1 (.s 2) (.s 0) 0), (0x002E9C600016400C, .vnar none .fp32 .e4m3 .rne true false 28 24),
    (0x002CD50150860000, .vsel none .int32 false 21 0 21 2), (0x0032826D70160000, .vlds none .fp32 false 2 (.s 27) (.s 23) 0),
    (0x002E8C180016000A, .vnar none .fp32 .bf16 .rne false false 12 6), (0x0018C20C41440000, .dcls none .int16 2 (.s 3) (.s 4) (.s 5) 0),
    (0x0030C30890040000, .vcomp none .int16 3 2 (.s 9)), (0x00354A1000040000, .mcnt none .int16 (.s 10) 4)] = true := by decide

theorem test_decode_link_words : allRead .L [(0x0038811870000000, .lrecv 1 6 7 0), (0x0039421086100000, .lqnt false .rne true 2 4 8 0),
    (0x0039800000000000, .ldone)] = true := by decide

theorem test_decode_steer_rows : allRead .A [(wordS 0x03 2 0 0 0 0 0, .br 2 false), (wordS 0x04 3 1 0 0 0 0, .brl 3 true),
    (wordS 0x08 0 0 4 3 2 7, .cseti .ltu (.s 3) (.s 2) 7), (wordS 0x0A 3 0 0 36 0 0, .spop 3 4), (wordS 0x0B 1 0 0 32 0 0, .spush 1 0),
    (wordS 0x0D 2 0 0 0 0 0, .lend 2)] = true := by decide

theorem test_decode_alu_rows : allRead .X [(wordR 0x11 1 2 3 0 0 0, .sub (.s 1) (.s 2) (.s 3)), (wordR 0x13 1 2 3 0 0 0, .mulh (.s 1) (.s 2) (.s 3)),
    (wordR 0x13 1 2 3 0 0 0x20000, .mulhu (.s 1) (.s 2) (.s 3)), (wordR 0x14 1 2 3 0 0 0, .div (.s 1) (.s 2) (.s 3)),
    (wordR 0x15 1 2 3 0 0 0, .rem (.s 1) (.s 2) (.s 3)), (wordR 0x15 1 2 3 0 0 0x20000, .remu (.s 1) (.s 2) (.s 3)),
    (wordR 0x16 1 2 3 0 0 0, .and (.s 1) (.s 2) (.s 3)), (wordR 0x17 1 2 3 0 0 0, .or (.s 1) (.s 2) (.s 3)),
    (wordR 0x18 1 2 3 0 0 0, .xor (.s 1) (.s 2) (.s 3)), (wordR 0x19 1 2 3 0 0 0, .andn (.s 1) (.s 2) (.s 3)),
    (wordR 0x1A 1 2 3 0 0 0, .shl (.s 1) (.s 2) (.s 3)), (wordR 0x1B 1 2 3 0 0 0, .shr (.s 1) (.s 2) (.s 3)),
    (wordR 0x1C 36 32 31 0 0 0, .sar (.q 4) (.q 0) (.s 31)), (wordR 0x1D 1 2 3 0 0 0, .min (.s 1) (.s 2) (.s 3)),
    (wordR 0x1D 1 2 3 0 0 0x20000, .minu (.s 1) (.s 2) (.s 3)), (wordR 0x1E 1 2 3 0 0 0, .max (.s 1) (.s 2) (.s 3)),
    (wordR 0x1E 1 2 3 0 0 0x20000, .maxu (.s 1) (.s 2) (.s 3)), (wordR 0x1F 1 2 0 0 0 0, .clz (.s 1) (.s 2)),
    (wordR 0x20 1 2 0 0 0 0, .ctz (.s 1) (.s 2)), (wordR 0x22 1 2 0 0 0 15, .sext (.s 1) (.s 2) 15),
    (wordR 0x22 1 2 0 0 0 0x2000F, .zext (.s 1) (.s 2) 15), (wordR 0x25 1 2 3 4 0 0, .cmov (.s 1) (.s 2) (.s 3) (.s 4)),
    (wordI 0x27 1 2 5, .andi (.s 1) (.s 2) 5), (wordI 0x28 1 2 5, .ori (.s 1) (.s 2) 5), (wordI 0x29 1 2 5, .xori (.s 1) (.s 2) 5),
    (wordI 0x2B 1 2 63, .shri (.s 1) (.s 2) 63), (wordI 0x2C 1 2 63, .sari (.s 1) (.s 2) 63),
    (wordI 0x2D 1 2 0x3FFFFFFFF, .muli (.s 1) (.s 2) (-1))] = true := by decide

theorem test_decode_memory_rows : allRead .A [(wordM 0x32 5 3 0xFFFF8 2 2 1 1 4, .scld .w true false (.s 5) (.s 3) (-8) 2),
    (wordM 0x33 5 3 8 2 3 0 1 5, .scst .d true (.s 5) (.s 3) 8 2), (wordI 0x51 0 4 0x013, .crw (.s 4) 0x013),
    (wordR 0x64 4 2 5 0 1 0, .dredo (.s 4) (.s 2) (.s 5) 1), (wordR 0x69 4 0 0 0 0 7, .cbwait 7 (.s 4)), (wordR 0x6A 0 0 0 0 0 3, .cbrel 3),
    (wordR 0x34 1 2 3 0 0 0x139, .amo .minu true .device (.s 1) (.s 2) (.s 3) 0), (wordR 0x67 8 0 0 0 0 16, .rsync (.s 8) none)] = true := by
  decide

theorem test_decode_engine_rows : allRead .A [(wordC 0x72 1 2 3 4 5 6 1 7 3, .cpyt .d (.s 1) (.s 2) 3 (.s 4) ⟨5, 6, true, 7⟩),
    (wordC 0x73 1 2 3 0 5 6 1 7 2, .cfill .w (.s 1) (.s 2) (.s 3) ⟨5, 6, true, 7⟩), (wordC 0x76 0 2 3 0 0 0 1 0 0, .btinv true (.s 2) (.s 3)),
    (wordC 0x77 1 0 0 0 0 0 0 0 3, .ecancel .both (.s 1)), (wordC 0x80 1 2 3 4 5 6 0 7 1, .gath .h (.s 1) (.s 2) (.s 3) 4 ⟨5, 6, false, 7⟩),
    (wordC 0x81 1 2 3 4 5 6 0 7 0, .scat .b (.s 1) (.s 2) (.s 3) 4 ⟨5, 6, false, 7⟩),
    (wordC 0x82 1 2 3 4 5 6 0 7 2, .scadd .fp32 (.s 1) (.s 2) (.s 3) 4 ⟨5, 6, false, 7⟩),
    (wordC 0x83 1 2 3 4 5 6 0 7 2, .compact .w (.s 1) (.s 2) (.s 3) 4 ⟨5, 6, false, 7⟩),
    (wordC 0x85 1 2 3 4 5 6 0 7 12, .select .bf16 true (.s 1) (.s 2) (.s 3) 4 ⟨5, 6, false, 7⟩),
    (wordC 0x70 1 2 3 4 0 0 0 0 3, .cpy true true (.s 1) (.s 2) (.s 3) (.s 4) ⟨0, 0, false, 0⟩)] = true := by decide

theorem test_decode_vector_rows1 : allRead .X [(wordV 0xA0 1 2 3 0 11 1 1 1 0, .vadd none .fp32 .rtz true true 1 2 3),
    (wordV 0xA1 1 2 3 0 10 2 0 0 0, .vsub none .bf16 .rdn false false 1 2 3), (wordV 0xA2 1 2 3 0 3 0 1 0 0x1000, .vmul (some 0) .int32 .rne true false 1 2 3),
    (wordV 0xA3 1 2 3 0 9 0 0 1 0x1E00, .vmulh (some 7) .uint64 true 1 2 3), (wordV 0xA5 1 2 3 4 11 0 0 0 0, .vfms none .fp32 .rne false false 1 2 3 4),
    (wordV 0xA6 1 2 3 0 4 0 0 0 0, .vmin none .int64 false 1 2 3), (wordV 0xA7 1 2 3 0 4 0 0 0 0, .vmax none .int64 false 1 2 3),
    (wordV 0xA8 1 2 0 0 1 0 1 0 0, .vabs none .int8 true false 1 2), (wordV 0xAA 1 2 3 0 14 0 0 0 0, .vand none .e2m1x false 1 2 3),
    (wordV 0xAB 1 2 3 0 0 0 0 0 0, .vor none .int4 false 1 2 3), (wordV 0xAC 1 2 3 0 0 0 0 0 0, .vxor none .int4 false 1 2 3),
    (wordV 0xAD 1 2 3 0 2 0 0 0 0, .vshl none .int16 false 1 2 3), (wordV 0xAE 1 2 3 0 2 0 0 0 0, .vshr none .int16 false 1 2 3),
    (wordV 0xAF 1 2 3 0 2 0 0 0 0, .vsar none .int16 false 1 2 3), (wordV 0xB0 1 2 0 0 2 0 0 0 0, .vpopc none .int16 false 1 2),
    (wordV 0xB1 1 2 0 0 2 0 0 0 0, .vclz none .int16 false 1 2), (wordV 0xB4 63 32 0 0 2 0 0 0 0, .vmov none .int16 false 63 32),
    (wordV 0xB6 1 2 3 0 2 0 0 0 0, .vget none .int16 (.s 1) 2 (.s 3)), (wordV 0xB7 1 2 3 0 2 0 0 0 0, .vins none .int16 1 (.s 2) (.s 3)),
    (wordV 0xB8 3 4 0 0 11 1 0 0 3, .vcvt none .fp32 .int32 .rtz false false 3 4)] = true := by decide

theorem test_decode_vector_rows2 : allRead .X [(wordV 0xB9 4 1 0 0 12 0 0 0 11, .vwid none .e4m3 .fp32 false 4 1),
    (wordV 0xBB 1 2 3 0 11 0 1 0 0, .vscl none .fp32 .rne true false 1 2 3), (wordV 0xBC 1 2 0 0 11 0 0 0 0, .vexpo none .fp32 false 1 2),
    (wordV 0xBD 1 2 0 0 11 0 0 0 0, .vrcp none false 1 2), (wordV 0xBE 1 2 0 0 11 0 0 0 0, .vrsq none false 1 2),
    (wordV 0xBF 1 2 0 0 11 0 0 0 0, .vexp2 none false 1 2), (wordV 0xC0 1 2 0 0 11 0 0 0 0, .vlog2 none false 1 2),
    (wordV 0xC2 1 2 0 0 11 0 0 0 0, .vpsum none .fp32 .rne false false 1 2), (wordV 0xC4 1 2 0 0 11 0 0 0 0, .vexpd none .fp32 1 2),
    (wordV 0xC5 1 2 3 0 11 0 0 0 0, .vslu none .fp32 false 1 2 (.s 3)), (wordV 0xC6 1 2 3 0 11 0 0 0 0, .vsld none .fp32 false 1 2 (.s 3)),
    (wordV 0xC7 1 2 3 0 11 0 0 0 0, .vperm none .fp32 false 1 2 3), (wordV 0xCB 1 2 3 0 11 0 0 0 9, .vsts none .fp32 false 1 (.s 2) (.s 3) 9),
    (wordV 0xCC 1 2 3 0 11 0 0 0 9, .vldx none .fp32 false 1 (.s 2) 3 9), (wordV 0xCD 1 2 3 0 11 0 0 0 9, .vstx none .fp32 false 1 (.s 2) 3 9),
    (wordV 0xCE 0 0 0 0 0 0 0 0 0x3F, .vrot none true 31), (wordV 0xCF 0 0 0 0 0 0 0 0 0xA5, .gset 0xA5), (wordV 0xD0 0 2 0 0 0 0 0 0 0, .gstep (.s 2)),
    (wordV 0xD2 0 0 0 0 0 0 0 0 0, .minv none), (wordV 0xD4 1 2 0 0 0 0 0 0 1, .mset none 1 (.pattern (.s 2))),
    (wordV 0xD4 1 0 0 0 0 0 0 0 2, .mset none 1 .top), (wordV 0x62 1 2 3 4 0 0 0 0 5, .dgetv none 1 (.s 2) (.s 3) 4 5)] = true := by decide

theorem test_decode_link_rows : allRead .L [(wordK 0xE0 1 2 0 0 0 0 0xFFFFF, .lslot 1 2 0xFFFFF), (wordK 0xE1 1 0 2 0 0 0 17, .lxmit 1 2 17),
    (wordK 0xE1 1 2 0 0 0 0 0x80000, .lxmitMem 1 2), (wordK 0xE2 1 2 0 0 0 0 0x80000, .lrecvMem 1 2), (wordK 0xE3 4 1 2 12 0 0 0, .lwid false 4 1 2),
    (wordK 0xE4 1 2 3 11 1 1 0, .ladd .rtz true 1 2 3), (wordK 0xE5 1 4 0 14 3 0 7, .lqnt true .sr false 1 4 0 7)] = true := by decide

/-- R41, R26, R37, R35, R40: the words that the chapter on formats gives as illegal, with their subcodes. -/
theorem test_decode_illegal : [(StreamId.A, 0x003C000000000000#64), (.A, 0x0029040420D62000), (.A, 0x000184010200000A), (.X, 0x0029040420DE2000),
    (.A, 0x000184180000000A), (.A, 0x0000F60000000000), (.X, 0x004C050FFFFE0AF8)].map (fun p => match decode p.1 p.2 with
      | .ok _ => 99
      | .error e => e.sub) = [0, 1, 2, 3, 4, 4, 2] := by decide
/-! ## Small states -/

/-- An entry that was filled before. -/
def entry1 (v : Word) : QEntry :=
  { value := v, token := false, due := some 0, filled := some 0, rel := 0, src := 0, ticket := 0 }

def iter1 : Iter := { task := 1, ord := 0, idx := [0], space := 0, lock := false, regchk := false, banks2 := false }

/-- A cached page of 1 GiB at VA 0, readable and writable, on HBM byte 0. -/
def page1 : TlbEntry := { space := 0, gen := 0, va := 0, size := 2 ^ 30, w0 := 0x37, w1 := 0 }

/-- A bank in cycle 10 that holds an iteration, with one filled entry of value 5 in each queue. -/
def bank1 : Bank := { Bank.zero with cycle := 10, started := true, iter := some iter1, q := Vector.replicate 16 [entry1 5] }

/-- Stream `σ` in hand, with a cached page, and every unit ready. -/
def at1 (σ : StreamId) : State :=
  { State.reset with sid := σ, bank := bank1, tlb := [page1], bureau := { Bureau.zero with ready0 := BitVec.allOnes 64 } }

/-- The same with values in s1, s2 and s3. -/
def with3 (σ : StreamId) (x y z : Word) : State :=
  let s := at1 σ
  s.setSt { s.st with s := ((s.st.s.set 1 x).set 2 y).set 3 z }

/-- The next state of `exec i s` meets `f`. -/
def after (i : Instr) (s : State) (f : State → Bool) : Bool :=
  match exec i s with
  | .next t => f t
  | _ => false

/-- `exec i s` leaves `v` in s4. -/
def gives (i : Instr) (s : State) (v : Word) : Bool := after i s fun t => decide (t.reg 4 = v)

/-! ## Scalar words -/

/-- The register forms read registers and queue entries that are ready, and write a register or a queue, s0 among them. -/
theorem witness_RegisterAlu : (at1 .X).block [.q 0, .q 0] [.q 4] ≠ none ∧ (at1 .X).block [.s 0, .q 0] [.q 4] = none ∧
    (at1 .L).block [.s 1, .s 1] [.s 0] = none ∧ (at1 .X).block [.q 3] [.s 31] = none ∧
    (at1 .A).block [.s 31, .q 4, .q 5] [.q 0] = none := by decide

/-- R46: DIV truncates, and by 0 gives all ones; REM has the sign of its dividend, and by 0 gives it. -/
theorem test_div : gives (.div (.s 4) (.s 1) (.s 2)) (with3 .A (-7) 2 0) (-3) = true ∧
    gives (.div (.s 4) (.s 1) (.s 2)) (with3 .A (-7) 0 0) (BitVec.allOnes 64) = true ∧
    gives (.div (.s 4) (.s 1) (.s 2)) (with3 .A (BitVec.ofNat 64 (2 ^ 63)) (-1) 0) (BitVec.ofNat 64 (2 ^ 63)) = true := by decide
theorem test_rem : gives (.rem (.s 4) (.s 1) (.s 2)) (with3 .A (-7) 2 0) (-1) = true ∧
    gives (.remu (.s 4) (.s 1) (.s 2)) (with3 .A 7 0 0) 7 = true ∧
    gives (.rem (.s 4) (.s 1) (.s 2)) (with3 .A (BitVec.ofNat 64 (2 ^ 63)) (-1) 0) 0 = true := by decide

/-- R45: shift amounts are taken modulo 64; a destination that is also a source. -/
theorem test_shifts : gives (.shl (.s 4) (.s 1) (.s 2)) (with3 .A 3 65 0) 6 = true ∧
    gives (.sar (.s 4) (.s 1) (.s 2)) (with3 .A (-8) 2 0) (-2) = true ∧ gives (.shr (.s 4) (.s 1) (.s 2)) (with3 .A (-8) 60 0) 15 = true := by
  decide
theorem test_mulh : gives (.mulh (.s 4) (.s 1) (.s 2)) (with3 .A (-1) 1 0) (-1) = true ∧
    gives (.mulhu (.s 4) (.s 1) (.s 2)) (with3 .A (-1) (-1) 0) (-2) = true := by decide
theorem test_bits : gives (.clz (.s 4) (.s 0)) (at1 .A) 64 = true ∧ gives (.ctz (.s 4) (.s 0)) (at1 .A) 64 = true ∧
    gives (.sext (.s 4) (.s 1) 7) (with3 .A 0x180 0 0) (-128) = true ∧ gives (.bfx (.s 4) (.s 1) 7 8) (with3 .A 0xABCD 0 0) 0xAB = true ∧
    gives (.bfi (.s 4) (.s 1) (.s 2) 15 16) (with3 .A 0xABCD 0x1111222233334444 0) 0x11112222ABCD4444 = true := by decide
theorem test_cmov : gives (.cmov (.s 4) (.s 1) (.s 2) (.s 3)) (with3 .A 1 2 3) 1 = true ∧
    gives (.cmov (.s 4) (.s 1) (.s 2) (.s 0)) (with3 .A 1 2 3) 2 = true := by decide

/-- R6: s0 discards what is written to it. -/
theorem test_s0 : after (.add (.s 0) (.s 1) (.s 2)) (with3 .A 1 2 0) (fun t => decide (t.reg 0 = 0)) = true := by decide

theorem witness_ImmediateAlu : (at1 .N).block [.q 8] [.q 5] = none ∧ (at1 .N).block [] [.q 5] = none := by decide

/-- R48, R49: the immediate is signed; LDHI writes the bits above the lower 24. -/
theorem test_immediates : gives (.addi (.s 4) (.s 1) (-1)) (with3 .A 0 0 0) (-1) = true ∧
    gives (.ldi (.s 4) 0x8000000000) (at1 .A) 0xFFFFFF8000000000 = true ∧
    after (.ldhi 1 0x123456789) (with3 .A 0xABCDEF 0 0) (fun t => decide (t.reg 1 = 0x0123456789ABCDEF)) = true := by decide

/-! ## Conditions, branches and loops -/

theorem witness_ConditionWords : (at1 .A).block [.q 4, .s 1] [] = none ∧ (at1 .A).block [.q 4] [] = none ∧
    (at1 .X).block [.q 0, .q 1] [.q 5] = none ∧ (at1 .X).block [] [.q 7] = none := by decide

/-- The conditions of CSET hold for some operands and not for others. -/
theorem witness_ConditionWords_both : condMeans .lt (-1) 0 ∧ ¬ condMeans .ltu (-1) 0 ∧ condMeans .tst 6 2 ∧ ¬ condMeans .ntst 6 2 := by
  unfold condMeans; decide

/-- R50: a signed and an unsigned comparison. -/
theorem test_cset : gives (.cset .lt (.s 4) (.s 1) (.s 2)) (with3 .A (-1) 0 0) 1 = true ∧
    gives (.cset .ltu (.s 4) (.s 1) (.s 2)) (with3 .A (-1) 0 0) 0 = true := by decide

theorem witness_PrepareWords : (with3 .A 8191 0 0).block [.s 1] [] = none ∧ (with3 .A 8191 0 0).source [] (.s 1) < 8192 ∧
    (with3 .A 8192 0 0).block [.s 1] [] = none ∧ ¬ (with3 .A 8192 0 0).source [] (.s 1) < 8192 := by decide

/-- A state with a word of code, and steer register 1 set, true, with target `t`. -/
def steer1 (t : BitVec 13) : State :=
  let s := at1 .A
  { s.setSt { s.st with k := s.st.k.set 1 { set := true, value := true, target := t, ready := 0 }, pc := 0 } with
    core := { CoreRec.zero with images := [{ sid := .A, tag := 0, va := 0, space := 0, words := [0, 0, 0], len := 3, use := 0, stopped := false }] } }

/-- The same with loop 2 active, ending at word 0, with count `n`. -/
def loop1 (n : BitVec 32) : State :=
  let s := steer1 2
  s.setSt { s.st with l := s.st.l.set 2 { count := n, start := 0, stop := 0 } }

theorem witness_Branches : (at1 .A).st.k[(3 : Fin 12)].set = false ∧
    (loop1 2).st.k[(1 : Fin 12)].set = true ∧ (loop1 2).st.loopAt (loop1 2).st.pc = some 2 ∧
    (steer1 2).st.k[(1 : Fin 12)].set = true ∧ (steer1 2).st.loopAt 0 = none ∧ (steer1 2).st.k[(1 : Fin 12)].value = true ∧
    (steer1 2).st.k[(1 : Fin 12)].target.toNat < (steer1 2).code.length ∧
    (steer1 3).code.length ≤ (steer1 3).st.k[(1 : Fin 12)].target.toNat := by decide

/-- R14: a branch taken, one not taken, and one that names no word of the image. -/
theorem test_br : after (.br 1 true) (steer1 2) (fun t => t.st.pc == 2 && !t.st.k[(1 : Fin 12)].set) = true ∧
    after (.br 1 false) (steer1 2) (fun t => t.st.pc == 1) = true ∧ after (.br 1 true) (steer1 3) (fun t => t.st.cause == 0x0501) = true := by
  decide
theorem test_brl : after (.brl 1 false) (steer1 2) (fun t => decide (t.reg 31 = 1)) = true := by decide

theorem witness_LoopWords : (with3 .A 5 0 0).block [.s 1] [] = none ∧ (0#13).toNat < (with3 .A 5 0 0).st.pc + 1 ∧
    (with3 .A 5 0 0).st.pc + 1 ≤ (1#13).toNat ∧ (loop1 2).st.loopAt (loop1 2).st.pc = some 2 ∧
    (with3 .A 5 0 0).st.loopAt (with3 .A 5 0 0).st.pc = none := by decide

/-- R16: LSET sets its loop and goes on, or with a count of 0 goes on behind the loop. -/
theorem test_lset : after (.lset 1 (.s 1) 5) (with3 .A 3 0 0) (fun t => t.st.pc == 1 &&
      t.st.l[(1 : Fin 4)] == { count := 3, start := 1, stop := 5 } && t.st.order == [1, 0, 2, 3]) = true ∧
    after (.lset 1 (.s 0) 5) (at1 .A) (fun t => t.st.pc == 6) = true := by decide

/-- Loops that repeat, that end, and that do both in turn. -/
theorem witness_LoopEnds : (loop1 2).st.order = [0, 1] ++ (2 : Fin 4) :: [3] ∧
    (∀ m ∈ ([0, 1] : List (Fin 4)), (loop1 2).st.l[m].count = 0) ∧ (loop1 2).st.l[(2 : Fin 4)].stop.toNat = (loop1 2).st.pc ∧
    1 < (loop1 2).st.l[(2 : Fin 4)].count.toNat ∧ ∀ m ∈ (loop1 1).st.order, ¬ 1 < (loop1 1).st.l[m].count.toNat := by decide

/-- R17: a loop repeats with one count less, and ends at 1. -/
theorem test_loop : after .nop (loop1 2) (fun t => t.st.pc == 0 && t.st.l[(2 : Fin 4)].count == 1) = true ∧
    after .nop (loop1 1) (fun t => t.st.pc == 1 && t.st.l[(2 : Fin 4)].count == 0) = true := by decide

/-! ## Traps -/

/-- A stream with a handler at word 7, where no handler runs. -/
def handler1 (σ : StreamId) : State :=
  let s := at1 σ
  s.setSt { s.st with hvecEn := true, hvecTarget := 7 }

theorem witness_TrapEntersHandler : (handler1 .N).HasHandler ∧ (cILLEGAL 14).sub < 256 ∧
    (cILLEGAL 14).code ∈ [0x01, 0x02, 0x03, 0x05, 0x09, 0x0A, 0x0B, 0x0C, 0x0D, 0x0E] := by unfold State.HasHandler; decide

theorem witness_TrapStopsForBureau : ¬ (at1 .A).HasHandler ∧ (0x07 < 256) ∧
    0x07 ∉ [0x01, 0x02, 0x03, 0x05, 0x09, 0x0A, 0x0B, 0x0C, 0x0D, 0x0E] := by unfold State.HasHandler; decide

/-- R338: TRAP enters the handler, and ERET returns behind it. -/
theorem witness_TrapWords : (handler1 .A).HasHandler ∧ ¬ (at1 .A).HasHandler ∧ (at1 .A).st.active = false ∧
    (after (.trap 9) (handler1 .A) fun t => t.st.active && t.st.pc == 7 && t.st.cause == 5 && t.st.tval == 9 &&
      after .eret t (fun u => !u.st.active && u.st.pc == 1)) = true := by unfold State.HasHandler; decide

/-! ## Queues, rendezvous and barriers -/

/-- The bank with one entry in q5, due in cycle `c`, and stream A exited or not. -/
def queue1 (q : Fin 16) (c : Option Nat) (gone : Bool) : State :=
  let s := at1 .A
  { s with bank := { s.bank with
      q := s.bank.q.set q [{ entry1 8 with due := c, filled := none }], a := { s.bank.a with exited := gone } } }

theorem witness_QueueFill : ((5 : Fin 16).val < 12 ∧ ((queue1 5 (some 10) true).streamAt (qConsumer (5 : Fin 16))).exited = true) ∧
    ¬ ((12 : Fin 16).val < 12 ∧ ((queue1 12 (some 10) true).streamAt (qConsumer (12 : Fin 16))).exited = true) ∧
    ∃ e, (queue1 12 (some 10) true).bank.q[(12 : Fin 16)][0]? = some e ∧ e.filled = none ∧ e.due = some 10 :=
  ⟨by decide, by decide, _, rfl, rfl, rfl⟩

/-- R121: an entry fills in the cycle in which it is due, not before. -/
theorem test_queueFill : after (.queueEntryFill 5) (queue1 5 (some 10) false) (fun t => t.bank.q[(5 : Fin 16)].map QEntry.filled == [some 10]) = true ∧
    after (.queueEntryFill 5) (queue1 5 (some 11) false) (fun t => t.bank.q[(5 : Fin 16)].map QEntry.filled == [none]) = true := by decide

theorem witness_QueueWords : (∃ e l c, (at1 .X).bank.q[(0 : Fin 16)] = e :: l ∧ e.filled = some c ∧ c < (at1 .X).qNow (0 : Fin 16)) ∧
    State.reset.bank.q[(0 : Fin 16)] = [] ∧ (at1 .X).block [] [.s 1] = none ∧ (at1 .X).block [] [.q 4] = none := 
  ⟨⟨_, _, _, rfl, rfl, by decide⟩, rfl, by decide, by decide⟩

/-- R129: QTRY without an entry that is ready writes no register. -/
theorem test_qtry : after (.qtry 2 12 4) (queue1 12 (some 11) false) (fun t => t.st.k[(2 : Fin 12)].set && !t.st.k[(2 : Fin 12)].value &&
      t.reg 4 == 0 && t.bank.q[(12 : Fin 16)].length == 1) = true ∧
    after (.qtry 2 12 4) (at1 .A) (fun t => t.st.k[(2 : Fin 12)].value && t.reg 4 == 5 && t.bank.q[(12 : Fin 16)] == []) = true := by decide

/-- A bank whose group slot 1 has a descriptor and has seen 3 phases, and whose streams are at JOIN. -/
def joins1 : State :=
  let s := at1 .A
  let j (t : Stream) : Stream := { t with wait := some .join }
  { s with bank := { s.bank with a := j s.bank.a, x := j s.bank.x, n := { s.bank.n with exited := true }, phase := s.bank.phase.set 1 (some 3) } }

theorem witness_StreamWords : (at1 .A).ownReady ≤ (at1 .A).now ∧ (at1 .A).bank.phase[(0 : Fin 4)] = none ∧
    joins1.bank.phase[(1 : Fin 4)] = some 3 ∧ joins1.ownReady ≤ joins1.now ∧ (at1 .X).drained = true ∧ (at1 .X).pushesOpen = false ∧
    (at1 .X).st.exited = false ∧ (∃ k ∈ [StreamId.A, .X, .N], (joins1.streamAt k).exited = false) ∧
    (∀ k ∈ [StreamId.A, .X, .N], (joins1.streamAt k).exited = false → (joins1.streamAt k).wait = some .start ∨ (joins1.streamAt k).wait = some .join) ∧
    (let early : Early := { bank := 0, by_ := .A, due := 12, cells := cellsAt 0 [1] }
     let s := { at1 .A with core := { CoreRec.zero with early := [early] } }
     s.now < s.ownReady) := by decide

/-- R127: the streams at the rendezvous go on; one that has exited stays. -/
theorem test_join : after .rendezvousRelease joins1 (fun t => t.bank.a.wait == none && t.bank.a.pc == 1 && t.bank.x.pc == 1 && t.bank.n.pc == 0) = true := by
  decide

/-! ## Control registers -/

theorem witness_ControlRegisterReads : (at1 .L).block [] [.s 1] = none ∧ (at1 .X).block [] [.q 5] = none ∧ (at1 .L).sid = .L ∧ (at1 .X).sid = .X ∧
    (0xFFF#12).toNat ∉ [0x000, 0x010, 0x011, 0x012, 0x070, 0x071] ∧ (0xFFF#12).toNat ∉ [0x013, 0x030, 0x031, 0x032, 0x040, 0x041, 0x050, 0x051] ∧
    ¬ (0x100 ≤ (0xFFF#12).toNat ∧ (0xFFF#12).toNat < 0x130) ∧ (0xFFF#12).toNat ∉ [0x020, 0x021, 0x022, 0x023] := by decide

theorem test_crr : gives (.crr (.s 4) 0x000) (at1 .A) 10 = true ∧ gives (.crr (.s 4) 0x040) (at1 .A) 1 = true ∧
    after (.crr (.s 4) 0x020) (at1 .A) (fun t => t.st.cause == 0x0901 && t.st.tval == 0x020) = true := by decide

/-- Both kinds of BFMT value occur: bf16 with BLK 32 is none, e4m3 with it is one. -/
theorem witness_ControlRegisterWrites : (with3 .X 10 0 0).block [.s 1] [] = none ∧ (at1 .N).sid = .N ∧
    after (.crw (.s 1) 0x100) (with3 .X 0x3FFF 0 0) (fun t => t.st.cause == 0x0D01) = true ∧
    after (.crw (.s 1) 0x10F) (with3 .X 12 0 0) (fun t => t.bank.bfmt[(15 : Fin 16)] == 12) = true ∧
    (¬ ((0x041#12) = 0x013 ∨ (0x041#12) = 0x031)) := by decide

theorem test_crw : after (.crw (.s 1) 0x050) (with3 .N 0xFF 0 0) (fun t => t.bank.pstat == 0xFD) = true ∧
    after (.crw (.s 1) 0x041) (with3 .A 1 0 0) (fun t => t.st.cause == 0x0901) = true := by decide

/-! ## Memory words -/

/-- What a route is: 0 a cause, 1 the core's own banks, 2 away, 3 a fill, 4 the core's own banks through its core-n window. -/
def kindOf (r : Except Cause (Route × State)) : Nat :=
  match r with
  | .error _ => 0
  | .ok (.own _ _, _) => 1
  | .ok (.away _, _) => 2
  | .ok (.fill _ _ _, _) => 3
  | .ok (.across _, _) => 4

/-- Addresses: in the self window, in core 0's own and in core 1's scratchpad, on the cached page, and where there is no page. -/
def vSelf : Word := 0x00FFFF0000000100
def vOwn : Word := 0x00FFFE0000000100
def vCore : Word := 0x00FFFE0000400100
def vPage : Word := 0x2000
def vNone : Word := 0x80000000

/-- The state with map entry 0 on VA 0x2000 and scratchpad 0, whose granule is not filled. -/
def unfilled1 (x y z : Word) : State :=
  let s := with3 .A x y z
  let e : MapEntry := { valid := true, vabase := 0x2000, spbase := 0, len := 2, rw := true, cls := 0, filled := [], written := [] }
  { s with bank := { s.bank with map := s.bank.map.set 0 e } }

/-- The last aligned address of each size is of the form, and the next is not. -/
theorem witness_AddressTraps : (with3 .A (BitVec.ofNat 64 (2 ^ 56)) 0 0).block [.s 1, .s 1, .s 1] [.s 4] = none ∧
    2 ^ 56 < ((BitVec.ofNat 64 (2 ^ 56 - 8) : Word) + (1#20).signExtend 64).toNat + 8 ∧
    ¬ 2 ^ 56 < (BitVec.ofNat 64 (2 ^ 56 - 8) : Word).toNat + 8 ∧ ((0x1001 : Word) + (1#20).signExtend 64).toNat % 4 ≠ 0 := by decide

/-- R20: a misaligned address is TVAL of ALIGN, and one that is not of the form comes first. -/
theorem test_align : after (.ld .w false (.s 4) (.s 1) (-1) 0) (with3 .A 0x1000 0 0) (fun t => t.st.cause == 0x02 && t.st.tval == 0xFFF) = true ∧
    after (.ld .w false (.s 4) (.s 1) 0 0) (with3 .A 0x0100000000000001 0 0) (fun t => t.st.cause == 0x03) = true := by decide

theorem witness_ScalarLoads : kindOf (((with3 .A vSelf 0 0).after [.s 1]).route vSelf.toNat 8 false false) = 1 ∧
    kindOf (((with3 .A vOwn 0 0).after [.s 1]).route vOwn.toNat 8 false false) = 4 ∧
    kindOf (((with3 .A vCore 0 0).after [.s 1]).route vCore.toNat 8 false false) = 2 ∧
    kindOf (((unfilled1 vPage 0 0).after [.s 1]).route vPage.toNat 8 false false) = 3 ∧
    kindOf (((with3 .A vPage 0 0).after [.s 1]).route vPage.toNat 8 false false) = 2 ∧
    kindOf (((with3 .A vNone 0 0).after [.s 1]).route vNone.toNat 8 false false) = 0 ∧
    (with3 .A vSelf 0 0).ownHeld 0 false [(0x100, 8)] = false ∧ (with3 .A vSelf 0 0).bank.pend = false ∧ vSelf.toNat + 8 ≤ 2 ^ 56 ∧ vSelf.toNat % 8 = 0 := by decide

/-- A stream whose store to the word at 0x100 of its own banks is not readable yet, with PEND.EN set. -/
def pending1 : State :=
  let s := with3 .A vSelf 0 0
  { s with bank := { s.bank with pend := true }
           core := { s.core with early := [{ bank := 0, by_ := .A, due := 20, cells := cellsAt 0x104 [1] }] } }

theorem witness_ScalarLoads_early : kindOf ((pending1.after [.s 1]).route vSelf.toNat 8 false false) = 1 ∧ pending1.ownHeld 0 false [(0x100, 8)] = false ∧
    pending1.earlyWord (upFrom 0x100 8) = some 0x20 ∧ pending1.earlyWord (upFrom 0x108 8) = none := by decide

/-- A stream with a FENCE of class 0 in progress. -/
def fencing1 : State := (with3 .A vSelf 0 0).setSt { (with3 .A vSelf 0 0).st with fences := [{ mask := 1, scope := .core, ord := 0, dst := .s 3 }] }

theorem witness_ScalarLoads_wait : kindOf ((fencing1.after [.s 1]).route vSelf.toNat 8 false false) = 1 ∧ fencing1.ownHeld 0 false [(0x100, 8)] = true ∧
    kindOf ((fencing1.after [.s 1, .s 2]).route vSelf.toNat 8 true false) = 1 := by decide

/-- R58: a load of a byte extends its sign, or not; the byte order is little-endian. -/
theorem test_ld : (let s := { with3 .A vSelf 0 0 with mem := [(scratchLoc 0 0x100, 0x80), (scratchLoc 0 0x101, 0x01)] }
    gives (.ld .b true (.s 4) (.s 1) 0 0) s (-128) && gives (.ld .h false (.s 4) (.s 1) 0 0) s 0x0180) = true := by decide

theorem witness_ScalarStores : kindOf (((with3 .A vSelf 0 0).after [.s 1, .s 2]).route vSelf.toNat 8 true false) = 1 ∧
    kindOf (((with3 .A vOwn 0 0).after [.s 1, .s 2]).route vOwn.toNat 8 true false) = 4 ∧
    kindOf (((unfilled1 vPage 0 0).after [.s 1, .s 2]).route vPage.toNat 8 true false) = 3 ∧ (unfilled1 0 0 0).fillFault 0 0 = none ∧
    (State.fillFault { unfilled1 0 0 0 with bank := { (unfilled1 0 0 0).bank with
      fills := [{ entry := 0, granule := 0, sid := .A, ord := 0, fault := some (0x07, 2) }] } } 0 0) = some (0x07, 2) ∧
    kindOf (((with3 .A vPage 0 0).after [.s 1, .s 2]).route vPage.toNat 8 true false) = 2 ∧
    kindOf (((with3 .A vNone 0 0).after [.s 1, .s 2]).route vNone.toNat 8 true false) = 0 := by decide

/-- R189: the bytes of a store to the own banks are there 3 cycles later; a distant one is in its lane. -/
theorem test_st : after (.st .h (.s 2) (.s 1) 0 3) (with3 .A vSelf 0xABCD 0) (fun t => t.core.early ==
      [{ bank := 0, by_ := .A, ord := 0, cls := 3, due := 13, cells := cellsAt 0x100 [0xCD, 0xAB] }] && t.mem == []) = true ∧
    after (.st .h (.s 2) (.s 1) 0 3) (with3 .A vPage 0xABCD 0) (fun t => t.flight.map (fun x => (x.cls, x.ord)) == [(3, 0)]) = true := by decide

/-- The state with a FENCE of every class. -/
def fenced (s : State) : State := s.setSt { s.st with fences := [{ mask := -1, scope := .device, ord := 0, dst := .s 0 }] }

def plainForm : AtomicForm := { size := 8, reads := true, writes := true, sc := false, host := true }
def scForm : AtomicForm := { size := 8, reads := true, writes := false, sc := true, host := false }

/-- The state with a position of the wheel. -/
def wheel1 (x : Word) : State := let s := with3 .A x 0 0; { s with bank := { s.bank with wheelCount := 1, wheelStride := 1 } }

theorem witness_AtomicWords : kindOf (((with3 .A vSelf 0 0).after [.s 1, .s 2]).atomicCheck plainForm vSelf) = 1 ∧
    kindOf (((with3 .A vOwn 0 0).after [.s 1, .s 2]).atomicCheck plainForm vOwn) = 4 ∧
    (fenced (with3 .A vOwn 0 0)).stepHeld 0 0x100 8 = some (.ext .access) ∧ kindOf (((fenced (with3 .A vOwn 0 0)).after [.s 1, .s 2]).atomicCheck plainForm vOwn) = 4 ∧
    kindOf (((with3 .A vPage 0 0).after [.s 1, .s 2]).atomicCheck plainForm vPage) = 2 ∧
    kindOf (((with3 .A vNone 0 0).after [.s 1, .s 2]).atomicCheck plainForm vNone) = 0 ∧ (with3 .A vSelf 0 0).stepHeld 0 0x100 8 = none ∧
    pending1.stepHeld 0 0x100 8 = some .result ∧ (with3 .A vSelf 0 0).flawedOwn 0x100 8 = false ∧
    (State.flawedOwn { with3 .A vSelf 0 0 with flaws := [(scratchLoc 0 0x104, 1)] } 0x100 8) = true ∧
    (with3 .A vSelf 0 0).block [.s 1, .s 2, .s 3] [.s 4] = none ∧ (with3 .A vSelf 0 0).mem.wf = true := by decide

/-- R261: a 4-byte AMO gives the old value, sign-extended, and MINU zero-extended. -/
theorem test_amo : (let s := { with3 .A vSelf (-1) 0 with mem := [(scratchLoc 0 0x103, 0x80)] }
    gives (.amo .add false .plain (.s 4) (.s 1) (.s 2) 0) s 0xFFFFFFFF80000000 &&
    gives (.amo .minu false .plain (.s 4) (.s 1) (.s 2) 0) s 0x80000000 &&
    after (.amo .add false .plain (.s 4) (.s 1) (.s 2) 0) s (fun t => t.mem.readN (scratchLoc 0 0x100) 4 == [0xFF, 0xFF, 0xFF, 0x7F])) = true := by
  decide

/-- R262: CAS stores where the old value is the one compared. -/
theorem test_cas : (let s := { with3 .A vSelf 7 9 with mem := [(scratchLoc 0 0x100, 7)] }
    after (.cas true .plain (.s 4) (.s 1) (.s 2) (.s 3) 0) s (fun t => t.mem == [(scratchLoc 0 0x100, 9)] && t.reg 4 == 7) &&
    after (.cas true .plain (.s 4) (.s 1) (.s 3) (.s 2) 0) s (fun t => t.mem == [(scratchLoc 0 0x100, 7)] && t.reg 4 == 7)) = true := by decide

theorem witness_ScWords : kindOf (((wheel1 vPage).after [.s 1]).atomicCheck scForm vPage) = 2 ∧
    kindOf (((wheel1 vNone).after [.s 1]).atomicCheck scForm vNone) = 0 ∧ (with3 .A vPage 0 0).bank.wheelCount = 0 ∧
    (wheel1 vPage).block [.s 1, .s 2] [] = none ∧ (wheel1 vPage).block [.s 1] [.s 4] = none := by decide

/-! ## Fences, events and keys -/

/-- Address space 0 with both privileges. -/
def priv1 (x : Word) : State := { with3 .A x 0 0 with spaces := [(0, { root := 0, gen := 0, priv := 3 })] }

/-- A command in its FIFO. -/
def cmd1 (i : Instr) (acc done : Bool) : Cmd :=
  { bank := 0, task := 1, ord := 3, word := 0, instr := i, vals := [0x2000, 0x3000, 64, 0], more := [], rel := 0, accepted := acc, from_ := 0
    checked := true, epc := 0, loops := Vector.replicate 4 Loop.zero, undo := [], dest := 0x2000, slot := none, bfmt := Vector.replicate 16 0
    srseed := 0, lanes := [], off := 0, walk := [], data := [], blocks := [], count := 64, bytes := 64, flags := 0, status := 0
    ovf := false, long := false, short := false, hole := false, held := false, done := done, slots := [], space := 0, spaceGen := 0
    stopped := false }

def cpy1 (cb : Bool) : Instr := .cpy cb false (.s 1) (.s 2) (.s 3) (.s 0) ⟨0, 1, true, 0⟩

/-- The state with a command in the copy engine's FIFO. -/
def engine1 (i : Instr) (acc done : Bool) : State :=
  { with3 .A 0 64 2 with core := { CoreRec.zero with copyQ := [cmd1 i acc done] } }

theorem witness_RetiringWords : (with3 .A 1 0 0).block [.s 1] [.s 4] = none ∧ (BitVec.ofNat 64 65536).setWidth 16 = 0#16 ∧
    (1#64).setWidth 16 ≠ 0#16 ∧ ((priv1 1).spaceAt (priv1 1).space).priv.getLsbD 0 = true ∧
    ((with3 .A 65535 0 0).spaceAt 0).priv.getLsbD 0 = false ∧ ((priv1 1).spaceAt (priv1 1).space).priv.getLsbD 1 = true ∧
    (((engine1 (cpy1 false) true false).core.copyQ).any fun c => c.bank == 0 && c.accepted) = true ∧
    (((engine1 (cpy1 false) false false).core.copyQ).any fun c => c.bank == 0 && c.accepted) = false := by decide

/-- KEYS is set or clear, and the privilege is held or not (log 92, DEDUCED). -/
theorem witness_RetiringWords_keys : (priv1 1).bureau.ready0.getLsbD 28 = true ∧
    (State.bureau { priv1 1 with bureau := Bureau.zero }).ready0.getLsbD 28 = false := by decide

/-- R264, R351: a FENCE of no class is done; KEYKILL of slot 65,536 has no operand, and without the privilege it is refused. -/
theorem test_fence : gives (.fence .device (.s 4) (.s 1)) (with3 .A 0x10000 0 0) 0 = true := by decide
theorem test_keykill : after (.keykill (.s 4) (.s 1)) (priv1 65536) (fun t => t.st.cause == 0x0E01) = true ∧
    after (.keykill (.s 4) (.s 1)) (with3 .A 1 0 0) (fun t => t.st.cause == 0x0307) = true := by decide

/-- R297: ECANCEL takes out the commands that are not accepted and gives their number. -/
theorem test_ecancel : gives (.ecancel .both (.s 4)) (engine1 (cpy1 false) false false) 1 = true ∧
    after (.ecancel .both (.s 4)) (engine1 (cpy1 false) true false) (fun t => t.core.copyQ.length == 1 && t.retires.length == 1) = true := by decide

/-- WAITEV with a bad mask, with an event, past the deadline, and before it. -/
theorem witness_EventWait : (with3 .A 1 0 0).block [.s 1, .s 2] [.s 4] = none ∧ qConsumer (0 : Fin 16) ≠ .A ∧ (1#64).getLsbD 0 = true ∧
    ((with3 .A 16 0 0).bank.q[(4 : Fin 16)].any fun e => e.filled.isSome) = true ∧ qConsumer (4 : Fin 16) = .A ∧
    (at1 .A).bank.cb[(7 : Fin 8)].done = (at1 .A).bank.cb[(7 : Fin 8)].taken ∧ (1 : Word) ≠ 0 ∧ (1 : Word).toNat ≤ (at1 .A).bank.cycle ∧
    (at1 .A).bank.cycle < (11 : Word).toNat := by decide

/-- WAITEV without a deadline: a command still to come names barrier 1 (X waits too while A may act), no command does, and A is stuck itself. -/
theorem witness_EventWait_never : ((engine1 (cpy1 false) true false).cmds.any fun x => barrierOf x.instr == some 1) = true ∧
    (at1 .A).cmds = [] ∧ (∃ c v, State.popBlock { at1 .X with bank := { bank1 with q := Vector.replicate 16 [], a := { bank1.a with exited := true } } } 1 0 =
      some (.trap c v)) ∧ (at1 .X).aStuck = false ∧
    (State.aStuck { at1 .X with bank := { bank1 with a := { bank1.a with exited := true } } }) = true :=
  ⟨by decide, by decide, ⟨_, _, by rfl⟩, by decide, by decide⟩

theorem test_waitev : gives (.waitev (.s 4) (.s 1) (.s 2)) (with3 .A 16 0 0) 16 = true ∧
    gives (.waitev (.s 4) (.s 1) (.s 2)) (with3 .A (2 ^ 31) 10 0) (BitVec.ofNat 64 (2 ^ 63)) = true ∧
    after (.waitev (.s 4) (.s 1) (.s 2)) (with3 .A (2 ^ 31) 11 0) (fun t => t.st.wait == some (.ext .event)) = true ∧
    after (.waitev (.s 4) (.s 1) (.s 2)) (with3 .A (2 ^ 32) 11 0) (fun t => t.st.cause == 0x0E01) = true := by decide

/-! ## Digests -/

def dir1 : DirEntry := { handle := 1, space := 0, va := 0x2000, ext := 4096, kind := 1, ty := .int8, grain := 64, seed := 0, dim := 0, slot := 0, gen := 0 }

/-- The state with a BOUNDS region at VA 0x2000 whose first block holds -1 and 3 as its bounds. -/
def digest1 (x y z : Word) : State :=
  { with3 .X x y z with dir := [dir1], slots := [(0x2000, { handle := 1, lo := -1, hi := 3, tag := 3 })], handles := 1 }

/-- What the digest parts are: none where there is a fault, else their number. -/
def partsOf (s : State) (va n : Nat) (wr : Bool) : Option Nat :=
  match s.digestParts va n wr with
  | .ok (l, _) => some l.length
  | .error _ => none

theorem witness_DigestWords : partsOf ((digest1 0x2000 1 0).after [.s 1]) 0x2000 1 false = some 1 ∧
    partsOf ((digest1 vSelf 1 0).after [.s 1]) vSelf.toNat 1 false = some 0 ∧ partsOf ((digest1 vNone 1 0).after [.s 1]) vNone.toNat 1 false = none ∧
    partsOf ((digest1 0x2000 1 0).after [.s 1, .s 2]) 0x2000 (min 1 65536) true = some 1 ∧
    partsOf ((digest1 vSelf 1 0).after [.s 1, .s 2]) vSelf.toNat (min 1 65536) true = some 0 ∧
    partsOf ((digest1 0x2000 1 0).after [.s 1, .s 2, .s 3]) 0x2000 (min 1 1024) false = some 1 ∧
    partsOf ((digest1 vSelf 0 0).after [.s 1, .s 2, .s 3]) vSelf.toNat (min 0 1024) false = some 0 ∧
    (digest1 0x2000 1 0).block [.s 1] [.s 4, .s 5, .s 6] = none ∧ (digest1 0x2000 1 0).block [.s 1, .s 2, .s 3] [] = none ∧
    (at1 .X).bank.vec.gates.getLsbD 0 = false ∧ (0x2000 : Word).toNat < 2 ^ 56 := by decide

/-- No block, and a first block that faults. -/
theorem witness_DigestWords_traps : (0 : Nat) = 0 ∧ vSelf.toNat / 2 ^ 48 = 0xFF ∧
    (match ((digest1 vNone 1 0).after [.s 1, .s 2]).digestParts vNone.toNat (min 1 65536) true with
      | .ok _ => false
      | .error _ => true) = true ∧
    (match ((digest1 vNone 1 0).after [.s 1, .s 2, .s 3]).digestParts vNone.toNat (min 1 1024) false with
      | .ok _ => false
      | .error _ => true) = true ∧ 2 ^ 56 ≤ (BitVec.ofNat 64 (2 ^ 56)).toNat := by decide

/-- R219: a block without a digest gives zeros. -/
theorem test_dget : after (.dget (.s 4) (.s 1) (.s 5) (.s 6) 0) (with3 .X vSelf 7 7) (fun t => t.reg 4 == 0 && t.flight == []) = true := by decide

/-! ## Region maps, buffers and barriers -/

/-- The state with map entry 0 on VA 0x2000 and scratchpad 0, with written bytes or none. -/
def map1 (x y z : Word) (written : List Nat) : State :=
  let s := with3 .A x y z
  let e : MapEntry := { valid := true, vabase := 0x2000, spbase := 0, len := 2, rw := true, cls := 0, filled := [(0, (0, 0))], written := written }
  { s with bank := { s.bank with map := s.bank.map.set 0 e } }

/-- The same with a write-back of 8 bytes that has come to its end. -/
def wbDone (by_ : WbBy) : State :=
  let s := map1 0x4000 0x4000 1 []
  { s with bank := { s.bank with wb := some { by_ := by_, left := [], sent := 8, stopped := false } } }

theorem witness_MapWords : (with3 .A 0x2000 0 2).block [.s 1, .s 2, .s 3] [] = none ∧
    0x2001 % 2048 ≠ 0 ∧ (0x00FF000000000000 : Nat) / 2 ^ 48 = 0xFF ∧ 2 ^ 22 < 0x3FF800 + 2048 * 2 ∧ 2048 < 2049 ∧
    (map1 0x2800 0x10000 1 []).bank.map[(0 : Fin 16)].valid = true ∧ (0x2000 < 0x2800 + 1 * 2048 ∧ 0x2800 < 0x2000 + 2 * 2048) ∧
    (map1 0 0 0 []).bank.map[(1 : Fin 16)].valid = false ∧ (map1 0 0 0 []).mapQuiet 0 = true ∧ (map1 0 0 0 []).bank.wb = none ∧
    (map1 0 0 0 []).bank.map[(0 : Fin 16)].written = [] ∧ (map1 0 0 0 [4]).bank.map[(0 : Fin 16)].written ≠ [] ∧ (map1 0 0 0 [4]).mapQuiet 0 = true ∧
    (State.mapQuiet { map1 0 0 0 [] with bank := { (map1 0 0 0 []).bank with
      fills := [{ entry := 0, granule := 0, sid := .X, ord := 0, fault := none }] } } 0) = false ∧
    (wbDone .rmap).sentBack = true ∧ (wbDone .rmap).bank.wb = some { by_ := .rmap, left := [], sent := 8, stopped := false } ∧
    (wbDone .rmap).mapQuiet 0 = true ∧ (wbDone .rmap).bank.map[(0 : Fin 16)].valid = true ∧
    (wbDone .rsync).bank.wb = some { by_ := .rsync, left := [], sent := 8, stopped := false } ∧
    (wbDone .rsync).block [] [.s 4] = none ∧
    (map1 0 0 0 []).block [] [.s 4] = none := by decide

/-- R265: a VA range that another entry has is refused with TVAL a; else the entry is empty. -/
theorem test_rmap : after (.rmap true (.s 1) (.s 2) (.s 3) 1 4) (map1 0x2800 0x10000 1 []) (fun t => t.st.cause == 0x0E01 && t.st.tval == 0x2800) = true ∧
    after (.rmap true (.s 1) (.s 2) (.s 3) 1 4) (map1 0x3000 0x10000 1 []) (fun t => t.bank.map[(1 : Fin 16)] ==
      { valid := true, vabase := 0x3000, spbase := 0x10000, len := 1, rw := true, cls := 4, filled := [], written := [] }) = true := by decide
theorem test_rsync : gives (.rsync (.s 4) none) (map1 0 0 0 []) 0 = true ∧
    after (.rsync (.s 4) none) (map1 0 0 0 [4]) (fun t => t.st.wait == some (.ext .access) && t.bank.wb.isSome) = true := by decide

/-- The state with buffer 1 of 2 slots of 64 bytes at offset 0x400, with DONE and TAKEN, and barrier 1 with EXPECT. -/
def buffer1 (σ : StreamId) (done taken : Nat) (expect : BitVec 40) (x y z : Word) : State :=
  let s := with3 σ x y z
  { s with bank := { s.bank with
      cb := s.bank.cb.set 1 { base := 0x400, slot := 64, count := 2, taken := taken, done := done, put := done }
      abexp := s.bank.abexp.set 1 expect } }

/-- The state with a command of number 3 that names buffer 1 or barrier 0, and a stream that waits or does not. -/
def behind1 (i : Instr) (w : Option Wait) : State :=
  let s := with3 .A 0x400 64 2
  let t := s.setSt { s.st with wait := w }
  { t with issued := 4, core := { CoreRec.zero with copyQ := [{ cmd1 i true false with vals := [1, 0, 0, 0] }] } }

theorem witness_BufferWords : (with3 .A 0x400 64 2).block [.s 1, .s 2, .s 3] [] = none ∧ 2 ^ 22 < 0x3FFFC0 + 64 * 2 ∧
    (with3 .A 0 0 0).namesBuffer 1 = false ∧ (with3 .A 0 0 0).pushedBefore 1 = 0 ∧ (engine1 (cpy1 true) false false).block [.s 1, .s 2, .s 3] [] = none ∧
    ({ engine1 (cpy1 true) false false with core := { CoreRec.zero with copyQ := [{ cmd1 (cpy1 true) false false with vals := [1, 0, 0, 0] }] } }
      : State).namesBuffer 1 = true ∧
    (buffer1 .A 1 0 0 0 0 0).bank.cb[(1 : Fin 8)].count ≠ 0 ∧ (buffer1 .A 1 0 0 0 0 0).bank.cb[(1 : Fin 8)].done ≠ (buffer1 .A 1 0 0 0 0 0).bank.cb[(1 : Fin 8)].taken ∧
    (buffer1 .A 1 0 0 0 0 0).ownReady ≤ (buffer1 .A 1 0 0 0 0 0).now ∧ (with3 .A 0 0 0).namesBarrier 1 = false ∧
    ((engine1 (cpy1 false) true false).namesBarrier 1 = true ∧ (0#40).toNat ≤ (at1 .A).bank.abarr[(0 : Fin 8)].toNat) ∧
    (buffer1 .A 0 0 1 0 0 0).bank.abarr[(1 : Fin 8)].toNat < (buffer1 .A 0 0 1 0 0 0).bank.abexp[(1 : Fin 8)].toNat ∧
    (BitVec.ofNat 64 (2 ^ 40)).toNat ≥ 2 ^ 40 ∧
    (behind1 (cpy1 true) none).pushedBefore 1 = 4 ∧
    ((behind1 (cpy1 true) none).cmds.any fun x => x.buffer == some 1 && decide (x.ord < 4)) = true ∧
    ((behind1 (cpy1 false) none).cmds.any fun x => barrierOf x.instr == some 1 && decide (x.ord < 4)) = true ∧
    ((behind1 (cpy1 false) (some (.ext (.phase 1 3 5)))).cmds.any fun x => barrierOf x.instr == some 1 && decide (x.ord < 3)) = false ∧
    (behind1 (cpy1 false) (some (.ext (.phase 1 3 5)))).carriedOver 1 = 5 := by decide

/-- R269, R270, R271: the slot at TAKEN, and TAKEN one further, modulo a multiple of COUNT. -/
theorem test_cbwait : gives (.cbwait 1 (.s 4)) (buffer1 .A 3 1 0 0 0 0) 0x440 = true ∧
    after (.cbwait 1 (.s 4)) (buffer1 .A 1 1 0 0 0 0) (fun t => t.st.cause == 0x0B01 && t.st.tval == 0x21) = true := by decide
theorem test_cbrel : after (.cbrel 1) (buffer1 .A 0 65535 0 0 0 0) (fun t => t.bank.cb[(1 : Fin 8)].taken == 0) = true := by decide
theorem test_abwait : after (.abwait 1) (buffer1 .A 0 0 1 0 0 0) (fun t => t.st.cause == 0x0B01 && t.st.tval == 0x29) = true ∧
    after (.abset 1 (.s 1)) (buffer1 .A 0 0 1 9 0 0) (fun t => t.bank.abexp[(1 : Fin 8)] == 9) = true := by decide

/-! ## Engine commands -/

/-- The FIFO of an engine with 8 commands. -/
def full1 : State := { with3 .A 0x2000 0x3000 64 with core := { CoreRec.zero with copyQ := List.replicate 8 (cmd1 (cpy1 false) false false) } }

/-- Each command of the table passes its checks for some operands, waits on a full FIFO, and is refused for others. -/
theorem witness_EngineCommands : (with3 .A 0x2000 0x3000 64).block (cpy1 false).reads [] = none ∧
    (with3 .A 0x2000 0x3000 64).cmdBad (cpy1 false) [0x2000, 0x3000, 64, 0] [] = none ∧ (with3 .A 0x2000 0x3000 64).core.copyQ.length < 8 ∧
    8 ≤ full1.core.copyQ.length ∧ (with3 .A 0x2000 0x3000 64).cmdBad (cpy1 false) [0x2000, 0x3000, 0x10000000000, 0] [] = some 0x10000000000 ∧
    (at1 .A).cmdBad (.btinv true (.s 1) (.s 2)) [0, 8, 2, 0] [] = none ∧
    (at1 .A).cmdBad (.gath .w (.s 1) (.s 2) (.s 3) 4 ⟨0, 0, false, 0⟩) [0x2000, 0x3000, 0x4000, 8] [0, 0, 16] = none ∧
    (at1 .A).cmdBad (.gath .w (.s 1) (.s 2) (.s 3) 4 ⟨0, 0, false, 0⟩) [0x2000, 0x3000, 0x4000, 8] [0, 0, 0] = some 0 := by decide

theorem test_cpy : after (cpy1 false) (with3 .A 0x2000 0x3000 64) (fun t => t.core.copyQ.map (fun c => (c.vals, c.accepted)) ==
      [([0x2000, 0x3000, 64, 0], false)]) = true ∧ after (cpy1 false) full1 (fun t => t.st.wait == some (.ext .engine)) = true := by decide

/-! ## The panel -/

theorem witness_PanelConfiguration : (with3 .N 1 0 (-1)).block [.s 1, .s 2, .s 3] [] = none ∧ (1 ≤ (1 : Word).toNat ∧ (65535 : Word).toNat ≤ 65535) ∧
    (-2 ^ 31 ≤ (-1 : Word).toInt ∧ (-1 : Word).toInt < 2 ^ 31) ∧ ¬ ((BitVec.ofNat 64 (2 ^ 31)).toInt < 2 ^ 31) ∧ ¬ (65536 : Word).toNat ≤ 65535 ∧
    2 ^ 56 ≤ (BitVec.ofNat 64 (2 ^ 56)).toNat ∧ (4 : Word).toNat % 4 = 0 ∧ (2 : Word).toNat % 4 ≠ 0 := by decide

theorem test_nlvl : after (.nlvl 0 (.s 1) (.s 2) (.s 3)) (with3 .N 4 0x0000000500000006 (-8)) (fun t => t.bank.shadow.lev[(0 : Fin 7)] ==
      { bound := 4, sa := 6, sb := 5, sc := -8 }) = true ∧
    after (.nlvl 6 (.s 1) (.s 2) (.s 3)) (with3 .N 1 0 0) (fun t => t.st.cause == 0x0E01 && t.st.tval == 1) = true := by decide

/-- A nest of bank `b`, with another number than the next. -/
def nest1 (b : Nat) : ActiveNest :=
  { id := 9, cfg := Nest.zero, bank := b, word := 0, rel := 0, from_ := 0, scales := some [], next := some [0, 0, 0, 0, 0, 0], drained := 0, flags := 0, status := 0 }

/-- The state with nests on the panel. -/
def panel1 (l : List ActiveNest) (p : Option ActiveNest) (x : Word) : State :=
  { with3 .N x 0 0 with core := { CoreRec.zero with panel := { Panel.zero with nests := l, pending := p } } }

/-- A block with MAGIC and nothing else, at scratchpad offset 0. -/
def block1 : State := { panel1 [] none 0x00FFFF0000000000 with
  mem := [(scratchLoc 0 0x29100, 0x50), (scratchLoc 0 0x29101, 0x4E), (scratchLoc 0 0x29102, 0x4C), (scratchLoc 0 0x29103, 0x31)] }

theorem witness_PanelWords : ({ Nest.zero with cbase := 2 } : Nest).goBad = some 2 ∧ (at1 .N).bank.shadow.goBad = none ∧
    (∀ n ∈ (panel1 [nest1 0] none 0).core.panel.nests, n.bank = 0) ∧ (panel1 [nest1 0] none 0).core.panel.pending = none ∧
    (at1 .N).block [.q 14] [.s 4] = none ∧ (at1 .N).block [] [.s 4] = none ∧ (with3 .N 383 0 0).block [.s 1] [.s 4] = none ∧
    blockBad false 0x00FFFF0000000000 = false ∧ blockBad true 0x00FFFF0000000000 = false ∧ blockBad false 0x00FFFF0000000020 = true ∧
    blockBad false 0x00FFFF00003D6EC0 = false ∧ blockBad false 0x00FFFF00003D6F00 = true ∧
    (panel1 [nest1 0] none 0x00FFFF0000000000).otherNest = false ∧ (panel1 [] none 0).core.panel.fed = [] ∧ (panel1 [] none 0).core.panel.out = none ∧
    (panel1 [] none 0).core.panel.all = [] ∧ (panel1 [nest1 0] none 0).ownReady ≤ (panel1 [nest1 0] none 0).now ∧ (∀ n ∈ (panel1 [nest1 0] none 0).core.panel.nests, n.scales ≠ none) ∧ (panel1 [] none 0).mem.wf = true := by decide

/-- A block reads where its MAGIC is right and it has no other set byte in the fields that are checked. -/
theorem readBlock_plain (bfmt : Vector Word 16) (m : Memory) (x n : Nat) (h : 0x29140 ≤ n) (h0 : leNat (m.readN (x + 0x29104) 1) = 0)
    (h1 : leNat (m.readN (x + 0x29100) 4) = 0x314C4E50) (h2 : leNat (m.readN (x + 0x29105) 59) = 0) (h3 : leNat (m.readN (x + 0x28ABE) 2) = 0)
    (h4 : ∀ i, i < 3 → (readNest (m.readN (x + (0x28AC0 + 192 * i)) 192)).isSome = true) :
    ∃ b, readBlock bfmt (m.readN x n) = some b ∧ b.gang = false := by
  have d (o k : Nat) (h : o + k ≤ n) : ((m.readN x n).drop o).take k = m.readN (x + o) k := Memory.readN_drop_take _ _ _ _ _ h
  generalize m.readN x n = l at d
  have f (i : Nat) (h : i < 3) := Option.isSome_iff_exists.mp (h4 i h)
  obtain ⟨a, ha⟩ := f 0 (by decide)
  obtain ⟨p, hp⟩ := f 1 (by decide)
  obtain ⟨c, hc⟩ := f 2 (by decide)
  rw [← d _ _ (by omega)] at ha hp hc h0 h1 h2 h3
  unfold readBlock
  dsimp only
  rw [if_neg]
  · rw [ha, hp, hc]
    refine ⟨_, rfl, ?_⟩
    show (leNat ((l.drop 0x29104).take 1) / 8 % 2 == 1) = false
    rw [h0]
    rfl
  · rw [h0, h1, h2, h3]
    simp

/-- NLOAD can read the block. -/
theorem witness_PanelWords_block : ∃ b, readBlock block1.bank.bfmt (block1.mem.readN (scratchLoc 0 0) 0x29140) = some b ∧ b.gang = false :=
  readBlock_plain _ _ _ _ (Nat.le_refl _) (by decide) (by decide) (by decide) (by decide) (by decide)
/-! ## Numbers, by the spec's worked examples -/

/-- R96 to R101: the e2m1x block of the chapter on numbers: header, codes and flags. -/
theorem test_e2m1x : (let x (n : Nat) : FVal := fmtFp32.decode n
    e2m1xBlock .rne 2 ([x 0x40DCCCCD, x 0x40266666, x 0x3FA00000, x 0xBE4CCCCD, x 0x40A00000, x 0xC0D00000] ++ List.replicate 26 (x 0))
      (List.replicate 32 0) == (0x047F, [7, 5, 2, 0, 8, 15] ++ List.replicate 26 0, fSA ||| fNX)) = true := by decide

/-- R103, R104, R105: fp32 300.0 and 470.0 into e4m3; under sr with lane 0 seeded with 0xACE1, 300.0 gives 288. -/
theorem test_convert : (convert .fp32 .e4m3 { rnd := .rne, sat := false, ftz := false, v := 0 } 0x43960000 == (0x79, fNX)) = true ∧
    (convert .fp32 .e4m3 { rnd := .rne, sat := true, ftz := false, v := 0 } 0x43EB0000).1 = 0x7E ∧
    (convert .fp32 .e4m3 { rnd := .rne, sat := false, ftz := false, v := 0 } 0x43EB0000).1 = 0x7F ∧ lfsrStep (laneSeed 0xACE1 0) = 0x59C3 ∧
    (convert .fp32 .e4m3 { rnd := .sr, sat := false, ftz := false, v := 0x59C3 } 0x43960000).1 = 0x79 ∧
    (convert .fp32 .e4m3 { rnd := .sr, sat := false, ftz := false, v := 40960 } 0x43960000).1 = 0x7A := by decide

/-- R113: VRCP of 3.0. -/
theorem test_vrcp : (vrcpVal (fmtFp32.decode 0x40400000) == (0x3EAAB000, fNX)) = true := by decide

/-- R114: the tree of 2^24, 1, 1, 1, and zeros. -/
theorem test_tree : (reduceElems .fp32 .sum { rnd := .rne, sat := false, ftz := false, v := 0 }
    ([0x4B800000, 0x3F800000, 0x3F800000, 0x3F800000, 0, 0, 0, 0].map fun x => (true, x)) == (0x4B800001, fNX)) = true := by decide

/-- R175: the first draw of the lottery. -/
theorem test_xorshift : xorshift 1 = 0x00042021 := by decide

/-! ## Vector words -/

/-- The state with vector registers 1, 2 and 3, the mask stack, and m1. -/
def vec1 (x y z : Nat) (stack : List MaskReg) (m : MaskReg) : State :=
  let s := with3 .X 2 3 0
  { s with bank := { s.bank with vec := { VecState.zero with
      v := ((VecState.zero.v.set 1 (BitVec.ofNat 4096 x)).set 2 (BitVec.ofNat 4096 y)).set 3 (BitVec.ofNat 4096 z)
      stack := stack, m := VecState.zero.m.set 1 m } } }

/-- `exec i s` leaves in element `n` of vector register 4, of `w` bits, the value `x`. -/
def puts (i : Instr) (s : State) (w n x : Nat) : Bool := after i s fun t => (t.elem w 4 n).toNat == x

/-- A gate that is off, and one that is on; no gate is always on. -/
theorem witness_GatedOff : instrGate (.vadd (some 7) .int32 .rne false false 1 2 3) = some 7 ∧ (at1 .X).bank.vec.gates.getLsbD (7 : Fin 8).val = false ∧
    instrGate (.mempt (some 0) .int32 1) = some 0 := by decide

theorem witness_gateOn : (at1 .X).gateOn none ∧
    ({ at1 .X with bank := { bank1 with vec := { VecState.zero with gates := 0x80 } } } : State).gateOn (some 7) :=
  ⟨fun _ h => (by cases h), fun j h => by cases h; decide⟩

/-- R160: a word that is gated off pops nothing. -/
theorem test_gated : after (.vbcast (some 0) .int32 false 4 (.q 0)) (at1 .X) (fun t => t.bank.q[(0 : Fin 16)].length == 1 && t.st.pc == 1) = true := by
  decide

theorem witness_VectorBits : (with3 .X 2 3 0).block [.s 1] [] = none ∧ (with3 .X 2 3 0).block [.q 0] [] = none ∧
    (with3 .X 2 3 0).block [.s 1, .q 1] [] = none := by decide

/-- R155: VSLU moves elements up, VEXPD spreads them over the mask, VPERM takes its index modulo the count. -/
theorem test_vslu : puts (.vslu none .int32 false 4 1 (.s 1)) (vec1 (7 + 8 * 2 ^ 32) 0 0 [BitVec.allOnes 1024] 0) 32 3 8 = true ∧
    puts (.vslu none .int32 false 4 1 (.s 1)) (vec1 (7 + 8 * 2 ^ 32) 0 0 [BitVec.allOnes 1024] 0) 32 1 0 = true := by decide
theorem test_vexpd : puts (.vexpd none .int32 4 1) (vec1 (7 + 8 * 2 ^ 32) 0 0 [5] 0) 32 2 8 = true ∧
    puts (.vexpd none .int32 4 1) (vec1 (7 + 8 * 2 ^ 32) 0 0 [5] 0) 32 1 0 = true := by decide
theorem test_vperm : puts (.vperm none .int32 false 4 1 2) (vec1 (7 + 8 * 2 ^ 32) 129 0 [BitVec.allOnes 1024] 0) 32 0 8 = true := by decide

theorem witness_VectorIntegers : Ty.int8.isInt = true ∧ Ty.uint32.isInt = true := by decide

/-- R97, R146: VADD wraps, or saturates with SA; VMULH is signed by the TYPE; a masked element stays. -/
theorem test_vadd : puts (.vadd none .int8 .rne false false 4 1 2) (vec1 127 1 0 [BitVec.allOnes 1024] 0) 8 0 128 = true ∧
    after (.vadd none .int8 .rne true false 4 1 2) (vec1 127 1 0 [BitVec.allOnes 1024] 0)
      (fun t => t.elem 8 4 0 == 127 && t.bank.vec.vflags == fSA) = true := by decide
theorem test_vmulh : puts (.vmulh none .int8 false 4 1 2) (vec1 0x80 0x80 0 [BitVec.allOnes 1024] 0) 8 0 0x40 = true ∧
    puts (.vmulh none .uint8 true 4 1 2) (vec1 0x8080 0x8080 0 [2] 0) 8 0 0 = true ∧
    puts (.vmulh none .uint8 true 4 1 2) (vec1 0x8080 0x8080 0 [2] 0) 8 1 0x40 = true := by decide

theorem witness_VectorFloats : fmtOf? .fp32 = some fmtFp32 ∧ fmtOf? .bf16 = some fmtBf16 ∧ (at1 .X).bank.vec.ftz = false := ⟨rfl, rfl, rfl⟩

/-- R103, R152: 1.5 + 2.25 in fp32; VEXPO of the smallest subnormal is -149. -/
theorem test_vaddFloat : puts (.vadd none .fp32 .rne false false 4 1 2) (vec1 0x3FC00000 0x40100000 0 [BitVec.allOnes 1024] 0) 32 0 0x40700000 = true := by
  decide
theorem test_vexpo : puts (.vexpo none .fp32 false 4 1) (vec1 1 0 0 [BitVec.allOnes 1024] 0) 32 0 (2 ^ 32 - 149) = true ∧
    puts (.vexpo none .fp32 false 4 1) (vec1 0 0 0 [BitVec.allOnes 1024] 0) 32 0 (2 ^ 31) = true := by decide

theorem witness_VectorCompare : (at1 .X).gateOn none ∧ Ty.int32.isInt = true := ⟨fun _ h => (by cases h), rfl⟩

/-- R148: a comparison clears the bits beyond the count. -/
theorem test_vcmp : after (.vcmp none .int32 .lt false 1 1 2) (vec1 (2 ^ 32 - 1) 0 0 [BitVec.allOnes 1024] (BitVec.allOnes 1024))
    (fun t => t.bank.vec.m[(1 : Fin 8)] == 1) = true := by decide

theorem witness_VectorConversions : widFactor .int8 .int32 = some 4 ∧ widFactor .e4m3 .bf16 = some 2 := by decide

/-- R151: the spec's example: int8 element 5 of v8 goes to int32 position 1 of v13. -/
theorem test_vwid : (let s := { vec1 0 0 0 [BitVec.allOnes 1024] 0 with bank := { bank1 with vec := { VecState.zero with
      v := VecState.zero.v.set 8 (BitVec.ofNat 4096 (0x80 * 2 ^ 40)) } } }
    after (.vwid none .int8 .int32 false 12 8) s fun t => t.elem 32 13 1 == 0xFFFFFF80#32) = true := by decide

theorem witness_VectorScalars : (with3 .X 2 3 0).block [.s 1] [.s 4] = none ∧ (with3 .X 2 3 0).block [] [.q 5] = none ∧ Ty.uint8.isInt = true := by decide

/-- R149, R154, R162: VGET extends by the TYPE; VRED of no enabled element; MCNT counts within the TYPE's elements. -/
theorem test_vget : gives (.vget none .int32 (.s 4) 1 (.s 0)) (vec1 (2 ^ 32 - 1) 0 0 [BitVec.allOnes 1024] 0) (BitVec.allOnes 64) = true ∧
    gives (.vget none .fp32 (.s 4) 1 (.s 0)) (vec1 (2 ^ 32 - 1) 0 0 [BitVec.allOnes 1024] 0) 0xFFFFFFFF = true := by decide
theorem test_vred : gives (.vred none .int32 .min .rne false true (.s 4) 1) (vec1 0 0 0 [0] 0) 0x7FFFFFFF = true ∧
    gives (.vred none .uint32 .sum .rne false true (.s 4) 1) (vec1 (7 + 8 * 2 ^ 32) 0 0 [3] 0) 15 = true := by decide
theorem test_mcnt : gives (.mcnt none .int32 (.s 4) 1) (vec1 0 0 0 [0] (BitVec.allOnes 1024)) 128 = true := by decide
theorem test_vcomp : after (.vcomp none .int32 4 1 (.s 4)) (vec1 (7 + 8 * 2 ^ 32) 0 0 [2] 0)
    (fun t => t.elem 32 4 0 == 8 && t.elem 32 4 1 == 0 && t.reg 4 == 1) = true := by decide

/-- Stacks of 1, 2 and 8 entries. -/
theorem witness_MaskWords : (vec1 0 0 0 [1] 2).bank.vec.stack.length < 2 ∧ (vec1 0 0 0 (List.replicate 8 1) 0).bank.vec.stack.length = 8 ∧
    (vec1 0 0 0 (List.replicate 7 1) 0).bank.vec.stack.length < 8 ∧ (vec1 0 0 0 [1, 3] 0).bank.vec.stack = 1 :: 3 :: [] ∧
    (with3 .X 2 3 0).block [.s 1] [] = none := by decide

/-- R161, R162: MINV, and MPUSH onto 8 entries. -/
theorem test_minv : after (.minv none) (vec1 0 0 0 [1, 3] 0) (fun t => t.bank.vec.stack == [2, 3]) = true := by decide
theorem test_mpush : after (.mpush none 1) (vec1 0 0 0 (List.replicate 8 1) 0) (fun t => t.st.cause == 0x0C01 && t.st.tval == 8) = true ∧
    after (.mpush none 1) (vec1 0 0 0 [3] 6) (fun t => t.bank.vec.stack == [2, 3]) = true := by decide
/-- R138: VROT adds modulo 32, and p32 to p63 turn with it. -/
theorem test_vrot : after (.vrot none false 31) (vec1 0 0 0 [1] 0) (fun t => t.bank.vec.vrot == 31 && t.bank.vec.phys 32 == 63 &&
    t.bank.vec.phys 33 == 32 && t.bank.vec.phys 31 == 31) = true := by decide

/-- What the routes of elements are. -/
def routedOf (r : Routed) : Option (Nat × Nat) :=
  match r with
  | .ok o a _ _ => some (o.length, a.length)
  | _ => none

/-- One enabled element, in the own banks, away, without a page, and not of the form. -/
theorem witness_VectorMemory :
    (let refs (x : Word) : List ElemRef := [{ num := 0, va := x, nib := 0 }]
     firstBad 4 (refs vSelf) = none ∧ routedOf ((with3 .X vSelf 0 0).routes 4 false (refs vSelf)) = some (1, 0) ∧
     routedOf ((with3 .X vPage 0 0).routes 4 false (refs vPage)) = some (0, 1) ∧ routedOf ((with3 .X vNone 0 0).routes 4 true (refs vNone)) = none ∧
     routedOf ((with3 .X vOwn 0 0).routes 4 true (refs vOwn)) = some (1, 0) ∧
     routedOf ((unfilled1 vPage 0 0).routes 4 false (refs vPage)) = some (0, 1) ∧
     routedOf ((unfilled1 vPage 0 0).routes 4 true (refs vPage)) = none ∧ (fenced (with3 .X vSelf 0 0)).ownHeld 0 true [(0x100, 4)] = true ∧
     (State.earlyElem { with3 .X vSelf 0 0 with core := { CoreRec.zero with
       early := [{ bank := 0, by_ := .A, due := 20, cells := cellsAt 0x100 [1] }] }, bank := { bank1 with pend := true } } 4
       [({ num := 0, va := vSelf, nib := 0 }, 0x100, none)]).isSome = true ∧
     firstBad 4 (refs (BitVec.ofNat 64 (2 ^ 56))) = some (⟨0x03, 0⟩, BitVec.ofNat 64 (2 ^ 56)) ∧
     (with3 .X vSelf 0 0).earlyElem 4 [({ num := 0, va := vSelf, nib := 0 }, 0x100, none)] = none ∧ (with3 .X vSelf 0 0).ownHeld 0 true [(0x100, 4)] = false) ∧
    (with3 .X vSelf 0 0).block [.s 1, .s 2] [] = none := by decide

/-- The vector state with a base address in s1, a stride in s2, and one enabled element. -/
def vecAt (x y : Word) (stack : List MaskReg) : State :=
  let s := vec1 0x0504030201 8 0 stack 0
  s.setSt { s.st with s := (s.st.s.set 1 x).set 2 y }

/-- R156, R157: VLD of the one enabled element; VSTS with its stride. -/
theorem test_vld : (let s := { vecAt vSelf 0 [2] with mem := [(scratchLoc 0 0x104, 9)] }
    puts (.vld none .int32 true 4 (.s 1) (.s 0) 0) s 32 1 9) = true := by decide
theorem test_vsts : after (.vsts none .int8 true 1 (.s 1) (.s 2) 0) (vecAt vSelf (-3) [5]) (fun t => t.core.early.map Early.cells ==
    [[{ off := 0x100, nib := 0, byte := 1 }, { off := 0xFA, nib := 0, byte := 3 }]]) = true := by decide

/-! ## Link words -/

/-- The link engine with its slot, a cargo register, and its own port 1 with a receive queue. -/
def link1 (slot cur : Nat) (rq : List (Option (List Byte × Word))) : State :=
  let s := with3 .L 2 0x2000 3
  { s with fslot := slot, link := { s.link with cur := cur, f0 := 100, active := true }
           ports := [(1, { Port.zero with live := true, lanes := 4, rq := rq })] }

theorem witness_LinkWords : (100 + 2 + 3 : Nat) = (BitVec.ofNat 64 (link1 0 0 []).link.f0 + (link1 0 0 []).reg 1 + (3#20).setWidth 64).toNat ∧
    (1#6).toNat / 16 = (link1 0 0 []).dieNo ∧ (16#6).toNat / 16 ≠ (link1 0 0 []).dieNo ∧ (link1 5 5 []).link.cur ≤ (link1 5 5 []).fslot ∧
    (link1 4 5 []).fslot < (link1 4 5 []).link.cur ∧ ((link1 4 5 []).portAt 1).rq = [] ∧
    ((link1 4 5 [none, some ([1], 7)]).portAt 1).rq = none :: [some ([1], 7)] := by decide

/-- R374: LSLOT is behind its slot from the start of the slot on; R375: a missing cargo. -/
theorem test_lslot : after (.lslot 4 1 3) (link1 103 0 []) (fun t => t.st.wait == some (.ext .slot)) = true ∧
    after (.lslot 4 1 3) (link1 104 0 []) (fun t => t.link.cur == 105 && t.reg 4 == 0) = true ∧
    after (.lslot 4 1 3) (link1 106 0 []) (fun t => t.reg 4 == 2) = true := by decide
theorem test_lrecv : after (.lrecv 2 4 5 1) (link1 0 0 [none]) (fun t => t.reg 4 == 1 && t.reg 5 == 0 && t.link.lflags == 64) = true ∧
    after (.lrecv 2 4 5 1) (link1 0 0 [some ([7], 9)]) (fun t => t.reg 4 == 0 && t.reg 5 == 9 &&
      (t.portAt 1).rq == []) = true := by decide

/-- The state of a run whose DONE is on the cached page. -/
def ldone1 (w : Option Wait) (x : Word) : State :=
  let s := link1 0 0 []
  { s with link := { s.link with doneVa := 0x2000, st := { s.link.st with wait := w, s := s.link.st.s.set 1 x } } }

theorem witness_LinkMemory : (2 ^ 56 < (BitVec.ofNat 64 (2 ^ 56 - 4096 + 1) : Word).toNat + 4096) ∧ (0x2000 : Word).toNat % 4096 = 0 ∧
    (0x2001 : Word).toNat % 4096 ≠ 0 ∧ kindOf ((ldone1 none 0x2000).route 0x2000 4096 true true) = 2 ∧
    kindOf ((ldone1 none 0).route 0x80000000 4096 false true) = 0 ∧ (ldone1 none 0).link.queued = [] ∧ (ldone1 none 0).flight = [] ∧
    (ldone1 (some (.ext .done)) 0).st.wait = some (.ext .done) ∧ (ldone1 none 0).st.wait ≠ some (.ext .done) ∧
    (match (ldone1 none 0).xlate 0 0x2000 false true with
      | .ok (p, t) => (t.refusal 0 p 8).isNone && ({ t with bureau := Bureau.zero }.refusal 0 p 8).isSome && (t.goesOut p 8).isSome
      | .error _ => false) = true ∧
    (match (ldone1 none 0).xlate 0 0x80000000 false true with
      | .ok _ => false
      | .error _ => true) = true := by decide

/-- A port without a credit takes no store to a peer. -/
theorem witness_LinkMemory_credit :
    (let s : State := { ldone1 (some (.ext .done)) 0 with ports := [(1, { Port.zero with live := true, lanes := 4, credits := 0 })] }
     s.takeCredits 0 { home := 2, pa := 2 ^ 42, slot := 0, gen := 0, codec := 0 } 8) = none := by
  have h : ∀ n : Nat, [1][n % [1].length]? = some 1 := fun n => by simp [Nat.mod_one]
  simp only [State.takeCredits, State.portFor]
  rw [show State.livePorts _ 0 = [1] by decide, h]
  decide

/-- R379: LDONE stores 1 and ends the run. -/
theorem test_ldone : after .ldone (ldone1 (some (.ext .done)) 0) (fun t => t.mem == [(0x2000, 1)] && t.st.exited && !t.link.active) = true := by decide
/-! ## Accesses in flight -/

def place1 (va : Nat) : Place := { home := 0, pa := va, slot := 0, gen := 0, codec := 0 }

/-- An access of core 0, bank 0, stream `σ`, to 4 bytes at 0x2000. -/
def access1 (σ : StreamId) (ord : Nat) (req : Req) (dest : Dest) (todo : Bool) : Access :=
  { agent := { core := 0, bank := 0, sid := σ }, task := 1, ord := ord, cls := 2, va := 0x2000, epc := 5, req := req, dest := dest
    todo := if todo then [{ num := 0, va := 0x2000, place := some (place1 0x2000), n := 4, bytes := [1, 2, 3, 0x80], nib := 0 }] else []
    got := if todo then [] else [(0, [1, 2, 3, 0x80])], sc := none, undo := [], fail := none, space := 0, spaceGen := 0 }

def flight1 (σ : StreamId) (l : List Access) : State := { at1 σ with flight := l, issued := 9 }

def scAccess (w : Option Nat) : Access := { access1 .A 3 (.load 4 true) (.scalar (.s 4)) true with sc := some (.device, w) }

/-- The state with an SC access, and one position of the wheel. -/
def scFlight (w : Option Nat) : State :=
  let s := flight1 .A [scAccess w]
  { s with w := 300, bank := { s.bank with wheelCount := 1, wheelFirst := 7, wheelStride := 1, wheelNext := 301 } }

/-- A store to host memory, accepted or not. -/
def hostStore (accepted : Bool) : Access :=
  { access1 .A 3 .store .none false with
    accepted := accepted, todo := [{ num := 0, va := 0x2000, place := some { place1 0x2000 with home := 1 }, n := 1, bytes := [1], nib := 0 }] }

theorem witness_AccessSteps : (flight1 .A [access1 .A 3 .store .none true]).mayPerform 0 = true ∧
    (flight1 .A [access1 .A 3 .store .none true]).refusal 0 (place1 0x2000) 4 = none ∧ (place1 0x2000).home ≠ 2 ∧
    ({ flight1 .A [access1 .A 3 .store .none true] with bureau := Bureau.zero } : State).refusal 0 (place1 0x2000) 4 = some 33 ∧
    (State.refusal { flight1 .A [] with flaws := [(0x2003, 1)] } 0 (place1 0x2000) 4) = some 35 ∧ (State.flawed { flight1 .A [] with flaws := [(0x2003, 1)] } 0x2000 4) = true ∧
    (scAccess (some 44)).todo ≠ [] ∧ 44 + 256 ≤ (scFlight (some 44)).w ∧ (scFlight none).sid ≠ .L ∧
    ((scFlight none).w ≤ 519 ∧ (scFlight none).bank.wheelNext ≤ 519 ∧ (7 + 0 * 1) % 512 = 519 % 512) ∧
    (access1 .A 3 .store .none false).req.stores = true ∧ (access1 .A 3 .store .none false).todo = [] ∧
    (access1 .A 3 .store .none true).fail = none ∧ (access1 .A 3 .store .none true).accepts = false ∧
    (hostStore false).accepts = true ∧ (hostStore true).accepts = false ∧ (flight1 .A [hostStore false]).mayPerform 0 = true ∧
    (flight1 .A [access1 .A 3 .store .none true]).w < (access1 .A 3 .store .none true).at_ + 2 ^ 24 ∧
    (access1 .A 3 .store .none true).at_ + 2 ^ 24 ≤ ({ flight1 .A [access1 .A 3 .store .none true] with w := 2 ^ 24 } : State).w ∧
    (scFlight none).scClear 0 (scAccess none) .device = true ∧ (access1 .A 3 (.load 4 true) (.scalar (.s 4)) true).req.stores = false := by decide

/-- R226: a store performs at home. R236: the position that an SC operation takes is the first that the bank still has. -/
theorem test_perform : after (.memoryAccessPerform (.lane 0)) (flight1 .A [access1 .A 3 .store .none true])
    (fun t => t.mem == [(0x2000, 1), (0x2001, 2), (0x2002, 3), (0x2003, 0x80)] && t.flight.map Access.todo == [[]]) = true := by decide
theorem test_scSend : after (.scSend 0) (scFlight none) (fun t => t.flight.map Access.sc == [some (.device, some 519)] && t.bank.wheelNext == 520) = true := by
  decide

/-- The stream with a FENCE, and two failed stores that it counts. -/
def fence1 : State :=
  let s := flight1 .A []
  s.setSt { s.st with
    fences := [{ mask := 4, scope := .device, ord := 7, dst := .s 4 }]
    failed := [{ ord := 5, cls := 2, va := 0x3000, why := 33 }, { ord := 6, cls := 2, va := 0x4000, why := 32 }, { ord := 8, cls := 2, va := 0, why := 34 }] }

theorem witness_ReturnSteps : (access1 .A 3 (.load 4 true) (.scalar (.s 4)) false).returns = true ∧
    (access1 .A 3 (.load 4 true) (.scalar (.s 4)) false).todo = [] ∧ (access1 .A 3 (.load 4 true) (.scalar (.s 4)) false).req.digest = false ∧
    (access1 .X 3 (.vload 32) (.vec 7) false).returns = true ∧ (access1 .L 3 (.load 4096 false) (.cargo 2) false).returns = true ∧
    ((0x07 < 256) ∧ (2 < 256)) ∧ fence1.fenceDone { mask := 4, scope := .device, ord := 7, dst := .s 4 } = true ∧
    (∀ j : StreamId, j ≠ .A → (fence1.streamAt j).fences = []) ∧ fence1.st.fences.length = 1 := by
  refine ⟨by decide, by decide, by decide, by decide, by decide, by decide, by decide, fun j h => ?_, by decide⟩
  cases j <;> first | contradiction | decide

theorem test_loadReturn : after (.loadDataReturn 0) (flight1 .A [access1 .A 3 (.load 4 true) (.scalar (.s 4)) false])
    (fun t => t.reg 4 == 0xFFFFFFFF80030201 && t.flight == []) = true := by decide
/-- R230: the FENCE gives the count and the kinds, clears what it counted, and FFA is the first address in program order. -/
theorem test_fenceStatus : after .fenceStatus fence1 (fun t => t.reg 4 == 0x300000002 && t.bank.ffa == 0x3000 &&
    t.st.failed.map Failed.ord == [8]) = true := by decide

/-! ## Waits -/

/-- A member alone in its group, at barrier slot 1. -/
def bar1 : State :=
  let s := at1 .A
  { s with bank := { s.bank with phase := s.bank.phase.set 1 (some 3), x := { s.bank.x with wait := some (.gbar 1 3) } } }

/-- A bank whose A stream waits for q4 to be pushed and whose X stream waits for q0, each the other's; the N stream has exited. -/
def stuck1 : State :=
  let s := at1 .A
  let image (k : StreamId) (i : Instr) : Image :=
    { sid := k, tag := 0, va := 0, space := 0, words := [(encode 0 i).getD 0], len := 1, use := 0, stopped := false }
  { s with
    bank := { s.bank with
      q := Vector.replicate 16 [], a := { s.bank.a with wait := some (.pop 4) }, x := { s.bank.x with wait := some (.pop 0) }
      n := { s.bank.n with exited := true } }
    core := { s.core with images := [image .A (.add (.s 2) (.q 4) (.s 0)), image .X (.add (.s 2) (.q 0) (.s 0))] } }

/-- A retirement of stream A. -/
def retire1 (r : Retiring) : State := { priv1 5 with retires := [{ agent := { core := 0, bank := 0, sid := .A }, ord := 2, what := r, dst := .s 4 }] }

theorem witness_WaitSteps : bar1.members 1 = [(bar1.coreNo, bar1.bankNo)] ∧ (∃ k ∈ [StreamId.A, .X, .N], (bar1.streamAt k).atBar 1 = true) ∧
    stuck1.bank.started = true ∧ stuck1.bank.stopped = none ∧ stuck1.stuck .A = some 4 ∧ stuck1.stuck .X = some 0 ∧
    [StreamId.A, .X, .N].filter (fun k => !(stuck1.streamAt k).exited) = [.A, .X] ∧ stuck1.bankBusy = false ∧ stuck1.allMeet = false ∧
    (∀ r ∈ (retire1 (.key 5)).retires, (retire1 (.key 5)).retireReady r true = true) ∧ (retire1 (.key 5)).retires.length = 1 ∧
    (∀ r ∈ (retire1 (.gen 0)).retires, (retire1 (.gen 0)).retireReady r false = true) ∧ (at1 .A).keyFree 5 = true ∧ (at1 .A).genFree 3 = true ∧
    (let s := { at1 .A with bureau := { Bureau.zero with kill := { Action.zero with busy := some 5 }, bump := { Action.zero with busy := some 3 } } }
     s.retires = [] ∧ s.bureau.kill.busy = some 5 ∧ s.bureau.bump.busy = some 3) := by
  refine ⟨by decide, ⟨.X, by decide, by decide⟩, ?_⟩
  decide

/-- A stream X that waits at a WAITEV. -/
def waitev1 : State :=
  let s := steer1 0
  { s with
    bank := { s.bank with x := { s.bank.x with wait := some (.ext .event) } }
    core := { s.core with images := [{ sid := .X, tag := 0, va := 0, space := 0, words := [0x0015031050000000], len := 1, use := 0, stopped := false }] } }

theorem witness_WaitSteps_event : (waitev1.streamAt .X).wait = some (.ext .event) ∧
    (match decode .X (State.code { waitev1 with sid := .X } |>.getD (State.st { waitev1 with sid := .X }).pc 0) with
      | .ok i => i == .waitev (.s 3) (.s 4) (.s 5)
      | .error _ => false) = true := by decide

theorem test_gbar : after (.gbarPhaseComplete 1) bar1 (fun t => t.bank.phase[(1 : Fin 4)] == some 4 && t.bank.x.wait == none && t.bank.x.pc == 1) = true := by
  decide
/-- R126: TVAL names the queue. -/
theorem test_stuck : after .waitCannotEnd stuck1 (fun t => t.bank.a.cause == 0x0B01 && t.bank.a.tval == 4) = true := by decide
theorem test_keyRetire : after .keyRetire (retire1 (.key 5)) (fun t => (t.keyAt 5).gen == 1 && t.reg 4 == 1 && t.retires == []) = true := by decide

/-! ## Region maps -/

/-- The state of a map with a fill asked for, or a write-back under way. -/
def fill1 (fault : Option (Nat × Nat)) : Fill := { entry := 0, granule := 0, sid := .A, ord := 0, fault := fault }

def mapStep (fills : List Fill) (wb : Option Writeback) (vabase : Nat) : State :=
  let s := at1 .A
  let e : MapEntry := { valid := true, vabase := vabase, spbase := 0, len := 2, rw := true, cls := 0, filled := [], written := [4, 5, 9] }
  { s with mem := [(vabase + 3, 7)], bank := { s.bank with map := s.bank.map.set 0 e, fills := fills, wb := wb } }

def wb1 : Writeback := { by_ := .rsync, left := [0, 1], sent := 0, stopped := false }

theorem witness_MapSteps : (mapStep [fill1 none] none 0x2000).bank.fills.find? (fun f => f.of 0 0 && f.fault.isNone) = some (fill1 none) ∧
    (mapStep [fill1 none] none 0x2000).bank.map[(0 : Fin 16)].isFilled 0 = false ∧
    (unfilled1 0 0 0).bank.map[(1 : Fin 16)].valid = false ∧ (map1 0 0 0 []).bank.map[(0 : Fin 16)].isFilled 0 = true ∧
    (match (mapStep [fill1 none] none 0x2000).xlate 0 0x2000 true true with
      | .ok (p, u) => (mapStep [fill1 none] none 0x2000).fillClear (fill1 none) 0 p && (u.refusal 0 p 2048).isNone && (u.goesOutOf 0 p 2048).isSome &&
        !(State.fillClear { mapStep [fill1 none] none 0x2000 with flight := [access1 .A 3 .store .none true] } { fill1 none with ord := 4 } 2 p)
      | .error _ => false) = true ∧
    (match (mapStep [fill1 none] none 0x80000000).xlate 0 0x80000000 true true with
      | .ok _ => false
      | .error _ => true) = true ∧
    (mapStep [] (some wb1) 0x2000).bank.map[(0 : Fin 16)].run none = some (4, 2) ∧
    (mapStep [] (some wb1) 0x2000).bank.map[(0 : Fin 16)].run (some [(0x2009, 1)]) = some (9, 1) ∧
    (mapStep [] (some wb1) 0x2000).bank.map[(0 : Fin 16)].run (some [(0x3000, 1)]) = none ∧
    wb1.by_.ofStream = true ∧ WbBy.ofStream .endTask = false ∧ WbBy.hand ≠ .rsync ∧ (mapStep [] (some wb1) 0x2000).bank.map[(1 : Fin 16)].written = [] ∧
    (match State.xlate { mapStep [] (some wb1) 0x2000 with sid := .A } 0 0x2004 false true with
      | .ok (p, u) => (u.refusal 0 p 2).isNone && (u.goesOutOf 0 p 2).isSome
      | .error _ => false) = true ∧ (mapStep [fill1 none] none 0x2000).mem.wf = true := by decide

/-- R199: the first run of written bytes is sent, and struck. -/
theorem test_writeback : after (.mapWriteback 0) (mapStep [] (some wb1) 0x2000)
    (fun t => t.bank.map[(0 : Fin 16)].written == [9] && t.bank.wb.map Writeback.sent == some 2) = true := by decide

/-! ## Launches and tasks -/

theorem witness_LaunchWords : (with3 .A 0x100 8 0).block [.s 1, .s 2] [] = none ∧ (0x100 : Word).toNat % 256 = 0 ∧ ¬ (8 : Word).toNat % 8 ≠ 0 ∧
    (65536 : Word).toNat ≤ 65536 ∧ 65536 < (65537 : Word).toNat ∧ (at1 .A).bank.launches < 8 ∧ (at1 .A).bank.iter = some iter1 ∧
    8 ≤ ({ at1 .A with bank := { bank1 with launches := 8 } } : State).bank.launches := by decide

theorem test_launch : after (.launch true (.s 1) (.s 2)) (with3 .A 0x100 8 0) (fun t => t.bank.launches == 1 &&
      t.launches.map (fun r => (r.va, r.arg)) == [(0x100, 8)]) = true ∧
    after (.launch true (.s 1) (.s 2)) (with3 .A 0x101 8 0) (fun t => t.st.cause == 0x0C && t.st.tval == 0x101) = true := by decide

/-- A launch of the task record at 0x10000, or of a graph. -/
def req1 (graph : Bool) (va : Nat) : LaunchReq :=
  { graph := graph, va := va, arg := 2, space := 0, parent := none, core := 0, bank := 0, word := 0, at_ := 0, rel := 0, acq := []
    reply := .nowhere, stopped := false }

/-- A task record of one iteration with no regions and no groups, and its nest record. -/
def record1 : Memory :=
  [(0x10008, 1), (0x1000C, 1), (0x10018, 1), (0x1001C, 1), (0x10028, 1), (0x1002C, 1), (0x10041, 1), (0x10042, 1), (0x10100, 1), (0x10102, 1),
   (0x10104, 1), (0x10106, 1), (0x10108, 1), (0x1010A, 1), (0x1010C, 0x88), (0x1010D, 0xC6), (0x1010E, 2)]

def launched (r : LaunchReq) : State := { at1 .A with launches := [r], mem := record1 }

/-- What reading a task gives: 0 a task, 1 a fault, else 2 and the status. -/
def readOf (r : Except Refusing (Task × State)) : Nat :=
  match r with
  | .ok _ => 0
  | .error (.fault _ _) => 1
  | .error (.status n) => 3 + n
  | .error .waits => 2

/-- A task of queue 0 with one iteration. -/
def task1 (groups : List (Nat × Nat)) (retired : List Nat) : Task :=
  { seq := 1, space := 0, record := 0, guarded := false, queue := 0, prio := 1, flags := 0, wheel := 0, args := 0x500
    imgs := [(0, 1, 1), (0, 1, 1), (0, 1, 1)], bounds := [1, 1, 1, 1, 1, 1], order := [0, 1, 2, 3, 4, 5], regions := [], groups := groups
    held := false, edges := [], handed := [], parent := none, placed := retired, retired := retired, saved := [], stray := false
    aborted := false, complete := false, reply := .nowhere, core := 0, bank := 0, at_ := 0, word := 0 }

/-- The state with a task, queue 0 with tickets, and bank 0 of core 0 free. -/
def tasked (t : Task) : State :=
  { at1 .A with bank := Bank.zero, tasks := [t], queues := [(0, { LQueue.zero 0 with tickets := 1 })] }

/-- The bank with images of one word for its three streams, the A stream's `n` words not there yet. -/
def imaged (n : Nat) (va : Nat) : State :=
  let i (k : StreamId) (m : Nat) : Image := { sid := k, tag := 0, va := va, space := 0, words := [0], len := 1 + m, use := 0, stopped := false }
  { at1 .A with bank := { Bank.zero with iter := some iter1 }, core := { CoreRec.zero with images := [i .A n, i .X 0, i .N 0] }, tasks := [task1 [] []] }

/-- A bank whose streams have exited, with written bytes in its map or none. -/
def ended (l : List Nat) (wb : Option Writeback) : State :=
  let gone (t : Stream) : Stream := { t with exited := true }
  let e : MapEntry := { valid := true, vabase := 0x2000, spbase := 0, len := 2, rw := true, cls := 0, filled := [], written := l }
  { at1 .A with tasks := [task1 [] []], bank := { bank1 with
      a := gone bank1.a, x := gone bank1.x, n := gone bank1.n, map := bank1.map.set 0 e, wb := wb } }

theorem witness_TaskSteps_accept : (launched (req1 true 0x10000)).launchReleased (req1 true 0x10000) = true ∧
    (launched (req1 true 0x10000)).tasks.length < 4096 ∧ readOf ((launched (req1 false 0x10000)).readTask (req1 false 0x10000)) = 0 ∧
    readOf ((launched (req1 false 0x80000000)).readTask (req1 false 0x80000000)) = 1 ∧
    readOf ((launched (req1 false 0x20000)).readTask (req1 false 0x20000)) = 3 + 2 ∧ (launched (req1 false 0x20000)).replies = [] := by decide

theorem witness_TaskSteps_place : (tasked (task1 [(0, 0)] [])).headTask 0 = some (task1 [(0, 0)] []) ∧ [(0, 0)].length ≤ (tasked (task1 [(0, 0)] [])).groupFree ∧
    (tasked (task1 [] [])).bank.iter = none ∧ (tasked (task1 [] [])).gangTaker 0 0 = none ∧
    (List.range 64).filter (fun q => (tasked (task1 [] [])).queueReady none q 0 0) = [0] ∧ (tasked (task1 [] [])).headTask 0 = some (task1 [] []) ∧
    (List.range 64).filter (fun q => (tasked (task1 [] [0])).queueReady none q 0 0) = [] ∧ (tasked (task1 [] [0])).gangTaker 0 0 = none ∧ 384 ≤ 384 := by
  decide

theorem witness_TaskSteps_bank : ((imaged 3 0x2000).core.images.find? (fun i => i.sid == .A && decide (i.words.length < i.len) && !i.stopped)).isSome = true ∧
    (match (imaged 3 0x2000).spaceRead 0 0 (0x2000 + 8 * 1) (8 * 3) with
      | .ok _ => true
      | .error _ => false) = true ∧
    (match (imaged 3 0x80000000).spaceRead 0 0 (0x80000000 + 8 * 1) (8 * 3) with
      | .ok _ => false
      | .error _ => true) = true ∧
    (imaged 0 0).imagesReady = true ∧ (imaged 0 0).bank.iter = some iter1 ∧ (imaged 0 0).bank.started = false ∧ (imaged 0 0).bank.restore = none ∧
    (ended [] none).bankDone = true ∧ (ended [] none).bank.evict = none ∧ (ended [3] none).bankDone = true ∧
    ((List.finRange 16).filter fun e => (ended [3] none).bank.map[e].valid && (ended [3] none).bank.map[e].rw &&
      !(ended [3] none).bank.map[e].written.isEmpty) ≠ [] ∧ (ended [] (some { wb1 with left := [] })).bankDone = true := by decide

theorem witness_TaskSteps_end : (tasked (task1 [] [0])).taskAt 1 = some (task1 [] [0]) ∧ (task1 [] [0]).total ≤ (task1 [] [0]).retired.length ∧
    (task1 [] [0]).reply = .nowhere ∧ (tasked (task1 [] [0])).replies = [] ∧ (tasked (task1 [] [0])).taskAt 2 = none ∧
    (tasked { task1 [] [0] with complete := true }).taskAt 1 = some { task1 [] [0] with complete := true } ∧
    (tasked { task1 [] [0] with complete := true }).taskQuiet 1 = true := by decide

/-- R175: the first draw steps the generator to 0x4_2021, and the only ready queue takes the bank. -/
theorem test_draw : after (.lotteryDraw 0 false) (tasked (task1 [] [])) (fun t => t.lotto == 0x00042021 && t.draws == 1 &&
    t.bank.iter.map Iter.task == some 1) = true := by decide
/-- R118: the preloaded registers. -/
theorem test_start : after .iterationStart (imaged 0 0) (fun t => t.bank.started && t.reg 7 == 0x500 && t.reg 9 == 0) = true := by decide
theorem test_retire : after .iterationRetire (ended [] none) (fun t => t.bank.iter == none && t.tasks.map Task.retired == [[0]]) = true := by decide

/-! ## Graphs and rings -/

/-- An instance at node 0 of a graph of `n` nodes at 0x20000. -/
def graph1 (n : Nat) (value : Option Word) (stack : List (Nat × Nat)) : GraphInst :=
  { id := 1, space := 0, va := 0x20000, n := n, node := 0, stack := stack, reading := none, value := value, ended := false, status := 0
    first := none, badVa := 0, stopped := false, stray := false, reply := .nowhere, core := 0, bank := 0, word := 0 }

/-- The state with an instance, and a node of kind `k`, condition NE, NEXT 1, ALT 2, IMM 5. -/
def graphed (k : Byte) (g : GraphInst) : State :=
  { at1 .A with graphs := [g], mem := (((Memory.write [] 0x20000 k).write 0x20004 1).write 0x20009 1) }

def condNode (g : GraphInst) : State := { graphed 2 g with mem := [(0x20000, 2), (0x20001, 1), (0x20004, 1), (0x20006, 2), (0x20009, 1), (0x20010, 5)] }

def nodeKind (s : State) (g : GraphInst) : Option Nat :=
  match s.nodeOf g with
  | .ok (n, _) => some n.kind
  | .error (.status n) => some (100 + n)
  | .error _ => none

theorem witness_GraphSteps : nodeKind (graphed 1 (graph1 2 none [])) (graph1 2 none []) = some 1 ∧ nodeKind (condNode (graph1 2 none [])) (graph1 2 none []) = some 2 ∧
    nodeKind (graphed 3 (graph1 2 none [])) (graph1 2 none []) = some 3 ∧ nodeKind (at1 .A) (graph1 2 none []) = some 0 ∧
    nodeKind (at1 .A) (graph1 0 none []) = some 104 ∧ nodeKind (graphed 4 (graph1 2 none [])) (graph1 2 none []) = some 104 ∧
    Cond.ofCode 1 = some .ne ∧ (∀ e ∈ ([] : List (Nat × Nat)), e.1 ≠ 0) ∧ (0, 2) :: [] = (graph1 2 none [(0, 2)]).stack ∧
    (∃ y ∈ [((0 : Nat), (1 : Nat))], y.1 = 0) ∧ 8 ≤ (List.replicate 8 (7, 1) : List (Nat × Nat)).length ∧
    (graphed 1 (graph1 2 none [])).tasks.length < 4096 ∧ (∀ r ∈ (graphed 1 (graph1 2 none [])).launches, r.reply ≠ .graph 1) ∧ (graphed 1 (graph1 2 none [])).graphOpen 1 = false := by
  refine ⟨by decide, by decide, by decide, by decide, by decide, by decide, by decide, by decide, by decide, ⟨(0, 1), by decide, rfl⟩, by decide, by decide, by decide, by decide⟩

theorem witness_GraphSteps_conds : condMeans .ne 4 5 ∧ ¬ condMeans .ne 5 5 := by unfold condMeans; decide

theorem test_cond : after (.graphNodeCond 1) (condNode (graph1 3 (some 4) [])) (fun t => t.graphs.map GraphInst.node == [1]) = true ∧
    after (.graphNodeCond 1) (condNode (graph1 3 (some 5) [])) (fun t => t.graphs.map GraphInst.node == [2]) = true := by decide
theorem test_graphLoop : after (.graphNodeLoop 1) (graphed 3 (graph1 3 (some 2) [])) (fun t => t.graphs.map GraphInst.stack == [[(0, 2)]]) = true ∧
    after (.graphNodeLoop 1) (graphed 3 (graph1 3 none [(0, 1)])) (fun t => t.graphs.map (fun g => (g.node, g.stack)) == [(1, [])]) = true := by decide

/-- A guarded read of an instance. -/
def guarded1 : State := { graphed 2 { graph1 2 none [] with reading := some 1 } with tasks := [{ task1 [] [] with guarded := true, record := 0x20000 }] }

/-- A ring of 16 records at 0x30000 with one that launches the task record at 0x100. -/
def ring1 : State :=
  { at1 .A with mem := [(0x30000, 1), (0x30009, 1)], queues := [(0, { LQueue.zero 0 with ringVa := 0x30000, ringCfg := 0x8000000000000004, prod := 1 })] }

theorem witness_GraphSteps_reads : guarded1.taskAt 1 ≠ none ∧ guarded1.graphs.map GraphInst.reading = [some 1] ∧
    (match guarded1.recordRead 0 0 0x20000 8 with
      | .ok _ => true
      | .error _ => false) = true ∧ (ring1.queueAt 0).waiting = true ∧ (ring1.queueAt 0).stopped = false ∧
    (match ring1.recordRead 0 (ring1.queueAt 0).space 0x30000 32 with
      | .ok (b, _) => numAt b 0 1 == 1 && numAt b 8 8 == 0x100 && numAt b 16 8 == 0
      | .error _ => false) = true := by decide

theorem test_ring : after (.ringRecord 0) ring1 (fun t => t.launches.map (fun r => (r.graph, r.va)) == [(false, 0x100)] && (t.queueAt 0).cons == 1) = true := by
  decide
/-! ## Engines -/

/-- The next state of `exec i s`, or `s`. -/
def run1 (i : Instr) (s : State) : State :=
  match exec i s with
  | .next t => t
  | _ => s

/-- Buffer 1 with room, and a command that names it at its FIFO's head. -/
def bufferCmd : State :=
  let s := buffer1 .A 1 0 0 0 0 0
  { s with core := { CoreRec.zero with copyQ := [{ cmd1 (cpy1 true) false false with vals := [1, 0x3000, 64, 0] }] } }

/-- A copy from where there is no page, accepted. -/
def faulty1 : State :=
  run1 (.cmdAccept .copy) { at1 .A with core := { CoreRec.zero with copyQ := [{ cmd1 (cpy1 false) false false with vals := [0x2000, 0x80000000, 64, 0] }] } }

/-- A panel whose scale vector, or whose C, has no page. -/
def panelFaulty (drain : Bool) : State :=
  let r : Run := { nest := 9, idx := [0, 0, 0, 0, 0, 0], k := 0, s := [], rsq := [], csq := [], epA := [], epB := [], specA := [], specB := []
                   bfmt := Vector.replicate 16 0, flags := 0 }
  let n := { nest1 0 with cfg := { Nest.zero with scale := 0x80000000, cbase := 0x80000000 }, next := if drain then none else some [0, 0, 0, 0, 0, 0], scales := if drain then some [] else none }
  { at1 .N with core := { CoreRec.zero with panel := { Panel.zero with nests := [n], out := if drain then some (r, 0) else none } } }

theorem witness_EngineSteps : (engine1 (cpy1 false) false false).core.copyQ.all (fun c => !c.stopped && !c.accepted) = true ∧
    State.mayAccept { engine1 (cpy1 false) false false with sid := .A } (cmd1 (cpy1 false) false false) = true ∧
    (cmd1 (cpy1 false) false false).buffer = none ∧
    bufferCmd.core.copyQ.map Cmd.buffer = [some 1] ∧ (bufferCmd.core.copyQ.all fun c => State.mayAccept { bufferCmd with sid := .A } c) = true ∧
    (cmd1 (cpy1 false) true true).done = true ∧ rplOf (cpy1 false) = true ∧ (at1 .A).bank.q[(12 : Fin 16)].length + 0 < 32 ∧
    (match faulty1.running .copy with
      | c :: _ =>
        (match faulty1.stepCmd .copy c with
          | .error (x, _, _) => decide (0 < x.code ∧ x.code < 256 ∧ x.sub < 256) && !faulty1.cmdHeld .copy c
          | .ok _ => false)
      | [] => false) = true := by decide

theorem witness_EngineSteps_panel : (panel1 [{ nest1 0 with next := none }] (some (nest1 0)) 0).core.panel.pending = some (nest1 0) ∧
    (∀ m ∈ (panel1 [{ nest1 0 with next := none }] (some (nest1 0)) 0).core.panel.nests, m.next = none) ∧
    (panelFaulty false).core.panel.feeding.isSome = true ∧ (panelFaulty false).core.panel.out = none ∧
    (panelFaulty true).inWindow ((panelFaulty true).bankAt 0 0) = true ∧
    (match (panelFaulty false).panelNext false, (panelFaulty true).panelNext false, (panelFaulty true).panelNext true with
      | .error (c, _), .ok _, .error (x, _) => decide (0 < c.code ∧ c.code < 256 ∧ c.sub < 256 ∧ 0 < x.code ∧ x.code < 256 ∧ x.sub < 256)
      | _, _, _ => false) = true ∧
    ((panelFaulty true).core.panel.out.map fun r => (panelFaulty true).core.panel.nests.any fun n => n.id == r.1.nest) = some true := by decide

/-- R282, R283, R288: the report of a copy of 64 bytes. -/
theorem test_report : after (.cmdReport .copy) { engine1 (cpy1 false) true true with bank := bank1 } (fun t => t.core.copyQ == [] &&
    t.bank.abarr[(1 : Fin 8)] == 64 && t.bank.q[(12 : Fin 16)].length == 2) = true := by decide
theorem test_accept : after (.cmdAccept .copy) bufferCmd (fun t => t.core.copyQ.map (fun c => (c.accepted, c.dest)) == [(true, 0x00FFFF0000000440)] &&
    t.bank.cb[(1 : Fin 8)].put == 2) = true := by decide

/-! ## Records -/

/-- A record of cause `code` that holds slot 0 or waits to be posted. -/
def record (code : Nat) (who : Waiter) (gone : Bool) : Record :=
  { info := BitVec.ofNat 64 (code + if gone then 2 ^ 63 else 0), va := 0, word := 0, pos := 0, who := who, task := 1 }

def heldRecord (r : Record) : State := { at1 .A with bureau := { Bureau.zero with held := [(0, r)] }, tasks := [task1 [] []] }

/-- Stream A stopped at a BRK at word 3, its bank issuing or not. -/
def stoppedA (issuing : Nat) (x : Bool) : State :=
  let s := heldRecord (record 4 (.stream { core := 0, bank := 0, sid := .A }) false)
  { s with bank := { s.bank with a := { s.bank.a with stopped := true, epc := 3 }, x := { s.bank.x with stopped := x }, stopped := some 9 }
           core := { s.core with issuing := issuing } }

theorem witness_FaultSteps : (let b := { Bureau.zero with posts := [record 4 .none false], held := [(0, record 4 .none false), (2, record 4 .none false)] }
      b.held.length < 4096 ∧ Tbl.get? b.held 1 = none ∧ ∀ m, m < 1 → Tbl.get? b.held m ≠ none) ∧
    Tbl.get? (heldRecord (record 4 .none false)).bureau.held 5 = none ∧ (record 4 .none true).info.getLsbD 63 = true ∧
    (record 4 .none false).info.getLsbD 63 = false ∧ (record 0x10 .none false).info.toNat % 256 = 0x10 ∧
    (stoppedA 0 false).st.stopped = true ∧ (stoppedA 0 false).bank.iter = some iter1 ∧ iter1.task = 1 ∧
    (∃ k ∈ [StreamId.A, .X, .N], k ≠ .A ∧ ((stoppedA 0 true).streamAt k).stopped = true) ∧
    (∀ k ∈ [StreamId.A, .X, .N], k ≠ .A → ((stoppedA 0 false).streamAt k).stopped = false) ∧
    (stoppedA 0 false).core.issuing = (stoppedA 0 false).bankNo ∧ (stoppedA 1 false).core.issuing ≠ (stoppedA 1 false).bankNo ∧
    (heldRecord (record 6 .launch false)).replies = [] ∧
    (let s := { at1 .A with bank := { bank1 with resumed := some 0, cycle := 4096 }, core := { CoreRec.zero with issuing := 1 } }
     s.bank.resumed = some 0 ∧ 0 + 4096 ≤ s.bank.cycle ∧ s.bank.stopped = none ∧ s.core.issuing ≠ s.bankNo) := by
  refine ⟨?_, by decide, by decide, by decide, by decide, by decide, by decide, by decide, ⟨.X, by decide, by decide, by decide⟩, by decide, by decide,
    by decide, by decide, by decide⟩
  decide

/-- R340: RESUME goes on behind a BRK. -/
theorem test_resume : after (.answerResume 0) (stoppedA 0 false) (fun t => t.bank.a.pc == 4 && !t.bank.a.stopped && t.bank.stopped == none &&
    t.bureau.held.isEmpty) = true := by decide
theorem test_end : after (.answerEnd 0) (stoppedA 0 false) (fun t => t.tasks.map Task.aborted == [true]) = true := by decide

/-! ## Pre-emption -/

/-- Core 0 alone is there; queue 1 with PREEMPT has a task of priority 3, and bank 0 holds an iteration of priority 1. -/
def preempt1 : State :=
  { at1 .A with
    bureau := { Bureau.zero with ready0 := 0xFFFFFFFFFFFF0001 }
    cores := (upFrom 1 23).map fun n => (n, { CoreRec.zero with mappedOut := true }, Bank.zero)
    core := { CoreRec.zero with other := { Bank.zero with iter := some { iter1 with task := 3 } } }
    tasks := [task1 [] [], { task1 [] [] with seq := 3, prio := 2 }, { task1 [] [] with seq := 2, queue := 1, prio := 3 }]
    queues := [(1, { LQueue.zero 1 with tickets := 1, preempt := true })] }

theorem witness_PreemptionSteps : preempt1.evicting 1 = none ∧
    (match preempt1.wantsBank 1 with
      | some t => preempt1.mustEvict 1 t && preempt1.victim 1 t == some (0, 0)
      | none => false) = true ∧
    (∃ k ∈ [StreamId.A, .X, .N], (preempt1.streamAt k).exited = false) ∧ preempt1.retires = [] := by
  refine ⟨by decide, by decide, ⟨.A, by decide, by decide⟩, by decide⟩

/-- An iteration that comes back from an area of zeros. -/
def restore1 : State := let s := imaged 0 0; { s with bank := { s.bank with restore := some 0x10000 } }

theorem witness_PreemptionSteps_restore : restore1.coreNo < 384 ∧ restore1.bankNo < 2 ∧ restore1.bank.iter = some iter1 ∧
    restore1.bank.restore = some 0x10000 ∧ restore1.imagesReady = true ∧ restore1.core.copyQ = [] ∧ restore1.core.indexQ = [] ∧
    leNat (restore1.homeRead (restore1.bureauPlace (0x10000 + 6)) 2) / 2 % 8 = 0 ∧
    at8 (restore1.homeRead (restore1.bureauPlace 0x10000) 0x33A40) 0x2280 8 ≤ 8 := by
  refine ⟨by decide, by decide, by decide, by decide, by decide, by decide, by decide, by decide, ?_⟩
  unfold at8
  rw [State.homeRead_drop_take _ _ _ _ _ (by decide)]
  decide

/-! ## Links -/

def cargo1 (slot : Nat) : Cargo := { port := 1, slot := slot, bytes := [1], side := 7 }

/-- The link engine with a cargo for slot 5, a table that routes port 1 in slot 5 of 8, and that expects one in slot 3. -/
def routed1 (row : List Nat) : State :=
  let s := link1 5 0 []
  { s with link := { s.link with queued := [cargo1 5], routes := [(1, row)] } }

/-- A loaded image with an L section of one word at 0x10000, and a run record at 0x2000 that names it. -/
def loadedL : State :=
  { at1 .L with
    mem := [(0x2002, 1), (0x10000, 7)]
    bureau := { Bureau.zero with ready0 := BitVec.allOnes 64, loads :=
      [{ number := 1, space := 0, sections := [(0x10000, 8)], records := [], frames := [], unloading := false }] } }

theorem witness_LinkSteps : (1 : Nat) / 16 = (routed1 []).dieNo ∧
    (routed1 []).link.queued.find? (fun c => c.port == 1 && c.slot == (routed1 []).fslot) = some (cargo1 5) ∧
    ((routed1 [0xFFFF, 0xFFFF, 0xFFFF, 0xFFFF, 0xFFFF, 2, 0xFFFF, 0xFFFF]).portAt 1).lanes = 4 ∧
    (link1 1 0 []).fslot < 2 ∧ (link1 5 0 []).cargoDue 1 (5 - 2) = false ∧
    (link1 5 0 []).flight = [] ∧ (link1 5 0 []).link.active = true ∧ (at1 .L).link.active = false ∧
    (match loadedL.startRead 0 0 0x2000 16 with
      | .ok (b, t) => (match t.startRead 0 0 (leNat (b.take 7)) (8 * t.lcodeLength 0 (leNat (b.take 7))) with
        | .ok (c, _) => wordsOf c 1 == [7]
        | .error _ => false)
      | .error _ => false) = true ∧
    (match (at1 .L).startRead 0 0 0x80000000 16 with
      | .ok _ => false
      | .error _ => true) = true := by decide

/-! ## The device -/

theorem witness_DeviceSteps : 384 * 16 ≤ 6144 ∧ 256 ≤ 256 ∧ (0 : Nat) < 256 ∧ 0 + 1 < Bureau.zero.errthr ∧
    ({ Bureau.zero with errthr := 1 } : Bureau).errthr ≤ 0 + 1 ∧ Tbl.get Bureau.zero.spares 1 0 < 2 ∧ 2 ≤ Tbl.get [(1, 2)] 1 0 ∧
    15 / 16 = (at1 .A).coreNo ∧ 2 ≤ ((link1 0 0 []).portAt (4 / 4)).lanes ∧ (at1 .A).w % 2 ^ 32 = 0 ∧ State.reset.banks = [] ∧
    ((link1 0 0 []).portAt 1).live = true ∧ ((at1 .A).portAt 1).live = false := by decide

/-- R395: a step below 900 MHz and above 1,500 MHz is none. -/
theorem test_steps : after (.powerStepDown 3) { at1 .A with clusters := [(3, { Cluster.zero with step := 9 })] } (fun t => (t.clusterAt 3).step == 9) = true ∧
    after (.powerStepDown 3) (at1 .A) (fun t => (t.clusterAt 3).step == 14) = true ∧ after (.clusterStepUp 3) (at1 .A) (fun t => (t.clusterAt 3).step == 15) = true := by
  decide
theorem test_error : after (.correctedError .bank 0 { index := 0 }) { at1 .A with bureau := { Bureau.zero with errthr := 1 } } (fun t =>
    t.bureau.errlog == [(1, 0, 0)] && t.outs == [.told 1]) = true := by decide

theorem witness_BureauRegisters : Bureau.zero.meas[(23 : Fin 24)] = none ∧ (0x10000 : Word).toNat % 2 ^ 16 = 0 ∧ (65535 : Word).toNat % 2 ^ 16 ≠ 0 ∧
    ((at1 .A).queueAt 63).ringCfg.getLsbD 63 = false ∧ (ring1.queueAt 0).ringCfg.getLsbD 63 = true ∧ ((at1 .A).keyAt 5).gen ≠ 0xFFFFFF ∧
    ((at1 .A).keyAt 5).key ≠ (#v[1, 0, 0, 0] : Vector Word 4).toList ∧
    (({ at1 .A with keys := [(5, { Key.zero with gen := 0xFFFFFF })] } : State).keyAt 5).gen = 0xFFFFFF ∧ 383 < 384 ∧ (at1 .A).coreNo = 0 ∧
    0x100C00 % 8 = 0 := by decide

/-- R175, R387: a seed of 0 stands for 1; KILL of slot 0 does nothing. -/
theorem test_lotseed : after (.lotseedWrite 0x100000000) (at1 .A) (fun t => t.lotto == 1) = true := by decide

/-! ## The host -/

/-- A page table with one page of 1 GiB, and a BOUNDS descriptor of one 64-byte block of uint8 at 0x4000. -/
def walked1 (type : Byte) : State :=
  { at1 .A with
    spaces := [(0, { Space.zero with root := 0x200001 })]
    mem := [(0x2001, 0x40), (0x2007, 1), (0x2008, 64)] ++ (if type = 0 then [] else [(0x200D, type)]) ++
      [(0x200000, 0x09), (0x200001, 0x10), (0x200002, 0x20), (0x201000, 0x37)] }

/-- Status of the descriptor at 0x2000; none where it has no page. -/
def descStatus (s : State) : Option Nat :=
  match s.walk 0 0x2000 with
  | .ok e => some (s.registers 0 (readDescriptor (s.homeRead (e.place 0x2000) 32))).1
  | .error _ => none

def bar2On : State := { at1 .A with bureau := { Bureau.zero with ready0 := BitVec.allOnes 64, apas := 0x8000000000000000 } }

theorem witness_HostAccesses : descStatus (at1 .A) = none ∧ descStatus (walked1 0) = some 0 ∧ descStatus (walked1 31) = some 1 ∧
    (digest1 0 0 0).digestUsed 1 = false ∧
    (let p : Piece := { num := 0, va := 0x2000, place := some (place1 0x2000), n := 64, bytes := [], nib := 0 }
     ({ digest1 0 0 0 with flight := [{ access1 .X 3 .dredo (.scalar (.s 4)) false with todo := [p] }] } : State).digestUsed 1 = true) ∧
    (ring1.queueAt 0).ringCfg.getLsbD 63 = true ∧ ((at1 .A).queueAt 0).ringCfg.getLsbD 63 = false ∧
    bar2On.bureau.apas.getLsbD 63 = true ∧ (at1 .A).bureau.apas.getLsbD 63 = false ∧
    (match bar2On.hostPlaces 0 0x2000 false 2, bar2On.hostPlaces 0 0x80000000 false 2, bar2On.hostPlaces 0 0x2000 true 1 with
      | .ok (ps, _), .error _, .ok ([_], _) => ps.length == 2
      | _, _, _ => false) = true := by decide

theorem test_doorbell : after (.doorbellWrite 0 4 true 9) ring1 (fun t => (t.queueAt 0).prod == 9) = true ∧
    after (.doorbellWrite 0 8 true 9) ring1 (fun t => (t.queueAt 0).prod == 1 && t.bureau.discarded == 1) = true := by decide

/-- The Bureau with a request in hand. -/
def asked (cmd len : Nat) (p : List Byte) (b : Bureau) : State :=
  { walked1 0 with bureau := { b with
      mbState := 1, reqseq := 5, rspseq := 4, inHand := true, request := leBytes cmd 2 ++ [0, 0] ++ leBytes len 4 ++ leBytes 5 8 ++ p } }

theorem witness_MailboxRequests : (asked 1 0 [] Bureau.zero).bureau.mbState.toNat % 4 = 1 ∧ (asked 1 0 [] Bureau.zero).bureau.inHand = true ∧ (asked 1 0 [] Bureau.zero).bureau.reqseq ≠ (asked 1 0 [] Bureau.zero).bureau.rspseq ∧
    Bureau.zero.inHand = false ∧ Bureau.zero.rspseq = Bureau.zero.reqseq ∧
    (leBytes 5 8).length = 8 ∧ numAt (leBytes 1 2 ++ [0, 0] ++ leBytes 0 4 ++ leBytes 5 8) 8 8 = 5 ∧
    (let q : LQueue := { LQueue.zero 0 with ringCfg := 0x8000000000000004 }
     q.ringCfg.getLsbD 63 = true ∧ q.waiting = false ∧ ({ q with ringCfg := 4, prod := 1 } : LQueue).waiting = true) ∧
    (let p := [(0 : Byte), 4, 63, 1, 0, 0, 0, 0]
     numAt p 6 2 = 0 ∧ numAt p 0 1 = 0 ∧ 4 ≤ numAt p 1 1 ∧ numAt p 1 1 ≤ 16 ∧ numAt p 2 1 < 64 ∧ numAt p 3 1 ≤ 1) ∧
    (let l : Loaded := { number := 1, space := 0, sections := [], records := [], frames := [], unloading := true }
     (at1 .A).unloadDone l = true ∧ (at1 .A).imageUsed { l with unloading := false, records := [(0x10000, 256)] } = false ∧
     (launched (req1 false 0x10000)).imageUsed { l with unloading := false, records := [(0x10000, 256)] } = true ∧
     State.unloadDone { at1 .A with bureau := { Bureau.zero with bump := { Action.zero with busy := some 0 } } } l = false) ∧
    (let s := { at1 .A with bureau := { Bureau.zero with ready0 := BitVec.allOnes 64 } }
     (match s.debugPlaces 0 0x2000 false 1, s.debugPlaces 0 0x80000000 false 1 with
     | .ok (ps, _), .error _ => ps.length == 1
     | _, _ => false) = true) ∧ (2#2).getLsbD 1 = true := by decide

/-- R391, R392: PING answers the reset count and signals vector 0; a CMD of 0 is BADCMD. -/
theorem test_ping : after .ping (asked 1 0 [] Bureau.zero) (fun t => t.bureau.response == [0, 0, 0, 0, 8, 0, 0, 0, 5, 0, 0, 0, 0, 0, 0, 0, 1, 0, 0, 0, 0, 0, 0, 0] &&
      t.bureau.rspseq == 5 && t.outs == [.msix 0]) = true ∧
    after .ping (asked 0 0 [] Bureau.zero) (fun t => t.bureau.response.take 2 == [1, 0]) = true := by decide

/-! ## The machine -/

theorem witness_StepRunsDecoded : (State.reset.withFetchWord 64 0x0009841000000001).agenda = [] ∧
    turnStream (State.reset.withFetchWord 64 0x0009841000000001).turn = some .A ∧
    (let s := State.reset.withFetchWord 64 0x0009841000000001
     let u : State := { s with sid := .A, turn := s.turn + 1 }
     u.mayIssue = true ∧ u.code[u.st.pc]? = some 0x0009841000000001 ∧ u.interlock (.addi (.s 4) (.s 4) 1) = none ∧
     max (u.st.bound + (0x0009841000000001 : Word).toNat / 2 ^ 54) u.st.least ≤ u.now ∧ u.readsIndices = false ∧
     ({ u with bank := { u.bank with a := { u.bank.a with pc := 1 } } } : State).mayIssue = true ∧
     ¬ 1 < ({ u with bank := { u.bank with a := { u.bank.a with pc := 1 } } } : State).code.length ∧
     (∀ r : Fin 32, u.st.s[r] = 0) ∧ (State.mayIssue { u with bank := { u.bank with started := false } }) = false) := by decide

/-- The spec's word for addi s4, s4, 1 (R34), placed and fetched by the very next step; with IDLE 3 it issues as well. -/
theorem test_step_addi : (match step (State.reset.withFetchWord 64 0x0009841000000001) with
    | .next t => t.reg 4 == 1 && t.bank.a.pc == 1
    | _ => false) = true ∧
    (match step (State.reset.withFetchWord 64 0x00C9841000000001) with
    | .next t => t.reg 4 == 1
    | _ => false) = true := by decide

/-- A word of another stream runs in that stream; a step that is due runs as its row. -/
theorem test_step_agenda : (match step { at1 .A with agenda := [.fslotAdvance] } with
    | .next t => t.fslot == 1 && t.agenda == []
    | _ => false) = true := by decide

theorem witness_EncodeDecode : (Instr.addi (.s 4) (.s 4) 1).wf .A = true ∧ (Instr.ldone).wf .L = true := by decide

theorem witness_MemoryCanonical : State.reset.Inv ∧ (match step State.reset with
    | .next _ => true
    | _ => false) = true := ⟨rfl, by decide⟩
/-! ## Further clauses of the statements -/

/-- What EXIT waits for: a result that is not readable, data in flight, and a push that has not come. -/
theorem witness_StreamWords_exit :
    (∃ p ∈ ((at1 .X).setSt { (at1 .X).st with busy := [(.s 3, 12)] }).st.busy, (at1 .X).now < p.2) ∧
    (fenced (at1 .X)).st.fences ≠ [] ∧
    (∃ x ∈ (flight1 .A [access1 .A 3 (.load 4 true) (.scalar (.s 4)) true]).flight, x.agent = (flight1 .A []).agent ∧ (x.dest ≠ .none ∨ x.req.regs ≠ [])) ∧
    ((4 : Fin 16).val < 12 ∧ qProducer (4 : Fin 16) = some .X ∧
      ∃ e ∈ (State.bank { at1 .X with bank := { bank1 with q := bank1.q.set 4 [{ entry1 5 with due := none, filled := none }] } }).q[(4 : Fin 16)], e.filled = none) ∧
    (∃ e ∈ (at1 .X).bank.q[(0 : Fin 16)], e.filled ≠ none) ∧ qConsumer (0 : Fin 16) = .X := by
  refine ⟨⟨(.s 3, 12), by decide, by decide⟩, by decide, ⟨access1 .A 3 (.load 4 true) (.scalar (.s 4)) true, by decide, by decide, by decide⟩,
    ⟨by decide, by decide, { entry1 5 with due := none, filled := none }, by decide, by decide⟩, ⟨entry1 5, by decide, by decide⟩, by decide⟩

/-- ERET in a handler that a TRAP, and one that another cause has entered. -/
theorem witness_TrapWords_eret : (let s := handler1 .A
    s.setSt { s.st with active := true, cause := 5, epc := 3 }).st.active = true ∧ (5 : Word).toNat % 256 = 5 ∧ (9 : Word).toNat % 256 ≠ 5 := by decide

/-- Floating values of each kind: a quiet and a signalling NaN, infinities, zeros, numbers, and bounds of the conditions. -/
theorem witness_VectorFloats_values : (fmtFp32.decode 0x7FC00000).isNan = true ∧ (fmtFp32.decode 0x7F800001).isSnan = true ∧
    fmtFp32.decode 0xFF800000 = .inf true ∧ (∃ e, fmtFp32.decode 0x80000000 = .fin true 0 e) ∧ (fmtFp32.decode 0x3F800000).isNan = false ∧
    (∃ m e, fmtFp32.decode 0xC0000000 = .fin true m e ∧ 0 < m) ∧ Ty.fp32 = .fp32 ∧ 149 ≤ 149 ∧ ¬ 150 ≤ 149 ∧ 127 ≤ 127 := by
  refine ⟨by decide, by decide, by decide, ⟨_, rfl⟩, by decide, ⟨_, _, rfl, by decide⟩, rfl, by decide, by decide, by decide⟩

/-- 1 is below infinity, negative infinity below 1, and neither of two equal numbers is below the other. -/
theorem witness_VectorCompare_values : (Exact.num false 1).Below (.inf false) ∧ (Exact.inf true).Below (.num false 1) ∧
    ¬ (Exact.num false 1).Below (.num false 1) := by
  refine ⟨by simp [Exact.Below], by simp [Exact.Below], by simp [Exact.Below]⟩

theorem witness_VectorConversions_types : Ty.int8.isInt = true ∧ Ty.uint32.isInt = true ∧ fmtOf? .bf16 = some fmtBf16 ∧ fmtOf? .int8 = none := ⟨rfl, rfl, rfl, rfl⟩

/-- A write-back of its own stream that meets an error, and a store of a stream that has exited. -/
theorem witness_AccessSteps_more : (access1 .A 3 .writeback .none true).req = .writeback ∧
    (mapStep [] (some wb1) 0x2000).owns (access1 .A 3 .writeback .none true) = true ∧ (mapStep [] (some wb1) 0x2000).mapAt 0x2000 = some 0 ∧
    (flight1 .A [access1 .A 3 .store .none true]).owns (access1 .A 3 .store .none true) = true ∧
    ((flight1 .A [access1 .A 3 .store .none true]).streamOf { core := 0, bank := 0, sid := .A }).exited = false ∧
    (flight1 .A [access1 .A 3 .store .none true]).takeCredits 0 (place1 0x2000) 4 ≠ none ∧
    (let p : Piece := { num := 0, va := 0x2000, place := some { place1 (scratchLoc 0 0) with home := 5, slot := 0, gen := 0 }, n := 4, bytes := [], nib := 0 }
     ({ place1 0 with home := 5 } : Place).home = 5 ∧ p.n = 4 ∧ (map1 0 0 0 []).bank.map[(0 : Fin 16)].isFilled 0 = true) := by
  refine ⟨by decide, by decide, by decide, by decide, by decide, by decide, by decide⟩

/-- Panel clauses: a pending nest, a nest of the other bank, a block that waits or has an error, a malformed block, and one of a pair. -/
theorem witness_PanelWords_more : (at1 .N).bank.shadow.goBad = none ∧
    (panel1 [nest1 0] (some (nest1 0)) 0).core.panel.pending ≠ none ∧ (∃ n ∈ (panel1 [nest1 1] none 0).core.panel.all, n.bank ≠ (at1 .N).bankNo) ∧
    (fenced (panel1 [nest1 0] none 0)).ownHeld 0 true [(0, 0x29140)] = true ∧ (panel1 [nest1 0] none 0).ownHeld 0 true [(0, 0x29140)] = false ∧
    (State.flawedOwn { panel1 [] none 0 with flaws := [(scratchLoc 0 0x100, 1)] } 0 0x29140) = true ∧
    (panel1 [] none 0).flawedOwn 0 0x29140 = false ∧ ({ panel1 [] none 0 with bank := { bank1 with pmode := 2 } } : State).bank.pmode = 2 ∧
    127 + 256 < 128 + 256 := by
  refine ⟨by decide, by decide, ⟨nest1 1, by decide, by decide⟩, by decide, by decide, by decide, by decide, rfl, by decide⟩

/-- A block without MAGIC reads as none. -/
theorem readBlock_magic (bfmt : Vector Word 16) (b : List Byte) (h : leNat ((b.drop 0x29100).take 4) ≠ 0x314C4E50) : readBlock bfmt b = none := by
  unfold readBlock
  dsimp only
  rw [if_pos (Or.inl h)]

/-- A block without MAGIC is refused by NLOAD. -/
theorem witness_PanelWords_malformed : readBlock (panel1 [] none 0).bank.bfmt ((panel1 [] none 0).mem.readN (scratchLoc 0 0) 0x29140) = none := by
  have h : leNat ((((panel1 [] none 0).mem.readN (scratchLoc 0 0) 0x29140).drop 0x29100).take 4) ≠ 0x314C4E50 := by
    rw [Memory.readN_drop_take _ _ _ _ _ (by decide)]
    decide
  generalize (panel1 [] none 0).mem.readN (scratchLoc 0 0) 0x29140 = b at h
  exact readBlock_magic _ b h

/-- The first and the last row of a command's table, and a boundary value of the first. -/
theorem witness_EngineCommands_rows : after (cpy1 false) (with3 .A 0x2000 0x3000 (2 ^ 40)) (fun t => t.st.cause == 0x0C && t.st.tval == 2 ^ 40) = true ∧
    after (cpy1 false) (with3 .A 0x2000 (2 ^ 56) 64) (fun t => t.st.cause == 0x0C && t.st.tval == 2 ^ 56) = true ∧
    after (cpy1 true) (with3 .A 8 0x3000 64) (fun t => t.st.cause == 0x0C && t.st.tval == 8) = true ∧
    after (.btinv true (.s 1) (.s 2)) (with3 .A 4 1 0) (fun t => t.st.cause == 0x0C && t.st.tval == 4) = true := by decide

/-- Acceptance of GATH with an index in range, and with one past the last element; KVFETCH. -/
def gath1 (ix : Byte) : State :=
  let i : Instr := .gath .w (.s 1) (.s 2) (.s 3) 4 ⟨0, 0, false, 0⟩
  { at1 .A with
    mem := [(0x3000, ix)]
    core := { CoreRec.zero with copyQ := [], indexQ := [{ cmd1 i false false with
      vals := [0x2000, 0x4000, 0x3000, 1], more := [0, 0, 16], checked := false }] } }

theorem witness_EngineSteps_index : ((gath1 3).core.indexQ.all fun c => State.mayAccept { gath1 3 with sid := .A } c) = true ∧
    after (.cmdAccept .index) (gath1 3) (fun t => t.core.indexQ.map (fun c => (c.accepted, c.checked, c.data)) == [(true, true, [3])]) = true ∧
    after (.cmdAccept .index) (gath1 16) (fun t => t.core.indexQ == [] && t.bank.a.cause == cVINDEX.word && t.bank.a.tval == 16) = true := by decide

/-- Two queues with tickets whose head tasks are ready. -/
def lottery2 : State :=
  { tasked (task1 [] []) with
    tasks := [task1 [] [], { task1 [] [] with seq := 2, queue := 1 }]
    queues := [(0, { LQueue.zero 0 with tickets := 1 }), (1, { LQueue.zero 1 with tickets := 3 })] }

/-- The generator's first number modulo 4 is 1: behind the ticket of queue 0, in the share of queue 1. -/
theorem witness_TaskSteps_lottery : (List.range 64).filter (fun q => lottery2.queueReady none q 0 0) = [0, 1] ∧ (xorshift lottery2.lotto).toNat % 4 = 1 ∧
    1 ≤ 1 ∧ 1 < 1 + 3 ∧ lottery2.headTask 1 = some { task1 [] [] with seq := 2, queue := 1 } ∧ lottery2.bank.heir = none := by decide

theorem test_lottery : after (.lotteryDraw 0 false) lottery2 (fun t => t.bank.iter.map Iter.task == some 2) = true := by decide

/-- A gang of one group of two iterations, which one core cannot place, and of one, which it can. -/
def gang1 (n : Nat) : Task :=
  { task1 [(0, 0)] [] with held := true, groups := [(0, n - 1)], bounds := [1, 1, 1, 1, 1, n] }

theorem witness_TaskSteps_gang :
    (State.gangComplete { tasked (gang1 1) with core := { CoreRec.zero with reserved := some 0 } } 0 (gang1 1)) = true ∧
    (State.gangComplete { tasked (gang1 2) with core := { CoreRec.zero with reserved := some 0 } } 0 (gang1 2)) = false := by decide

/-- A cached page of 1 GiB on the memory of device 1, or of device 2, behind a port without a credit. -/
def noCredit (two : Bool) (s : State) : State :=
  { s with
    tlb := [{ page1 with w0 := if two then 0x800000000B7 else 0x400000000B7 }], bureau := { s.bureau with ready1 := BitVec.allOnes 64 }
    ports := [(1, { Port.zero with live := true, lanes := 4, credits := 0 })] }

theorem noCredit_goesOut (s : State) (h : s.livePorts 0 = [1]) (hp : (s.portAt 1).credits = 0) (p : Place) (hh : p.home = 2) (n : Nat) :
    s.goesOutOf 0 p n = none := by
  have e : ∀ n : Nat, [1][n % [1].length]? = some 1 := fun n => by simp [Nat.mod_one]
  have t : s.takeCredits 0 p n = none := by
    simp only [State.takeCredits, State.portFor, h, e, hh, hp, ne_eq, not_true, if_false]
    rw [if_pos (Or.inl (by omega))]
  unfold State.goesOutOf
  rw [t]
  simp

def peerPlace (two : Bool) : Place := { home := 2, pa := (if two then 0x80000000000 else 0x40000000000) + 0x2008, slot := 0, gen := 0, codec := 0 }

/-- A read on it waits, where it is not the own device. -/
theorem waits_peer (two : Bool) (d : (if two then 2 else 1) ≠ Config.deviceNumber) :
    (noCredit two (imaged 3 0x2000)).spaceRead 0 0 (0x2000 + 8 * 1) (8 * 3) = .error (cWAITS, 0x2000 + 8 * 1) := by
  have e : ∀ n : Nat, [1][n % [1].length]? = some 1 := fun n => by simp [Nat.mod_one]
  have h : (noCredit two (imaged 3 0x2000)).xlate 0 (0x2000 + 8 * 1) true false = .ok (peerPlace two, noCredit two (imaged 3 0x2000)) := by
    have c : (noCredit two (imaged 3 0x2000)).cached 0 (0x2000 + 8 * 1) = some { page1 with w0 := if two then 0x800000000B7 else 0x400000000B7 } := by
      cases two <;> decide
    unfold State.xlate
    rw [c]
    cases two <;> rfl
  have l : (noCredit two (imaged 3 0x2000)).livePorts 0 = [1] := by cases two <;> decide
  have r : (noCredit two (imaged 3 0x2000)).refusal 0 (peerPlace two) 1 = none := by
    have p : (peerPlace two).pa / 2 ^ 42 = if two then 2 else 1 := by cases two <;> decide
    simp only [State.refusal, State.outOfReach, State.portFor, l, e, p, d, if_false]
    cases two <;> decide
  unfold State.spaceRead
  rw [show 8 * 3 = 23 + 1 from rfl, State.spaceReadFrom, h]
  simp only [r, noCredit_goesOut _ l (by cases two <;> decide) (peerPlace two) rfl, Bool.true_or, Bool.and_true, if_true]

theorem witness_TaskSteps_waits : ∃ two, (noCredit two (imaged 3 0x2000)).spaceRead 0 0 (0x2000 + 8 * 1) (8 * 3) = .error (cWAITS, 0x2000 + 8 * 1) := by
  by_cases d : Config.deviceNumber = 1
  · exact ⟨true, waits_peer true (by rw [d]; decide)⟩
  · exact ⟨false, waits_peer false (fun h => d h.symm)⟩

/-- The link steps: an idle die, a port with an access on it, and a cargo that the table discards. -/
theorem witness_LinkSteps_idle : State.reset.dieNo = 0 ∧ State.reset.link.st.wait ≠ some (.ext .done) ∧ State.reset.banks = [] ∧
    State.reset.hostWait = [] ∧ State.reset.agenda = [] ∧ State.reset.flight = [] ∧ (link1 0 0 []).link.active = true ∧ 48 ≤ 48 ∧ (at1 .L).link.swBusy = false := by decide

/-- LDONE waits behind a queued cargo and behind an access of its run. -/
theorem witness_LinkMemory_quiet : (routed1 []).link.queued ≠ [] ∧ (ldone1 none 0).linkQuiet = true ∧ (routed1 []).linkQuiet = false ∧
    (State.linkQuiet { ldone1 none 0 with link := { (ldone1 none 0).link with lost := true } }) = false := by decide

/-- A function that goes with its error, below the threshold and at it. -/
theorem test_gone : after (.correctedError .bank 0 { index := 0, gone := some (false, 2) })
      { at1 .A with bureau := { Bureau.zero with errthr := 1, ready0 := 7 } } (fun t => t.bureau.ready0 == 3) = true ∧
    after (.correctedError .bank 0 { index := 0, gone := some (false, 2) })
      { at1 .A with bureau := { Bureau.zero with errthr := 2, ready0 := 7 } } (fun t => t.bureau.ready0 == 7) = true := by decide

/-- A write-back has come to its end, and bytes were written meanwhile (R265, step 1). -/
theorem witness_MapWords_again : (let s := map1 0x4000 0x4000 1 [7]
    let u : State := { s with bank := { s.bank with wb := some { by_ := .rmap, left := [], sent := 8, stopped := false } } }
    u.sentBack && u.mapQuiet 0 && u.bank.map[(0 : Fin 16)].written == [7]) = true := by decide

/-! ## What the tools write -/

/-- R64: `(0 - 7) / 2` truncates to -3, `-1 >> 60` stays -1, and a division by zero is refused. -/
theorem test_tools_expr : (ConstExpr.div (.neg (.num 7)) (.num 2)).value = some (-3) ∧ (ConstExpr.shr (.neg (.num 1)) (.num 60)).value = some (-1) ∧
    (ConstExpr.rem (.num 1) (.num 0)).value = none := by decide

/-- R73: the single of 0.1 is 0x3DCCCCCD; the magnitude 449 is refused for e4m3, 448 is 0x7E. -/
theorem test_tools_data : (Datum.float .fp32 (.dec false 1 (-1))).bytes 0 = some (leBytes 0x3DCCCCCD 4) ∧ (Datum.float .e4m3 (.dec false 449 0)).bytes 0 = none ∧
    (Datum.float .e4m3 (.dec false 448 0)).bytes 0 = some [0x7E] ∧ dataBytes 0 [.int 1 255, .align 8] = some (0xFF :: List.replicate 7 0) := by decide

/-- The task block of the worked example of R76. -/
def squaresTask : TaskDecl :=
  { queue := 0, prio := 0, lock := false, regchk := false, gang := false, panel := 0, banks2 := false
    bounds := [4], order := none, regions := [(0x1000, 32, 2, 0)], groups := [], wheel := 0 }

/-- Its records, of `.nest 4` and `.region out, 32, w`, read back as the launch unit reads them. -/
theorem test_tools_task : let t := squaresTask
    t.ok = true ∧ t.record.length = 256 ∧ readNestRecord t.nestRecord = some ([4, 1, 1, 1, 1, 1], [0, 1, 2, 3, 4, 5]) ∧
    readRegions t.regionRecords 1 = some [{ base := 0x1000, ext := 32, rd := false, wr := true, cls := 0 }] := by decide

/-- R89: LO24 patches the 40 low bits of an LDI word and is refused on an LDHI word; a code symbol is no VA56. -/
theorem test_tools_reloc : let r : RelocAt := { value := 0x123456789A, code := none, image := none, addend := 6, holder := none, slotType := 0 }
    relocate 3 r (leBytes 0x000B820000000000 8) = some (leBytes 0x000B8200005678A0 8) ∧ relocate 3 r (leBytes 0x000BC20000000000 8) = none ∧
    relocate 2 { r with code := some (0, 1) } (leBytes 0 8) = none := by decide

/-- The literals: a hexadecimal pattern is stored as it is, and e4m3 has no infinity. -/
theorem test_tools_literals : (Datum.float .fp32 (.hex 0x7F800001)).bytes 0 = some (leBytes 0x7F800001 4) ∧
    (Datum.float .fp32 (.inf true)).bytes 0 = some (leBytes 0xFF800000 4) ∧ (Datum.float .e4m3 (.inf false)).bytes 0 = none := by decide

/-- A symbol of a binding and a KIND. -/
def symOf (bind kind sect : Nat) : SymEntry := { name := 0, bind, kind, reserved := 0, sect, value := 0 }

/-- An object with one symbol after the null entry, named `n`. -/
def objOf (n : List Byte) (y : SymEntry) : Obj := { sects := [], names := [], bytes := [], syms := [symOf 0 0 0, y], symNames := [[], n], relocs := [] }

/-- R87: an extern stands for the global of its name; without one, with two, or with one of another KIND, skld refuses the objects. -/
theorem test_tools_link : let x := objOf [0x66] (symOf 2 2 0)
    let g := objOf [0x66] (symOf 1 2 1)
    symsResolve [x, g] = true ∧ symsResolve [x] = false ∧ symsResolve [x, g, g] = false ∧
    symsResolve [x, objOf [0x66] (symOf 1 3 1)] = false := by decide

end Sys2Proof.Tests
end

section
/-! PROOF. How `decode` answers in the cases of R41, the refusals of single rows of the decoder as the fields of a format meet them, and the
words that the chapter on formats encodes and decodes by hand. -/

namespace Sys2Proof

/-! ## The three answers of the opcode map and the legality table (R39, R40, R41) -/

section
variable {σ : StreamId} {w : Word}

theorem decode_of_unassigned (h : legality (opcOf w) = none) : decode σ w = .error .unassigned := by
  simp [decode, h]

theorem decode_of_stream_illegal {legal : StreamId → Bool} (h : legality (opcOf w) = some legal) (hσ : legal σ = false) :
    decode σ w = .error .stream := by
  simp [decode, h, hσ]

theorem decode_eq_decodeBody {legal : StreamId → Bool} (h : legality (opcOf w) = some legal) (hσ : legal σ = true) :
    decode σ w = decodeBody σ (opcOf w) (bodyOf w) := by
  simp [decode, h, hσ]

/-- R40: every stream issues the words of row 0, so only their fields decide. -/
theorem decode_eq_dec0 {lo : Nat} (h : opcOf w = lo) (hlo : lo ≤ 0x0E) : decode σ w = dec0 σ lo (bodyOf w) := by
  have hl : legality (opcOf w) = some (legalIn true true true true) := if_pos (h ▸ hlo)
  have hrow : lo / 16 = 0 := by omega
  have hcol : lo % 16 = lo := by omega
  rw [decode_eq_decodeBody hl (by cases σ <;> rfl), h]
  simp only [decodeBody, hrow, hcol]

end

/-! ## Steps of the decoder -/

theorem need_of_false (e : Ill) {p : Bool} (h : p = false) : need e p = .error e := by
  simp [need, h]

theorem need_of_true (e : Ill) {p : Bool} (h : p = true) : need e p = .ok () := by
  simp [need, h]

theorem reg_of_le {n x : Nat} (h : n ≤ x) : reg n x = .error .operand :=
  dif_neg (Nat.not_lt.mpr h)

theorem reg_of_lt {n x : Nat} (h : x < n) : reg n x = .ok ⟨x, h⟩ :=
  dif_pos h

/-- R35: the values 48 to 63 name no scalar and no queue. -/
theorem src_of_le {σ : StreamId} {x : Nat} (h : 48 ≤ x) : src σ x = .error .operand := by
  rw [src, opnd, dif_neg (by omega), dif_neg (by omega)]

/-- R37: the codes from 15 on name no type. -/
theorem Ty.ofCode_of_le {n : Nat} (h : 15 ≤ n) : Ty.ofCode n = none :=
  List.getElem?_eq_none h

/-- R41: a TYPE code that names no type is refused as such once RND names a mode other than sr and FN is clear. -/
theorem decVHead_type {f : FV} {types : Ty → Bool} {g : Gate} {r : Rnd} (hfn : f.fn = 0) (hg : Gate.ofCode f.gg = some g)
    (hr : Rnd.ofCode f.rnd = some r) (hsr : r ≠ .sr) (hty : 15 ≤ f.ty) : decVHead f types true true false = .error .type := by
  have h0 : (f.fn == 0) = true := by simp [hfn]
  simp only [decVHead, need_of_true _ h0, Bool.true_or, need_of_true _ rfl, hg, hr, Ty.ofCode_of_le hty, pick]
  cases r with
  | sr => exact absurd rfl hsr
  | rne | rtz | rdn => rfl

/-! ## Refusals by row -/

section
variable {σ : StreamId} {w : Nat}

/-- R32: field B of CMPI is reserved. -/
theorem dec0_cmpi_reserved (hb : (unpackS w).b ≠ 0) : dec0 σ 0x06 w = .error .reserved := by
  have h : ((unpackS w).sense == 0 && (unpackS w).b == 0) = false := by simp [hb]
  simp only [dec0, need_of_false _ h]
  rfl

/-- R35: CMPI with a source that names no register, where every other field is as R32 wants it. -/
theorem dec0_cmpi_operand {cc : Cond} (hsense : (unpackS w).sense = 0) (hb : (unpackS w).b = 0)
    (hcc : Cond.ofCode (unpackS w).cc = some cc) (hk : (unpackS w).k < 12) (ha : 48 ≤ (unpackS w).a) :
    dec0 σ 0x06 w = .error .operand := by
  have h : ((unpackS w).sense == 0 && (unpackS w).b == 0) = true := by simp [hsense, hb]
  simp only [dec0, need_of_true _ h, hcc, pick, reg_of_lt hk, src_of_le ha]
  rfl

/-- R35: the values 12 to 15 name no steer register. -/
theorem dec0_br_operand (hcc : (unpackS w).cc = 0) (ha : (unpackS w).a = 0) (hb : (unpackS w).b = 0) (himm : (unpackS w).imm = 0)
    (hk : 12 ≤ (unpackS w).k) : dec0 σ 0x03 w = .error .operand := by
  have h : ((unpackS w).cc == 0 && (unpackS w).a == 0 && (unpackS w).b == 0 && (unpackS w).imm == 0) = true := by
    simp [hcc, ha, hb, himm]
  simp only [dec0, need_of_true _ h, reg_of_le hk]
  rfl

/-- R30: SC is 0 in LD, whatever the other fields hold. -/
theorem dec3_ld_reserved (hsc : (unpackM w).sc ≠ 0) : dec3 σ 0x00 w = .error .reserved := by
  have h : ((unpackM w).sc == 0 && (unpackM w).scope == 0 && (unpackM w).res == 0) = false := by simp [hsc]
  simp only [dec3, need_of_false _ h]
  rfl

/-- R37: VFMA with a TYPE that names no type, where RND names a mode other than sr and FN holds a gate alone. -/
theorem decA_vfma_type {g : Gate} {r : Rnd} (hfn : (unpackV w).fn = 0) (hg : Gate.ofCode (unpackV w).gg = some g)
    (hr : Rnd.ofCode (unpackV w).rnd = some r) (hsr : r ≠ .sr) (hty : 15 ≤ (unpackV w).ty) : decA 0x04 w = .error .type := by
  simp only [decA, decV4, decVHead_type hfn hg hr hsr hty]
  rfl

end

/-! ## The words of the chapter (Encoding by hand, Decoding by hand) -/

/-- The words that no stream reads: an unassigned OPC, CMPI with B = 1, CMPI with A = 48, BR of k13. -/
theorem decode_illegal_in_every_stream (k : StreamId) :
    decode k 0x003C000000000000 = .error .unassigned ∧ decode k 0x000184010200000A = .error .reserved ∧
    decode k 0x000184180000000A = .error .operand ∧ decode k 0x0000F60000000000 = .error .operand := by
  refine ⟨decode_of_unassigned rfl, ?_, ?_, ?_⟩
  · rw [decode_eq_dec0 (lo := 0x06) rfl (by decide)]
    exact dec0_cmpi_reserved (by decide)
  · rw [decode_eq_dec0 (lo := 0x06) rfl (by decide)]
    exact dec0_cmpi_operand (cc := .eq) rfl rfl rfl (by decide) (by decide)
  · rw [decode_eq_dec0 (lo := 0x03) rfl (by decide)]
    exact dec0_br_operand rfl rfl rfl rfl (by decide)

/-- The VFMA word with TYPE 15, in the stream that issues VFMA. -/
theorem decode_vfma_type15 : decode .X 0x0029040420DE2000 = .error .type :=
  (decode_eq_decodeBody (legal := legalIn false true false false) rfl rfl).trans
    (decA_vfma_type (g := none) (r := .rne) rfl rfl rfl (by decide) (by decide))

/-- The load word with SC = 1 and SCOPE = 7. -/
theorem decode_ld_sc1 : decode .X 0x004C050FFFFE0AF8 = .error .reserved :=
  (decode_eq_decodeBody (legal := legalIn true true true false) rfl rfl).trans (dec3_ld_reserved (by decide))

/-- Settles O57: each legal word evaluates to its instruction, and each illegal one meets the case of R41 that the lemma about its row
states. -/
theorem decodeWords : Obligations.DecodeWords := by
  unfold Obligations.DecodeWords
  refine ⟨?_, rfl, rfl, rfl, decode_illegal_in_every_stream, ?_, decode_vfma_type15, decode_ld_sc1⟩
  · simp only [List.forall_mem_cons, List.not_mem_nil, false_implies, implies_true, and_true]
    exact ⟨rfl, rfl, rfl, rfl, rfl, rfl, rfl, rfl, rfl, rfl, rfl, rfl⟩
  · exact decode_of_stream_illegal (legal := legalIn false true false false) rfl rfl

end Sys2Proof
end

section
/-! PROOF. The scalar ALU: each operation of the model on 64-bit values is the one of the statement, and each word is its operation
between the reading of its sources and the writing of its result. -/

namespace Sys2Proof.Machine

/-! ## Products and quotients (R46) -/

/-- The upper half of a product of 128 bits is the integer product, divided. -/
theorem upper_half_ofInt (z : Int) : ((BitVec.ofInt 128 z) >>> 64).setWidth 64 = BitVec.ofInt 64 (z / 2 ^ 64) := by
  apply BitVec.eq_of_toNat_eq
  simp only [BitVec.toNat_setWidth, BitVec.toNat_ushiftRight, BitVec.toNat_ofInt, Nat.shiftRight_eq_div_pow]
  omega

theorem mulHigh_eq (x y : Word) : mulHigh x y = ((x.signExtend 128 * y.signExtend 128) >>> 64).setWidth 64 := by
  have h : x.signExtend 128 * y.signExtend 128 = BitVec.ofInt 128 (x.toInt * y.toInt) := (BitVec.ofInt_mul ..).symm
  rw [h, upper_half_ofInt, mulHigh]

theorem mulHighU_eq (x y : Word) : mulHighU x y = ((x.setWidth 128 * y.setWidth 128) >>> 64).setWidth 64 := by
  have h : x.setWidth 128 * y.setWidth 128 = BitVec.ofInt 128 ((x.toNat * y.toNat : Nat) : Int) := by
    rw [BitVec.ofInt_natCast]
    apply BitVec.eq_of_toNat_eq
    simp [Nat.mul_mod]
  rw [h, upper_half_ofInt, mulHighU, ← BitVec.ofInt_natCast]
  rfl

theorem divS_eq (x y : Word) : divS x y = if y = 0 then BitVec.allOnes 64 else x.sdiv y := by
  unfold divS
  split
  · rfl
  · split
    · next h => obtain ⟨rfl, rfl⟩ := h; decide
    · exact BitVec.eq_of_toInt_eq (by rw [BitVec.toInt_ofInt, BitVec.toInt_sdiv])

theorem remS_eq (x y : Word) : remS x y = if y = 0 then x else x.srem y := by
  unfold remS
  split
  · rfl
  · split
    · next h => obtain ⟨rfl, rfl⟩ := h; decide
    · rw [← BitVec.toInt_srem, BitVec.ofInt_toInt]

theorem divU_eq (x y : Word) : divU x y = if y = 0 then BitVec.allOnes 64 else x / y := by
  rw [divU, ← BitVec.toNat_udiv, BitVec.ofNat_toNat, BitVec.setWidth_eq]

theorem remU_eq (x y : Word) : remU x y = if y = 0 then x else x % y := by
  rw [remU, ← BitVec.toNat_umod, BitVec.ofNat_toNat, BitVec.setWidth_eq]

/-! ## Shift amounts and minima (R45) -/

theorem toNat_and_63 (y : Word) : (y &&& 63).toNat = y.toNat % 64 := by
  rw [BitVec.toNat_and]
  exact Nat.and_two_pow_sub_one_eq_mod _ 6

/-- The lesser of two values is the same whichever is tested against the other: where neither is less they are equal. -/
theorem slt_min_comm (x y : Word) : (if y.slt x then y else x) = if x.slt y then x else y := by
  simp only [BitVec.slt_iff_toInt_lt]
  rcases Int.lt_trichotomy x.toInt y.toInt with h | h | h
  · rw [if_neg (by omega), if_pos h]
  · rw [BitVec.eq_of_toInt_eq h]
  · rw [if_pos h, if_neg (by omega)]

theorem ult_min_comm (x y : Word) : (if y.ult x then y else x) = if x.ult y then x else y := by
  simp only [BitVec.ult_iff_toNat_lt]
  rcases Nat.lt_trichotomy x.toNat y.toNat with h | h | h
  · rw [if_neg (by omega), if_pos h]
  · rw [BitVec.eq_of_toNat_eq h]
  · rw [if_pos h, if_neg (by omega)]

/-! ## Counting bits -/

theorem clzAuxRec_eq_leadZeros (x : Word) {n : Nat} (h : n < 64) : x.clzAuxRec n = BitVec.ofNat 64 (63 - n + leadZeros x (n + 1)) := by
  induction n with
  | zero =>
    rw [BitVec.clzAuxRec_zero, leadZeros]
    split <;> rfl
  | succ n ih =>
    rw [BitVec.clzAuxRec_succ, leadZeros]
    split
    · rfl
    · rw [ih (by omega)]
      congr 1
      omega

theorem leadZeros_eq_clz (x : Word) : BitVec.ofNat 64 (leadZeros x 64) = x.clz := by
  simp [BitVec.clz, clzAuxRec_eq_leadZeros x]

/-- The zeros below the lowest one bit are the leading zeros of the reversed value. -/
theorem trailZeros_eq_leadZeros_reverse (x : Word) {i n : Nat} (h : i + n = 64) : trailZeros x i n = leadZeros x.reverse n := by
  induction n generalizing i with
  | zero => rfl
  | succ n ih =>
    have e : 64 - 1 - n = i := by omega
    have hn : n < 64 := by omega
    rw [trailZeros, leadZeros, ih (by omega), BitVec.getLsbD_reverse, BitVec.getMsbD_eq_getLsbD]
    simp [e, hn]

theorem trailZeros_eq_ctz (x : Word) : BitVec.ofNat 64 (trailZeros x 0 64) = x.ctz := by
  rw [trailZeros_eq_leadZeros_reverse x rfl, leadZeros_eq_clz, BitVec.ctz]

theorem cpopNatRec_eq_onesIn (x : Word) (n acc : Nat) : x.cpopNatRec n acc = acc + onesIn x n := by
  induction n generalizing acc with
  | zero => rfl
  | succ n ih =>
    rw [BitVec.cpopNatRec, ih, onesIn]
    cases x.getLsbD n <;> simp [Nat.add_assoc]

theorem onesIn_eq_cpop (x : Word) : BitVec.ofNat 64 (onesIn x 64) = x.cpop := by
  rw [BitVec.cpop, cpopNatRec_eq_onesIn, Nat.zero_add]

/-! ## Extensions and bit fields (R47) -/

/-- The sign extension of the low bits of a number is that of their pattern. -/
theorem signExt_eq {b : Nat} (h0 : 0 < b) (h : b ≤ 64) (v : Nat) : signExt b v = (BitVec.ofNat b v).signExtend 64 := by
  have hp : 2 ^ b ≤ 2 ^ 64 := Nat.pow_le_pow_right (by decide) h
  have hb : 2 ^ b = 2 * 2 ^ (b - 1) := by rw [← Nat.pow_succ', Nat.succ_eq_add_one, Nat.sub_add_cancel h0]
  have hm : v % 2 ^ b < 2 ^ b := Nat.mod_lt _ (Nat.two_pow_pos b)
  apply BitVec.eq_of_toNat_eq
  rw [BitVec.toNat_signExtend, BitVec.toNat_setWidth, BitVec.toNat_ofNat, BitVec.msb_eq_decide, BitVec.toNat_ofNat,
    Nat.mod_eq_of_lt (Nat.lt_of_lt_of_le hm hp), signExt]
  by_cases hv : v % 2 ^ b < 2 ^ (b - 1)
  · rw [if_pos hv, if_neg (by rw [decide_eq_true_eq]; omega), BitVec.toNat_ofNat]
    omega
  · rw [if_neg hv, if_pos (by rw [decide_eq_true_eq]; omega), BitVec.toNat_ofNat]
    omega

theorem keepSigned_eq (x : Word) (w : Fin 64) : keepSigned x (w.val + 1) = (x.setWidth (w.val + 1)).signExtend 64 := by
  rw [keepSigned, signExt_eq (Nat.succ_pos _) w.isLt, BitVec.ofNat_toNat]

theorem keepZero_eq (x : Word) (w : Nat) : keepZero x w = (x.setWidth w).setWidth 64 := by
  apply BitVec.eq_of_toNat_eq
  simp [keepZero]

/-- A field cut at bit 63 has the mask that the shift cuts. -/
theorem fieldMask_eq (w pos : Fin 64) : fieldMask w pos = (BitVec.allOnes (w.val + 1)).setWidth 64 <<< pos.val := by
  apply BitVec.eq_of_getLsbD_eq
  intro i hi
  simp only [fieldMask, fieldWidth, BitVec.getLsbD_shiftLeft, BitVec.getLsbD_ofNat, Nat.testBit_two_pow_sub_one, BitVec.getLsbD_setWidth,
    BitVec.getLsbD_allOnes]
  rw [← Bool.coe_iff_coe]
  simp only [Bool.and_eq_true, Bool.not_eq_true', decide_eq_true_eq, decide_eq_false_iff_not]
  omega

theorem fieldOut_eq (x : Word) (w pos : Fin 64) : fieldOut x w pos = ((x >>> pos.val).setWidth (w.val + 1)).setWidth 64 := by
  apply BitVec.eq_of_getLsbD_eq
  intro i hi
  simp only [fieldOut, fieldMask_eq, BitVec.getLsbD_shiftLeft, BitVec.getLsbD_ushiftRight, BitVec.getLsbD_and, BitVec.getLsbD_setWidth,
    BitVec.getLsbD_allOnes]
  have hp : ¬ pos.val + i < pos.val := by omega
  by_cases h : pos.val + i < 64
  · simp only [h, hi, hp, Nat.add_sub_cancel_left, decide_true, decide_false, Bool.not_false, Bool.true_and, Bool.and_comm]
  · simp [BitVec.getLsbD_of_ge x _ (Nat.le_of_not_lt h)]

theorem fieldIn_eq (x y : Word) (w pos : Fin 64) : fieldIn x y w pos =
    (y &&& ~~~((BitVec.allOnes (w.val + 1)).setWidth 64 <<< pos.val)) |||
      ((x <<< pos.val) &&& ((BitVec.allOnes (w.val + 1)).setWidth 64 <<< pos.val)) := by
  rw [fieldIn, fieldMask_eq]

/-- R49: LDHI writes the bits above the lower 24. -/
theorem ldhi_value (x : Word) (l : BitVec 40) : l ++ x.setWidth 24 = (l.setWidth 64 <<< 24) ||| (x &&& 0xFFFFFF) := by
  have hl : (l.setWidth 64 <<< 24).toNat = l.toNat <<< 24 := by
    rw [BitVec.toNat_shiftLeft, BitVec.toNat_setWidth, Nat.shiftLeft_eq, Nat.shiftLeft_eq]
    have := l.isLt
    omega
  have hx : (x &&& 0xFFFFFF).toNat = (x.setWidth 24).toNat := by
    rw [BitVec.toNat_and, BitVec.toNat_setWidth]
    exact Nat.and_two_pow_sub_one_eq_mod _ 24
  apply BitVec.eq_of_toNat_eq
  rw [BitVec.toNat_append, BitVec.toNat_or, hl, hx]

/-! ## The words -/

/-- CMOV reads its three sources in field order, whichever it chooses. -/
theorem execCmov_wrote {s : State} {d a b c : Opnd} (h : s.block [a, b, c] [d] = none) :
    ∃ t, exec (.cmov d a b c) s = .next t ∧
      s.Wrote t [a, b, c] (some d) (if s.source [a, b] c ≠ 0 then s.source [] a else s.source [a] b) 1 := by
  refine ⟨_, ?_, s.wrote_finish [a, b, c] d _ 1⟩
  rw [← State.take_fst3, ← State.take_fst2, ← State.take_fst]
  exact State.guard_none h _

/-- Settles O1: each register form is its operation between two reads, or one, and a write, and the operation is the one of R45 or R46. -/
theorem registerAlu : Obligations.RegisterAlu := by
  unfold Obligations.RegisterAlu
  intro s d a b c w pos
  refine ⟨fun h => ?_, fun h => ?_, execCmov_wrote⟩
  · simp only [List.forall_mem_cons, List.not_mem_nil, false_implies, implies_true, and_true]
    exact ⟨State.alu2_wrote h 1 (· + ·) rfl, State.alu2_wrote h 1 (· - ·) rfl, State.alu2_wrote h 3 (· * ·) rfl,
      State.alu2_wrote h 3 mulHigh (mulHigh_eq _ _), State.alu2_wrote h 3 mulHighU (mulHighU_eq _ _),
      State.alu2_wrote h 20 divS (divS_eq _ _), State.alu2_wrote h 20 divU (divU_eq _ _),
      State.alu2_wrote h 20 remS (remS_eq _ _), State.alu2_wrote h 20 remU (remU_eq _ _),
      State.alu2_wrote h 1 (· &&& ·) rfl, State.alu2_wrote h 1 (· ||| ·) rfl, State.alu2_wrote h 1 (· ^^^ ·) rfl,
      State.alu2_wrote h 1 (fun x y => x &&& ~~~y) rfl,
      State.alu2_wrote h 1 (fun x y => x <<< (y.toNat % 64)) (by rw [BitVec.shiftLeft_eq', toNat_and_63]),
      State.alu2_wrote h 1 (fun x y => x >>> (y.toNat % 64)) (by rw [BitVec.ushiftRight_eq', toNat_and_63]),
      State.alu2_wrote h 1 (fun x y => x.sshiftRight (y.toNat % 64)) (by rw [BitVec.sshiftRight', toNat_and_63]),
      State.alu2_wrote h 1 (fun x y => if y.slt x then y else x) (slt_min_comm _ _),
      State.alu2_wrote h 1 (fun x y => if y.ult x then y else x) (ult_min_comm _ _),
      State.alu2_wrote h 1 (fun x y => if x.slt y then y else x) rfl, State.alu2_wrote h 1 (fun x y => if x.ult y then y else x) rfl,
      State.alu2_wrote h 1 (fun x y => fieldIn x y w pos) (fieldIn_eq _ _ w pos)⟩
  · simp only [List.forall_mem_cons, List.not_mem_nil, false_implies, implies_true, and_true]
    exact ⟨State.alu1_wrote h 1 (fun x => BitVec.ofNat 64 (leadZeros x 64)) (leadZeros_eq_clz _),
      State.alu1_wrote h 1 (fun x => BitVec.ofNat 64 (trailZeros x 0 64)) (trailZeros_eq_ctz _),
      State.alu1_wrote h 1 (fun x => BitVec.ofNat 64 (onesIn x 64)) (onesIn_eq_cpop _),
      State.alu1_wrote h 1 (fun x => keepSigned x (w.val + 1)) (keepSigned_eq _ w),
      State.alu1_wrote h 1 (fun x => keepZero x (w.val + 1)) (keepZero_eq _ _),
      State.alu1_wrote h 1 (fun x => fieldOut x w pos) (fieldOut_eq _ w pos)⟩

/-- Settles O2: the immediate forms are such words of one source; LDI and LDHI read none, and LDHI keeps the lower bits of its register. -/
theorem immediateAlu : Obligations.ImmediateAlu := by
  unfold Obligations.ImmediateAlu
  intro s d a imm n l r
  refine ⟨fun h => ?_, fun h => ⟨_, State.guard_none h _, s.wrote_finish [] d _ 1⟩, _, rfl, ?_⟩
  · simp only [List.forall_mem_cons, List.not_mem_nil, false_implies, implies_true, and_true]
    exact ⟨State.alu1_wrote h 1 (· + imm.signExtend 64) rfl, State.alu1_wrote h 1 (· &&& imm.signExtend 64) rfl,
      State.alu1_wrote h 1 (· ||| imm.signExtend 64) rfl, State.alu1_wrote h 1 (· ^^^ imm.signExtend 64) rfl,
      State.alu1_wrote h 1 (· <<< n.val) rfl, State.alu1_wrote h 1 (· >>> n.val) rfl, State.alu1_wrote h 1 (·.sshiftRight n.val) rfl,
      State.alu1_wrote h 3 (· * imm.signExtend 64) rfl⟩
  · rw [← ldhi_value]
    exact s.wrote_finish [] (.s r) _ 1

end Sys2Proof.Machine
end

section
/-! PROOF. Control registers: the words that CRR gives as the fields of each register stand in them, and what `crRead` gives for the number of
each. -/

namespace Sys2Proof.Machine

/-! ## The fields of a register (R139, R196, R235, R335) -/

theorem toNat_append_add {m n : Nat} (x : BitVec m) (y : BitVec n) : (x ++ y).toNat = x.toNat * 2 ^ n + y.toNat := by
  rw [BitVec.toNat_append, ← Nat.shiftLeft_add_eq_or_of_lt y.isLt, Nat.shiftLeft_eq]

theorem ofBool_setWidth (x : Bool) : (BitVec.ofBool x).setWidth 64 = if x then (1 : Word) else 0 := by
  cases x <;> rfl

theorem Stream.hvec_eq (t : Stream) : t.hvec = BitVec.ofBool t.hvecEn ++ BitVec.ofBool t.active ++ 0#49 ++ t.hvecTarget := by
  apply BitVec.eq_of_toNat_eq
  have := t.hvecTarget.isLt
  simp only [Stream.hvec, toNat_append_add, BitVec.toNat_ofNat, BitVec.toNat_ofBool]
  cases t.hvecEn <;> cases t.active <;> simp <;> omega

theorem VecState.word_eq (v : VecState) : v.word = 0#44 ++ BitVec.ofNat 4 v.stack.length ++ v.gates ++ 0#3 ++ v.vrot := by
  apply BitVec.eq_of_toNat_eq
  have := v.gates.isLt
  have := v.vrot.isLt
  simp only [VecState.word, toNat_append_add, BitVec.toNat_ofNat]
  omega

theorem Bank.wheelMap_eq (b : Bank) :
    b.wheelMap = 0#35 ++ BitVec.ofNat 10 b.wheelCount ++ BitVec.ofNat 10 b.wheelStride ++ BitVec.ofNat 9 b.wheelFirst := by
  apply BitVec.eq_of_toNat_eq
  simp only [Bank.wheelMap, toNat_append_add, BitVec.toNat_ofNat]
  omega

theorem CBuf.cfg_eq (c : CBuf) : c.cfg = 0#10 ++ BitVec.ofNat 9 c.count ++ BitVec.ofNat 23 c.slot ++ BitVec.ofNat 22 c.base := by
  apply BitVec.eq_of_toNat_eq
  simp only [CBuf.cfg, toNat_append_add, BitVec.toNat_ofNat]
  omega

theorem CBuf.cnt_eq (c : CBuf) : c.cnt = 0#16 ++ BitVec.ofNat 16 c.taken ++ BitVec.ofNat 16 c.done ++ BitVec.ofNat 16 c.put := by
  apply BitVec.eq_of_toNat_eq
  simp only [CBuf.cnt, toNat_append_add, BitVec.toNat_ofNat]
  omega

/-- PMODE (0x051): the side bit stands above the mode. -/
theorem pmode_word (side : Bool) (m : BitVec 2) :
    BitVec.ofNat 64 (m.toNat + if side then 4 else 0) = 0#61 ++ BitVec.ofBool side ++ m := by
  apply BitVec.eq_of_toNat_eq
  have := m.isLt
  simp only [toNat_append_add, BitVec.toNat_ofNat, BitVec.toNat_ofBool]
  cases side <;> simp <;> omega

/-! ## CRR -/

section
variable {s : State} {d : Opnd} {creg : BitVec 12}

/-- CRR of a register that the stream reads. -/
theorem execCrr_wrote {v : Word} (hv : s.crRead creg.toNat = some v) (h : s.block [] [d] = none) :
    ∃ t, exec (.crr d creg) s = .next t ∧ s.Wrote t [] (some d) v 1 := by
  refine ⟨_, ?_, s.wrote_finish [] d v 1⟩
  show s.guardCase (s.crrCase creg) [] [d] _ = _
  simp only [State.guardCase, State.crrCase, hv, Option.isSome_some, if_true, Option.getD_some]
  exact State.guard_none h _

/-- CRR of a register that the stream does not read. -/
theorem execCrr_trap (hv : s.crRead creg.toNat = none) (h : s.block [] [d] = none) :
    exec (.crr d creg) s = .next (s.takeTrap (cILLEGAL 9) (creg.setWidth 64)) := by
  show s.guardCase (s.crrCase creg) [] [d] _ = _
  simp only [State.guardCase, State.crrCase, hv, h]
  rfl

end

/-! ## Which register a number names -/

/-- The registers from 0x100 on are those of files: BFMT, the circular buffers, and the arrival barriers. -/
theorem State.crRead_file (s : State) {n : Nat} (hs : s.sid ≠ .L) (h : 0x100 ≤ n) : s.crRead n =
    if n < 0x110 then s.bank.bfmt[n - 0x100]?
    else if 0x110 ≤ n ∧ n < 0x120 then (s.bank.cb[(n - 0x110) / 2]?).map fun c => if n % 2 = 0 then c.cfg else c.cnt
    else if 0x120 ≤ n ∧ n < 0x130 then
      (if n % 2 = 0 then s.bank.abexp[(n - 0x120) / 2]? else s.bank.abarr[(n - 0x120) / 2]?).map (·.setWidth 64)
    else none := by
  have low : ∀ k, k < 0x100 → n ≠ k := fun k hk => by omega
  simp [State.crRead, hs, h, low]

section
variable {s : State} (hs : s.sid ≠ .L)
include hs

theorem State.crRead_bfmt (n : Fin 16) : s.crRead (0x100 + n.val) = some s.bank.bfmt[n] := by
  rw [s.crRead_file hs (by omega), if_pos (by omega)]
  simp

theorem State.crRead_cbcfg (c : Fin 8) : s.crRead (0x110 + 2 * c.val) = some s.bank.cb[c].cfg := by
  rw [s.crRead_file hs (by omega), if_neg (by omega), if_pos (by omega)]
  have h1 : 0x110 + 2 * c.val - 0x110 = 2 * c.val := by omega
  have h2 : (0x110 + 2 * c.val) % 2 = 0 := by omega
  simp [h1, h2]

theorem State.crRead_cbcnt (c : Fin 8) : s.crRead (0x111 + 2 * c.val) = some s.bank.cb[c].cnt := by
  rw [s.crRead_file hs (by omega), if_neg (by omega), if_pos (by omega)]
  have h1 : (0x111 + 2 * c.val - 0x110) / 2 = c.val := by omega
  have h2 : (0x111 + 2 * c.val) % 2 = 1 := by omega
  simp [h1, h2]

theorem State.crRead_abexp (c : Fin 8) : s.crRead (0x120 + 2 * c.val) = some (s.bank.abexp[c].setWidth 64) := by
  rw [s.crRead_file hs (by omega), if_neg (by omega), if_neg (by omega), if_pos (by omega), if_pos (by omega)]
  simp

theorem State.crRead_abarr (c : Fin 8) : s.crRead (0x121 + 2 * c.val) = some (s.bank.abarr[c].setWidth 64) := by
  rw [s.crRead_file hs (by omega), if_neg (by omega), if_neg (by omega), if_pos (by omega), if_neg (by omega)]
  have h1 : (0x121 + 2 * c.val - 0x120) / 2 = c.val := by omega
  simp [h1]

end

/-- The stream reads no register of a number that is none of its registers'. -/
theorem State.crRead_none {s : State} {n : Nat} (h : n ∉ [0x000, 0x010, 0x011, 0x012, 0x070, 0x071])
    (hL : s.sid = .L → n ∉ [0x060, 0x061])
    (hA : s.sid ≠ .L → n ∉ [0x013, 0x030, 0x031, 0x032, 0x040, 0x041, 0x050, 0x051] ∧ ¬ (0x100 ≤ n ∧ n < 0x130))
    (hX : s.sid = .X → n ∉ [0x020, 0x021, 0x022, 0x023]) : s.crRead n = none := by
  simp only [List.mem_cons, List.not_mem_nil, or_false, not_or] at h hL hA hX
  unfold State.crRead
  by_cases hl : s.sid = .L
  · simp [h, hl, hL hl]
  · obtain ⟨h1, h2⟩ := hA hl
    have e1 : ¬ (0x100 ≤ n ∧ n < 0x110) := by omega
    have e2 : ¬ (0x110 ≤ n ∧ n < 0x120) := by omega
    have e3 : ¬ (0x120 ≤ n ∧ n < 0x130) := by omega
    by_cases hx : s.sid = .X
    · simp [h, hl, h1, hX hx, e1, e2, e3]
    · simp [h, hl, h1, hx, e1, e2, e3]

/-- Settles O14: each number that the stream reads has its register's value, and `crRead_none` gives the refusals of all others. -/
theorem controlRegisterReads : Obligations.ControlRegisterReads := by
  unfold Obligations.ControlRegisterReads
  intro s d n c b bit nat reads
  have read (creg : BitVec 12) (v : Word) (hv : s.crRead creg.toNat = some v) : reads creg v := execCrr_wrote hv
  refine ⟨read _ _ rfl, read _ _ rfl, read _ _ rfl, read _ _ (by simp [State.crRead]), read _ _ (by simp [State.crRead]),
    fun hs => ?_, fun hs => ?_, fun hs => ?_, fun creg h hL hA hX hb => execCrr_trap (State.crRead_none h hL hA hX) hb⟩
  · refine ⟨read _ _ ?_, read _ _ ?_, read _ _ ?_⟩ <;> simp [State.crRead, hs, nat]
  · have file (m : Nat) (v : Word) (hm : m < 2 ^ 12) (hv : s.crRead m = some v) : reads (nat 12 m) v :=
      read _ _ (by rwa [BitVec.toNat_ofNat, Nat.mod_eq_of_lt hm])
    refine ⟨read _ _ ?_, read _ _ ?_, read _ _ ?_, read _ _ ?_, read _ _ ?_, read _ _ ?_, read _ _ ?_, read _ _ ?_, read _ _ ?_,
      file _ _ (by omega) (State.crRead_bfmt hs n), file _ _ (by omega) ?_, file _ _ (by omega) ?_,
      file _ _ (by omega) (State.crRead_abexp hs c), file _ _ (by omega) (State.crRead_abarr hs c)⟩
    · simp [State.crRead, hs, nat, b]
    · simp [State.crRead, hs, Stream.hvec_eq, bit]
    · simp [State.crRead, hs, nat, b]
    · simp [State.crRead, hs, bit, b, ofBool_setWidth]
    · simp [State.crRead, hs, b]
    · simp [State.crRead, hs]
    · simp [State.crRead, hs, b]
    · simp [State.crRead, hs, nat, b, Bank.wheelMap_eq]
    · simp [State.crRead, hs, bit, b, pmode_word]
    · rw [State.crRead_cbcfg hs c, CBuf.cfg_eq]
    · rw [State.crRead_cbcnt hs c, CBuf.cnt_eq]
  · refine ⟨read _ _ ?_, read _ _ ?_, read _ _ ?_, read _ _ ?_⟩ <;> simp [State.crRead, hs, nat, bit, b, ofBool_setWidth, VecState.word_eq]

end Sys2Proof.Machine
end

section
/-! PROOF. Scalar loads: the pending words of a load, its value, what its route leaves as it was, and the law of a load that goes into its lane,
with or without a fill asked for. -/

namespace Sys2Proof.Machine

/-! ## Pending words (R191) -/

/-- A fold that keeps the lesser of what it has and what it meets finds the least element. -/
theorem foldl_keep_min {f : Option Nat → Nat → Option Nat} (hn : ∀ w, f none w = some w) (hs : ∀ v w, f (some v) w = some (min v w))
    (l : List Nat) : l.foldl f none = l.min? := by
  have ofSome (v : Nat) (l : List Nat) : l.foldl f (some v) = some (l.foldl min v) := by
    induction l generalizing v with
    | nil => rfl
    | cons w t ih => rw [List.foldl_cons, hs, ih, List.foldl_cons]
  cases l with
  | nil => rfl
  | cons w t => rw [List.foldl_cons, hn, ofSome, List.min?_cons']

theorem State.earlyWord_eq (s : State) (l : List Nat) :
    s.earlyWord l = if s.bank.pend then ((l.map (· / 8)).filter s.pendingWord).min? else none := by
  unfold State.earlyWord
  rw [foldl_keep_min (fun _ => rfl) (fun _ _ => rfl)]

theorem State.earlyWord_none_iff (s : State) (l : List Nat) :
    s.earlyWord l = none ↔ s.bank.pend = false ∨ ∀ x ∈ l, s.pendingWord (x / 8) = false := by
  rw [State.earlyWord_eq]
  cases s.bank.pend <;> simp

/-- R191: the word that a load traps for is the lowest pending one among its bytes. -/
theorem State.earlyWord_lowest {s : State} {l : List Nat} {w : Nat} (h : s.earlyWord l = some w) :
    (∃ x ∈ l, x / 8 = w ∧ s.pendingWord w = true) ∧ ∀ x ∈ l, s.pendingWord (x / 8) = true → w ≤ x / 8 := by
  rw [State.earlyWord_eq] at h
  split at h
  · obtain ⟨hm, hl⟩ := List.min?_eq_some_iff.mp h
    obtain ⟨hw, hp⟩ := List.mem_filter.mp hm
    obtain ⟨x, hx, rfl⟩ := List.mem_map.mp hw
    exact ⟨⟨x, hx, rfl, hp⟩, fun y hy hq => hl _ (List.mem_filter.mpr ⟨List.mem_map_of_mem hy, hq⟩)⟩
  · cases h

/-- The words of writes that are not readable yet are pending. -/
theorem State.pendingWord_early {s : State} {e : Early} (he : e ∈ s.core.early) {c : OwnCell} (hc : c ∈ e.cells) :
    s.pendingWord (c.off / 8) = true := by
  have h : s.core.early.any (fun e => e.cells.any fun x => x.off / 8 == c.off / 8) = true :=
    List.any_eq_true.mpr ⟨e, he, List.any_eq_true.mpr ⟨c, hc, beq_self_eq_true _⟩⟩
  simp only [State.pendingWord, h, Bool.true_or]

/-! ## The value of a load (R58) -/

theorem leNat_lt (l : List Byte) : leNat l < 2 ^ (8 * l.length) := by
  induction l with
  | nil => decide
  | cons b t ih =>
    have := b.isLt
    rw [leNat, List.length_cons, Nat.mul_add, Nat.pow_add]
    omega

theorem sizeBytes_pos (sz : Size) : 0 < sizeBytes sz := by cases sz <;> decide

theorem sizeBytes_le (sz : Size) : sizeBytes sz ≤ 8 := by cases sz <;> decide

theorem Req.result_load {sgn : Bool} {n : Nat} {l : List Byte} (h0 : 0 < n) (h8 : n ≤ 8) (h : l.length = n) :
    Req.result (.load n sgn) l = loadValue n sgn l := by
  subst h
  cases sgn with
  | true => exact signExt_eq (by omega) (by omega) _
  | false =>
    refine BitVec.eq_of_toNat_eq ?_
    show (BitVec.ofNat 64 _).toNat = ((BitVec.ofNat _ _).setWidth 64).toNat
    rw [BitVec.toNat_setWidth, BitVec.toNat_ofNat, BitVec.toNat_ofNat, Nat.mod_eq_of_lt (leNat_lt l)]

/-! ## Addresses and routes -/

theorem formCause_none {va : Word} {n : Nat} (h0 : 0 < n) (h : va.toNat + n ≤ 2 ^ 56) (ha : va.toNat % n = 0) : formCause va n = none := by
  have hb : badForm va n = false := by
    rw [badForm, Bool.or_eq_false_iff, decide_eq_false_iff_not, decide_eq_false_iff_not]
    omega
  simp [formCause, hb, ha]

/-- A route through the core-n window leaves the state as it was. -/
theorem State.route_across {s t : State} {va n o : Nat} {st ve : Bool} (h : s.route va n st ve = .ok (.across o, t)) : t = s := by
  unfold State.route at h
  split at h
  · split at h
    · dsimp only at h
      split at h
      · cases h
      · split at h
        · cases h
        · split at h
          · split at h
            · cases h
            · exact (Prod.mk.inj (Except.ok.inj h)).2.symm
          · split at h
            · cases h
            · cases (Prod.mk.inj (Except.ok.inj h)).1
    · split at h
      · cases h
      · split at h
        · cases h
        · cases (Prod.mk.inj (Except.ok.inj h)).1
  · split at h
    · cases h
    · exact (Prod.mk.inj (Except.ok.inj h)).2.symm

/-! ## Sending -/

theorem State.Quiet.coreNo {s t : State} (h : s.Quiet t) : t.coreNo = s.coreNo := by
  simpa [State.quiet] using congrArg State.coreNo h

theorem State.Quiet.flight {s t : State} (h : s.Quiet t) : t.flight = s.flight := by
  simpa [State.quiet] using congrArg State.flight h

/-- Making destinations wait looks at no translation. -/
theorem State.awaits_tlb (s : State) (tlb : List TlbEntry) (l : List Opnd) (n : Nat) :
    State.awaits { s with tlb := tlb } l n = { s.awaits l n with tlb := tlb } := by
  induction l generalizing s with
  | nil => rfl
  | cons o t ih =>
    cases o with
    | s k => exact ih s
    | q k => exact ih (s.await (.q k) n)

/-- A word that has read `srcs`, has perhaps cached a translation, makes `dsts` wait and sends an access has sent it (R227). -/
theorem State.send_of_after {s u : State} {srcs : List Opnd} (hu : ∃ tlb, u = { s.after srcs with tlb := tlb }) (dsts : List Opnd)
    (cls va : Nat) (req : Req) (dest : Dest) (todo : List Piece) (got : List (Nat × List Byte)) (undo : List (Fin 16 × QEntry)) :
    ∃ x, s.Sent ((u.awaits dsts u.issued).send cls va req dest todo got none undo).finish srcs dsts x ∧ x.cls = cls ∧ x.req = req ∧
      x.dest = dest ∧ x.todo = todo ∧ x.got = got := by
  obtain ⟨tlb, rfl⟩ := hu
  obtain ⟨aq, -, -, apc, -, -⟩ := s.after_spec srcs
  obtain ⟨wq, wst, -⟩ := (s.after srcs).awaits_spec dsts s.issued
  have q := aq.trans wq
  rw [State.awaits_tlb, show State.issued { s.after srcs with tlb := tlb } = s.issued from aq.issued]
  obtain ⟨x, hx, h1, h2, h3, h4, h5, h6, h7, h8, h9, -⟩ :=
    State.send_eq { (s.after srcs).awaits dsts s.issued with tlb := tlb } cls va req dest todo got none undo
  refine ⟨x, ?_, h5, h6, h7, h8, h9⟩
  rw [hx, q.flight, q.issued]
  exact s.send_sent srcs dsts x tlb (h1.trans q.agent) (h2.trans q.issued) (h3.trans ((congrArg Stream.pc wst).trans apc)) h4

/-! ## Asking for a fill (R198) -/

/-- The state with other fills asked for in the bank in hand. -/
def State.withFills (s : State) (l : List Fill) : State := { s with bank := { s.bank with fills := l } }

theorem State.withFills_withFills (s : State) (l k : List Fill) : (s.withFills l).withFills k = s.withFills k := rfl

theorem State.withFills_awaits (s : State) (f : List Fill) (l : List Opnd) (n : Nat) :
    (s.withFills f).awaits l n = (s.awaits l n).withFills f := by
  induction l generalizing s with
  | nil => rfl
  | cons o t ih =>
    cases o with
    | s k => exact ih s
    | q k => exact ih (s.await (.q k) n)

theorem State.withFills_send (s : State) (f : List Fill) (cls va : Nat) (req : Req) (dest : Dest) (todo : List Piece)
    (got : List (Nat × List Byte)) (undo : List (Fin 16 × QEntry)) :
    (s.withFills f).send cls va req dest todo got none undo = (s.send cls va req dest todo got none undo).withFills f := rfl

theorem State.withFills_finish (s : State) (f : List Fill) : (s.withFills f).finish = s.finish.withFills f :=
  State.finish_comm (fun s => s.withFills f) s (by cases h : s.sid <;> simp [State.st, State.withFills, h])
    (by cases h : s.sid <;> simp [State.now, State.withFills, h]) fun t => by cases h : s.sid <;> simp [State.setSt, State.withFills, h]

/-- A fill is asked for once: it stands among the fills, and these alone may have changed. -/
theorem State.askFill_eq (s : State) (e g ord : Nat) :
    ∃ l, s.askFill e g ord = s.withFills l ∧ ∃ f ∈ l, f.entry = e ∧ f.granule = g := by
  unfold State.askFill
  split
  · next h =>
    obtain ⟨f, hf, he⟩ := List.any_eq_true.mp h
    exact ⟨s.bank.fills, rfl, f, hf, by simpa [Fill.of] using he⟩
  · exact ⟨_, rfl, _, List.mem_append_right _ (List.mem_singleton_self _), rfl, rfl⟩

theorem State.Sent.fills {s t : State} {srcs dsts : List Opnd} {x : Access} (h : s.Sent t srcs dsts x) : t.bank.fills = s.bank.fills := by
  simpa [State.quiet] using congrArg (fun u => u.bank.fills) h.quiet

/-! ## LD -/

/-- What an LD whose address has the form and the alignment does with its route. -/
def State.loadRouted (s : State) (a d : Opnd) (va : Word) (n cls : Nat) (sgn : Bool) : Except Cause (Route × State) → Result
  | .error c => s.trap c va
  | .ok (.fill e g o, t) =>
    .next ((t.askFill e.val g t.issued).loadAway cls va.toNat n sgn d [scalarPiece va.toNat (t.unfilled e g o) n []] [] (s.popped [a]))
  | .ok (.own o _, t) => if s.ownHeld cls false [(o, n)] then .next (s.hold (.ext .access)) else s.loadOwn t o va.toNat n sgn d
  | .ok (.across o, t) =>
    if s.ownHeld cls false [(o, n)] then .next (s.hold (.ext .access)) else s.loadAcross t o cls va.toNat n sgn d (s.popped [a])
  | .ok (.away p, t) => .next (t.loadAway cls va.toNat n sgn d [scalarPiece va.toNat p n []] [] (s.popped [a]))

theorem execLd_eq {s : State} {sz : Size} {sgn : Bool} {d a : Opnd} {off : BitVec 20} {cls : Fin 16} {va : Word}
    (hva : va = s.source [] a + off.signExtend 64) (hb : s.block [a] [d] = none) (hf : formCause va (sizeBytes sz) = none) :
    exec (.ld sz sgn d a off cls) s =
      s.loadRouted a d va (sizeBytes sz) cls sgn ((s.after [a]).route va.toNat (sizeBytes sz) false false) := by
  have hform : formed (s.take a).1 off = va := by rw [hva, State.take_fst, formed]
  show s.guard [a] [d] _ = _
  rw [State.guard_none hb]
  simp only [hform, hf]
  show _ = s.loadRouted a d va (sizeBytes sz) cls sgn ((s.take a).2.route va.toNat (sizeBytes sz) false false)
  rcases (s.take a).2.route va.toNat (sizeBytes sz) false false with c | ⟨⟨⟩, t⟩ <;> rfl

section
variable {s u : State} {a : Opnd} (hu : ∃ tlb, u = { s.after [a] with tlb := tlb }) (cls va n : Nat) (sgn : Bool) (d : Opnd)
  (todo : List Piece) (got : List (Nat × List Byte)) (undo : List (Fin 16 × QEntry))

theorem State.withFills_loadAway (f : List Fill) :
    (u.withFills f).loadAway cls va n sgn d todo got undo = (u.loadAway cls va n sgn d todo got undo).withFills f := by
  show (((u.withFills f).awaits [d] u.issued).send cls va _ _ todo got none undo).finish = _
  rw [State.withFills_awaits, State.withFills_send, State.withFills_finish]
  rfl

include hu

/-- A load that goes into its lane. -/
theorem State.loadAway_sent : ∃ x, s.Sent (u.loadAway cls va n sgn d todo got undo) [a] [d] x ∧ x.cls = cls ∧ x.req = .load n sgn ∧
    x.dest = .scalar d ∧ x.todo = todo ∧ x.got = got :=
  State.send_of_after hu [d] cls va (.load n sgn) (.scalar d) todo got undo

/-- A load that goes into its lane and asks for the fill of its granule: but for the fills, it is as every load that is sent. -/
theorem State.loadAway_askFill_sent (e g : Nat) :
    ∃ t x, (u.askFill e g u.issued).loadAway cls va n sgn d todo got undo = t ∧ s.Sent (t.withFills s.bank.fills) [a] [d] x ∧ x.cls = cls ∧
      x.req = .load n sgn ∧ x.dest = .scalar d ∧ x.todo = todo ∧ ∃ f ∈ t.bank.fills, f.entry = e ∧ f.granule = g := by
  obtain ⟨l, hl, hf⟩ := u.askFill_eq e g u.issued
  obtain ⟨x, hx, h1, h2, h3, h4, -⟩ := State.loadAway_sent hu cls va n sgn d todo got undo
  refine ⟨_, x, rfl, ?_, h1, h2, h3, h4, ?_⟩
  · rw [hl, State.withFills_loadAway, State.withFills_withFills, ← hx.fills]
    exact hx
  · rw [hl, State.withFills_loadAway]
    exact hf

end

/-- A load of the own banks whose words are not pending writes the bytes as of the issue (R189). -/
theorem State.loadOwn_wrote {s : State} {a d : Opnd} {o va n : Nat} {sgn : Bool} (h0 : 0 < n) (h8 : n ≤ 8)
    (he : s.earlyWord (upFrom o n) = none) :
    ∃ t, s.loadOwn (s.after [a]) o va n sgn d = .next t ∧
      s.Wrote t [a] (some d) (loadValue n sgn (s.mem.readN (scratchLoc s.coreNo o) n)) 3 := by
  refine ⟨_, ?_, s.wrote_finish [a] d _ 3⟩
  rw [← Req.result_load h0 h8 (Memory.readN_length ..)]
  simp only [State.loadOwn, he, State.scratchRead]

/-- Settles O17: LD does with its route what `loadRouted` says, and each route has its law; a pending word traps before the value is read. -/
theorem scalarLoads : Obligations.ScalarLoads := by
  unfold Obligations.ScalarLoads
  intro s sz sgn d a off cls va n i own
  refine ⟨s.earlyWord_none_iff, fun e he c hc => State.pendingWord_early he hc, fun hb hva hal => ?_⟩
  have run : exec i s = s.loadRouted a d va n cls sgn ((s.after [a]).route va.toNat n false false) :=
    execLd_eq rfl hb (formCause_none (sizeBytes_pos sz) hva hal)
  refine ⟨?held, ?early, ?ownBank, ?across, ?fill, ?away, fun c hr => by rw [run, hr]; rfl⟩
  case held =>
    rintro o ⟨u, hr | ⟨e, hr⟩⟩ hh
    all_goals rw [run, hr]; exact if_pos hh
  case early =>
    rintro o w ho hh he
    refine ⟨(State.earlyWord_lowest he).1, (State.earlyWord_lowest he).2, ?_⟩
    obtain ⟨u, hr | ⟨e, hr⟩⟩ := ho
    · rw [run, hr]; simp only [State.loadRouted, hh, State.loadAcross, he]; rfl
    · rw [run, hr]; simp only [State.loadRouted, hh, State.loadOwn, he]; rfl
  case ownBank =>
    intro o e u hr hh he
    obtain rfl : u = s.after [a] := (State.route_ok hr).2 o e rfl
    rw [run, hr]
    simp only [State.loadRouted, hh]
    exact State.loadOwn_wrote (sizeBytes_pos sz) (sizeBytes_le sz) he
  case across =>
    intro o u hr hh he
    obtain ⟨x, h⟩ := State.loadAway_sent (State.route_ok hr).1 cls va.toNat n sgn d [] [(0, s.scratchRead s.coreNo o n)] (s.popped [a])
    rw [run, hr]
    simp only [State.loadRouted, hh, State.loadAcross, he]
    exact ⟨_, x, rfl, h⟩
  case fill =>
    intro e g o u hr
    have hu := (State.route_ok hr).1
    obtain ⟨t, x, ht, h⟩ := State.loadAway_askFill_sent hu cls va.toNat n sgn d [scalarPiece va.toNat (u.unfilled e g o) n []] []
      (s.popped [a]) e.val g
    have hc : u.coreNo = s.coreNo := by
      obtain ⟨tlb, rfl⟩ := hu
      exact (s.after_spec [a]).1.coreNo
    have hp : u.unfilled e g o = s.unfilled e g o := by rw [State.unfilled, State.unfilled, hc]
    rw [hp] at h
    exact ⟨t, x, by rw [run, hr, ← ht]; rfl, h⟩
  case away =>
    intro p u hr
    obtain ⟨x, hx, h1, h2, h3, h4, -⟩ := State.loadAway_sent (State.route_ok hr).1 cls va.toNat n sgn d [scalarPiece va.toNat p n []] []
      (s.popped [a])
    exact ⟨_, x, by rw [run, hr]; rfl, hx, h1, h2, h3, h4⟩

end Sys2Proof.Machine
end

section
/-! PROOF. Scalar stores: the bytes of a store, the fields that one in the core's own banks changes, and what ST does with its route. -/

namespace Sys2Proof.Machine

/-! ## The bytes of a store -/

theorem leBytes_length (v n : Nat) : (leBytes v n).length = n := by
  induction n generalizing v with
  | zero => rfl
  | succ n ih => rw [leBytes, List.length_cons, ih]

theorem cellsAt_eq (off : Nat) (l : List Byte) :
    cellsAt off l = ((upFrom off l.length).zip l).map fun c => { off := c.1, nib := 0, byte := c.2 } := by
  induction l generalizing off with
  | nil => rfl
  | cons b t ih => rw [cellsAt, ih]; rfl

theorem cellsAt_off (off : Nat) (l : List Byte) : (cellsAt off l).map OwnCell.off = upFrom off l.length := by
  induction l generalizing off with
  | nil => rfl
  | cons b t ih => rw [cellsAt, List.map_cons, ih]; rfl

/-! ## Storing in the core's own banks (R189, R198) -/

/-- What the entry of a region map notes of a store. -/
def State.noted (s : State) (va n : Nat) : Option (Fin 16) → Bank
  | none => s.bank
  | some e => { s.bank with map := s.bank.map.set e (s.bank.map[e].write va n) }

theorem State.Quiet.bankNo {s t : State} (h : s.Quiet t) : t.bankNo = s.bankNo := by
  simpa [State.quiet] using congrArg State.bankNo h

/-- The fields that a store in the own banks changes in a state `u` that its word has come to from `s` quietly. -/
theorem State.storeOwn_eq {s u : State} (h : s.Quiet u) (o va : Nat) (e : Option (Fin 16)) {l : List Byte} {n : Nat} (hl : l.length = n)
    (lat cls : Nat) : u.storeOwn o va e l lat cls = { u with
      issued := s.issued + 1
      core := { u.core with early := u.core.early ++
        [{ bank := s.bankNo, by_ := s.sid, ord := s.issued, cls := cls, mapped := e.isSome, due := s.now + lat
           cells := ((upFrom o n).zip l).map fun c => { off := c.1, nib := 0, byte := c.2 } }] }
      bank := u.noted va n e
      forward := u.forward.filter fun f => !(f.core == s.coreNo && (upFrom o n).any fun x => decide (f.off ≤ x ∧ x < f.off + 2048)) } := by
  rw [← hl, ← cellsAt_eq, ← cellsAt_off, ← h.issued, ← h.bankNo, ← h.sid, ← h.now, ← h.coreNo]
  cases e <;> rfl

/-- A store in the own banks and going on may change places: neither touches what the other does. -/
theorem State.storeOwn_finish (s : State) (o va : Nat) (e : Option (Fin 16)) (l : List Byte) (lat cls : Nat) :
    (s.storeOwn o va e l lat cls).finish = s.finish.storeOwn o va e l lat cls := by
  have eq (u : State) := State.storeOwn_eq (State.Quiet.refl u) o va e (l := l) rfl lat cls
  refine State.finish_comm (fun s => s.storeOwn o va e l lat cls) s ?_ ?_ fun t => ?_
  · cases e <;> cases h : s.sid <;> simp [eq, State.noted, State.st, h]
  · cases e <;> cases h : s.sid <;> simp [eq, State.noted, State.now, h]
  · cases e <;> cases h : s.sid <;> simp [eq, State.noted, State.setSt, State.now, h]

/-! ## ST -/

/-- A store in the core's own banks: it waits for its lane, or is written. -/
def State.storeOrHold (s t : State) (o : Nat) (e : Option (Fin 16)) (va : Word) (bytes : List Byte) (n cls : Nat) : Result :=
  if s.ownHeld cls true [(o, n)] then .next (s.hold (.ext .access)) else .next (t.storeOwn o va.toNat e bytes 3 cls).finish

/-- What an ST whose address has the form and the alignment does with its route. -/
def State.storeRouted (s : State) (a d : Opnd) (va : Word) (bytes : List Byte) (n cls : Nat) : Except Cause (Route × State) → Result
  | .error c => s.trap c va
  | .ok (.fill e g _, _) => s.waitFill va.toNat e g
  | .ok (.own o e, t) => s.storeOrHold t o e va bytes n cls
  | .ok (.across o, t) => s.storeOrHold t o none va bytes n cls
  | .ok (.away p, t) =>
    .next ((t.send cls va.toNat .store .none [scalarPiece va.toNat p n bytes] [] none (s.popped [a, d])).finish)

theorem execSt_eq {s : State} {sz : Size} {d a : Opnd} {off : BitVec 20} {cls : Fin 16} {va : Word}
    (hva : va = s.source [] a + off.signExtend 64) (hb : s.block [a, d] [] = none) (hf : formCause va (sizeBytes sz) = none) :
    exec (.st sz d a off cls) s = s.storeRouted a d va (leBytes (s.source [a] d).toNat (sizeBytes sz)) (sizeBytes sz) cls
      ((s.after [a, d]).route va.toNat (sizeBytes sz) true false) := by
  have hform : formed (s.take a).1 off = va := by rw [hva, State.take_fst, formed]
  show s.guard [a, d] [] _ = _
  rw [State.guard_none hb]
  simp only [hform, hf, State.take_fst2]
  show _ = s.storeRouted a d va _ (sizeBytes sz) cls (((s.take a).2.take d).2.route va.toNat (sizeBytes sz) true false)
  rcases ((s.take a).2.take d).2.route va.toNat (sizeBytes sz) true false with c | ⟨⟨⟩, t⟩ <;> rfl

/-- A store in the own banks whose lane does not hold it acts on the state in which the word has read its sources and gone on. -/
theorem State.storeOrHold_free {s : State} {a d : Opnd} {o n cls : Nat} (hh : s.ownHeld cls true [(o, n)] = false) (e : Option (Fin 16))
    (va : Word) (bytes : List Byte) :
    ∃ u, s.Read u [a, d] ∧ s.storeOrHold (s.after [a, d]) o e va bytes n cls = .next (u.storeOwn o va.toNat e bytes 3 cls) :=
  ⟨_, s.wrote_none [a, d] 0 0, by rw [State.storeOrHold, hh, if_neg (by decide), State.storeOwn_finish]⟩

/-- A store of a granule that is not filled asks for the fill and waits, or takes the fault that the fill has met (log 20). -/
theorem State.waitFill_eq (s : State) (va : Word) (e : Fin 16) (g : Nat) :
    (s.fillFault e.val g = none → s.waitFill va.toNat e g = .next ((s.askFill e.val g s.issued).hold (.ext .fill))) ∧
      ∀ c, s.fillFault e.val g = some c → s.waitFill va.toNat e g = .next ((s.dropFill e.val g).takeTrap ⟨c.1, c.2⟩ va) := by
  refine ⟨fun h => by rw [State.waitFill, h], fun c h => ?_⟩
  rw [State.waitFill, h, BitVec.ofNat_toNat, BitVec.setWidth_eq]
  rfl

/-- Settles O18: ST does with its route what `storeRouted` says, and each route has its law. -/
theorem scalarStores : Obligations.ScalarStores := by
  unfold Obligations.ScalarStores
  intro s sz d a off cls va n bytes i hb hva hal
  have hl : bytes.length = n := leBytes_length _ _
  have run : exec i s = s.storeRouted a d va bytes n cls ((s.after [a, d]).route va.toNat n true false) :=
    execSt_eq rfl hb (formCause_none (sizeBytes_pos sz) hva hal)
  refine ⟨?held, ?own, ?fill, ?away, fun c hr => by rw [run, hr]; rfl⟩
  case held =>
    rintro o e u (hr | hr) hh
    all_goals rw [run, hr]; exact if_pos hh
  case own =>
    rintro o e u (hr | ⟨rfl, hr⟩) hh
    · obtain rfl : u = s.after [a, d] := (State.route_ok hr).2 o e rfl
      obtain ⟨u, hu, h⟩ := State.storeOrHold_free hh e va bytes
      refine ⟨u, hu, ?_⟩
      rw [State.storeOwn_eq hu.quiet o va.toNat e hl] at h
      rw [run, hr]
      cases e <;> exact h
    · obtain rfl : u = s.after [a, d] := State.route_across hr
      obtain ⟨u, hu, h⟩ := State.storeOrHold_free hh none va bytes
      refine ⟨u, hu, ?_⟩
      rw [State.storeOwn_eq hu.quiet o va.toNat none hl] at h
      rw [run, hr]
      exact h
  case fill =>
    intro e g o u hr
    rw [run, hr]
    exact s.waitFill_eq va e g
  case away =>
    intro p u hr
    obtain ⟨x, hx, h1, h2, h3, h4, -⟩ := State.send_of_after (State.route_ok hr).1 [] cls va.toNat .store .none
      [scalarPiece va.toNat p n bytes] [] (s.popped [a, d])
    exact ⟨_, x, by rw [run, hr]; rfl, hx, h1, h2, h3, h4⟩

end Sys2Proof.Machine
end

section
/-! PROOF. Updates of the bank in hand that touch no stream of it: they may change places with a word's going on and with its waiting. -/

namespace Sys2Proof.Machine

/-- An update of a bank that touches neither its streams nor its clock. -/
structure Bank.Aside (g : Bank → Bank) : Prop where
  a : ∀ b t, g { b with a := t } = { g b with a := t } := by intros; rfl
  x : ∀ b t, g { b with x := t } = { g b with x := t } := by intros; rfl
  n : ∀ b t, g { b with n := t } = { g b with n := t } := by intros; rfl
  cycle : ∀ b, (g b).cycle = b.cycle := by intros; rfl
  slip : ∀ b, (g b).slip = b.slip := by intros; rfl

section
variable {g : Bank → Bank} (hg : Bank.Aside g) (s : State)
include hg

theorem State.setBank_st : (s.setBank g).st = s.st := by
  have ha := congrArg Bank.a (hg.a s.bank s.bank.a)
  have hx := congrArg Bank.x (hg.x s.bank s.bank.x)
  have hn := congrArg Bank.n (hg.n s.bank s.bank.n)
  cases h : s.sid <;> simp only [State.st, State.setBank_sid, State.setBank_bank, State.setBank_link, h]
  · exact ha
  · exact hx
  · exact hn

theorem State.setBank_now : (s.setBank g).now = s.now := by
  cases h : s.sid <;> simp [State.now, h, hg.cycle, hg.slip]

theorem State.setBank_setSt (t : Stream) : (s.setBank g).setSt t = (s.setSt t).setBank g := by
  cases h : s.sid <;> simp only [State.setSt, State.setBank, h]
  · exact congrArg (fun b => { s with sid := .A, bank := b }) (hg.a s.bank t).symm
  · exact congrArg (fun b => { s with sid := .X, bank := b }) (hg.x s.bank t).symm
  · exact congrArg (fun b => { s with sid := .N, bank := b }) (hg.n s.bank t).symm

theorem State.finish_setBank : (s.setBank g).finish = s.finish.setBank g :=
  State.finish_comm (State.setBank · g) s (State.setBank_st hg s) (State.setBank_now hg s) fun t =>
    (State.setBank_setSt hg s t).symm

theorem State.hold_setBank (w : Wait) : (s.setBank g).hold w = (s.hold w).setBank g := by
  rw [State.hold, State.setBank_st hg, State.setBank_setSt hg, State.hold]

end

end Sys2Proof.Machine
end

section
/-! PROOF. Control registers, written: what `crWrite` does for the number of each register, and the values that BFMT takes. -/

namespace Sys2Proof.Machine

/-! ## CRW -/

section
variable {s : State} {a : Opnd} {creg : BitVec 12}

/-- CRW of a register that the stream writes: the write and going on may change places. -/
theorem execCrw_wrote {f : State → State} (h0 : s.crwCase creg = none)
    (hw : ∀ u : State, u.sid = s.sid → u.crWrite creg.toNat (s.source [] a) = .ok (f u)) (hf : ∀ u : State, (f u).finish = f u.finish)
    (hb : s.block [a] [] = none) : ∃ u, s.Read u [a] ∧ exec (.crw a creg) s = .next (f u) := by
  refine ⟨_, s.wrote_none [a] 0 0, ?_⟩
  have hx : (s.take a).2.crWrite creg.toNat (s.take a).1 = .ok (f (s.after [a])) := by
    rw [State.take_fst]
    exact hw _ (s.after_spec [a]).1.sid
  show s.guardCase (s.crwCase creg) [a] [] _ = _
  rw [h0, ← hf]
  simp only [State.guardCase, State.guard_none hb, hx]

/-- CRW of a register that the stream does not write: nothing but a queue that it waits for comes before the trap. -/
theorem execCrw_trap {e : Nat} (hw : s.crWrite creg.toNat 0 = .error e) (hb : ∀ w, s.block [a] [] ≠ some (.wait w)) :
    exec (.crw a creg) s = .next (s.takeTrap (cILLEGAL e) (creg.setWidth 64)) := by
  show s.guardCase (s.crwCase creg) [a] [] _ = _
  simp only [State.guardCase, State.crwCase, hw]
  split
  · next w h => exact absurd h (hb w)
  · rfl
  · rfl

/-- CRW of a register that takes 0 and refuses the value. -/
theorem execCrw_refused {e : Nat} (h0 : s.crwCase creg = none)
    (hw : ∀ u : State, u.sid = s.sid → u.crWrite creg.toNat (s.source [] a) = .error e) (hb : s.block [a] [] = none) :
    exec (.crw a creg) s = .next (s.takeTrap (cILLEGAL e) (creg.setWidth 64)) := by
  have hx : (s.take a).2.crWrite creg.toNat (s.take a).1 = .error e := by
    rw [State.take_fst]
    exact hw _ (s.after_spec [a]).1.sid
  show s.guardCase (s.crwCase creg) [a] [] _ = _
  simp only [h0, State.guardCase, State.guard_none hb, hx]
  rfl

theorem State.crwCase_none {t : State} (h : s.crWrite creg.toNat 0 = .ok t) : s.crwCase creg = none := by
  simp only [State.crwCase, h]

end

/-! ## Which register a number names -/

/-- A write of HVEC and going on may change places: going on keeps HVEC. -/
theorem State.finish_hvec (s : State) (en : Bool) (target : BitVec 13) :
    (s.setSt { s.st with hvecEn := en, hvecTarget := target }).finish =
      s.finish.setSt { s.finish.st with hvecEn := en, hvecTarget := target } := by
  simp [State.finish_eq, Stream.goneOn]

theorem State.finish_lflags (s : State) (v : BitVec 9) :
    State.finish { s with link := { s.link with lflags := v } } = { s.finish with link := { s.finish.link with lflags := v } } :=
  State.finish_comm (fun s => { s with link := { s.link with lflags := v } }) s (by cases h : s.sid <;> simp [State.st, h])
    (by cases h : s.sid <;> simp [State.now, h]) fun t => by cases h : s.sid <;> simp [State.setSt, h]

/-- The stream writes no register of a number that is none of its writable registers'. -/
theorem State.crWrite_none {s : State} {n : Nat} (v : Word) (hA : s.sid ≠ .L → n ∉ [0x013, 0x031]) (hN : s.sid = .N → n ≠ 0x050)
    (hL : s.sid = .L → n ≠ 0x060) (hX : s.sid = .X → n ∉ [0x020, 0x021, 0x022])
    (hF : s.sid = .A ∨ s.sid = .X → ¬ (0x100 ≤ n ∧ n < 0x110)) : s.crWrite n v = .error 9 := by
  simp only [List.mem_cons, List.not_mem_nil, or_false, not_or] at hA hX
  rw [State.crWrite, if_neg fun h => (hA h.2).1 h.1, if_neg fun h => (hX h.2).1 h.1, if_neg fun h => (hX h.2).2.1 h.1,
    if_neg fun h => (hX h.2).2.2 h.1, if_neg fun h => (hA h.2).2 h.1, if_neg fun h => hN h.2 h.1,
    if_neg fun h => hL (Decidable.not_not.mp h.2) h.1, dif_neg fun h => hF h.2.2 ⟨h.1, h.2.1⟩]

/-! ## The values of BFMT (R193) -/

theorem field_eq_extractLsb (v : Word) (hi lo : Nat) : field v.toNat hi lo = (v.extractLsb hi lo).toNat := by
  rw [field, BitVec.extractLsb_toNat, Nat.shiftRight_eq_div_pow]

theorem bfmtBad_iff (v : Word) : bfmtBad v = true ↔
    v.extractLsb 63 50 ≠ 0 ∨ 15 ≤ (v.extractLsb 4 0).toNat ∨ v.extractLsb 9 7 = 7 ∨ v.extractLsb 6 5 = 3 ∨
      (v.extractLsb 6 5 ≠ 0 ∧ v.extractLsb 4 0 ∉ [10#5, 12#5, 13#5, 14#5]) ∨
      (v.extractLsb 14 13 = 3 ∧ v.extractLsb 4 0 ∉ [12#5, 13#5, 14#5]) ∨ (v.extractLsb 12 10 ≠ 0 ∧ v.extractLsb 4 0 ≠ 14) := by
  have high : 2 ^ 50 ≤ v.toNat ↔ (v.extractLsb 63 50).toNat ≠ 0 := by
    rw [← field_eq_extractLsb, field]
    omega
  have fmt : v.toNat % 32 = (v.extractLsb 4 0).toNat := by
    rw [← field_eq_extractLsb, field]
    omega
  simp only [bfmtBad, Bool.or_eq_true, decide_eq_true_eq]
  simp only [field_eq_extractLsb, high, fmt]
  simp [BitVec.toNat_eq, or_assoc, and_assoc]

theorem State.crWrite_bfmt {s : State} (hs : s.sid = .A ∨ s.sid = .X) (n : Fin 16) (v : Word) :
    s.crWrite (0x100 + n.val) v = if bfmtBad v then .error 13 else .ok (s.setBfmt n v) := by
  have low : ∀ k, k < 0x100 → 0x100 + n.val ≠ k := fun k hk => by omega
  have top : 0x100 + n.val < 0x110 := by omega
  simp [State.crWrite, hs, low, top]

theorem State.finish_setBfmt (s : State) (n : Fin 16) (v : Word) : (s.setBfmt n v).finish = s.finish.setBfmt n v :=
  State.finish_setBank (g := fun b => { b with bfmt := b.bfmt.set n v }) {} s

/-- Settles O15: each number that the stream writes has its register's update, `crWrite_none` gives the refusals of all others, and
`bfmtBad_iff` the values of BFMT. -/
theorem controlRegisterWrites : Obligations.ControlRegisterWrites := by
  unfold Obligations.ControlRegisterWrites
  intro s a n v writes vec bad setFmt
  have good {w : Word} (hw : ¬ bad w) : bfmtBad w = false := Bool.eq_false_iff.mpr fun h => hw ((bfmtBad_iff w).mp h)
  have bank (creg : BitVec 12) (g : Word → Bank → Bank) (hg : ∀ w, Bank.Aside (g w))
      (h : ∀ (u : State) (w : Word), u.sid = s.sid → u.crWrite creg.toNat w = .ok (u.setBank (g w))) :
      writes creg fun u => u.setBank (g v) :=
    execCrw_wrote (State.crwCase_none (h s 0 rfl)) (fun u => h u v) (State.finish_setBank (hg v))
  refine ⟨fun hs => ?hvec, fun hs => ?pend, fun hs => ?pstat, fun hs => ?lflags, fun hs => ⟨?vflags, ?ftz, ?srseed⟩, fun hs => ?bfmt,
    fun creg hA hN hL hX hF hb => execCrw_trap (State.crWrite_none 0 ?axn ?n ?l ?x hF) hb, fun w => rfl,
    fun w => ⟨fun hw => ?keeps, fun hw => ?sets⟩⟩
  case hvec =>
    have h (u : State) (w : Word) (hu : u.sid = s.sid) :
        u.crWrite 0x013 w = .ok (u.setSt { u.st with hvecEn := w.getLsbD 63, hvecTarget := w.setWidth 13 }) := by
      simp [State.crWrite, hu, hs]
    exact execCrw_wrote (State.crwCase_none (h s 0 rfl)) (fun u => h u v) fun u => u.finish_hvec _ _
  case pend =>
    exact bank _ (fun w b => { b with pend := w.getLsbD 0 }) (fun _ => {}) fun u w hu => by simp [State.crWrite, hu, hs]
  case pstat =>
    exact bank _ (fun w b => { b with pstat := w.setWidth 8 &&& 0xFD#8 }) (fun _ => {}) fun u w hu => by simp [State.crWrite, hu, hs]
  case lflags =>
    have h (u : State) (w : Word) (hu : u.sid = s.sid) :
        u.crWrite 0x060 w = .ok { u with link := { u.link with lflags := w.setWidth 9 } } := by
      simp [State.crWrite, hu, hs]
    exact execCrw_wrote (State.crwCase_none (h s 0 rfl)) (fun u => h u v) fun u => u.finish_lflags _
  case vflags =>
    exact bank _ (fun w b => { b with vec := { b.vec with vflags := w.setWidth 6 } }) (fun _ => {}) fun u w hu => by
      simp [State.crWrite, hu, hs]
  case ftz =>
    exact bank _ (fun w b => { b with vec := { b.vec with ftz := w.getLsbD 0 } }) (fun _ => {}) fun u w hu => by
      simp [State.crWrite, hu, hs]
  case srseed =>
    exact bank _ (fun w b => { b with vec := { b.vec with srseed := w.setWidth 16, lanes := [] } }) (fun _ => {}) fun u w hu => by
      simp [State.crWrite, hu, hs, State.seedLanes]
  case bfmt =>
    intro creg
    have hn : creg.toNat = 0x100 + n.val := by rw [BitVec.toNat_ofNat, Nat.mod_eq_of_lt (by omega)]
    have h (u : State) (w : Word) (hu : u.sid = s.sid) :
        u.crWrite creg.toNat w = if bfmtBad w then .error 13 else .ok (u.setBfmt n w) := by
      rw [hn, State.crWrite_bfmt (hu.symm ▸ hs)]
    have h0 : s.crwCase creg = none := State.crwCase_none (h s 0 rfl)
    refine ⟨fun hv => execCrw_wrote h0 (fun u hu => ?_) (fun u => u.finish_setBfmt n v), fun hv => execCrw_refused h0 fun u hu => ?_⟩
    · rw [h u _ hu, good hv]
      rfl
    · rw [h u _ hu, (bfmtBad_iff _).mpr hv]
      rfl
  case axn => exact fun hs hm => hA hs (by simpa [← BitVec.toNat_inj] using hm)
  case n => exact fun hs e => hN hs (BitVec.eq_of_toNat_eq e)
  case l => exact fun hs e => hL hs (BitVec.eq_of_toNat_eq e)
  case x => exact fun hs hm => hX hs (by simpa [← BitVec.toNat_inj] using hm)
  case keeps =>
    show Host.Outcome.next (if bfmtBad w then s else s.setBfmt n w) = _
    rw [if_pos ((bfmtBad_iff w).mpr hw)]
  case sets =>
    show Host.Outcome.next (if bfmtBad w then s else s.setBfmt n w) = _
    rw [good hw]
    rfl

end Sys2Proof.Machine
end

section
/-! PROOF. Region maps: the outcomes of a word that waits for a write-back, the change of an entry that RMAP and RUNMAP share, and the values
that RMAP refuses. -/

namespace Sys2Proof.Machine

/-- The state with another write-back in progress in the bank in hand. -/
def State.withWb (s : State) (w : Option Writeback) : State := s.setBank fun b => { b with wb := w }

theorem State.hold_withWb (s : State) (w : Option Writeback) (x : Wait) : (s.withWb w).hold x = (s.hold x).withWb w :=
  State.hold_setBank {} s x

/-! ## Waiting for a write-back (R199, R265, R267) -/

section
variable {s : State} {by_ : WbBy} {l : List (Fin 16)} {k : Nat → State → State}

/-- Nothing is written: no write-back is needed. -/
theorem State.afterWriteback_clean (hw : s.bank.wb = none) (h : ∀ e ∈ l, s.bank.map[e].written = []) :
    s.afterWriteback by_ l k = .next (k 0 s) := by
  have h' : (l.all fun e => s.bank.map[e].written.isEmpty) = true := by simpa using h
  simp only [State.afterWriteback, hw, h', if_true]

/-- Bytes are written: the write-back starts. -/
theorem State.afterWriteback_start (hw : s.bank.wb = none) (h : ∃ e ∈ l, s.bank.map[e].written ≠ []) : s.afterWriteback by_ l k =
    .next ((s.hold (.ext .access)).withWb (some { by_ := by_, left := l, sent := 0, stopped := false })) := by
  have h' : (l.all fun e => s.bank.map[e].written.isEmpty) = false := by simpa using h
  rw [← State.hold_withWb]
  simp only [State.afterWriteback, hw, h']
  rfl

/-- The write-back has ended, and an entry that is to change has no bytes written meanwhile. -/
theorem State.afterWriteback_done {w : Writeback} (hw : s.bank.wb = some w) (hb : w.by_ = by_) (hl : w.left = []) (hs : s.sentBack = true)
    (h : by_ = .rsync ∨ ∀ e ∈ l, s.bank.map[e].written = []) : s.afterWriteback by_ l k = .next (k w.sent (s.withWb none)) := by
  have ended : w.by_ = by_ ∧ w.left.isEmpty = true ∧ s.sentBack = true := ⟨hb, by rw [hl]; rfl, hs⟩
  have goOn : by_ = .rsync ∨ (l.filter fun e => !s.bank.map[e].written.isEmpty).isEmpty = true := by simpa using h
  simp only [State.afterWriteback, hw]
  rw [if_pos ended, if_pos goOn]
  rfl

/-- The write-back has ended, and bytes of the entry that is to change were written meanwhile: it starts again. -/
theorem State.afterWriteback_again {w : Writeback} {e : Fin 16} (hw : s.bank.wb = some w) (hb : w.by_ = by_) (hl : w.left = [])
    (hs : s.sentBack = true) (hr : by_ ≠ .rsync) (h : s.bank.map[e].written ≠ []) :
    s.afterWriteback by_ [e] k = .next ((s.hold (.ext .access)).withWb (some { w with left := [e] })) := by
  have ended : w.by_ = by_ ∧ w.left.isEmpty = true ∧ s.sentBack = true := ⟨hb, by rw [hl]; rfl, hs⟩
  have more : ([e].filter fun e => !s.bank.map[e].written.isEmpty) = [e] := by simpa using h
  rw [← State.hold_withWb]
  simp only [State.afterWriteback, hw, more]
  rw [if_pos ended, if_neg (by simpa using hr)]
  rfl

/-- Another write-back is in progress, or this one has not ended. -/
theorem State.afterWriteback_waits {w : Writeback} (hw : s.bank.wb = some w) (h : w.by_ ≠ by_ ∨ w.left ≠ [] ∨ s.sentBack = false) :
    s.afterWriteback by_ l k = .next (s.hold (.ext .access)) := by
  have ended : ¬ (w.by_ = by_ ∧ w.left.isEmpty = true ∧ s.sentBack = true) := by
    rw [List.isEmpty_iff]
    rintro ⟨h1, h2, h3⟩
    simp [h1, h2, h3] at h
  simp only [State.afterWriteback, hw]
  rw [if_neg ended]

end

/-! ## Changing a valid entry (R265, R266) -/

/-- What RMAP and RUNMAP do to a valid entry. -/
def State.changeEntry (s : State) (by_ : WbBy) (e : Fin 16) (k : Nat → State → State) : Result :=
  if s.mapQuiet e.val then s.afterWriteback by_ [e] k else .next (s.hold (.ext .access))

/-- The change itself: the word reads its sources and goes on. -/
def State.installEntry (srcs : List Opnd) (e : Fin 16) (m : MapEntry) (_ : Nat) (t : State) : State := ((t.after srcs).setEntry e m).finish

theorem State.installEntry_read (s : State) (srcs : List Opnd) (e : Fin 16) (m : MapEntry) (n : Nat) :
    ∃ u, s.Read u srcs ∧ State.installEntry srcs e m n s = u.setEntry e m :=
  ⟨_, s.wrote_none srcs 0 0, State.finish_setBank
    (g := fun b => { b with map := b.map.set e m, fills := b.fills.filter fun f => f.entry != e.val }) {} _⟩

theorem State.changeEntry_busy {s : State} {by_ : WbBy} {e : Fin 16} {k : Nat → State → State} (hq : s.mapQuiet e.val = false) :
    s.changeEntry by_ e k = .next (s.hold (.ext .access)) := by
  rw [State.changeEntry, hq]
  rfl

section
variable {s : State} {by_ : WbBy} {e : Fin 16} {srcs : List Opnd} {m : MapEntry} (hq : s.mapQuiet e.val = true)
include hq

theorem State.changeEntry_clean (hw : s.bank.wb = none) (h : s.bank.map[e].written = []) :
    s.changeEntry by_ e (State.installEntry srcs e m) = .next (State.installEntry srcs e m 0 s) :=
  (if_pos hq).trans (State.afterWriteback_clean hw (by simpa using h))

theorem State.changeEntry_start (hw : s.bank.wb = none) (h : s.bank.map[e].written ≠ []) :
    s.changeEntry by_ e (State.installEntry srcs e m) =
      .next ((s.hold (.ext .access)).withWb (some { by_ := by_, left := [e], sent := 0, stopped := false })) :=
  (if_pos hq).trans (State.afterWriteback_start hw (by simpa using h))

theorem State.changeEntry_waits {w : Writeback} (hw : s.bank.wb = some w) (h : w.by_ ≠ by_ ∨ w.left ≠ [] ∨ s.sentBack = false) :
    s.changeEntry by_ e (State.installEntry srcs e m) = .next (s.hold (.ext .access)) :=
  (if_pos hq).trans (State.afterWriteback_waits hw h)

/-- The write-back for the change has ended: the entry changes, unless bytes were written meanwhile. -/
theorem State.changeEntry_ended {n : Nat} {st : Bool} {o : Option (List (Nat × Nat))} (hr : by_ ≠ .rsync) (hs : s.sentBack = true)
    (hw : s.bank.wb = some { by_ := by_, left := [], sent := n, stopped := st, only := o }) :
    (s.bank.map[e].written = [] → ∃ u, (s.withWb none).Read u srcs ∧
      s.changeEntry by_ e (State.installEntry srcs e m) = .next (u.setEntry e m)) ∧
    (s.bank.map[e].written ≠ [] → s.changeEntry by_ e (State.installEntry srcs e m) =
      .next ((s.hold (.ext .access)).withWb (some { by_ := by_, left := [e], sent := n, stopped := st, only := o }))) := by
  refine ⟨fun h => ?_, fun h => (if_pos hq).trans (State.afterWriteback_again hw rfl rfl hs hr h)⟩
  obtain ⟨u, hu, hi⟩ := (s.withWb none).installEntry_read srcs e m n
  exact ⟨u, hu, hi ▸ (if_pos hq).trans (State.afterWriteback_done hw rfl rfl hs (.inr (by simpa using h)))⟩

end

theorem execRunmap_valid {s : State} {e : Fin 16} (h : s.bank.map[e].valid = true) :
    exec (.runmap e) s = s.changeEntry .runmap e (State.installEntry [] e MapEntry.zero) := if_pos h

theorem execRunmap_empty {s : State} {e : Fin 16} (h : s.bank.map[e].valid = false) : exec (.runmap e) s = .next s.finish := by
  show execRunmap e s = _
  rw [execRunmap, h]
  rfl

/-! ## The values of RMAP (R265) -/

theorem MapEntry.shares_iff (m n : MapEntry) : m.shares n = true ↔
    (m.vabase < n.vabase + n.len * 2048 ∧ n.vabase < m.vabase + m.len * 2048) ∨
      (m.spbase < n.spbase + n.len * 2048 ∧ n.spbase < m.spbase + m.len * 2048) := by
  simp [MapEntry.shares, overlaps]

/-- The entry that RMAP asks for with its sources. -/
def State.asked (s : State) (rw : Bool) (a b c : Opnd) (cls : Fin 16) : MapEntry :=
  { valid := true, vabase := (s.source [] a).toNat, spbase := (s.source [a] b).toNat, len := (s.source [a, b] c).toNat, rw := rw, cls := cls
    filled := [], written := [] }

/-- The first of its values that RMAP refuses. -/
def State.askedBad (s : State) (rw : Bool) (a b c : Opnd) (e cls : Fin 16) : Option Word :=
  s.rmapBad e (s.source [] a) (s.source [a] b) (s.source [a, b] c) (s.asked rw a b c cls)

/-- An entry other than `e` shares a VA or a scratchpad byte with `m`. -/
theorem State.anyShares_iff (s : State) (e : Fin 16) (m : MapEntry) :
    ((List.finRange 16).any fun n => n != e && s.bank.map[n].valid && s.bank.map[n].shares m) = true ↔
      ∃ k : Fin 16, k ≠ e ∧ s.bank.map[k].valid = true ∧ s.bank.map[k].shares m = true := by
  simp [and_assoc]

section
variable {s : State} {rw : Bool} {a b c : Opnd} {e cls : Fin 16} (hb : s.block [a, b, c] [] = none)
include hb

theorem execRmap_eq : exec (.rmap rw a b c e cls) s =
    match s.askedBad rw a b c e cls with
    | some v => s.trap (cILLEGAL 14) v
    | none =>
      let install := State.installEntry [a, b, c] e (s.asked rw a b c cls)
      if s.bank.map[e].valid then s.changeEntry .rmap e install else .next (install 0 s) := by
  show s.guard [a, b, c] [] _ = _
  rw [State.guard_none hb, State.askedBad, State.asked, ← State.take_fst3, ← State.take_fst2, ← State.take_fst]
  rfl

theorem execRmap_refused {v : Word} (h : s.askedBad rw a b c e cls = some v) :
    exec (.rmap rw a b c e cls) s = .next (s.takeTrap (cILLEGAL 14) (BitVec.ofNat 64 v.toNat)) := by
  rw [execRmap_eq hb, h, BitVec.ofNat_toNat, BitVec.setWidth_eq]
  rfl

section
variable (h : s.askedBad rw a b c e cls = none)
include h

theorem execRmap_valid (hv : s.bank.map[e].valid = true) :
    exec (.rmap rw a b c e cls) s = s.changeEntry .rmap e (State.installEntry [a, b, c] e (s.asked rw a b c cls)) := by
  rw [execRmap_eq hb, h]
  exact if_pos hv

theorem execRmap_empty (hv : s.bank.map[e].valid = false) :
    exec (.rmap rw a b c e cls) s = .next (State.installEntry [a, b, c] e (s.asked rw a b c cls) 0 s) := by
  rw [execRmap_eq hb, h]
  exact if_neg (Bool.eq_false_iff.mp hv)

end

end

/-! ## RSYNC (R267) -/

/-- The entries that RSYNC writes back. -/
def State.chosen (s : State) (w : Option (Fin 16)) : List (Fin 16) :=
  (match w with
    | some k => [k]
    | none => List.finRange 16).filter fun k => s.bank.map[k].valid

theorem execRsync_eq {s : State} {d : Opnd} {w : Option (Fin 16)} (hb : s.block [] [d] = none) : exec (.rsync d w) s =
    s.afterWriteback .rsync (s.chosen w) fun n t => (t.put d (BitVec.ofNat 64 n) 1).finish := by
  show s.guard [] [d] _ = _
  rw [State.guard_none hb]
  cases w <;> rfl

/-- Settles O24: RMAP and RUNMAP are `changeEntry` of a valid entry, RSYNC waits for its write-back, and the outcomes of a wait for a write-back
are the lemmas about `afterWriteback`. -/
theorem mapWords : Obligations.MapWords := by
  unfold Obligations.MapWords
  intro s rw a b c d e cls w x y z old overlap badA badB badC shared new withMap waits started again chosen noWb
  refine ⟨?rmap, fun hv => ⟨_, s.wrote_none [] 0 0, execRunmap_empty hv⟩, fun hv hq => ?busy,
    fun hv hq hw => ⟨fun h => ?clean, fun h => ?start⟩, fun n st o hv hq hs hw => ?ended, fun q hv hq hw h => ?waits, fun hb => ?rsync⟩
  case rmap =>
    intro hb i trap
    have refused {v : Word} (h : s.askedBad rw a b c e cls = some v) : trap v.toNat := execRmap_refused hb h
    have sh : ((List.finRange 16).any fun n => n != e && s.bank.map[n].valid && s.bank.map[n].shares new) = true ↔ shared := by
      simp only [State.anyShares_iff, MapEntry.shares_iff]
      rfl
    refine ⟨fun h => refused (if_pos h), fun h1 h => refused ((if_neg h1).trans (if_pos h)),
      fun h1 h2 h => refused ((if_neg h1).trans ((if_neg h2).trans (if_pos h))),
      fun h1 h2 h3 h => refused ((if_neg h1).trans ((if_neg h2).trans ((if_neg h3).trans (if_pos (sh.mpr h))))), fun h1 h2 h3 h4 => ?_⟩
    have taken : s.askedBad rw a b c e cls = none :=
      (if_neg h1).trans ((if_neg h2).trans ((if_neg h3).trans (if_neg fun h => h4 (sh.mp h))))
    have valid := execRmap_valid hb taken
    obtain ⟨u, hu, hi⟩ := s.installEntry_read [a, b, c] e new 0
    refine ⟨?_, fun hv hq => (valid hv).trans (State.changeEntry_busy hq),
      fun hv hq hw h => (valid hv).trans (State.changeEntry_start hq hw h), fun n st o hv hq hs hw => ?_,
      fun q hv hq hw h => (valid hv).trans (State.changeEntry_waits hq hw h)⟩
    · intro h
      refine ⟨u, hu, ?_⟩
      cases hv : old.valid with
      | false => exact (execRmap_empty hb taken hv).trans (congrArg _ hi)
      | true =>
        obtain ⟨hq, hw, hn⟩ := h.resolve_left (by simp [hv])
        exact (valid hv).trans ((State.changeEntry_clean hq hw hn).trans (congrArg _ hi))
    · rw [valid hv]
      exact State.changeEntry_ended hq (by decide) hs hw
  case busy => exact (execRunmap_valid hv).trans (State.changeEntry_busy hq)
  case clean =>
    obtain ⟨u, hu, hi⟩ := s.installEntry_read [] e MapEntry.zero 0
    exact ⟨u, hu, (execRunmap_valid hv).trans ((State.changeEntry_clean hq hw h).trans (congrArg _ hi))⟩
  case start => exact (execRunmap_valid hv).trans (State.changeEntry_start hq hw h)
  case ended =>
    rw [execRunmap_valid hv]
    exact State.changeEntry_ended hq (by decide) hs hw
  case waits => exact (execRunmap_valid hv).trans (State.changeEntry_waits hq hw h)
  case rsync =>
    have run := execRsync_eq (w := w) hb
    refine ⟨fun hw h => ⟨_, run.trans (State.afterWriteback_clean hw h), s.wrote_finish [] d 0 1⟩,
      fun hw h => run.trans (State.afterWriteback_start hw h),
      fun n st o hs hw => ⟨_, run.trans (State.afterWriteback_done hw rfl rfl hs (.inl rfl)), (s.withWb none).wrote_finish [] d _ 1⟩,
      fun q hw h => run.trans (State.afterWriteback_waits hw h)⟩

end Sys2Proof.Machine
end

section
/-! PROOF. Distant accesses: the faults of a translation, and what going out to a home and storing there leave as they were. -/

namespace Sys2Proof.Machine

/-! ## Faults of a translation (R203, R204) -/

theorem State.walkFrom_ne_waits (s : State) (va base : Nat) (l : List (Nat × Nat × Nat)) {c : Cause} (h : s.walkFrom va base l = .error c) :
    c ≠ cWAITS := by
  induction l generalizing base with
  | nil => cases h; decide
  | cons p t ih =>
    obtain ⟨lv, lo, bits⟩ := p
    rw [State.walkFrom] at h
    dsimp only at h
    split at h
    · cases h; decide
    · split at h
      · cases h; decide
      · split at h
        · exact ih _ h
        · cases h

theorem State.walk_ne_waits {s : State} {a va : Nat} {c : Cause} (h : s.walk a va = .error c) : c ≠ cWAITS := by
  unfold State.walk at h
  dsimp only at h
  split at h
  · cases h; decide
  · split at h
    · next h' => cases h; exact s.walkFrom_ne_waits _ _ _ h'
    · cases h

/-- A fault of a translation is none of the waits of an access. -/
theorem State.xlate_ne_waits {s : State} {a va : Nat} {rd wr : Bool} {c : Cause} (h : s.xlate a va rd wr = .error c) : c ≠ cWAITS := by
  unfold State.xlate at h
  dsimp only at h
  split at h
  · next h' =>
    cases h
    split at h'
    · split at h'
      · cases h'
      · split at h'
        · split at h'
          · cases h'
          · cases h'; decide
        · next hw => cases h'; exact State.walk_ne_waits hw
    · split at h'
      · split at h'
        · cases h'
        · cases h'; decide
      · next hw => cases h'; exact State.walk_ne_waits hw
  · split at h
    · cases h
    · cases h; decide

theorem refusalCause_ne_waits (why : Nat) : refusalCause why ≠ cWAITS := by
  unfold refusalCause
  split
  · decide
  · split
    · decide
    · split <;> decide

/-! ## Going out (R365, R366) -/

/-- Going out takes credits of a port at most. -/
theorem State.goesOutOf_ok {s t : State} {die : Nat} {p : Place} {n : Nat} (h : s.goesOutOf die p n = some t) :
    ∃ l, t = { s with ports := l } := by
  unfold State.goesOutOf State.takeCredits at h
  dsimp only at h
  split at h
  · cases h
  · split at h
    · cases h; exact ⟨_, rfl⟩
    · split at h
      · cases h; exact ⟨_, rfl⟩
      · split at h
        · cases h
        · cases h; exact ⟨_, rfl⟩

theorem State.takeCredits_sid (s : State) (k : StreamId) (die : Nat) (p : Place) (n : Nat) :
    State.takeCredits { s with sid := k } die p n = (s.takeCredits die p n).map fun t => { t with sid := k } := by
  have link (d : Nat) : State.linkAt { s with sid := k } d = s.linkAt d := rfl
  have port (die pa : Nat) : State.portFor { s with sid := k } die pa = s.portFor die pa := rfl
  simp only [State.takeCredits, link, port, State.portAt]
  split
  · rfl
  · cases s.portFor die p.pa with
    | none => rfl
    | some q =>
      dsimp only
      split
      · next hc => simp only [hc, if_true, Option.map_none]
      · next hc => simp only [hc, if_false, Option.map_some]

/-- Which stream is in hand makes no difference to going out. -/
theorem State.goesOutOf_sid (s : State) (k : StreamId) (die : Nat) (p : Place) (n : Nat) :
    State.goesOutOf { s with sid := k } die p n = (s.goesOutOf die p n).map fun t => { t with sid := k } := by
  rw [State.goesOutOf, State.goesOutOf, State.takeCredits_sid]
  dsimp only
  split <;> rfl

/-! ## Storing at home (R214, R239) -/

theorem State.partialUpdate_eq (s : State) (b : Nat) (e : DirEntry) (d : DSlot) (bytes : List Byte) (k n : Nat) :
    ∃ l o, s.partialUpdate b e d bytes k n = { s with slots := l, outs := o } := by
  unfold State.partialUpdate
  split <;> exact ⟨_, _, rfl⟩

theorem State.foldl_slots {f : State → Nat → State} (hf : ∀ s b, ∃ d o, f s b = { s with slots := d, outs := o }) (l : List Nat)
    (s : State) : ∃ d o, l.foldl f s = { s with slots := d, outs := o } := by
  induction l generalizing s with
  | nil => exact ⟨_, _, rfl⟩
  | cons b t ih =>
    obtain ⟨d, o, h⟩ := hf s b
    obtain ⟨d', o', h'⟩ := ih (f s b)
    exact ⟨d', o', h'.trans (by rw [h])⟩

/-- Updating digest slots changes them and what the Bureau is told. -/
theorem State.digestWrite_eq (s : State) (p : Place) (n nib : Nat) (whole : Bool) :
    ∃ d o, s.digestWrite p n nib whole = { s with slots := d, outs := o } := by
  refine State.foldl_slots (fun s b => ?_) _ s
  dsimp only
  split
  · split
    · exact ⟨_, _, rfl⟩
    · split <;> exact State.partialUpdate_eq ..
  · exact ⟨_, _, rfl⟩

theorem State.rekey_eq (s : State) (p : Place) : ∃ m t, s.rekey p = { s with mem := m, tags := t } := by
  unfold State.rekey
  split
  · exact ⟨_, _, rfl⟩
  · dsimp only
    split
    · split <;> exact ⟨_, _, rfl⟩
    · exact ⟨_, _, rfl⟩

theorem State.homePut_eq (s : State) (p : Place) (l : List Byte) : ∃ m t, s.homePut p l = { s with mem := m, tags := t } := by
  induction l generalizing s p with
  | nil => exact ⟨_, _, rfl⟩
  | cons b l ih =>
    obtain ⟨m, t, h⟩ := s.rekey_eq p
    obtain ⟨m', t', h'⟩ := ih { s.rekey p with mem := (s.rekey p).mem.write p.loc b } (p.add 1)
    exact ⟨m', t', by rw [State.homePut]; exact h'.trans (by rw [h])⟩

/-- A store at home changes memory, its keys, the digest slots, what the Bureau is told, and the forward table. -/
theorem State.homeWrite_eq (s : State) (p : Place) (l : List Byte) (whole : Bool) :
    ∃ m t d o f, s.homeWrite p l whole = { s with mem := m, tags := t, slots := d, outs := o, forward := f } := by
  obtain ⟨m, t, h⟩ := s.homePut_eq p l
  obtain ⟨d, o, h'⟩ := (s.homePut p l).digestWrite_eq p l.length 0 whole
  unfold State.homeWrite State.homeStore
  dsimp only
  rw [h', h]
  split <;> exact ⟨_, _, _, _, _, rfl⟩

theorem State.rekey_sid (s : State) (k : StreamId) (p : Place) : State.rekey { s with sid := k } p = { s.rekey p with sid := k } := by
  unfold State.rekey
  split
  · rfl
  · dsimp only
    split
    · split <;> rfl
    · rfl

theorem State.homePut_sid (s : State) (k : StreamId) (p : Place) (l : List Byte) :
    State.homePut { s with sid := k } p l = { s.homePut p l with sid := k } := by
  induction l generalizing s p with
  | nil => rfl
  | cons b l ih =>
    rw [State.homePut, State.homePut, State.rekey_sid]
    exact ih { s.rekey p with mem := (s.rekey p).mem.write p.loc b } (p.add 1)

@[simp] theorem State.homeWrite_bank (s : State) (p : Place) (l : List Byte) (whole : Bool) : (s.homeWrite p l whole).bank = s.bank := by
  obtain ⟨_, _, _, _, _, h⟩ := s.homeWrite_eq p l whole
  rw [h]

@[simp] theorem State.homeWrite_flight (s : State) (p : Place) (l : List Byte) (whole : Bool) : (s.homeWrite p l whole).flight = s.flight := by
  obtain ⟨_, _, _, _, _, h⟩ := s.homeWrite_eq p l whole
  rw [h]

/-- Which stream is in hand makes no difference to the bytes that a store leaves. -/
theorem State.homeWrite_mem_sid (s : State) (k : StreamId) (p : Place) (l : List Byte) (whole : Bool) :
    (State.homeWrite { s with sid := k } p l whole).mem = (s.homeWrite p l whole).mem := by
  rw [State.homeWrite_mem, State.homeWrite_mem, State.homePut_sid]

end Sys2Proof.Machine
end

section
/-! PROOF. The region map's own steps: the outcomes of a fill and of a write-back. -/

namespace Sys2Proof.Machine

/-! ## Fills (R198) -/

/-- Byte `i` of a granule at home, or in the scratchpad that the forward table names for it (R239). -/
def State.granuleByte (s : State) (p : Place) (i : Nat) : Byte :=
  match s.forward.find? fun f => p.home == 0 && f.pa == p.pa && f.slot == p.slot && f.gen == p.gen with
  | some f => s.mem.read (scratchLoc f.core f.off + i)
  | none => s.homeByte (p.add i)

theorem State.granuleRead_length (s : State) (p : Place) : (s.granuleRead p).length = 2048 := by
  unfold State.granuleRead
  split
  · exact Memory.readN_length ..
  · exact State.homeRead_length ..

theorem State.granuleRead_get (s : State) (p : Place) {i : Nat} (h : i < 2048) : (s.granuleRead p)[i]? = some (s.granuleByte p i) := by
  unfold State.granuleRead State.granuleByte
  cases s.forward.find? fun f => p.home == 0 && f.pa == p.pa && f.slot == p.slot && f.gen == p.gen with
  | some f => exact Memory.readN_get _ _ _ _ h
  | none => exact State.homeRead_get _ _ _ _ h

/-- The state in which granule `g` of entry `e` has the bytes of its home. -/
def State.filledFrom (s : State) (e : Fin 16) (g : Nat) (p : Place) : State :=
  let m := s.bank.map[e]
  let off := m.spbase + g * 2048
  let u := s.dropForward s.coreNo (upFrom off 2048)
  State.setBank { u with mem := u.mem.writeN (scratchLoc u.coreNo off) (s.granuleRead p) } fun b =>
    { b with map := b.map.set e { m with filled := Tbl.put m.filled g (p.slot, p.gen), written := m.written.filter fun x => x / 2048 != g } }

theorem State.filledFrom_read {s : State} (h : s.Inv) (e : Fin 16) (g : Nat) (p : Place) (a : Nat) :
    let here := scratchLoc s.coreNo (s.bank.map[e].spbase + g * 2048)
    (s.filledFrom e g p).mem.read a = if here ≤ a ∧ a < here + 2048 then s.granuleByte p (a - here) else s.mem.read a := by
  intro here
  have hr := Memory.read_writeN h here (s.granuleRead p) a
  rw [State.granuleRead_length] at hr
  refine hr.trans ?_
  split
  · next ha => rw [List.getD_eq_getElem?_getD, State.granuleRead_get s p (by omega), Option.getD_some]
  · rfl

/-- A granule that translates has the bytes of its home, unless its home or the scratchpad refuses them, or the read waits. -/
theorem State.fillGranule_eq {s u : State} {e : Fin 16} {g : Nat} {p : Place}
    (hx : s.xlate s.streamA.space (s.bank.map[e].vabase + g * 2048) true s.bank.map[e].rw = .ok (p, u)) : s.fillGranule e g =
      match u.refusal (s.coreNo / 96) p 2048 with
      | some why => .error (refusalCause why)
      | none =>
        if s.flawedOwn (s.bank.map[e].spbase + g * 2048) 2048 then .error (cUNCORR 0)
        else match u.goesOutOf (s.coreNo / 96) p 2048 with
          | none => .error cWAITS
          | some t => .ok (t.filledFrom e g p) := by
  obtain ⟨l, hu⟩ := State.xlate_ok hx
  have core : u.coreNo = s.coreNo := by rw [hu]
  have own (off n : Nat) : u.flawedOwn off n = s.flawedOwn off n := by rw [hu]; rfl
  simp only [State.fillGranule, hx, core, own]
  cases u.refusal (s.coreNo / 96) p 2048 with
  | some why => rfl
  | none =>
    cases s.flawedOwn (s.bank.map[e].spbase + g * 2048) 2048 with
    | true => rfl
    | false =>
      cases hg : u.goesOutOf (s.coreNo / 96) p 2048 with
      | none => rfl
      | some t =>
        obtain ⟨k, rfl⟩ := State.goesOutOf_ok hg
        subst hu
        rfl

section
variable {s : State} {e : Fin 16} {g : Nat} {f : Fill} (hf : s.bank.fills.find? (fun f => f.of e.val g && f.fault.isNone) = some f)
include hf

/-- A fill of a granule that is filled, or whose entry is gone, is dropped. -/
theorem execMapFill_drop (h : s.bank.map[e].valid = false ∨ s.bank.map[e].isFilled g = true) :
    exec (.mapFill e g) s = .next (s.dropFill e.val g) := by
  have h' : (!s.bank.map[e].valid || s.bank.map[e].isFilled g) = true := by simpa using h
  show execMapFill e g s = _
  simp only [execMapFill, hf]
  exact if_pos h'

section
variable (hv : s.bank.map[e].valid = true) (hg : s.bank.map[e].isFilled g = false)
include hv hg

/-- A fill whose granule does not translate. -/
theorem execMapFill_fault {c : Cause}
    (hx : s.xlate s.streamA.space (s.bank.map[e].vabase + g * 2048) true s.bank.map[e].rw = .error c) :
    exec (.mapFill e g) s = .next (s.failFill e g c) := by
  have h' : ¬ (!s.bank.map[e].valid || s.bank.map[e].isFilled g) = true := by simpa using And.intro hv hg
  show execMapFill e g s = _
  simp only [execMapFill, hf, hx, State.fillGranule]
  rw [if_neg h', if_neg (by decide), if_neg (State.xlate_ne_waits hx)]

section
variable {p : Place} {u : State} (hx : s.xlate s.streamA.space (s.bank.map[e].vabase + g * 2048) true s.bank.map[e].rw = .ok (p, u))
include hx

/-- A fill whose granule translates waits for what is before it, and then goes as `fillGranule` says. -/
theorem execMapFill_eq : exec (.mapFill e g) s =
    if s.fillClear f s.bank.map[e].cls.val p = false then .next s
    else match s.fillGranule e g with
      | .ok t => .next (t.dropFill e.val g)
      | .error c => if c = cWAITS then .next s else .next (s.failFill e g c) := by
  have h' : ¬ (!s.bank.map[e].valid || s.bank.map[e].isFilled g) = true := by simpa using And.intro hv hg
  show execMapFill e g s = _
  simp only [execMapFill, hf, hx]
  exact if_neg h'

theorem execMapFill_held (hc : s.fillClear f s.bank.map[e].cls.val p = false) : exec (.mapFill e g) s = .next s :=
  (execMapFill_eq hf hv hg hx).trans (if_pos hc)

section
variable (hc : s.fillClear f s.bank.map[e].cls.val p = true)
include hc

theorem execMapFill_filled {t : State} (h : s.fillGranule e g = .ok t) : exec (.mapFill e g) s = .next (t.dropFill e.val g) := by
  rw [execMapFill_eq hf hv hg hx, if_neg (ne_false_of_eq_true hc), h]

theorem execMapFill_failed {c : Cause} (h : s.fillGranule e g = .error c) (hw : c ≠ cWAITS) :
    exec (.mapFill e g) s = .next (s.failFill e g c) := by
  rw [execMapFill_eq hf hv hg hx, if_neg (ne_false_of_eq_true hc), h]
  exact if_neg hw

theorem execMapFill_waits (h : s.fillGranule e g = .error cWAITS) : exec (.mapFill e g) s = .next s := by
  rw [execMapFill_eq hf hv hg hx, if_neg (ne_false_of_eq_true hc), h]
  exact if_pos rfl

end

end

end

end

/-! ## Write-backs (R199) -/

/-- The cause and subcode of a record's INFO (R342). -/
theorem infoWord_cause (c : Cause) (agent core bank : Nat) (write : Bool) (space : Nat) :
    (infoWord c agent core bank write space).toNat % 2 ^ 16 = (c.code + 256 * c.sub) % 2 ^ 16 := by
  rw [infoWord, BitVec.toNat_ofNat]
  cases write <;> simp only [reduceIte, Bool.false_eq_true] <;> omega

/-- A write-back that stops hands over a record of its cause and its VA, and marks itself stopped. -/
theorem State.stopWriteback_eq (s : State) (w : Writeback) (c : Cause) (va : Nat) :
    ∃ r : Record, r.va = BitVec.ofNat 64 va ∧ r.who = .writeback s.coreNo s.bankNo ∧
      r.info.toNat % 2 ^ 16 = (c.code + 256 * c.sub) % 2 ^ 16 ∧
      s.stopWriteback w c va = { s.withWb (some { w with stopped := true }) with
        bureau := { s.bureau with posts := s.bureau.posts ++ [r] } } :=
  ⟨_, rfl, rfl, infoWord_cause c _ _ _ _ _, rfl⟩

/-- Bytes that the next store of a write-back takes of a run of `n` at `va`, whose place is `p`: one page's, to a peer 2,048 at most. -/
def State.runTaken (s : State) (p : Place) (va n : Nat) : Nat :=
  let left := min n (s.pageLeft va)
  if p.home = 2 then min left 2048 else left

/-- The state in which `k` bytes of entry `e` from offset `off` on count as sent. -/
def State.runSent (s : State) (w : Writeback) (e : Fin 16) (off k : Nat) : State :=
  s.setBank fun b =>
    { b with map := b.map.set e { b.map[e] with written := b.map[e].written.filter fun x => !decide (off ≤ x ∧ x < off + k) }
             wb := some { w with sent := w.sent + k } }

section
variable {s : State} {e : Fin 16} {w : Writeback} {l : List (Fin 16)} (hw : s.bank.wb = some w) (hs : w.stopped = false) (hl : w.left = e :: l)
include hw hs hl

/-- No written byte of the entry is left: the write-back goes on to the next one. -/
theorem State.writebackStep_next (h : s.bank.map[e].run w.only = none) :
    s.writebackStep e = s.withWb (if w.by_ = .hand ∧ l = [] then none else some { w with left := l }) := by
  have here : ¬ (w.stopped || w.left.head? != some e) = true := by simp [hs, hl]
  have last : w.left.length ≤ 1 ↔ l = [] := by simp [hl]
  have rest : w.left.drop 1 = l := by rw [hl, List.drop_one, List.tail_cons]
  simp only [State.writebackStep, hw, h, last, rest]
  exact if_neg here

theorem State.writebackStep_run {off n : Nat} (h : s.bank.map[e].run w.only = some (off, n)) :
    s.writebackStep e = s.sendRun w e off n false := by
  have here : ¬ (w.stopped || w.left.head? != some e) = true := by simp [hs, hl]
  simp only [State.writebackStep, hw, h]
  exact if_neg here

end

section
variable {s : State} {w : Writeback} {e : Fin 16} {off n : Nat}

/-- A run whose VA does not translate stops the write-back. -/
theorem State.sendRun_fault {c : Cause} (hx : s.streamA.xlate s.streamA.space (s.bank.map[e].vabase + off) false true = .error c) :
    s.sendRun w e off n false = s.stopWriteback w c (s.bank.map[e].vabase + off) := by
  simp only [State.sendRun, hx]

section
variable {p : Place} {u : State} (hx : s.streamA.xlate s.streamA.space (s.bank.map[e].vabase + off) false true = .ok (p, u))
  {k : Nat} (hk : k = u.runTaken p (s.bank.map[e].vabase + off) n)
include hx hk

/-- A run whose VA translates goes as its store says. -/
theorem State.sendRun_eq : s.sendRun w e off n false =
    match State.storeRun { u with sid := s.sid } w s.bank.map[e] p off k with
    | .error c => if c ≠ cWAITS then s.stopWriteback w c (s.bank.map[e].vabase + off) else s
    | .ok v => v.runSent w e off k := by
  obtain ⟨tlb, rfl⟩ := State.xlate_ok hx
  subst hk
  simp only [State.sendRun, hx]
  rfl

theorem State.sendRun_stops {c : Cause} (h : State.storeRun { u with sid := s.sid } w s.bank.map[e] p off k = .error c) (hw : c ≠ cWAITS) :
    s.sendRun w e off n false = s.stopWriteback w c (s.bank.map[e].vabase + off) := by
  rw [State.sendRun_eq hx hk, h]
  exact if_pos hw

theorem State.sendRun_waits (h : State.storeRun { u with sid := s.sid } w s.bank.map[e] p off k = .error cWAITS) :
    s.sendRun w e off n false = s := by
  rw [State.sendRun_eq hx hk, h]
  exact if_neg (by decide)

theorem State.sendRun_sends {v : State} (h : State.storeRun { u with sid := s.sid } w s.bank.map[e] p off k = .ok v) :
    s.sendRun w e off n false = v.runSent w e off k := by
  rw [State.sendRun_eq hx hk, h]

end

end

/-- Entering granules into the forward table changes it alone. -/
theorem State.noteForward_eq (s : State) (m : MapEntry) (p : Place) (off n : Nat) : ∃ f, s.noteForward m p off n = { s with forward := f } := by
  unfold State.noteForward
  split
  · exact ⟨_, rfl⟩
  · dsimp only
    split <;> exact ⟨_, rfl⟩

/-! ## The store of a run (R199, R226, R355, R365) -/

section
variable {s : State} {w : Writeback} {m : MapEntry} {p : Place} {off k : Nat}

theorem State.storeRun_flawed (h : s.flawedOwn (m.spbase + off) k = true) : s.storeRun w m p off k = .error (cUNCORR 0) := if_pos h

section
variable (hf : s.flawedOwn (m.spbase + off) k = false)
include hf

/-- An instruction's store goes into the lane of the entry's class. -/
theorem State.storeRun_lane (hw : w.by_.ofStream = true) : ∃ t, s.storeRun w m p off k = .ok t ∧ t.bank = s.bank ∧ t.mem = s.mem ∧
    ∃ x : Access, t.flight = s.flight ++ [x] ∧ x.agent = s.streamA.agent ∧ x.req = .writeback ∧ x.cls = m.cls.val ∧ x.ord = s.issued ∧
      x.todo = [{ num := 0, va := m.vabase + off, place := some p, n := k, bytes := s.latestBytes (m.spbase + off) k, nib := 0 }] :=
  ⟨_, (if_neg (Bool.eq_false_iff.mp hf)).trans (if_pos hw), rfl, rfl, _, rfl, rfl, rfl, rfl, rfl, rfl⟩

section
variable (hw : w.by_.ofStream = false)
include hw

/-- The edge engine's store fails where its home refuses it, and stops the write-back at an uncorrectable error. -/
theorem State.storeRun_refused {why : Nat} (hr : s.refusal (s.coreNo / 96) p k = some why) :
    s.storeRun w m p off k = if why = 35 then .error (cUNCORR 0) else .ok s := by
  simp only [State.storeRun, hf, hw, hr]
  rfl

theorem State.storeRun_waits (hr : s.refusal (s.coreNo / 96) p k = none) (hg : s.goesOutOf (s.coreNo / 96) p k = none) :
    s.storeRun w m p off k = .error cWAITS := by
  simp only [State.storeRun, hf, hw, hr, hg]
  rfl

/-- The edge engine's store that goes out performs at once, and may enter its granules into the forward table (R239). -/
theorem State.storeRun_home {x : State} (hr : s.refusal (s.coreNo / 96) p k = none) (hg : s.goesOutOf (s.coreNo / 96) p k = some x) :
    ∃ f, s.storeRun w m p off k = .ok { x.homeWrite p (s.latestBytes (m.spbase + off) k) true with forward := f } := by
  have run : s.storeRun w m p off k = .ok (let v := x.homeWrite p (s.latestBytes (m.spbase + off) k) true
      if w.by_ = .endTask then v.noteForward m p off k else v) := by
    simp only [State.storeRun, hf, hw, hr, hg]
    rfl
  rw [run]
  dsimp only
  split
  · obtain ⟨f, hf⟩ := State.noteForward_eq (x.homeWrite p (s.latestBytes (m.spbase + off) k) true) m p off k
    exact ⟨f, congrArg _ hf⟩
  · exact ⟨_, rfl⟩

end

end

end

/-- Settles O44: a fill goes as `fillGranule` says once nothing holds it, and a step of a write-back as `sendRun` says of the store of its
run; neither depends on the stream in hand. -/
theorem mapSteps : Obligations.MapSteps := by
  unfold Obligations.MapSteps
  intro s e g m va here dropped setWb die
  refine ⟨fun f hf => ⟨fun h => execMapFill_drop hf h, fun hv hg => ?fill⟩, fun w l hw hs hl => ⟨fun hr => ?next, fun off n hr => ?run⟩⟩
  case fill =>
    intro fails own
    refine ⟨fun c hx => execMapFill_fault hf hv hg hx, fun p u hx => ?_⟩
    have gran := State.fillGranule_eq hx
    refine ⟨execMapFill_held hf hv hg hx, fun why hc hr => ?refused, fun hc hr ho => ?flawed, fun hc hr ho hgo => ?waits,
      fun hc hr ho hgo inv => ?filled⟩
    case refused =>
      rw [hr] at gran
      exact execMapFill_failed hf hv hg hx hc gran (refusalCause_ne_waits why)
    case flawed =>
      rw [hr] at gran
      exact execMapFill_failed hf hv hg hx hc (gran.trans (if_pos ho)) (by decide)
    case waits =>
      rw [hr, hgo] at gran
      exact execMapFill_waits hf hv hg hx hc (gran.trans (if_neg (ne_true_of_eq_false ho)))
    case filled =>
      intro home
      obtain ⟨x, hx'⟩ := Option.ne_none_iff_exists'.mp hgo
      rw [hr, hx'] at gran
      refine ⟨_, execMapFill_filled hf hv hg hx hc (gran.trans (if_neg (ne_true_of_eq_false ho))), ?_⟩
      obtain ⟨ports, rfl⟩ := State.goesOutOf_ok hx'
      obtain ⟨tlb, rfl⟩ := State.xlate_ok hx
      have read := State.filledFrom_read (s := { s with tlb := tlb, ports := ports }) inv e g p
      refine ⟨rfl, rfl, fun i hi => (read (here + i)).trans ?_, fun a ha => (read a).trans (if_neg ha)⟩
      refine (if_pos ⟨Nat.le_add_right _ _, Nat.add_lt_add_left hi _⟩).trans ?_
      rw [Nat.add_sub_cancel_left]
      rfl
  case next =>
    have step := State.writebackStep_next hw hs hl hr
    exact ⟨congrArg _ step, by
      show execMemoryAccessPerform .writeback s = _
      simp only [execMemoryAccessPerform, hw, hl]
      exact congrArg _ step⟩
  case run =>
    intro a v stops
    have step : exec (.mapWriteback e) s = .next (s.sendRun w e off n false) := congrArg _ (State.writebackStep_run hw hs hl hr)
    have stopped {c : Cause} (h : s.sendRun w e off n false = s.stopWriteback w c a) : stops c := by
      obtain ⟨r, h1, h2, h3, h4⟩ := s.stopWriteback_eq w c a
      exact ⟨r, h1, h2, h3, step.trans (congrArg _ (h.trans h4))⟩
    refine ⟨fun c hx => stopped (State.sendRun_fault hx), fun p u hx => ?_⟩
    intro left k bytes sent
    obtain ⟨tlb, rfl⟩ := State.xlate_ok hx
    -- The store is made with the stream in hand that was in hand before, which none of its outcomes depends on.
    let b : State := { s with tlb := tlb }
    have sends {x : State} (h : b.storeRun w m p off k = .ok x) (hb : x.bank = s.bank) : sent (x.runSent w e off k) := by
      refine ⟨step.trans (congrArg _ (State.sendRun_sends hx rfl h)), rfl, ?_⟩
      rw [State.runSent, State.setBank_bank, hb]
    have out : State.goesOutOf { s with sid := .A, tlb := tlb } die p k = (b.goesOutOf die p k).map fun t => { t with sid := .A } :=
      b.goesOutOf_sid .A die p k
    have storeStops {c : Cause} (h : b.storeRun w m p off k = .error c) (hc : c ≠ cWAITS) : stops c := stopped (State.sendRun_stops hx rfl h hc)
    refine ⟨fun hf => storeStops (State.storeRun_flawed (s := b) hf) (by decide), fun hf => ⟨fun ho => ?lane, fun ho =>
      ⟨fun hr => storeStops ((State.storeRun_refused (s := b) hf ho hr).trans (if_pos rfl)) (by decide), fun why hr h35 => ?refused,
        fun hr hg => ?waits, fun x hr hg => ?home⟩⟩⟩
    case lane =>
      obtain ⟨t, ht, hb, hm, x, hfl, h⟩ := State.storeRun_lane (s := b) (p := p) hf ho
      exact ⟨_, sends ht hb, hm, x, hfl, h⟩
    case refused =>
      exact ⟨_, sends ((State.storeRun_refused (s := b) hf ho hr).trans (if_neg h35)) rfl, rfl, rfl⟩
    case waits =>
      have hg' : b.goesOutOf die p k = none := Option.map_eq_none_iff.mp (out.symm.trans hg)
      exact step.trans (congrArg _ (State.sendRun_waits hx rfl (State.storeRun_waits hf ho hr hg')))
    case home =>
      obtain ⟨y, hg', rfl⟩ := Option.map_eq_some_iff.mp (out.symm.trans hg)
      obtain ⟨fw, ht⟩ := State.storeRun_home (s := b) hf ho hr hg'
      obtain ⟨ports, rfl⟩ := State.goesOutOf_ok hg'
      exact ⟨_, sends ht (State.homeWrite_bank ..), State.homeWrite_flight .., (State.homeWrite_mem_sid ..).symm⟩

end Sys2Proof.Machine
end

section
/-! PROOF. SCLD and SCST: sending with a scope, the outcomes of an atomic access by those of its checks, and the two words as such accesses. -/

namespace Sys2Proof.Machine

/-! ## Sending with a scope (R227, R236) -/

/-- A word that has read `srcs`, has perhaps cached a translation, makes `dsts` wait and sends an access of some scope has sent it. -/
theorem State.sendScoped_of_after {s u : State} {srcs : List Opnd} (hu : ∃ tlb, u = { s.after srcs with tlb := tlb }) (dsts : List Opnd)
    (cls va : Nat) (req : Req) (dest : Dest) (todo : List Piece) (sc : Option (Scope × Option Nat)) (undo : List (Fin 16 × QEntry)) :
    ∃ x, s.Sent ((u.awaits dsts u.issued).send cls va req dest todo [] sc undo).finish srcs dsts x ∧ x.cls = cls ∧ x.req = req ∧
      x.dest = dest ∧ x.sc = sc ∧ x.todo = todo := by
  obtain ⟨tlb, rfl⟩ := hu
  obtain ⟨hafter, -, -, hpc, -, -⟩ := s.after_spec srcs
  obtain ⟨hwait, hst, -⟩ := (s.after srcs).awaits_spec dsts s.issued
  have quiet := hafter.trans hwait
  have ticket : State.issued { s.after srcs with tlb := tlb } = s.issued := hafter.issued
  obtain ⟨x, sent, hagent, hord, hepc, hfail, hcls, hreq, hdest, htodo, -, hsc⟩ :=
    State.send_eq { (s.after srcs).awaits dsts s.issued with tlb := tlb } cls va req dest todo [] sc undo
  rw [ticket, State.awaits_tlb, sent, quiet.flight, quiet.issued]
  exact ⟨x, s.send_sent srcs dsts x tlb (hagent.trans quiet.agent) (hord.trans quiet.issued) (hepc.trans ((congrArg Stream.pc hst).trans hpc))
    hfail, hcls, hreq, hdest, hsc, htodo⟩

/-! ## The checks of an atomic access (R259) -/

theorem State.Quiet.wheelCount {s t : State} (h : s.Quiet t) : t.bank.wheelCount = s.bank.wheelCount := by
  simpa [State.quiet] using congrArg (fun u => u.bank.wheelCount) h

/-- Where form and alignment hold, an SC access of an iteration without a position of the wheel fails by that. -/
theorem State.atomicCheck_noWheel {s : State} {f : AtomicForm} {va : Word} (hf : formCause va f.size = none) (hsc : f.sc = true)
    (hw : s.bank.wheelCount = 0) : s.atomicCheck f va = .error cNOWHEEL := by
  rw [State.atomicCheck, hf]
  exact if_pos ⟨hsc, hw⟩

section
variable {s : State} {srcs : List Opnd} {f : AtomicForm} {va : Word} (sc : Option Scope) (req : Req) (d : Option Opnd) (cls : Nat)
  (bytes : List Byte) (undo : List (Fin 16 × QEntry))

/-- The first check that fails traps. -/
theorem State.atomic_error {c : Cause} (h : (s.after srcs).atomicCheck f va = .error c) :
    s.atomic (s.after srcs) f sc req d va cls bytes undo = .next (s.takeTrap c va) := by
  simp only [State.atomic, h]
  rfl

/-- An atomic access whose home is distant goes into its lane with its scope. -/
theorem State.atomic_away {p : Place} {u : State} (h : (s.after srcs).atomicCheck f va = .ok (.away p, u)) :
    ∃ t x, s.atomic (s.after srcs) f sc req d va cls bytes undo = .next t ∧ s.Sent t srcs d.toList x ∧ x.cls = cls ∧ x.req = req ∧
      x.dest = d.elim .none .scalar ∧ x.sc = sc.map (·, none) ∧ x.todo = [scalarPiece va.toNat p f.size bytes] := by
  obtain ⟨x, hx⟩ := State.sendScoped_of_after (State.atomicCheck_ok h).1 d.toList cls va.toNat req (d.elim .none .scalar)
    [scalarPiece va.toNat p f.size bytes] (sc.map (·, none)) undo
  refine ⟨_, x, ?_, hx⟩
  simp only [State.atomic, h]
  cases d <;> rfl

end

/-! ## SCLD and SCST (R263) -/

section
variable {s : State} {sz : Size} {sgn system : Bool} {d a : Opnd} {off : BitVec 20} {cls : Fin 16} {va : Word}
  (hva : va = s.source [] a + off.signExtend 64)
include hva

theorem execScld_eq (hb : s.block [a] [d] = none) : exec (.scld sz sgn system d a off cls) s =
    s.atomic (s.after [a]) { size := sizeBytes sz, reads := true, writes := false, sc := true, host := false }
      (some (if system then .system else .device)) (.load (sizeBytes sz) sgn) (some d) va cls [] (s.popped [a]) := by
  rw [hva, ← State.take_fst]
  exact State.guard_none hb _

theorem execScst_eq (hb : s.block [a, d] [] = none) : exec (.scst sz system d a off cls) s =
    s.atomic (s.after [a, d]) { size := sizeBytes sz, reads := true, writes := true, sc := true, host := false }
      (some (if system then .system else .device)) .store none va cls (leBytes (s.source [a] d).toNat (sizeBytes sz)) (s.popped [a, d]) := by
  rw [hva, ← State.take_fst2, ← State.take_fst]
  exact State.guard_none hb _

end

/-- Settles O20: SCLD and SCST are an atomic access after their sources, and each outcome of its checks has its law. -/
theorem scWords : Obligations.ScWords := by
  unfold Obligations.ScWords
  intro s sz sgn system st d a off cls va n srcs dsts i f hb
  let dst : Option Opnd := if st then none else some d
  have run : exec i s = s.atomic (s.after srcs) f (some (if system then .system else .device)) (if st then .store else .load n sgn) dst va cls
      (if st then leBytes (s.source [a] d).toNat n else []) (s.popped srcs) := by
    cases st with
    | true => exact execScst_eq rfl hb
    | false => exact execScld_eq rfl hb
  have waits : dsts = dst.toList ∧ (if st then Dest.none else .scalar d) = dst.elim .none .scalar := by cases st <;> exact ⟨rfl, rfl⟩
  have traps {e : Cause} (h : (s.after srcs).atomicCheck f va = .error e) : exec i s = .next (s.takeTrap e va) :=
    run.trans (State.atomic_error _ _ _ _ _ _ h)
  refine ⟨fun p u h => ?away, fun e => traps, fun hva hal hw => traps ?noWheel⟩
  case away =>
    rw [run, waits.1, waits.2]
    exact State.atomic_away _ _ dst _ _ _ h
  case noWheel =>
    exact State.atomicCheck_noWheel (formCause_none (sizeBytes_pos sz) hva hal) rfl ((s.after_spec srcs).1.wheelCount.trans hw)

end Sys2Proof.Machine
end

section
/-! PROOF. Words whose result comes later: the law of one that makes its destination wait, FENCE and the words that retire as such words, and
the commands that ECANCEL counts, removes and waits for. -/

namespace Sys2Proof.Machine

/-! ## A result that comes later (R12, R227) -/

/-- The state with another count of tickets. -/
def State.withIssued (s : State) (n : Nat) : State := { s with issued := n }

theorem State.withIssued_self {s : State} {n : Nat} (h : s.issued = n) : s.withIssued n = s := h ▸ rfl

theorem State.withIssued_st (s : State) (n : Nat) : (s.withIssued n).st = s.st := s.withLanes_st _ _ n

theorem State.withIssued_finish (s : State) (n : Nat) : (s.withIssued n).finish = s.finish.withIssued n :=
  State.finish_comm (·.withIssued n) s (s.withIssued_st n) (by cases h : s.sid <;> simp [State.now, State.withIssued, h]) fun t => by
    cases h : s.sid <;> simp [State.setSt, State.withIssued, h]

/-- A word that reads `srcs`, makes `d` wait under its own ticket, and goes on. -/
theorem State.awaits_finish (s : State) (srcs : List Opnd) (d : Opnd) :
    s.Awaits (((s.after srcs).await d s.issued).withIssued (s.issued + 1)).finish srcs d := by
  obtain ⟨hafter, hs, hl, hpc, -, hpopped⟩ := s.after_spec srcs
  obtain ⟨hawait, hst, hreserved⟩ := (s.after srcs).await_spec d s.issued
  have before := hafter.trans hawait
  generalize (s.after srcs).await d s.issued = u at before hst hreserved
  obtain ⟨hfinish, hregs, -, hq, gone⟩ := u.finish_spec
  have quiet := before.trans hfinish
  have issued : s.Issued u.finish :=
    ⟨by rw [gone.last, hst, hpc], by rw [gone.bound, before.now], gone.wait, gone.next.congr (by rw [hst, hl]) before.order (by rw [hst, hpc])⟩
  rw [State.withIssued_finish]
  refine ⟨rfl, ?quiet, issued.withLanes _ _ _, ?regs, fun q => ?queues, fun a => congrArg (·.read a) quiet.mem⟩
  case quiet =>
    show s.Quiet (u.finish.withIssued s.issued)
    rw [State.withIssued_self quiet.issued]
    exact quiet
  case regs => exact by rw [State.withIssued_st, hregs, hst, hs]
  case queues =>
    show u.finish.bank.q[q] = _
    rw [hq, hreserved, hpopped, hafter.entry]

/-! ## FENCE (R229, R264) -/

/-- The stream in hand waits with a FENCE more. -/
def State.addFence (s : State) (f : Fencing) : State := s.setSt { s.st with fences := s.st.fences ++ [f] }

theorem State.addFence_finish (s : State) (f : Fencing) : (s.addFence f).finish = s.finish.addFence f := by
  simp [State.finish_eq, State.addFence, Stream.goneOn]

section
variable {s : State} {scope : Scope} {d a : Opnd} (hb : s.block [a] [d] = none)
include hb

theorem execFence_empty (hx : (s.source [] a).setWidth 16 = 0#16) :
    exec (.fence scope d a) s = .next ((s.after [a]).put d 0 1).finish := by
  rw [← State.take_fst] at hx
  exact (State.guard_none hb _).trans (if_pos hx)

theorem execFence_waits (hx : (s.source [] a).setWidth 16 ≠ 0#16) : ∃ u, s.Awaits u [a] d ∧ exec (.fence scope d a) s =
    .next (u.addFence { mask := (s.source [] a).setWidth 16, scope := scope, ord := s.issued, dst := d }) := by
  let u := (s.after [a]).await d s.issued
  let f : Fencing := { mask := (s.source [] a).setWidth 16, scope := scope, ord := s.issued, dst := d }
  have ticket : u.issued = s.issued := ((s.after_spec [a]).1.trans ((s.after [a]).await_spec d s.issued).1).issued
  have run : exec (.fence scope d a) s = .next ((u.withIssued (u.issued + 1)).addFence f).finish := by
    rw [State.addFence, State.withIssued_st]
    simp only [f, ← State.take_fst] at hx ⊢
    exact (State.guard_none hb _).trans (if_neg hx)
  exact ⟨_, s.awaits_finish [a] d, by rw [run, ticket, State.addFence_finish]⟩

end

/-! ## Words that retire (R297, R351, R352) -/

/-- A KEYKILL, GENBUMP or ECANCEL more is on its way. -/
def State.addRetire (s : State) (r : Retire) : State := { s with retires := s.retires ++ [r] }

theorem State.addRetire_finish (s : State) (r : Retire) : (s.addRetire r).finish = s.finish.addRetire r := by
  refine State.finish_comm (·.addRetire r) s ?_ ?_ fun t => ?_
  · cases h : s.sid <;> simp [State.st, State.addRetire, h]
  · cases h : s.sid <;> simp [State.now, State.addRetire, h]
  · cases h : s.sid <;> simp [State.setSt, State.addRetire, h]

/-- A word that has read `srcs` and retires makes its destination wait and is on its way. -/
theorem State.retire_awaits (s : State) (srcs : List Opnd) (d : Opnd) (what : Retiring) : ∃ u, s.Awaits u srcs d ∧
    ((s.after srcs).retire d what).finish = u.addRetire { agent := s.agent, ord := s.issued, what := what, dst := d } := by
  have quiet := (s.after_spec srcs).1
  refine ⟨_, s.awaits_finish srcs d, ?_⟩
  rw [← State.addRetire_finish, State.retire, quiet.agent, quiet.issued, ((s.after srcs).await_spec d s.issued).1.issued, quiet.issued]
  rfl

/-! ## KEYKILL and GENBUMP -/

theorem bitOf_eq_getLsbD (w : Word) (b : Nat) : bitOf w b = w.getLsbD b := by
  rw [BitVec.getLsbD, Nat.testBit_eq_decide_div_mod_eq]
  rfl

/-- What KEYKILL does with its slot: its checks, in their order, and else it retires. -/
theorem execKeykill_eq {s : State} {d a : Opnd} {x : Word} (hx : x = s.source [] a) (hb : s.block [a] [d] = none) :
    exec (.keykill d a) s =
      if x.toNat = 0 ∨ 65535 < x.toNat then .next (s.takeTrap (cILLEGAL 14) x)
      else if !(s.spaceAt s.space).priv.getLsbD 0 then .next (s.takeTrap (cPERM 3) x)
      else if !s.bureau.ready0.getLsbD 28 then .next (s.takeTrap (cPERM 2) x)
      else .next ((s.after [a]).retire d (.key x.toNat)).finish := by
  rw [hx, ← State.take_fst, ← bitOf_eq_getLsbD s.bureau.ready0]
  exact State.guard_none hb _

/-- GENBUMP checks its privilege, and else it retires. -/
theorem execGenbump_eq {s : State} {d : Opnd} (hb : s.block [] [d] = none) : exec (.genbump d) s =
    if !(s.spaceAt s.space).priv.getLsbD 1 then .next (s.takeTrap (cPERM 3) (BitVec.ofNat 64 s.space))
    else .next (s.retire d (.gen s.space)).finish := State.guard_none hb _

/-! ## ECANCEL (R297) -/

section
variable (s : State) (x : EngSel)

theorem State.named_eq (p : Cmd → Bool) : s.named x p =
    ((if x = .index then [] else s.core.copyQ) ++ (if x = .copy then [] else s.core.indexQ)).filter fun c => c.bank == s.bankNo && p c := by
  cases x <;> rfl

theorem State.cancel_eq : s.cancel x =
    let kept (l : List Cmd) := l.filter fun c => !(c.bank == s.bankNo) || c.accepted
    { s with core := { s.core with
      copyQ := if x = .index then s.core.copyQ else kept s.core.copyQ
      indexQ := if x = .copy then s.core.indexQ else kept s.core.indexQ } } := by
  cases x <;> rfl

/-- The cut leaves the accepted commands where they are. -/
theorem State.named_cancel : (s.cancel x).named x (·.accepted) = s.named x (·.accepted) := by
  have kept (l : List Cmd) : (l.filter fun c => c.bank != s.bankNo || c.accepted).filter (fun c => c.bank == s.bankNo && c.accepted) =
      l.filter fun c => c.bank == s.bankNo && c.accepted := by
    rw [List.filter_filter]
    congr 1
    funext c
    cases c.accepted <;> simp
  cases x <;> simp [State.named, State.cancel, EngSel.has, List.filter_append, kept]

end

/-- ECANCEL makes its cut, and retires where accepted commands are left. -/
theorem execEcancel_eq {s : State} {x : EngSel} {d : Opnd} {n : Nat} (hn : n = (s.named x fun c => !c.accepted).length)
    (hb : s.block [] [d] = none) : exec (.ecancel x d) s =
    if (s.named x (·.accepted)).isEmpty then .next ((s.cancel x).put d (BitVec.ofNat 64 n) 1).finish
    else .next ((s.cancel x).retire d (.cancel x n)).finish := by
  rw [hn, ← State.named_cancel]
  exact State.guard_none hb _

/-- Settles O21: FENCE is `execFence_empty` or `execFence_waits`; KEYKILL, GENBUMP and ECANCEL retire as `retire_awaits` says once their checks
hold, ECANCEL from the state of its cut. -/
theorem retiringWords : Obligations.RetiringWords := by
  unfold Obligations.RetiringWords
  intro s scope d a eng x retired priv mine copy index n kept cut
  refine ⟨fun hb hx => ⟨_, execFence_empty hb hx, s.wrote_finish [a] d 0 1⟩, fun hb hx => execFence_waits hb hx, fun hb => ?keykill,
    fun hp hb => ?genbump, fun hp hb => ?refused, fun hb => ?ecancel⟩
  case keykill =>
    have run := execKeykill_eq (x := x) rfl hb
    have slot (h1 : 1 ≤ x.toNat) (h2 : x.toNat ≤ 65535) : ¬ (x.toNat = 0 ∨ 65535 < x.toNat) := by omega
    refine ⟨fun h1 h2 hp hr => ?ready, fun h1 h2 hp hr => ?unready, fun h => run.trans (if_pos h), fun h1 h2 hp => ?unprivileged⟩
    case ready =>
      obtain ⟨u, hu, h⟩ := s.retire_awaits [a] d (.key x.toNat)
      refine ⟨u, hu, ?_⟩
      rw [run, if_neg (slot h1 h2), hp, hr]
      exact congrArg Host.Outcome.next h
    case unready =>
      rw [run, if_neg (slot h1 h2), hp, hr]
      rfl
    case unprivileged =>
      rw [run, if_neg (slot h1 h2), hp]
      rfl
  case genbump =>
    obtain ⟨u, hu, h⟩ := s.retire_awaits [] d (.gen s.space)
    refine ⟨u, hu, ?_⟩
    rw [execGenbump_eq hb, hp]
    exact congrArg Host.Outcome.next h
  case refused =>
    rw [execGenbump_eq hb, hp]
    rfl
  case ecancel =>
    have removed : s.cancel eng = cut := s.cancel_eq eng
    have count : n = (s.named eng fun c => !c.accepted).length := by rw [State.named_eq]
    have waits : (s.named eng (·.accepted)).isEmpty = !(copy ++ index).any fun c => mine c && c.accepted := by
      rw [State.named_eq, Bool.eq_iff_iff]
      simp [copy, index, mine, List.filter_eq_nil_iff]
    have run := execEcancel_eq count hb
    rw [removed, waits] at run
    refine ⟨fun h => ?done, fun h => ?accepted⟩
    case done => exact ⟨_, run.trans (by rw [h]; rfl), cut.wrote_finish [] d _ 1⟩
    case accepted =>
      obtain ⟨u, hu, hr⟩ := cut.retire_awaits [] d (.cancel eng n)
      exact ⟨u, hu, by rw [run, h]; exact congrArg Host.Outcome.next hr⟩

end Sys2Proof.Machine
end

section
/-! PROOF. Circular buffers and async barriers: each word as its checks in their order, and the bank that it leaves. -/

namespace Sys2Proof.Machine

/-- A word that reads `srcs`, changes what of its bank touches no stream, and goes on. -/
theorem State.read_setBank {g : Bank → Bank} (hg : Bank.Aside g) (s : State) (srcs : List Opnd) :
    ∃ u, s.Read u srcs ∧ ((s.after srcs).setBank g).finish = u.setBank g :=
  ⟨_, s.wrote_none srcs 0 0, State.finish_setBank hg _⟩

/-! ## Circular buffers (R269 to R271) -/

/-- What CBSET does with its values: its checks in their order, its wait for the commands pushed before it, and the buffer set. -/
theorem execCbset_eq {s : State} {n : Fin 8} {a b c : Opnd} (hb : s.block [a, b, c] [] = none) : exec (.cbset n a b c) s =
    let x := (s.source [] a).toNat
    let y := (s.source [a] b).toNat
    let z := (s.source [a, b] c).toNat
    if x % 64 ≠ 0 ∨ 2 ^ 22 ≤ x then s.trap (cILLEGAL 14) (BitVec.ofNat 64 x)
    else if y % 64 ≠ 0 ∨ y = 0 ∨ 2 ^ 22 < y then s.trap (cILLEGAL 14) (BitVec.ofNat 64 y)
    else if z = 0 ∨ 256 < z then s.trap (cILLEGAL 14) (BitVec.ofNat 64 z)
    else if 2 ^ 22 < x + y * z then s.trap (cILLEGAL 14) (BitVec.ofNat 64 (x + y * z))
    else if s.cmds.any fun k => k.buffer == some n.val && decide (k.ord < s.pushedBefore n) then
      .next (s.hold (.ext (.config n (s.pushedBefore n))))
    else .next ((s.after [a, b, c]).setBank fun k =>
      { k with cb := k.cb.set n { base := x, slot := y, count := z, taken := 0, done := 0, put := 0 } }).finish := by
  simp only [BitVec.ofNat_toNat, BitVec.setWidth_eq]
  rw [← State.take_fst3, ← State.take_fst2, ← State.take_fst]
  exact State.guard_none hb _

section
variable {s : State} {n : Fin 8}

/-- What CBWAIT does with its buffer. -/
theorem execCbwait_eq {d : Opnd} (hb : s.block [] [d] = none) : exec (.cbwait n d) s =
    let k := s.bank.cb[n]
    if k.count = 0 then s.trap (cILLEGAL 14) (BitVec.ofNat 64 n.val)
    else if k.done ≠ k.taken then .next (s.put d (BitVec.ofNat 64 (k.slotAt k.taken)) 1).finish
    else if !s.namesBuffer n.val && (s.sid == .A || s.aStuck) then s.trap (cILLEGAL 11) (BitVec.ofNat 64 (0x20 + n.val))
    else .next (s.hold (.ext (.buffer n))) := State.guard_none hb _

/-- CBREL refuses a buffer of which no slot is done. -/
theorem execCbrel_refused (h : s.bank.cb[n].count = 0 ∨ s.bank.cb[n].done = s.bank.cb[n].taken) :
    exec (.cbrel n) s = s.trap (cILLEGAL 14) (BitVec.ofNat 64 n.val) := if_pos h

/-- CBREL takes the slot at TAKEN once the stream's own writes are readable. -/
theorem execCbrel_takes (hc : s.bank.cb[n].count ≠ 0) (hd : s.bank.cb[n].done ≠ s.bank.cb[n].taken) (hr : s.ownReady ≤ s.now) :
    exec (.cbrel n) s = .next (s.setBank fun b => { b with cb := b.cb.set n { s.bank.cb[n] with
      taken := s.bank.cb[n].next s.bank.cb[n].taken, freed := s.bank.cb[n].freed + 1 } }).finish :=
  (if_neg (not_or.mpr ⟨hc, hd⟩)).trans (if_neg (Nat.not_lt.mpr hr))

/-! ## Async barriers (R272 to R275) -/

/-- What ABSET does with its value. -/
theorem execAbset_eq {a : Opnd} (hb : s.block [a] [] = none) : exec (.abset n a) s =
    let x := (s.source [] a).toNat
    if 2 ^ 40 ≤ x then s.trap (cILLEGAL 14) (BitVec.ofNat 64 x)
    else if s.cmds.any fun k => barrierOf k.instr == some n.val && decide (k.ord < s.pushedBefore n) then
      .next (s.hold (.ext (.phase n (s.pushedBefore n) (s.carriedOver n))))
    else .next ((s.after [a]).setBank fun k => { k with
      abexp := k.abexp.set n (BitVec.ofNat 40 x)
      abarr := k.abarr.set n (BitVec.ofNat 40 (min (s.carriedOver n) (2 ^ 40 - 1))) }).finish := by
  simp only [BitVec.ofNat_toNat, BitVec.setWidth_eq]
  rw [← State.take_fst]
  exact State.guard_none hb _

/-- What ABWAIT does with its barrier. -/
theorem execAbwait_eq : exec (.abwait n) s =
    if s.bank.abexp[n].toNat ≤ s.bank.abarr[n].toNat then .next s.finish
    else if !s.namesBarrier n.val && (s.sid == .A || s.aStuck) then s.trap (cILLEGAL 11) (BitVec.ofNat 64 (0x28 + n.val))
    else .next (s.hold (.ext (.barrier n))) := by
  show execAbwait n s = _
  simp only [execAbwait, Bank.arrived, decide_eq_true_eq]

end

/-- Settles O25: each word is its checks in their order, and setting, releasing and going on leave the bank that `read_setBank` gives. -/
theorem bufferWords : Obligations.BufferWords := by
  unfold Obligations.BufferWords
  intro s n a b c d x y z k trap waits before carried named toward
  refine ⟨fun hb => ?cbset, fun hc => ⟨fun hb => (execCbwait_eq hb).trans (if_pos hc), execCbrel_refused (.inl hc)⟩,
    fun hc hd => ⟨fun hb => ?slot, fun hr => ?release⟩, fun hc hd => ⟨execCbrel_refused (.inr hd), fun hb => ?empty⟩, fun hb => ?abset,
    fun h => ⟨_, s.wrote_none [] 0 0, execAbwait_eq.trans (if_pos h)⟩, fun h => ?barrier⟩
  case cbset =>
    intro i badA badB badC
    have run := execCbset_eq (n := n) hb
    refine ⟨fun h => run.trans (if_pos h), fun h1 h => run.trans ((if_neg h1).trans (if_pos h)),
      fun h1 h2 h => run.trans ((if_neg h1).trans ((if_neg h2).trans (if_pos h))),
      fun h1 h2 h3 h => run.trans ((if_neg h1).trans ((if_neg h2).trans ((if_neg h3).trans (if_pos h)))), fun h1 h2 h3 h4 => ?_⟩
    have fits := run.trans ((if_neg h1).trans ((if_neg h2).trans ((if_neg h3).trans (if_neg (Nat.not_lt.mpr h4)))))
    obtain ⟨u, hu, hset⟩ := s.read_setBank
      (g := fun k => { k with cb := k.cb.set n { base := x, slot := y, count := z, taken := 0, done := 0, put := 0 } }) {} [a, b, c]
    exact ⟨fun h => fits.trans (if_pos h), fun h => ⟨u, hu, (fits.trans (if_neg (Bool.eq_false_iff.mp h))).trans (congrArg _ hset)⟩⟩
  case slot => exact ⟨_, (execCbwait_eq hb).trans ((if_neg hc).trans (if_pos hd)), s.wrote_finish [] d _ 1⟩
  case release =>
    obtain ⟨u, hu, hset⟩ := s.read_setBank
      (g := fun b => { b with cb := b.cb.set n { k with taken := k.next k.taken, freed := k.freed + 1 } }) {} []
    exact ⟨u, hu, (execCbrel_takes hc hd hr).trans (congrArg _ hset)⟩
  case empty =>
    have noneDone := (execCbwait_eq hb).trans ((if_neg hc).trans (if_neg (not_not_intro hd)))
    exact ⟨fun h => noneDone.trans (if_neg (by simp [h])), fun h ha => noneDone.trans (if_pos (by simp [h, ha]))⟩
  case abset =>
    have run := execAbset_eq (n := n) hb
    obtain ⟨u, hu, hset⟩ := s.read_setBank (g := fun k => { k with
      abexp := k.abexp.set n (BitVec.ofNat 40 x), abarr := k.abarr.set n (BitVec.ofNat 40 (min carried (2 ^ 40 - 1))) }) {} [a]
    refine ⟨fun h => run.trans (if_pos h), fun h ht => ?_, fun h ht => ⟨u, hu, ?_⟩⟩
    · exact run.trans ((if_neg (Nat.not_le.mpr h)).trans (if_pos ht))
    · exact (run.trans ((if_neg (Nat.not_le.mpr h)).trans (if_neg (Bool.eq_false_iff.mp ht)))).trans (congrArg _ hset)
  case barrier =>
    have short := (execAbwait_eq (n := n)).trans (if_neg (Nat.not_le.mpr h))
    exact ⟨fun h => short.trans (if_neg (by simp [h])), fun h ha => short.trans (if_pos (by simp [h, ha]))⟩

end Sys2Proof.Machine
end

section
/-! PROOF. AMO and CAS: the bytes of the core's own banks as a stream's own writes leave them, before and after an atomic step; the step's new
bytes and its result as bit vectors; and a step in the own banks as an update of memory, forward table and early writes alone. -/

namespace Sys2Proof.Machine

/-! ## Bytes of the core's own banks (R59) -/

theorem upFrom_eq_range' (i n : Nat) : upFrom i n = List.range' i n := by
  induction n generalizing i with
  | zero => rfl
  | succ n ih => rw [upFrom, ih, List.range'_succ]

/-- A byte of the core's own banks as the stream's own writes leave it. -/
def State.ownByte (s : State) (o : Nat) : Byte :=
  ((s.core.early.filter fun e => e.bank == s.bankNo && e.by_ == s.sid).flatMap Early.cells).foldl
    (fun b c => if c.off = o then mergeNib c.nib b c.byte else b) (s.mem.read (scratchLoc s.coreNo o))

theorem State.ownBytes_eq (s : State) (o n : Nat) : s.ownBytes o n = (List.range' o n).map s.ownByte := by
  rw [← upFrom_eq_range']
  rfl

theorem State.ownBytes_one (s : State) (o : Nat) : s.ownBytes o 1 = [s.ownByte o] := s.ownBytes_eq o 1

theorem State.ownBytes_length (s : State) (o n : Nat) : (s.ownBytes o n).length = n := by
  rw [State.ownBytes_eq, List.length_map, List.length_range']

/-- Where no own write names a byte, it is the byte of memory. -/
theorem State.ownByte_of_untouched {s : State} {o : Nat}
    (h : ∀ e ∈ s.core.early, e.bank = s.bankNo → e.by_ = s.sid → ∀ c ∈ e.cells, c.off ≠ o) :
    s.ownByte o = s.mem.read (scratchLoc s.coreNo o) := by
  have untouched : ((s.core.early.filter fun e => e.bank == s.bankNo && e.by_ == s.sid).flatMap Early.cells).filter
      (fun c => decide (c.off = o)) = [] := by
    simpa [List.filter_eq_nil_iff] using fun c e he hb hs hc => h e he hb hs c hc
  have fold := List.foldl_filter (p := fun c : OwnCell => decide (c.off = o)) (f := fun b c => mergeNib c.nib b c.byte)
    (l := (s.core.early.filter fun e => e.bank == s.bankNo && e.by_ == s.sid).flatMap Early.cells)
    (init := s.mem.read (scratchLoc s.coreNo o))
  simp only [untouched, List.foldl_nil, decide_eq_true_eq] at fold
  exact fold.symm

/-! ## Striking early writes (R59) -/

theorem cellsAt_nib {o : Nat} {l : List Byte} {c : OwnCell} (h : c ∈ cellsAt o l) : c.nib = 0 := by
  rw [cellsAt_eq] at h
  obtain ⟨-, -, rfl⟩ := List.mem_map.mp h
  rfl

/-- Whole bytes strike what names one of them. -/
theorem OwnCell.strike_cellsAt (c : OwnCell) (o : Nat) (l : List Byte) :
    c.strike (cellsAt o l) = if o ≤ c.off ∧ c.off < o + l.length then none else some c := by
  have named : (o ≤ c.off ∧ c.off < o + l.length) ↔ c.off ∈ (cellsAt o l).map OwnCell.off := by rw [cellsAt_off, mem_upFrom]
  simp only [named]
  by_cases hm : c.off ∈ (cellsAt o l).map OwnCell.off
  · obtain ⟨d, hd, hoff⟩ := List.mem_map.mp hm
    have whole : (((cellsAt o l).filter fun d => d.off == c.off).any fun d => d.nib == 0 || d.nib == c.nib) = true :=
      List.any_eq_true.mpr ⟨d, List.mem_filter.mpr ⟨hd, beq_iff_eq.mpr hoff⟩, by rw [cellsAt_nib hd]; rfl⟩
    rw [if_pos hm, OwnCell.strike, whole]
    rfl
  · have apart : ((cellsAt o l).filter fun d => d.off == c.off) = [] :=
      List.filter_eq_nil_iff.mpr fun d hd hoff => hm (List.mem_map.mpr ⟨d, hd, beq_iff_eq.mp hoff⟩)
    rw [if_neg hm]
    simp [OwnCell.strike, apart]

/-- Behind a step on bytes no early write of its stream names them. -/
theorem strikeOwn_apart {bank : Nat} {sid : StreamId} {o : Nat} {bytes : List Byte} {l : List Early} {e : Early}
    (he : e ∈ strikeOwn bank sid (cellsAt o bytes) l) (hb : e.bank = bank) (hs : e.by_ = sid) {c : OwnCell} (hc : c ∈ e.cells) :
    ¬ (o ≤ c.off ∧ c.off < o + bytes.length) := by
  obtain ⟨e', -, rfl⟩ := List.mem_map.mp (List.mem_filter.mp he).1
  by_cases own : (e'.bank == bank && e'.by_ == sid) = true
  · simp only [own, if_true] at hc
    obtain ⟨d, -, hd⟩ := List.mem_filterMap.mp hc
    rw [OwnCell.strike_cellsAt] at hd
    split at hd
    · cases hd
    · next apart => exact Option.some.inj hd ▸ apart
  · rw [if_neg own] at hb hs
    exact absurd (by rw [hb, hs]; simp) own

/-! ## An atomic step in the own banks (R260) -/

/-- The state with another memory, forward table and early writes of the core in hand: what an atomic step in the own banks may change. -/
def State.stepped (s : State) (m : Memory) (f : List Forward) (l : List Early) : State :=
  { s with mem := m, forward := f, core := { s.core with early := l } }

theorem State.atomicOwn_keeps {s : State} {o n : Nat} {r : Req} (h : r.update (s.ownBytes o n) = none) : (s.atomicOwn o n r).2 = s := by
  simp only [State.atomicOwn, h]

theorem State.atomicOwn_writes {s : State} {o n : Nat} {r : Req} {new : List Byte} (h : r.update (s.ownBytes o n) = some new) :
    (s.atomicOwn o n r).2 = s.stepped (s.mem.writeN (scratchLoc s.coreNo o) new) (s.dropForward s.coreNo (upFrom o n)).forward
      (strikeOwn s.bankNo s.sid (cellsAt o new) s.core.early) := by
  simp only [State.atomicOwn, h]
  rfl

theorem State.atomicOwn_stepped (s : State) (o n : Nat) (r : Req) : ∃ m f l, (s.atomicOwn o n r).2 = s.stepped m f l := by
  cases h : r.update (s.ownBytes o n) with
  | none => exact ⟨s.mem, s.forward, s.core.early, State.atomicOwn_keeps h⟩
  | some new => exact ⟨_, _, _, State.atomicOwn_writes h⟩

theorem scratchLoc_add (c o k : Nat) : scratchLoc c (o + k) = scratchLoc c o + k := (Nat.add_assoc ..).symm

/-- Behind a step that writes `new`, its bytes read as `new`. -/
theorem State.ownByte_atomicOwn {s : State} {o n : Nat} {r : Req} {new : List Byte} (hm : s.mem.wf = true)
    (h : r.update (s.ownBytes o n) = some new) {k : Nat} (hk : k < new.length) : (s.atomicOwn o n r).2.ownByte (o + k) = new.getD k 0 := by
  rw [State.atomicOwn_writes h, State.ownByte_of_untouched]
  · show (s.mem.writeN (scratchLoc s.coreNo o) new).read (scratchLoc s.coreNo (o + k)) = _
    rw [scratchLoc_add, Memory.read_writeN hm, if_pos (by omega), Nat.add_sub_cancel_left]
  · intro e he hb hs c hc hoff
    exact strikeOwn_apart he hb hs hc (by omega)

/-- A step leaves every other byte of memory as it was. -/
theorem State.mem_atomicOwn {s : State} {o n : Nat} {r : Req} {new : List Byte} (hm : s.mem.wf = true)
    (h : r.update (s.ownBytes o n) = some new) {x : Nat} (hx : ¬ (scratchLoc s.coreNo o ≤ x ∧ x < scratchLoc s.coreNo o + new.length)) :
    (s.atomicOwn o n r).2.mem.read x = s.mem.read x := by
  rw [State.atomicOwn_writes h]
  exact (Memory.read_writeN hm _ _ _).trans (if_neg hx)

/-! ## The new value and the result (R261, R262) -/

/-- The new value of an AMO, as a bit vector. -/
def amoValue {w : Nat} (op : AmoOp) (old y : BitVec w) : BitVec w :=
  match op with
  | .add => old + y
  | .min => if y.slt old then y else old
  | .max => if old.slt y then y else old
  | .minu => if y.ult old then y else old
  | .maxu => if old.ult y then y else old
  | .and => old &&& y
  | .or => old ||| y
  | .xor => old ^^^ y
  | .swap => y

/-- The new value of an AMO or, where `cas`, of a CAS. -/
def atomicValue {w : Nat} (cas : Bool) (op : AmoOp) (old y z : BitVec w) : BitVec w :=
  if cas then if old = y then z else old else amoValue op old y

/-- The request of an AMO or, where `cas`, of a CAS. -/
def atomicReq (cas : Bool) (op : AmoOp) (n : Nat) (y z : Word) : Req := if cas then .cas n y z else .amo op n y

theorem signedNat_toNat {w : Nat} (h : 0 < w) (x : BitVec w) : signedNat w x.toNat = x.toInt := by
  have hw : 2 ^ w = 2 * 2 ^ (w - 1) := by rw [← Nat.pow_succ', Nat.succ_eq_add_one, Nat.sub_add_cancel h]
  rw [signedNat, Nat.mod_eq_of_lt x.isLt, BitVec.toInt_eq_toNat_cond]
  by_cases hx : x.toNat < 2 ^ (w - 1)
  · rw [if_pos hx, if_pos (by omega)]
    rfl
  · rw [if_neg hx, if_neg (by omega)]
    rfl

theorem amoNew_toNat {n : Nat} (h : 0 < n) (op : AmoOp) (old : BitVec (8 * n)) (y : Word) :
    amoNew op n old.toNat y.toNat = (amoValue op old (y.setWidth (8 * n))).toNat := by
  have signed := fun x : BitVec (8 * n) => signedNat_toNat (Nat.mul_pos (by decide) h) x
  simp only [amoNew, ← BitVec.toNat_setWidth]
  generalize y.setWidth (8 * n) = y
  cases op with
  | add => exact (BitVec.toNat_add ..).symm
  | min =>
    simp only [amoValue, signed, BitVec.slt_eq_decide]
    split <;> rfl
  | max =>
    simp only [amoValue, signed, BitVec.slt_eq_decide]
    split <;> rfl
  | minu =>
    simp only [amoValue, BitVec.ult_iff_toNat_lt]
    split <;> omega
  | maxu =>
    simp only [amoValue, BitVec.ult_iff_toNat_lt]
    split <;> omega
  | and => exact (BitVec.toNat_and ..).symm
  | or => exact (BitVec.toNat_or ..).symm
  | xor => exact (BitVec.toNat_xor ..).symm
  | swap => rfl

/-- The bytes of a bit vector, one by one. -/
theorem leBytes_toNat_get {w : Nat} (v : BitVec w) {n k : Nat} (h : k < n) :
    (leBytes v.toNat n)[k]? = some (v.extractLsb' (8 * k) 8) := by
  have shifted (x : Nat) : (leBytes x n)[k]? = some (BitVec.ofNat 8 (x >>> (8 * k))) := by
    induction n generalizing x k with
    | zero => omega
    | succ n ih =>
      cases k with
      | zero => rfl
      | succ k =>
        rw [leBytes, List.getElem?_cons_succ, ih (by omega), ← Nat.shiftRight_eq_div_pow x 8, ← Nat.shiftRight_add, Nat.mul_succ, Nat.add_comm]
  exact shifted v.toNat

/-- The low bytes of a value are those of its low bits. -/
theorem leBytes_setWidth (v : Word) (n : Nat) : leBytes (v.setWidth (8 * n)).toNat n = leBytes v.toNat n := by
  apply List.ext_getElem?
  intro k
  by_cases h : k < n
  · rw [leBytes_toNat_get _ h, leBytes_toNat_get _ h, BitVec.extractLsb'_setWidth_of_le (by omega)]
  · rw [List.getElem?_eq_none (by simp only [leBytes_length]; omega), List.getElem?_eq_none (by simp only [leBytes_length]; omega)]

section
variable {l : List Byte} {n : Nat} (hl : l.length = n) (cas : Bool) (op : AmoOp) (y z : Word)
include hl

theorem toNat_ofNat_leNat : (BitVec.ofNat (8 * n) (leNat l)).toNat = leNat l := by
  rw [BitVec.toNat_ofNat, Nat.mod_eq_of_lt (hl ▸ leNat_lt l)]

/-- An AMO stores its new value; a CAS does where the old value is the one compared. -/
theorem atomicReq_update (h : 0 < n) : let old := BitVec.ofNat (8 * n) (leNat l)
    (atomicReq cas op n y z).update l = if cas = true ∧ old ≠ y.setWidth (8 * n) then none
      else some (leBytes (atomicValue cas op old (y.setWidth (8 * n)) (z.setWidth (8 * n))).toNat n) := by
  intro old
  have hold : old.toNat = leNat l := toNat_ofNat_leNat hl
  cases cas with
  | false =>
    rw [if_neg (fun h => Bool.noConfusion h.1)]
    show some (leBytes (amoNew op n (leNat l) y.toNat) n) = some (leBytes (amoValue op old (y.setWidth (8 * n))).toNat n)
    rw [← hold, amoNew_toNat h]
  | true =>
    have compared : leNat l = y.toNat % 2 ^ (8 * n) ↔ old = y.setWidth (8 * n) := by
      rw [← BitVec.toNat_inj, hold, BitVec.toNat_setWidth]
    show (if leNat l = y.toNat % 2 ^ (8 * n) then some (leBytes z.toNat n) else none) = _
    by_cases he : old = y.setWidth (8 * n)
    · rw [if_pos (compared.mpr he), if_neg (fun h => h.2 he), atomicValue, if_pos rfl, if_pos he, leBytes_setWidth]
    · rw [if_neg (he ∘ compared.mp), if_pos ⟨rfl, he⟩]

/-- The result of an AMO or CAS is that of a load: 4 bytes are sign-extended but for an AMO that compares unsigned. -/
theorem atomicReq_result {wide : Bool} (hn : n = if wide then 8 else 4) : (atomicReq cas op n y z).result l =
    loadValue n (decide (wide = false ∧ (cas = true ∨ op ≠ .minu ∧ op ≠ .maxu))) l := by
  have hsize : 0 < n ∧ n ≤ 8 := by cases wide <;> simp [hn]
  rw [← Req.result_load hsize.1 hsize.2 hl, hn]
  cases wide with
  | true => cases cas <;> rfl
  | false =>
    cases cas with
    | true => rfl
    | false => cases op <;> rfl

end

/-- `t` is `s` behind an atomic step at `o`, by its memory and own bytes: each byte of the step is the new one, or as it was where a CAS fails,
and no other byte of memory has changed. -/
def State.StepsTo (s t : State) (o n : Nat) (cas : Bool) (op : AmoOp) (y z : Word) : Prop :=
  let old := BitVec.ofNat (8 * n) (leNat (s.ownBytes o n))
  (∀ k, k < n → t.ownBytes (o + k) 1 =
    if cas = true ∧ old ≠ y.setWidth (8 * n) then s.ownBytes (o + k) 1
    else [(atomicValue cas op old (y.setWidth (8 * n)) (z.setWidth (8 * n))).extractLsb' (8 * k) 8]) ∧
  ∀ x, ¬ (scratchLoc s.coreNo o ≤ x ∧ x < scratchLoc s.coreNo o + n) → t.mem.read x = s.mem.read x

theorem State.atomicOwn_stepsTo {s : State} (hm : s.mem.wf = true) (o : Nat) {n : Nat} (h0 : 0 < n) (cas : Bool) (op : AmoOp) (y z : Word) :
    s.StepsTo (s.atomicOwn o n (atomicReq cas op n y z)).2 o n cas op y z := by
  unfold State.StepsTo
  intro old
  have update := atomicReq_update (s.ownBytes_length o n) cas op y z h0
  by_cases hf : cas = true ∧ old ≠ y.setWidth (8 * n)
  · rw [State.atomicOwn_keeps (update.trans (if_pos hf))]
    exact ⟨fun k _ => (if_pos hf).symm, fun _ _ => rfl⟩
  · have writes := update.trans (if_neg hf)
    refine ⟨fun k hk => ?_, fun x hx => State.mem_atomicOwn hm writes (by rwa [leBytes_length])⟩
    rw [if_neg hf, State.ownBytes_one, State.ownByte_atomicOwn hm writes (by rwa [leBytes_length]), List.getD, leBytes_toNat_get _ hk]
    rfl

/-! ## What an atomic step leaves as it was -/

section
variable (s : State) (m : Memory) (f : List Forward) (l : List Early)

theorem State.stepped_st : (s.stepped m f l).st = s.st := by cases h : s.sid <;> simp [State.st, State.stepped, h]

theorem State.stepped_now : (s.stepped m f l).now = s.now := by cases h : s.sid <;> simp [State.now, State.stepped, h]

theorem State.stepped_setSt (t : Stream) : (s.setSt t).stepped m f l = (s.stepped m f l).setSt t := by
  cases h : s.sid <;> simp [State.setSt, State.stepped, h]

theorem State.stepped_quiet : (s.stepped m f l).quiet = s.quiet.stepped m f l := by
  rw [State.quiet, State.quiet, State.stepped_setSt, State.stepped_st]
  rfl

theorem State.stepped_finish : (s.stepped m f l).finish = s.finish.stepped m f l :=
  State.finish_comm (·.stepped m f l) s (s.stepped_st m f l) (s.stepped_now m f l) (s.stepped_setSt m f l)

theorem State.stepped_awaits (ds : List Opnd) (n : Nat) : (s.stepped m f l).awaits ds n = (s.awaits ds n).stepped m f l := by
  induction ds generalizing s with
  | nil => rfl
  | cons d ds ih =>
    cases d with
    | s k => exact ih s
    | q k => exact ih (s.await (.q k) n)

theorem State.stepped_send (cls va : Nat) (req : Req) (dest : Dest) (todo : List Piece) (got : List (Nat × List Byte))
    (sc : Option (Scope × Option Nat)) (undo : List (Fin 16 × QEntry)) : (s.stepped m f l).send cls va req dest todo got sc undo =
      (s.send cls va req dest todo got sc undo).stepped m f l := by
  rw [State.send, State.send, State.stepped_st]
  rfl

/-- Other memory, forward table and early writes do not make quiet states differ. -/
theorem State.Quiet.stepped {s t : State} (h : s.Quiet t) : (s.stepped m f l).Quiet (t.stepped m f l) := by
  rw [State.Quiet, State.stepped_quiet, State.stepped_quiet, h]

end

theorem State.Quiet.core {s t : State} (h : s.Quiet t) : t.core = s.core := by
  simpa [State.quiet] using congrArg State.core h

theorem State.Quiet.forward {s t : State} (h : s.Quiet t) : t.forward = s.forward := by
  simpa [State.quiet] using congrArg State.forward h

/-- With the memory, forward table and early writes of the state before, a step is undone. -/
theorem State.stepped_back {s t : State} (hm : t.mem = s.mem) (hf : t.forward = s.forward) (hc : t.core = s.core) (m : Memory)
    (f : List Forward) (l : List Early) : (t.stepped m f l).stepped s.mem s.forward s.core.early = t := by
  rw [← hm, ← hf, ← hc]
  rfl

theorem State.Quiet.ownBytes {s t : State} (h : s.Quiet t) : t.ownBytes = s.ownBytes := by
  funext o n
  rw [State.ownBytes, State.ownBytes, State.bytesAfter, State.bytesAfter, h.core, h.mem, h.coreNo, h.bankNo, h.sid]

/-- The own bytes of a state whose word has read its sources, and has perhaps cached a translation. -/
theorem State.ownBytes_of_after {s u : State} {srcs : List Opnd} (hu : ∃ tlb, u = { s.after srcs with tlb := tlb }) :
    u.ownBytes = s.ownBytes := by
  obtain ⟨tlb, rfl⟩ := hu
  exact (s.after_spec srcs).1.ownBytes

/-- A state that reads as an atomic step leaves one whose word has read its sources, and has perhaps cached a translation. -/
theorem State.stepsTo_of_after {s u t : State} {srcs : List Opnd} (hu : ∃ tlb, u = { s.after srcs with tlb := tlb }) (hm : s.mem.wf = true)
    {o n : Nat} (h0 : 0 < n) {cas : Bool} {op : AmoOp} {y z : Word}
    (ht : t.ownBytes = (u.atomicOwn o n (atomicReq cas op n y z)).2.ownBytes)
    (htm : t.mem = (u.atomicOwn o n (atomicReq cas op n y z)).2.mem) : s.StepsTo t o n cas op y z := by
  have bytes := State.ownBytes_of_after hu
  obtain ⟨tlb, hu⟩ := hu
  have quiet := (s.after_spec srcs).1
  have mem : u.mem = s.mem := by rw [hu, ← quiet.mem]
  have core : u.coreNo = s.coreNo := by rw [hu, ← quiet.coreNo]
  rw [State.StepsTo, ← bytes, ← mem, ← core, ht, htm]
  exact State.atomicOwn_stepsTo (mem ▸ hm) o h0 cas op y z

/-! ## The outcomes in the own banks (R188, R227, R260) -/

theorem State.ownDue_iff (s : State) (cls : Nat) :
    s.ownDue cls = true ↔ ∃ e ∈ s.core.early, e.bank = s.bankNo ∧ e.by_ = s.sid ∧ e.cls = cls := by
  simp [State.ownDue, and_assoc]

/-- A word that has read `srcs` and made a step in the own banks writes its result and goes on: but for the step, it is as every word
that does so. -/
theorem State.stepped_put_finish {s t : State} {srcs : List Opnd} {d : Opnd} {v : Word} {lat : Nat} {m : Memory} {f : List Forward}
    {l : List Early} (ht : t = (((s.after srcs).stepped m f l).put d v lat).finish) :
    (∀ n : Fin 32, t.reg n = if n ≠ 0 ∧ d = .s n then v else s.reg n) ∧ s.Issued t ∧ s.Quiet (t.stepped s.mem s.forward s.core.early) ∧
      ((s.after srcs).stepped m f l).Quiet t := by
  obtain ⟨hafter, hs, hl, hpc, -, -⟩ := s.after_spec srcs
  have hst := (s.after srcs).stepped_st m f l
  have hnow := (s.after srcs).stepped_now m f l
  have undone := State.stepped_back hafter.mem hafter.forward hafter.core m f l
  generalize (s.after srcs).stepped m f l = u at *
  subst ht
  obtain ⟨hput, hputl, hputpc, hreg, -, -⟩ := u.put_spec d v lat
  obtain ⟨hfinish, hregs, -, -, gone⟩ := (u.put d v lat).finish_spec
  have quiet := hput.trans hfinish
  refine ⟨fun n => ?regs, ⟨?last, ?bound, gone.wait, gone.next.congr ?loops ?order ?pc⟩, ?quiet, quiet⟩
  case regs =>
    rw [State.reg_eq, hregs, ← State.reg_eq, hreg, State.reg_eq u, hst, hs, ← State.reg_eq]
  case last => rw [gone.last, hputpc, hst, hpc]
  case bound => rw [gone.bound, hput.now, hnow, hafter.now]
  case loops => rw [hputl, hst, hl]
  case order => rw [hput.order, hst, hafter.order]
  case pc => rw [hputpc, hst, hpc]
  case quiet =>
    have step := quiet.stepped s.mem s.forward s.core.early
    rw [undone] at step
    exact hafter.trans step

/-- The access that `send` adds to the lanes has the scope that it was given. -/
theorem State.sc_of_send {u : State} {cls va : Nat} {req : Req} {dest : Dest} {todo : List Piece} {got : List (Nat × List Byte)}
    {sc : Option (Scope × Option Nat)} {undo : List (Fin 16 × QEntry)} {l : List Access} {x : Access}
    (h : (u.send cls va req dest todo got sc undo).finish.flight = l ++ [x]) : x.sc = sc := by
  obtain ⟨y, sent, -, -, -, -, -, -, -, -, -, hsc⟩ := u.send_eq cls va req dest todo got sc undo
  rw [(State.finish_spec _).1.flight, sent] at h
  obtain rfl : y = x := List.singleton_inj.mp (List.append_inj_right' h rfl)
  exact hsc

theorem State.Sent.stepped_back {s t : State} {srcs dsts : List Opnd} {x : Access} (h : s.Sent t srcs dsts x) (m : Memory) (f : List Forward)
    (l : List Early) : s.Sent ((t.stepped m f l).stepped s.mem s.forward s.core.early) srcs dsts x := by
  rw [State.stepped_back (t := t) h.quiet.mem h.quiet.forward h.quiet.core]
  exact h

section
variable {s u : State} {srcs : List Opnd} {f : AtomicForm} {va : Word} {o : Nat} (sc : Option Scope) (req : Req) (d : Opnd) (cls : Nat)
  (bytes : List Byte) (undo : List (Fin 16 × QEntry))

/-- A step in the own banks that something holds waits for it. -/
theorem State.atomic_held {r : Route} {w : Wait} (h : (s.after srcs).atomicCheck f va = .ok (r, u))
    (hr : (∃ e, r = .own o e) ∨ r = .across o) (hw : s.stepHeld cls o f.size = some w) :
    s.atomic (s.after srcs) f sc req (some d) va cls bytes undo = .next (s.hold w) := by
  obtain ⟨e, rfl⟩ | rfl := hr
  all_goals simp only [State.atomic, h, hw]

/-- A step through the self window gives its result 6 cycles later. -/
theorem State.atomic_own {e : Option (Fin 16)} (h : (s.after srcs).atomicCheck f va = .ok (.own o e, u))
    (hw : s.stepHeld cls o f.size = none) : s.atomic (s.after srcs) f sc req (some d) va cls bytes undo =
      .next ((((s.after srcs).atomicOwn o f.size req).2.put d (req.result (s.ownBytes o f.size)) 6).finish) := by
  obtain rfl : u = s.after srcs := (State.atomicCheck_ok h).2 o e rfl
  rw [← (s.after_spec srcs).1.ownBytes]
  simp only [State.atomic, h, hw]
  rfl

/-- A step through the core-n window is sent with the bytes that it has read: but for the step, it is as every access that is sent. -/
theorem State.atomic_across (h : (s.after srcs).atomicCheck f va = .ok (.across o, u)) (hw : s.stepHeld cls o f.size = none) :
    ∃ t x, s.atomic (s.after srcs) f sc req (some d) va cls bytes undo = .next t ∧
      s.Sent (t.stepped s.mem s.forward s.core.early) srcs [d] x ∧ x.cls = cls ∧ x.req = req ∧ x.dest = .scalar d ∧ x.sc = none ∧
      x.todo = [] ∧ x.got = [(0, s.ownBytes o f.size)] ∧ t.ownBytes = (u.atomicOwn o f.size req).2.ownBytes ∧
      t.mem = (u.atomicOwn o f.size req).2.mem := by
  have hu := (State.atomicCheck_ok h).1
  obtain ⟨x, sent, hcls, hreq, hdest, htodo, hgot⟩ := State.send_of_after hu [d] cls va.toNat req (.scalar d) [] [(0, s.ownBytes o f.size)] undo
  obtain ⟨m, fw, l, step⟩ := u.atomicOwn_stepped o f.size req
  have run : s.atomic (s.after srcs) f sc req (some d) va cls bytes undo =
      .next (((u.stepped m fw l).awaits [d] u.issued).send cls va.toNat req (.scalar d) [] [(0, s.ownBytes o f.size)] none undo).finish := by
    simp only [State.atomic, h, hw, step, State.ownBytes_of_after hu]
    rfl
  rw [State.stepped_awaits, State.stepped_send, State.stepped_finish] at run
  refine ⟨_, x, run, sent.stepped_back m fw l, hcls, hreq, hdest, State.sc_of_send sent.flight, htodo, hgot, ?_, by rw [step]; rfl⟩
  rw [step]
  obtain ⟨tlb, rfl⟩ := hu
  exact (sent.quiet.stepped m fw l).ownBytes.trans ((s.after_spec srcs).1.stepped m fw l).ownBytes.symm

end

/-! ## AMO and CAS -/

theorem execAmo_eq {s : State} {op : AmoOp} {wide : Bool} {sc : ScMode} {d a b : Opnd} {cls : Fin 16} (hb : s.block [a, b] [d] = none) :
    exec (.amo op wide sc d a b cls) s =
      s.atomic (s.after [a, b])
        { size := if wide then 8 else 4, reads := true, writes := true, sc := sc != .plain, host := op == .add || op == .swap } (scopeOf sc)
        (.amo op (if wide then 8 else 4) (s.source [a] b)) (some d) (s.source [] a) cls [] (s.popped [a, b]) := by
  rw [← State.take_fst2, ← State.take_fst]
  exact State.guard_none hb _

theorem execCas_eq {s : State} {wide : Bool} {sc : ScMode} {d a b c : Opnd} {cls : Fin 16} (hb : s.block [a, b, c] [d] = none) :
    exec (.cas wide sc d a b c cls) s =
      s.atomic (s.after [a, b, c]) { size := if wide then 8 else 4, reads := true, writes := true, sc := sc != .plain, host := true }
        (scopeOf sc) (.cas (if wide then 8 else 4) (s.source [a] b) (s.source [a, b] c)) (some d) (s.source [] a) cls []
        (s.popped [a, b, c]) := by
  rw [← State.take_fst3, ← State.take_fst2, ← State.take_fst]
  exact State.guard_none hb _

/-- Settles O19: AMO and CAS are an atomic access after their sources, each outcome of its checks has its law, and a step in the own banks is the
one of `atomicOwn_stepsTo`. -/
theorem atomicWords : Obligations.AtomicWords := by
  unfold Obligations.AtomicWords
  intro s op wide sc d a b c cls cas m va y z srcs i req f old new value rest step hb
  have hsize : 0 < m ∧ m ≤ 8 := by cases wide <;> decide
  have run : exec i s = s.atomic (s.after srcs) f (scopeOf sc) (atomicReq cas op m (s.source [a] b) (s.source [a, b] c)) (some d) va
      cls [] (s.popped srcs) := by
    cases cas with
    | true => exact execCas_eq hb
    | false => exact execAmo_eq hb
  refine ⟨fun o e u hinv h hw => ?own, fun o u hinv h hw => ?across, fun r u o h hr => ?held, fun p u h => ?away,
    fun e h => run.trans (State.atomic_error _ _ _ _ _ _ h)⟩
  case own =>
    obtain rfl : u = s.after srcs := (State.atomicCheck_ok h).2 o e rfl
    have result : (atomicReq cas op m (s.source [a] b) (s.source [a, b] c)).result (s.ownBytes o m) = value o := by
      rw [atomicReq_result (s.ownBytes_length o m) cas op _ _ rfl]
      simp only [loadValue, decide_eq_true_eq]
      rfl
    have issue := run.trans (State.atomic_own (f := f) _ _ d _ _ _ h hw)
    obtain ⟨mem, fw, l, hstep⟩ := (s.after srcs).atomicOwn_stepped o m (atomicReq cas op m (s.source [a] b) (s.source [a, b] c))
    rw [result, hstep] at issue
    obtain ⟨hregs, issued, quiet, behind⟩ := State.stepped_put_finish (s := s) (srcs := srcs) (d := d) (v := value o) (lat := 6) (m := mem)
      (f := fw) (l := l) rfl
    exact ⟨_, issue, hregs, issued, quiet, State.stepsTo_of_after (State.atomicCheck_ok h).1 hinv hsize.1
      (by rw [hstep, behind.ownBytes]) (by rw [hstep, behind.mem])⟩
  case across =>
    obtain ⟨t, x, issue, sent, hcls, hreq, hdest, hsc, htodo, hgot, hbytes, hmem⟩ := State.atomic_across (f := f) (scopeOf sc)
      (atomicReq cas op m (s.source [a] b) (s.source [a, b] c)) d cls [] (s.popped srcs) h hw
    exact ⟨t, x, run.trans issue, sent, hcls, hreq, hdest, hsc, htodo, hgot,
      State.stepsTo_of_after (State.atomicCheck_ok h).1 hinv hsize.1 hbytes hmem⟩
  case held =>
    intro early
    have due : s.ownDue cls = true ↔ early := s.ownDue_iff cls
    have held {w : Wait} (hw : s.stepHeld cls o m = some w) : exec i s = .next (s.hold w) :=
      run.trans (State.atomic_held (f := f) _ _ d _ _ _ h hr hw)
    refine ⟨fun hl => held (if_pos hl), fun hl he => held ?_, ?_⟩
    · rw [State.stepHeld, hl, due.mpr he]
      rfl
    · rw [← due, State.stepHeld]
      cases s.ownHeld cls true [(o, m)] <;> cases s.ownDue cls <;> simp
  case away =>
    obtain ⟨t, x, issue, sent, hcls, hreq, hdest, hsc, htodo⟩ := State.atomic_away (f := f) (scopeOf sc) req (some d) cls [] (s.popped srcs) h
    exact ⟨t, x, run.trans issue, sent, hcls, hreq, hdest, hsc.trans (by cases sc <;> rfl), htodo⟩

end Sys2Proof.Machine
end
